-- ==== Sys2Proof/Word.lean ====
section
/-! DEFINITION. The word types of the core: 8-bit data, 16-bit CPU addresses (00_scope.md R6, widths fixed by
the source), 14-bit PPU addresses and 15-bit scroll registers (10_state.md R46). -/

namespace Sys2Proof

/-- CPU data: 8 bits (00_scope.md R6). -/
abbrev Byte := BitVec 8

/-- CPU address and program counter: 16 bits (20_memory.md R100). -/
abbrev Word := BitVec 16

/-- PPU address: 14 bits (20_memory.md R125). -/
abbrev PpuAddr := BitVec 14

/-- The scroll registers v and t: 15 bits (10_state.md R46). -/
abbrev Scroll := BitVec 15

end Sys2Proof
end

