-- ==== Sys2Proof/Machine/Bits.lean ====
section
/-! DEFINITION. Byte order, sign extension and bit-field helpers (00_scope.md R7, 20_memory.md R101). -/

namespace Sys2Proof.Machine

/-- `hi:lo`, the 16-bit value hi*256 + lo (00_scope.md R7). -/
def wordOf (hi lo : Byte) : Word := hi ++ lo

/-- Bits 7-0 of a word. -/
def loByte (w : Word) : Byte := w.extractLsb' 0 8

/-- Bits 15-8 of a word. -/
def hiByte (w : Word) : Byte := w.extractLsb' 8 8

/-- `sext_8` (00_scope.md R7). -/
def sext8 (b : Byte) : Word := b.signExtend 16

/-- The address of a byte of page 0 (20_memory.md R145). -/
def zeroPage (b : Byte) : Word := wordOf 0 b

/-- The address `$0100 + S` (10_state.md R23). -/
def stackAddr (s : Byte) : Word := wordOf 1 s

/-- A flag as a bit of the given weight. -/
def flagBit (f : Bool) (weight : Byte) : Byte := if f then weight else 0

/-- `reverse8`: mirrored bit order (48_ppu_pipeline.md R470). -/
def reverse8 (b : Byte) : Byte := b.reverse

/-- Bit i of a byte as a number 0 or 1. -/
def bitNat (b : Byte) (i : Nat) : Nat := (b.getLsbD i).toNat

/-- The page (bits 15-8) of two addresses agrees (00_scope.md R14, "Page"). -/
def samePage (a b : Word) : Bool := hiByte a == hiByte b

/-- The carry out of bit 7 of `lo + i`: bit 8 of the 9-bit sum s (40_addressing_modes.md R208, R213). -/
def pageCarry (lo i : Byte) : Bool := decide (255 < lo.toNat + i.toNat)

end Sys2Proof.Machine
end

