-- ==== Sys2Proof/Config.lean ====
section
/-! DEFINITION. The parameters of 00_scope.md R6 (fixed for one machine, held in the state and changed by no step)
and the free values: constants without a body for what the opaque collaborators answer and for the output palette. -/

namespace Sys2Proof

/-- `REGION` (00_scope.md R3, R6). -/
inductive Region
  | ntsc
  | pal
  | dendy
  deriving DecidableEq, Repr

/-- `RESET_S_POLICY` (00_scope.md R6, 70_reset_and_hazards.md R561). -/
inductive ResetSPolicy
  | fixedFD
  | decrement3
  deriving DecidableEq, Repr

/-- `OAMDATA_CLEAR_READ` (00_scope.md R6, 47_ppu_registers.md R409). -/
inductive ClearRead
  | ff
  | oam
  deriving DecidableEq, Repr

/-- `MIRRORING` (00_scope.md R6, 20_memory.md R119). -/
inductive Mirroring
  | horizontal
  | vertical
  | singleLower
  | singleUpper
  | fourScreen
  deriving DecidableEq, Repr

/-- The parameters that the core itself reads. `decayDots` is `OPEN_BUS_DECAY_DOTS` (47_ppu_registers.md R412). -/
structure Config where
  region    : Region
  resetS    : ResetSPolicy
  clearRead : ClearRead
  decayDots : Nat
  deriving DecidableEq, Repr

/-- `NUM_LINES` (48_ppu_pipeline.md R441). -/
def Region.numLines : Region → Int
  | .ntsc => 262
  | .pal => 312
  | .dendy => 312

/-- `VISIBLE_LINES` (48_ppu_pipeline.md R441). -/
def Region.visibleLines : Region → Int
  | .ntsc => 240
  | .pal => 239
  | .dendy => 239

/-- `NMI_LINE` (48_ppu_pipeline.md R441). -/
def Region.nmiLine : Region → Int
  | .ntsc => 241
  | .pal => 240
  | .dendy => 290

/-- DESIGN CHOICE (log entry 8): the parameters of `State.reset`. The decay time and the S policy are the defaults
of 00_scope.md R6; the region and the clear-read value are chosen, the spec naming no default for them. -/
def Config.default : Config :=
  { region := .ntsc, resetS := .fixedFD, clearRead := .ff, decayDots := 3216312 }

/-- An output colour (10_state.md R59). The spec gives a component no width; 8 bits is the model's DESIGN CHOICE (log entry
38). -/
structure Rgb where
  r : Byte
  g : Byte
  b : Byte
  deriving DecidableEq, Repr, Inhabited

/-- One access an opaque device received, with the number of ticks it had seen (20_memory.md R115, R116). -/
inductive DeviceCall
  | read (tick : Nat) (addr : Word)
  | write (tick : Nat) (addr : Word) (d : Byte)
  deriving DecidableEq, Repr

/-- One call by which an external mapper can change (20_memory.md R117, R118): an access to CPU space from $4020 on, or a
filtered rise of A12. -/
inductive MapperCall
  | readPrg (addr : Word)
  | writePrg (addr : Word) (d : Byte)
  | clockIrq
  deriving DecidableEq, Repr

/-- Free value (log entry 9): `RGB_PALETTE`, the RGB triple of each 6-bit colour (48_ppu_pipeline.md R478). -/
opaque Config.rgbPalette : BitVec 6 → Rgb

/-- Free value (log entry 10): what the APU answers to a read, from the accesses it received, its tick count and
the address (20_memory.md R111, R115); used where the state lists no coming answer. -/
opaque Config.apuAnswer : List DeviceCall → Nat → Word → Byte

/-- Free value (log entry 10): what the controllers answer to a read (20_memory.md R113, R116). -/
opaque Config.padAnswer : List DeviceCall → Nat → Word → Byte

/-- Free value (log entry 13): what an external mapper's `read_prg` answers after the calls it received; `none` is
`undriven` (20_memory.md R118, R112). -/
opaque Config.mapperPrg : List MapperCall → Word → Option Byte

/-- Free value (log entry 13): the cell of the cartridge's pattern memory that an external mapper's `read_chr` and `write_chr`
reach at a pattern address after the calls it received, its bank switching (20_memory.md R118, R120). -/
opaque Config.mapperChrCell : List MapperCall → PpuAddr → Nat

end Sys2Proof
end

