-- ==== Sys2Proof/Machine/State.lean ====
section
/-! DEFINITION. The state of the core: every piece of state of 10_state.md, as plain data, and the power-on state
(70_reset_and_hazards.md R560). INVENTORY.md, section State, lists each field with its rule and its reset value. -/

namespace Sys2Proof.Machine

/-- A memory: its listed bytes by address. Addresses rise strictly and no listed byte equals what an unlisted
address reads as (`Memory.fill`; `Memory.wf` says so). -/
abbrev Memory := List Host.Cell

/-- What an unlisted byte of a memory reads as. DESIGN CHOICE (log entry 7): the power-on contents are parameters
(70_reset_and_hazards.md R560); this is the byte a memory holds where nothing is listed. -/
def Memory.fill : Byte := 0

/-! ### CPU -/

/-- The six stored flags of P (10_state.md R25). -/
structure Flags where
  n : Bool
  v : Bool
  d : Bool
  i : Bool
  z : Bool
  c : Bool
  deriving DecidableEq, Repr

/-- The kind of an interrupt sequence (10_state.md R34). -/
inductive IntKind
  | brk
  | irq
  | nmi
  deriving DecidableEq, Repr

/-- `cpu_mode` (10_state.md R34). -/
inductive CpuMode
  | run
  | intSeq (kind : IntKind)
  | resetSeq
  | jammed
  | refused
  deriving DecidableEq, Repr

/-- The CPU registers (10_state.md R20-R25) and the hidden sequencer state (R34). `t` is the cycle index within the
instruction or sequence; between steps it is 1. -/
structure Cpu where
  a        : Byte
  x        : Byte
  y        : Byte
  s        : Byte
  pc       : Word
  p        : Flags
  mode     : CpuMode
  t        : Nat
  opcode   : Byte
  adl      : Byte
  adh      : Byte
  base     : Byte
  data     : Byte
  carryFix : Bool
  target   : Word
  deriving DecidableEq, Repr

/-- `int_pending` (10_state.md R35). -/
inductive Pending
  | none
  | irq
  | nmi
  deriving DecidableEq, Repr

/-- The interrupt arbitrator (10_state.md R35). -/
structure Arbiter where
  nmiPrev   : Bool
  nmiLatch  : Bool
  irqSample : Bool
  pending   : Pending
  deriving DecidableEq, Repr

/-! ### PPU -/

/-- The PPU registers (10_state.md R41-R48). -/
structure PpuRegs where
  ctrl       : Byte
  mask       : Byte
  vbl        : Bool
  s0h        : Bool
  sov        : Bool
  oamAddr    : Byte
  v          : Scroll
  t          : Scroll
  xFine      : BitVec 3
  w          : Bool
  readBuffer : Byte
  deriving DecidableEq, Repr

/-- The PPU I/O open-bus latch and the eight per-bit decay counters, bit 0 first (10_state.md R54). -/
structure OpenBus where
  latch : Byte
  decay : List Nat
  deriving DecidableEq, Repr

/-- The background pipeline: pattern and attribute shifters, fetch latches (10_state.md R49, R50). -/
structure BgPipe where
  bgLo    : Word
  bgHi    : Word
  atLo    : Word
  atHi    : Word
  ntLatch : Byte
  atLatch : BitVec 2
  ptLo    : Byte
  ptHi    : Byte
  deriving DecidableEq, Repr

/-- One sprite output unit (10_state.md R55). -/
structure SpriteSlot where
  lo   : Byte
  hi   : Byte
  attr : Byte
  x    : Int
  deriving DecidableEq, Repr

/-- The eight sprite output units, `sp_count` and `sprite0_on_line` (10_state.md R55). `fetchLo` is the model's own
latch for the pattern-low byte between phases 5 and 7 of a slot's fetch (log entry 19). -/
structure Sprites where
  slots      : List SpriteSlot
  count      : Nat
  zeroOnLine : Bool
  fetchLo    : Byte
  deriving DecidableEq, Repr

/-- `ev_phase` (10_state.md R56). -/
inductive EvalPhase
  | copy
  | overflow
  | done
  deriving DecidableEq, Repr

/-- The sprite evaluator (10_state.md R56). -/
structure Evaluator where
  n        : BitVec 6
  m        : BitVec 2
  s        : Nat
  latch    : Byte
  phase    : EvalPhase
  found    : Nat
  zeroNext : Bool
  deriving DecidableEq, Repr

/-- The PPU position, the next dot to execute, and the frame state (10_state.md R57). -/
structure Position where
  line        : Int
  dot         : Nat
  oddFrame    : Bool
  vblSuppress : Bool
  s0Delayed   : Bool
  deriving DecidableEq, Repr

/-- The A12 tracker (10_state.md R58). -/
structure A12 where
  level     : Bool
  fallCycle : Nat
  deriving DecidableEq, Repr

/-- The frame buffer (10_state.md R59): the pixels written so far, by line, then by position in the line. -/
abbrev FrameBuffer := List (Nat × List (Nat × Rgb))

/-- The PPU (10_state.md R41-R59). -/
structure Ppu where
  regs    : PpuRegs
  bus     : OpenBus
  bg      : BgPipe
  spr     : Sprites
  ev      : Evaluator
  pos     : Position
  a12     : A12
  oam     : Memory
  secOam  : Memory
  palette : Memory
  fb      : FrameBuffer
  deriving DecidableEq, Repr

/-! ### Bus, DMA and external collaborators -/

/-- `dma_step` (10_state.md R62). -/
inductive DmaStep
  | halt
  | align
  | read
  | write
  deriving DecidableEq, Repr

/-- The OAM DMA controller (10_state.md R62). -/
structure Dma where
  active : Bool
  page   : Byte
  index  : Nat
  step   : DmaStep
  data   : Byte
  deriving DecidableEq, Repr

/-- A level interrupt output of an external collaborator: its level and its coming changes, each with the cycle from
which it holds (60_exceptions.md R521; log entry 11). -/
structure IrqLine where
  level   : Bool
  changes : List (Nat × Bool)
  deriving DecidableEq, Repr

/-- An opaque device behind `Read`, `Write` and `Tick` (20_memory.md R115, R116): its answers to the coming reads
(an input), the ticks it has seen and the accesses it has received, newest first (log entry 10). -/
structure Device where
  answers : List Byte
  ticks   : Nat
  log     : List DeviceCall
  deriving DecidableEq, Repr

/-- Which mapper the cartridge has: the reference mapper 0 (20_memory.md R121) or an external one behind the
interface of R118. -/
inductive MapperKind
  | nrom
  | external
  deriving DecidableEq, Repr

/-- The size of mapper 0's PRG-ROM (20_memory.md R121). -/
inductive PrgSize
  | k16
  | k32
  deriving DecidableEq, Repr

/-- The cartridge (10_state.md R72, 20_memory.md R118-R121). `clockIrqs` counts the `clock_irq()` calls it has
received; `chr` is the pattern memory, CHR-RAM or CHR-ROM by `chrIsRam` (R120); `log` lists the calls by which an external
mapper can have changed, newest first (log entries 13, 15). -/
structure Cart where
  kind      : MapperKind
  prgSize   : PrgSize
  chrIsRam  : Bool
  mirroring : Mirroring
  prg       : Memory
  chr       : Memory
  nt        : Memory
  irq       : IrqLine
  clockIrqs : Nat
  log       : List MapperCall
  deriving DecidableEq, Repr

/-- The whole machine. `cfg` holds the parameters and never changes; `resetAt` is the host's input, the cycle
boundaries at which it will assert reset, the next one first (70_reset_and_hazards.md R561; log entry 12). -/
structure State where
  cfg     : Config
  cpu     : Cpu
  arb     : Arbiter
  ppu     : Ppu
  dma     : Dma
  cart    : Cart
  apu     : Device
  apuIrq  : IrqLine
  pads    : Device
  ram     : Memory
  cpuBus  : Byte
  cycle   : Nat
  resetAt : List Nat
  deriving DecidableEq, Repr

/-- No behaviour of the core is a fault: "The core never aborts on guest misbehavior" (60_exceptions.md R529;
93_implementation_defined.md, Part 1). The type is closed and has no constructor, so no step can raise one. -/
inductive Fault : Type
  deriving DecidableEq, Repr

/-- Why the machine has no next state. -/
inductive Refusal
  /-- Raised by `exec` for an instruction without a meaning. No arm of `exec` raises it in this model. Safe. -/
  | notModelled (mnemonic : String)
  /-- Raised by `step` in mode `refused`, which the opcode fetch of one of the eight unstable opcodes enters: "the model
  takes no further step" (46_undocumented.md R370). Safe: nothing is claimed of what follows it. -/
  | unstableOpcode (opcode : Byte)
  /-- Raised by `step` if the decode table had no entry for an opcode byte; it has one for each of the 256
  (30_encoding.md R157), so no step raises it. Safe. -/
  | undecodable
  deriving DecidableEq, Repr

/-! ### Power-on -/

/-- The parameters of power-on: `POWERON_CPU`, `POWERON_RAM`, `POWERON_OAM`, `POWERON_PALETTE`, the cartridge with
`POWERON_VRAM`, and the inputs of the opaque devices and of the host (00_scope.md R6, 70_reset_and_hazards.md R560,
R591). -/
structure PowerOn where
  a       : Byte
  x       : Byte
  y       : Byte
  n       : Bool
  v       : Bool
  d       : Bool
  z       : Bool
  c       : Bool
  ram     : Memory
  oam     : Memory
  secOam  : Memory
  palette : Memory
  fb      : FrameBuffer
  cart    : Cart
  apu     : Device
  apuIrq  : IrqLine
  pads    : Device
  resetAt : List Nat
  deriving DecidableEq, Repr

/-- A low interrupt output that never changes. -/
def IrqLine.low : IrqLine := { level := false, changes := [] }

/-- A device that has seen nothing and has no listed answer. -/
def Device.fresh : Device := { answers := [], ticks := 0, log := [] }

/-- DESIGN CHOICE (log entries 7, 8): the cartridge of `State.reset`, mapper 0 with 32 KiB of PRG-ROM and 8 KiB of
CHR-RAM, horizontal mirroring, nothing listed in any of its memories. -/
def Cart.blank : Cart :=
  { kind := .nrom, prgSize := .k32, chrIsRam := true, mirroring := .horizontal, prg := [], chr := [], nt := [],
    irq := .low, clockIrqs := 0, log := [] }

/-- DESIGN CHOICE (log entries 4, 7, 8): the parameter values of `State.reset`; the registers and flags are those
95_test_vectors.md takes for its programs (all zero). -/
def PowerOn.default : PowerOn :=
  { a := 0, x := 0, y := 0, n := false, v := false, d := false, z := false, c := false, ram := [], oam := [],
    secOam := [], palette := [], fb := [], cart := .blank, apu := .fresh, apuIrq := .low, pads := .fresh,
    resetAt := [] }

/-- The PPU registers at power-on and at reset (70_reset_and_hazards.md R562). -/
def PpuRegs.reset : PpuRegs :=
  { ctrl := 0, mask := 0, vbl := false, s0h := false, sov := false, oamAddr := 0, v := 0, t := 0, xFine := 0,
    w := false, readBuffer := 0 }

/-- The open-bus latch at power-on and at reset (70_reset_and_hazards.md R562). -/
def OpenBus.reset : OpenBus := { latch := 0, decay := [0, 0, 0, 0, 0, 0, 0, 0] }

/-- The background pipeline at power-on and at reset (70_reset_and_hazards.md R562). -/
def BgPipe.reset : BgPipe :=
  { bgLo := 0, bgHi := 0, atLo := 0, atHi := 0, ntLatch := 0, atLatch := 0, ptLo := 0, ptHi := 0 }

/-- A sprite output unit with all its state 0 (10_state.md R55). -/
def SpriteSlot.zero : SpriteSlot := { lo := 0, hi := 0, attr := 0, x := 0 }

/-- The sprite output units at power-on and at reset (70_reset_and_hazards.md R562). -/
def Sprites.reset : Sprites :=
  { slots := [.zero, .zero, .zero, .zero, .zero, .zero, .zero, .zero], count := 0, zeroOnLine := false, fetchLo := 0 }

/-- The evaluator at power-on and at reset (70_reset_and_hazards.md R562). -/
def Evaluator.reset : Evaluator := { n := 0, m := 0, s := 0, latch := 0, phase := .done, found := 0, zeroNext := false }

/-- The position at power-on and at reset (70_reset_and_hazards.md R562). -/
def Position.reset : Position := { line := -1, dot := 0, oddFrame := false, vblSuppress := false, s0Delayed := false }

/-- The CPU at power-on, before its reset sequence: S = $00, PC = $0000 (10_state.md R32), mode `resetSeq`, t = 1
(70_reset_and_hazards.md R560). The latches and the opcode are unspecified and unread (10_state.md R34): log entry 6;
I before the sequence sets it: log entry 5. -/
def Cpu.powerOn (p : PowerOn) : Cpu :=
  { a := p.a, x := p.x, y := p.y, s := 0, pc := 0,
    p := { n := p.n, v := p.v, d := p.d, i := true, z := p.z, c := p.c },
    mode := .resetSeq, t := 1, opcode := 0, adl := 0, adh := 0, base := 0, data := 0, carryFix := false, target := 0 }

/-- The state at power-on (70_reset_and_hazards.md R560, 10_state.md R80), before cycle 0. -/
def State.powerOn (cfg : Config) (p : PowerOn) : State :=
  { cfg := cfg
    cpu := .powerOn p
    arb := { nmiPrev := false, nmiLatch := false, irqSample := false, pending := .none }
    ppu :=
      { regs := .reset, bus := .reset, bg := .reset, spr := .reset, ev := .reset, pos := .reset,
        a12 := { level := false, fallCycle := 0 }, oam := p.oam, secOam := p.secOam, palette := p.palette, fb := p.fb }
    dma := { active := false, page := 0, index := 0, step := .halt, data := 0 }
    cart := p.cart
    apu := p.apu
    apuIrq := p.apuIrq
    pads := p.pads
    ram := p.ram
    cpuBus := 0
    cycle := 0
    resetAt := p.resetAt }

/-- The machine right after the host powers it on: the state of 70_reset_and_hazards.md R560 for the parameter values
named in log entries 4 to 8. Its first step runs the 7-cycle reset sequence (R561), which loads PC from $FFFC. -/
def State.reset : State := .powerOn .default .default

end Sys2Proof.Machine
end

