-- ==== Sys2Proof/Machine/Memory.lean ====
section
/-! DEFINITION. Sparse memories in canonical form: look up, erase and insert by key, and byte reads and writes. Used for
internal RAM, OAM, secondary OAM, palette RAM, nametables, pattern memory and PRG-ROM (10_state.md R51-R53, R71, R72)
and for the frame buffer (R59). -/

namespace Sys2Proof.Machine

/-- The value listed at a key. -/
def lookupKey {α : Type} : List (Nat × α) → Nat → Option α
  | [], _ => none
  | (k, v) :: rest, a => if k = a then some v else lookupKey rest a

/-- The list without the key. -/
def eraseKey {α : Type} : List (Nat × α) → Nat → List (Nat × α)
  | [], _ => []
  | (k, v) :: rest, a => if k = a then eraseKey rest a else (k, v) :: eraseKey rest a

/-- The list with the key inserted before the first greater key. -/
def insertKey {α : Type} : List (Nat × α) → Nat → α → List (Nat × α)
  | [], a, v => [(a, v)]
  | (k, w) :: rest, a, v => if a < k then (a, v) :: (k, w) :: rest else (k, w) :: insertKey rest a v

/-- Set the value listed at a key. -/
def putKey {α : Type} (m : List (Nat × α)) (a : Nat) (v : α) : List (Nat × α) := insertKey (eraseKey m a) a v

/-- The pixel `fb[y][x]`, if it has been written (10_state.md R59). -/
def pixelAt (fb : FrameBuffer) (y x : Nat) : Option Rgb := (lookupKey fb y).bind fun line => lookupKey line x

/-- The frame buffer after pixel x of line y is written. -/
def putPixel (fb : FrameBuffer) (y x : Nat) (colour : Rgb) : FrameBuffer :=
  putKey fb y (putKey ((lookupKey fb y).getD []) x colour)

/-- The keys rise strictly. -/
def sorted {α : Type} : List (Nat × α) → Bool
  | [] => true
  | [_] => true
  | (k, _) :: (k', v') :: rest => decide (k < k') && sorted ((k', v') :: rest)

/-- The byte at an address. -/
def Memory.read (m : Memory) (a : Nat) : Byte := (lookupKey m a).getD Memory.fill

/-- The memory after a byte is stored; storing what an unlisted byte reads as removes the entry. -/
def Memory.write (m : Memory) (a : Nat) (d : Byte) : Memory :=
  if d = Memory.fill then eraseKey m a else putKey m a d

/-- The canonical form: addresses rise strictly, and no listed byte equals what an unlisted address reads as. -/
def Memory.wf (m : Memory) : Bool := sorted m && m.all fun cell => cell.2 != Memory.fill

/-- The listed addresses lie below the memory's size. -/
def Memory.within (m : Memory) (size : Nat) : Bool := m.all fun cell => decide (cell.1 < size)

end Sys2Proof.Machine
end

