-- ==== Sys2Proof/Machine/Flags.lean ====
section
/-! DEFINITION. The status register as a byte (10_state.md R31), every flag computation (42_arithmetic_logic.md R260,
R266, 43_shift_rotate.md R290-R293, 46_undocumented.md R349-R355) and the operation of each instruction on the CPU
registers, `Alu`: what it does with its operand M, apart from its bus cycles. -/

namespace Sys2Proof.Machine

/-! ### P as a byte (10_state.md R31) -/

/-- `P_byte(b)` = N V 1 b D I Z C (10_state.md R31). -/
def Flags.toByte (b : Bool) (p : Flags) : Byte :=
  flagBit p.n 0x80#8 ||| flagBit p.v 0x40#8 ||| 0x20#8 ||| flagBit b 0x10#8 ||| flagBit p.d 0x08#8
    ||| flagBit p.i 0x04#8 ||| flagBit p.z 0x02#8 ||| flagBit p.c 0x01#8

/-- The flags a pulled byte loads; bits 5 and 4 are ignored (10_state.md R31). -/
def Flags.ofByte (v : Byte) : Flags :=
  { n := v.getLsbD 7, v := v.getLsbD 6, d := v.getLsbD 3, i := v.getLsbD 2, z := v.getLsbD 1, c := v.getLsbD 0 }

/-- `setZN(r)` (00_scope.md R10, 10_state.md R27). -/
def Flags.setZN (r : Byte) (p : Flags) : Flags := { p with z := r == 0, n := r.msb }

/-! ### Arithmetic and shift primitives -/

/-- The result of `Add8(a, b, c)` (42_arithmetic_logic.md R260). -/
def addResult (a b : Byte) (c : Bool) : Byte := a + b + flagBit c 1

/-- The carry of `Add8`: the exact sum exceeds 255 (42_arithmetic_logic.md R260). -/
def addCarry (a b : Byte) (c : Bool) : Bool := decide (255 < a.toNat + b.toNat + c.toNat)

/-- The overflow of `Add8` (42_arithmetic_logic.md R260). -/
def addOverflow (a b : Byte) (c : Bool) : Bool :=
  ((a ^^^ addResult a b c) &&& (b ^^^ addResult a b c)).msb

/-- The flags `Add8` sets (42_arithmetic_logic.md R260). -/
def Flags.add (a b : Byte) (p : Flags) : Flags :=
  { p.setZN (addResult a b p.c) with c := addCarry a b p.c, v := addOverflow a b p.c }

/-- `Compare(r, m)` (42_arithmetic_logic.md R266). -/
def Flags.compare (r m : Byte) (p : Flags) : Flags := { p.setZN (r - m) with c := decide (m.toNat ≤ r.toNat) }

/-- ASL (43_shift_rotate.md R290): result and carry out. -/
def shiftLeft (m : Byte) : Byte := m <<< 1
def carryLeft (m : Byte) : Bool := m.getLsbD 7

/-- LSR (43_shift_rotate.md R291): result and carry out. -/
def shiftRight (m : Byte) : Byte := m >>> 1
def carryRight (m : Byte) : Bool := m.getLsbD 0

/-- ROL (43_shift_rotate.md R292): bit 0 takes the old carry. -/
def rotateLeft (c : Bool) (m : Byte) : Byte := (m <<< 1) ||| flagBit c 1

/-- ROR (43_shift_rotate.md R293): bit 7 takes the old carry. -/
def rotateRight (c : Bool) (m : Byte) : Byte := flagBit c 0x80#8 ||| (m >>> 1)

/-- Flags of a shift or rotate: C from the bit shifted out, Z and N from the result. -/
def Flags.shifted (r : Byte) (out : Bool) (p : Flags) : Flags := { p.setZN r with c := out }

/-! ### The operation of each instruction -/

namespace Alu

/-- LDA (41_load_store_transfer.md R240). -/
def lda (m : Byte) (c : Cpu) : Cpu := { c with a := m, p := c.p.setZN m }

/-- LDX (41_load_store_transfer.md R241). -/
def ldx (m : Byte) (c : Cpu) : Cpu := { c with x := m, p := c.p.setZN m }

/-- LDY (41_load_store_transfer.md R242). -/
def ldy (m : Byte) (c : Cpu) : Cpu := { c with y := m, p := c.p.setZN m }

/-- TAX (41_load_store_transfer.md R246). -/
def tax (c : Cpu) : Cpu := { c with x := c.a, p := c.p.setZN c.a }

/-- TAY (41_load_store_transfer.md R247). -/
def tay (c : Cpu) : Cpu := { c with y := c.a, p := c.p.setZN c.a }

/-- TXA (41_load_store_transfer.md R248). -/
def txa (c : Cpu) : Cpu := { c with a := c.x, p := c.p.setZN c.x }

/-- TYA (41_load_store_transfer.md R249). -/
def tya (c : Cpu) : Cpu := { c with a := c.y, p := c.p.setZN c.y }

/-- TSX (41_load_store_transfer.md R250). -/
def tsx (c : Cpu) : Cpu := { c with x := c.s, p := c.p.setZN c.s }

/-- TXS (41_load_store_transfer.md R251): no flag changes. -/
def txs (c : Cpu) : Cpu := { c with s := c.x }

/-- `A <- Add8(A, b, C)` (42_arithmetic_logic.md R260). -/
def addTo (b : Byte) (c : Cpu) : Cpu := { c with a := addResult c.a b c.p.c, p := c.p.add c.a b }

/-- ADC (42_arithmetic_logic.md R261). -/
def adc (m : Byte) (c : Cpu) : Cpu := addTo m c

/-- SBC and USBC (42_arithmetic_logic.md R262, 46_undocumented.md R356). -/
def sbc (m : Byte) (c : Cpu) : Cpu := addTo (m ^^^ 0xFF#8) c

/-- AND (42_arithmetic_logic.md R263). -/
def and (m : Byte) (c : Cpu) : Cpu := { c with a := c.a &&& m, p := c.p.setZN (c.a &&& m) }

/-- ORA (42_arithmetic_logic.md R264). -/
def ora (m : Byte) (c : Cpu) : Cpu := { c with a := c.a ||| m, p := c.p.setZN (c.a ||| m) }

/-- EOR (42_arithmetic_logic.md R265). -/
def eor (m : Byte) (c : Cpu) : Cpu := { c with a := c.a ^^^ m, p := c.p.setZN (c.a ^^^ m) }

/-- CMP (42_arithmetic_logic.md R267). -/
def cmp (m : Byte) (c : Cpu) : Cpu := { c with p := c.p.compare c.a m }

/-- CPX (42_arithmetic_logic.md R268). -/
def cpx (m : Byte) (c : Cpu) : Cpu := { c with p := c.p.compare c.x m }

/-- CPY (42_arithmetic_logic.md R269). -/
def cpy (m : Byte) (c : Cpu) : Cpu := { c with p := c.p.compare c.y m }

/-- BIT (42_arithmetic_logic.md R270). -/
def bit (m : Byte) (c : Cpu) : Cpu :=
  { c with p := { c.p with z := c.a &&& m == 0, v := m.getLsbD 6, n := m.getLsbD 7 } }

/-- INX (42_arithmetic_logic.md R273). -/
def inx (c : Cpu) : Cpu := { c with x := c.x + 1, p := c.p.setZN (c.x + 1) }

/-- INY (42_arithmetic_logic.md R274). -/
def iny (c : Cpu) : Cpu := { c with y := c.y + 1, p := c.p.setZN (c.y + 1) }

/-- DEX (42_arithmetic_logic.md R275). -/
def dex (c : Cpu) : Cpu := { c with x := c.x - 1, p := c.p.setZN (c.x - 1) }

/-- DEY (42_arithmetic_logic.md R276). -/
def dey (c : Cpu) : Cpu := { c with y := c.y - 1, p := c.p.setZN (c.y - 1) }

/-! A read-modify-write operation gives, for the original byte `m`, the byte written back and the CPU at the end of the
last cycle (40_addressing_modes.md R205, R232). -/

/-- INC (42_arithmetic_logic.md R271). -/
def inc (m : Byte) (c : Cpu) : Byte × Cpu := (m + 1, { c with p := c.p.setZN (m + 1) })

/-- DEC (42_arithmetic_logic.md R272). -/
def dec (m : Byte) (c : Cpu) : Byte × Cpu := (m - 1, { c with p := c.p.setZN (m - 1) })

/-- ASL (43_shift_rotate.md R290). -/
def asl (m : Byte) (c : Cpu) : Byte × Cpu := (shiftLeft m, { c with p := c.p.shifted (shiftLeft m) (carryLeft m) })

/-- LSR (43_shift_rotate.md R291). -/
def lsr (m : Byte) (c : Cpu) : Byte × Cpu := (shiftRight m, { c with p := c.p.shifted (shiftRight m) (carryRight m) })

/-- ROL (43_shift_rotate.md R292). -/
def rol (m : Byte) (c : Cpu) : Byte × Cpu :=
  (rotateLeft c.p.c m, { c with p := c.p.shifted (rotateLeft c.p.c m) (carryLeft m) })

/-- ROR (43_shift_rotate.md R293). -/
def ror (m : Byte) (c : Cpu) : Byte × Cpu :=
  (rotateRight c.p.c m, { c with p := c.p.shifted (rotateRight c.p.c m) (carryRight m) })

/-- The accumulator form of a shift or rotate: operand and result are A (40_addressing_modes.md R203). -/
def onA (op : Byte → Cpu → Byte × Cpu) (c : Cpu) : Cpu := { (op c.a c).2 with a := (op c.a c).1 }

/-! Undocumented operations (46_undocumented.md R341-R356). -/

/-- LAX (46_undocumented.md R341). -/
def lax (m : Byte) (c : Cpu) : Cpu := { c with a := m, x := m, p := c.p.setZN m }

/-- The byte SAX stores (46_undocumented.md R342). -/
def sax (c : Cpu) : Byte := c.a &&& c.x

/-- DCP (46_undocumented.md R343). -/
def dcp (m : Byte) (c : Cpu) : Byte × Cpu := (m - 1, { c with p := c.p.compare c.a (m - 1) })

/-- ISB (46_undocumented.md R344). -/
def isb (m : Byte) (c : Cpu) : Byte × Cpu := (m + 1, addTo ((m + 1) ^^^ 0xFF#8) c)

/-- SLO (46_undocumented.md R345). -/
def slo (m : Byte) (c : Cpu) : Byte × Cpu :=
  (shiftLeft m, { c with a := c.a ||| shiftLeft m, p := c.p.shifted (c.a ||| shiftLeft m) (carryLeft m) })

/-- RLA (46_undocumented.md R346). -/
def rla (m : Byte) (c : Cpu) : Byte × Cpu :=
  let r := rotateLeft c.p.c m
  (r, { c with a := c.a &&& r, p := c.p.shifted (c.a &&& r) (carryLeft m) })

/-- SRE (46_undocumented.md R347). -/
def sre (m : Byte) (c : Cpu) : Byte × Cpu :=
  (shiftRight m, { c with a := c.a ^^^ shiftRight m, p := c.p.shifted (c.a ^^^ shiftRight m) (carryRight m) })

/-- RRA (46_undocumented.md R348): the carry just produced is the carry in of the addition. -/
def rra (m : Byte) (c : Cpu) : Byte × Cpu :=
  let r := rotateRight c.p.c m
  (r, addTo r { c with p := { c.p with c := carryRight m } })

/-- ANC (46_undocumented.md R349). -/
def anc (m : Byte) (c : Cpu) : Cpu := { c with a := c.a &&& m, p := c.p.shifted (c.a &&& m) (c.a &&& m).msb }

/-- ALR (46_undocumented.md R350). -/
def alr (m : Byte) (c : Cpu) : Cpu :=
  let t := c.a &&& m
  { c with a := shiftRight t, p := c.p.shifted (shiftRight t) (carryRight t) }

/-- ARR (46_undocumented.md R354). -/
def arr (m : Byte) (c : Cpu) : Cpu :=
  let r := rotateRight c.p.c (c.a &&& m)
  { c with a := r, p := { c.p.shifted r (r.getLsbD 6) with v := xor (r.getLsbD 6) (r.getLsbD 5) } }

/-- AXS (46_undocumented.md R355). -/
def axs (m : Byte) (c : Cpu) : Cpu :=
  let t := c.a &&& c.x
  { c with x := t - m, p := c.p.compare t m }

/-- The undocumented NOPs with an operand discard it (46_undocumented.md R352, R353). -/
def nop (_ : Byte) (c : Cpu) : Cpu := c

end Alu

end Sys2Proof.Machine
end

