-- ==== Sys2Proof/Machine/Cart.lean ====
section
/-! DEFINITION. The external collaborators: opaque devices, interrupt outputs, and the mapper interface with the
reference mapper 0 (20_memory.md R115-R122). -/

namespace Sys2Proof.Machine

/-! ### Interrupt outputs -/

/-- The output once the changes due by cycle `c` have happened (60_exceptions.md R521; log entry 11). -/
def settle (level : Bool) : List (Nat × Bool) → Nat → IrqLine
  | [], _ => { level := level, changes := [] }
  | (n, b) :: rest, c => if n ≤ c then settle b rest c else { level := level, changes := (n, b) :: rest }

/-- The output at cycle `c`. -/
def IrqLine.advance (l : IrqLine) (c : Nat) : IrqLine := settle l.level l.changes c

/-! ### Opaque devices -/

/-- `Tick()`, once per CPU cycle (20_memory.md R115, R116, R131). -/
def Device.tick (d : Device) : Device := { d with ticks := d.ticks + 1 }

/-- The byte `Read(addr)` answers: the next listed answer, or the free value (20_memory.md R115, R116; log entry
10). -/
def Device.answer (free : List DeviceCall → Nat → Word → Byte) (d : Device) (a : Word) : Byte :=
  d.answers.headD (free d.log d.ticks a)

/-- The device after `Read(addr)`. -/
def Device.afterRead (d : Device) (a : Word) : Device :=
  { d with answers := d.answers.tail, log := .read d.ticks a :: d.log }

/-- The device after `Write(addr, data)` (20_memory.md R115, R116). -/
def Device.afterWrite (d : Device) (a : Word) (v : Byte) : Device := { d with log := .write d.ticks a v :: d.log }

/-! ### Mapper -/

/-- An external mapper's record of a call; mapper 0 keeps none (log entry 13). -/
def Cart.note (c : Cart) (call : MapperCall) : Cart :=
  match c.kind with
  | .nrom => c
  | .external => { c with log := call :: c.log }

/-- The size of PRG-ROM in bytes (20_memory.md R121). -/
def PrgSize.bytes : PrgSize → Nat
  | .k16 => 16384
  | .k32 => 32768

/-- The PRG-ROM index of a CPU address at or above $8000 (20_memory.md R121). -/
def prgIndex (size : PrgSize) (a : Word) : Nat := (a.toNat - 0x8000) % size.bytes

/-- `read_prg`: a byte, or `none` for `undriven` (20_memory.md R112, R118, R121). -/
def Cart.readPrg (c : Cart) (a : Word) : Option Byte :=
  match c.kind with
  | .nrom => if 0x8000 ≤ a.toNat then some (Memory.read c.prg (prgIndex c.prgSize a)) else none
  | .external => Config.mapperPrg c.log a

/-- `write_prg`: mapper 0 ignores it (20_memory.md R121), an external mapper sees the call (R118). -/
def Cart.writePrg (c : Cart) (a : Word) (d : Byte) : Cart := c.note (.writePrg a d)

/-- The cell of pattern memory that PPU address `a` in $0000-$1FFF reaches: `a` itself in mapper 0 (20_memory.md R121), a free
choice of an external mapper (R118, R120; log entry 13). -/
def Cart.chrCell (c : Cart) (a : PpuAddr) : Nat :=
  match c.kind with
  | .nrom => (a &&& 0x1FFF#14).toNat
  | .external => Config.mapperChrCell c.log a

/-- `read_chr` (20_memory.md R120). It does not change the mapper (R118). -/
def Cart.readChr (c : Cart) (a : PpuAddr) : Byte := Memory.read c.chr (c.chrCell a)

/-- `write_chr`: CHR-RAM stores the byte, CHR-ROM ignores it (20_memory.md R120). -/
def Cart.writeChr (c : Cart) (a : PpuAddr) (d : Byte) : Cart :=
  if c.chrIsRam then { c with chr := Memory.write c.chr (c.chrCell a) d } else c

/-- The mirrored nametable address a' (20_memory.md R119). -/
def mirror (m : Mirroring) (a : PpuAddr) : PpuAddr :=
  match m with
  | .horizontal => a &&& ~~~0x0400#14
  | .vertical => a &&& ~~~0x0800#14
  | .singleLower => a &&& ~~~0x0C00#14
  | .singleUpper => (a &&& ~~~0x0800#14) ||| 0x0400#14
  | .fourScreen => a

/-- The index of a nametable address in the 4 KiB store (20_memory.md R119). -/
def ntIndex (m : Mirroring) (a : PpuAddr) : Nat := (mirror m a &&& 0x0FFF#14).toNat

/-- `read_nt` (20_memory.md R119). -/
def Cart.readNt (c : Cart) (a : PpuAddr) : Byte := Memory.read c.nt (ntIndex c.mirroring a)

/-- `write_nt` (20_memory.md R119). -/
def Cart.writeNt (c : Cart) (a : PpuAddr) (d : Byte) : Cart :=
  { c with nt := Memory.write c.nt (ntIndex c.mirroring a) d }

/-- `clock_irq()`: nothing in mapper 0 (20_memory.md R121), a call seen by an external mapper (R122); counted for the
record of 48_ppu_pipeline.md R481 (log entry 15). -/
def Cart.clockIrq (c : Cart) : Cart := { c.note .clockIrq with clockIrqs := c.clockIrqs + 1 }

/-- The mapper's `irq` output: always false in mapper 0 (20_memory.md R121). -/
def Cart.irqOut (c : Cart) : Bool :=
  match c.kind with
  | .nrom => false
  | .external => c.irq.level

end Sys2Proof.Machine
end

