-- ==== Sys2Proof/Machine/PpuPorts.lean ====
section
/-! DEFINITION. The PPU's memory and its CPU-visible ports: PpuRead and PpuWrite (20_memory.md R125, R126), the A12
tracker (48_ppu_pipeline.md R480, R481), open bus (47_ppu_registers.md R411, R412) and ports $2000-$2007 (R400-R410). -/

namespace Sys2Proof.Machine

/-- The PPU with the cartridge its address bus reaches (20_memory.md R125). -/
structure Video where
  ppu  : Ppu
  cart : Cart
  deriving DecidableEq, Repr

/-- The video with its PPU updated. -/
def Video.mapPpu (f : Ppu → Ppu) (v : Video) : Video := { v with ppu := f v.ppu }

/-! ### Register fields (10_state.md R41, R42, R46) -/

def PpuRegs.nmiEn (r : PpuRegs) : Bool := r.ctrl.getLsbD 7
def PpuRegs.sprH (r : PpuRegs) : Bool := r.ctrl.getLsbD 5
def PpuRegs.bgTbl (r : PpuRegs) : Bool := r.ctrl.getLsbD 4
def PpuRegs.sprTbl (r : PpuRegs) : Bool := r.ctrl.getLsbD 3
def PpuRegs.inc32 (r : PpuRegs) : Bool := r.ctrl.getLsbD 2
def PpuRegs.sprEn (r : PpuRegs) : Bool := r.mask.getLsbD 4
def PpuRegs.bgEn (r : PpuRegs) : Bool := r.mask.getLsbD 3
def PpuRegs.sprLeft (r : PpuRegs) : Bool := r.mask.getLsbD 2
def PpuRegs.bgLeft (r : PpuRegs) : Bool := r.mask.getLsbD 1
def PpuRegs.grey (r : PpuRegs) : Bool := r.mask.getLsbD 0

/-- Fields of v and t (10_state.md R46). -/
def coarseX (v : Scroll) : BitVec 5 := v.extractLsb' 0 5
def coarseY (v : Scroll) : BitVec 5 := v.extractLsb' 5 5
def fineY (v : Scroll) : BitVec 3 := v.extractLsb' 12 3

/-- `nmi_out` = PPUCTRL.NMI_EN and VBL (10_state.md R63). -/
def Ppu.nmiOut (p : Ppu) : Bool := p.regs.nmiEn && p.regs.vbl

/-- `rendering_enabled` (48_ppu_pipeline.md R442). -/
def PpuRegs.renderingEnabled (r : PpuRegs) : Bool := r.bgEn || r.sprEn

/-- The line is visible (48_ppu_pipeline.md R441). -/
def Position.visible (p : Position) (cfg : Config) : Bool := decide (0 ≤ p.line) && decide (p.line < cfg.region.visibleLines)

/-- The line is the pre-render line or a visible line (48_ppu_pipeline.md R440). -/
def Position.renderingLine (p : Position) (cfg : Config) : Bool := decide (p.line = -1) || p.visible cfg

/-- `rendering_active` (48_ppu_pipeline.md R442). -/
def Ppu.renderingActive (p : Ppu) (cfg : Config) : Bool := p.regs.renderingEnabled && p.pos.renderingLine cfg

/-! ### Scroll increments (48_ppu_pipeline.md R450, R451) -/

/-- Coarse-X increment (48_ppu_pipeline.md R450): bit 10 is the horizontal nametable select. -/
def incCoarseX (v : Scroll) : Scroll :=
  if coarseX v = 31#5 then (v &&& ~~~0x001F#15) ^^^ 0x0400#15 else v + 1#15

/-- Fine-Y increment (48_ppu_pipeline.md R451): bit 11 is the vertical nametable select. -/
def incFineY (v : Scroll) : Scroll :=
  if fineY v = 7#3 then
    let v' := v &&& ~~~0x7000#15
    if coarseY v = 29#5 then (v' &&& ~~~0x03E0#15) ^^^ 0x0800#15
    else if coarseY v = 31#5 then v' &&& ~~~0x03E0#15
    else v' + 0x0020#15
  else v + 0x1000#15

/-- The PPUDATA increment outside rendering (47_ppu_registers.md R407, R408). -/
def incVram (r : PpuRegs) : Scroll := if r.inc32 then r.v + 32#15 else r.v + 1#15

/-! ### PPU memory (20_memory.md R125, R126) -/

/-- `pal_index` (20_memory.md R126). -/
def palIndex (a : PpuAddr) : Nat :=
  let i := a &&& 0x1F#14
  if i &&& 0x13#14 = 0x10#14 then (i &&& 0x0F#14).toNat else i.toNat

/-- A palette entry: 6 bits (10_state.md R53). -/
def Ppu.paletteEntry (p : Ppu) (i : Nat) : BitVec 6 := (Memory.read p.palette i).setWidth 6

/-- The byte `PpuRead(a)` returns (20_memory.md R125). A read of PPU memory changes neither memory nor mapper (R118). -/
def Video.ppuRead (v : Video) (a : PpuAddr) : Byte :=
  if a.toNat < 0x2000 then v.cart.readChr a
  else if a.toNat < 0x3F00 then v.cart.readNt (a &&& 0x2FFF#14)
  else (v.ppu.paletteEntry (palIndex a)).setWidth 8

/-- Store a palette entry, 6 bits (10_state.md R53). -/
def Ppu.setPalette (i : Nat) (d : Byte) (p : Ppu) : Ppu :=
  { p with palette := Memory.write p.palette i (d &&& 0x3F#8) }

/-- `PpuWrite(a, d)` (20_memory.md R125). -/
def Video.ppuWrite (v : Video) (a : PpuAddr) (d : Byte) : Video :=
  if a.toNat < 0x2000 then { v with cart := v.cart.writeChr a d }
  else if a.toNat < 0x3F00 then { v with cart := v.cart.writeNt (a &&& 0x2FFF#14) d }
  else v.mapPpu (.setPalette (palIndex a) d)

/-! ### A12 (48_ppu_pipeline.md R480, R481) -/

/-- The A12 update with the address the PPU puts on its bus in CPU cycle `c`: a fall is recorded, a rise after at
least 3 cycles low calls `clock_irq()`. -/
def Video.driveA12 (c : Nat) (high : Bool) (v : Video) : Video :=
  if v.ppu.a12.level && !high then v.mapPpu fun p => { p with a12 := { level := false, fallCycle := c } }
  else if !v.ppu.a12.level && high then
    { ppu := { v.ppu with a12 := { v.ppu.a12 with level := true } }
      cart := if v.ppu.a12.fallCycle + 3 ≤ c then v.cart.clockIrq else v.cart }
  else v

/-! ### Open bus (47_ppu_registers.md R411, R412) -/

/-- Reset the decay counter of every bit of `mask`; `i` is the bit of the list's head. -/
def resetDecay (mask : Byte) : Nat → List Nat → List Nat
  | _, [] => []
  | i, n :: rest => (if mask.getLsbD i then 0 else n) :: resetDecay mask (i + 1) rest

/-- `refresh(ppu_bus, mask, value)` (47_ppu_registers.md R411). -/
def OpenBus.refresh (b : OpenBus) (mask value : Byte) : OpenBus :=
  { latch := (b.latch &&& ~~~mask) ||| (value &&& mask), decay := resetDecay mask 0 b.decay }

/-- The latch with every bit whose counter has reached `limit` cleared; `i` is the bit of the list's head. -/
def decayed (limit : Nat) : Nat → List Nat → Byte → Byte
  | _, [], latch => latch
  | i, n :: rest, latch => decayed limit (i + 1) rest (if limit ≤ n then latch &&& ~~~(1#8 <<< i) else latch)

/-- `OpenBusDecay(n)` (47_ppu_registers.md R412). -/
def OpenBus.tick (limit n : Nat) (b : OpenBus) : OpenBus :=
  let counters := b.decay.map (· + n)
  { latch := decayed limit 0 counters b.latch, decay := counters }

/-- Refresh the PPU's open-bus latch. -/
def Ppu.refresh (mask value : Byte) (p : Ppu) : Ppu := { p with bus := p.bus.refresh mask value }

/-- Update the PPU registers. -/
def Ppu.mapRegs (f : PpuRegs → PpuRegs) (p : Ppu) : Ppu := { p with regs := f p.regs }

/-! ### Port writes (47_ppu_registers.md R400-R410) -/

/-- $2000 PPUCTRL (47_ppu_registers.md R401). -/
def PpuRegs.writeCtrl (d : Byte) (r : PpuRegs) : PpuRegs :=
  { r with ctrl := d, t := (r.t &&& ~~~0x0C00#15) ||| ((d &&& 3#8).setWidth 15 <<< 10) }

/-- $2005 PPUSCROLL (47_ppu_registers.md R404). -/
def PpuRegs.writeScroll (d : Byte) (r : PpuRegs) : PpuRegs :=
  if r.w then
    { r with
      t := (r.t &&& ~~~0x73E0#15) ||| ((d &&& 7#8).setWidth 15 <<< 12) ||| ((d >>> 3).setWidth 15 <<< 5), w := false }
  else { r with t := (r.t &&& ~~~0x001F#15) ||| (d >>> 3).setWidth 15, xFine := d.setWidth 3, w := true }

/-- The first $2006 PPUADDR write (47_ppu_registers.md R406): t[13:8] <- d[5:0], t[14] <- 0. -/
def PpuRegs.writeAddrHigh (d : Byte) (r : PpuRegs) : PpuRegs :=
  { r with t := (r.t &&& 0x00FF#15) ||| ((d &&& 0x3F#8).setWidth 15 <<< 8), w := true }

/-- The second $2006 PPUADDR write (47_ppu_registers.md R406): t[7:0] <- d, v <- t. -/
def PpuRegs.writeAddrLow (d : Byte) (r : PpuRegs) : PpuRegs :=
  let t := (r.t &&& 0x7F00#15) ||| d.setWidth 15
  { r with t := t, v := t, w := false }

/-- $2006 PPUADDR (47_ppu_registers.md R406); the second write drives A12 with v[12]. -/
def Video.writeAddr (c : Nat) (d : Byte) (v : Video) : Video :=
  if v.ppu.regs.w then
    let v' := v.mapPpu (.mapRegs (.writeAddrLow d))
    v'.driveA12 c (v'.ppu.regs.v.getLsbD 12)
  else v.mapPpu (.mapRegs (.writeAddrHigh d))

/-- The PPU address of a PPUDATA access: v & $3FFF (10_state.md R46). -/
def PpuRegs.vramAddr (r : PpuRegs) : PpuAddr := r.v.setWidth 14

/-- The increments of a PPUDATA access during rendering: coarse X, then fine Y (47_ppu_registers.md R407, R408). -/
def PpuRegs.renderingInc (r : PpuRegs) : PpuRegs := { r with v := incFineY (incCoarseX r.v) }

/-- The increment of a PPUDATA access outside rendering. -/
def PpuRegs.plainInc (r : PpuRegs) : PpuRegs := { r with v := incVram r }

/-- $2007 PPUDATA write (47_ppu_registers.md R408). -/
def Video.writeData (cfg : Config) (c : Nat) (d : Byte) (v : Video) : Video :=
  let a := v.ppu.regs.vramAddr
  if v.ppu.renderingActive cfg then
    let v := if 0x3F00 ≤ a.toNat then v.mapPpu (.setPalette (palIndex a) d) else v
    v.mapPpu (.mapRegs .renderingInc)
  else
    ((v.ppuWrite a d).driveA12 c (a.getLsbD 12)).mapPpu (.mapRegs .plainInc)

/-- $2004 OAMDATA write (47_ppu_registers.md R410). -/
def Ppu.writeOamData (cfg : Config) (d : Byte) (p : Ppu) : Ppu :=
  if p.renderingActive cfg then { p with regs := { p.regs with oamAddr := p.regs.oamAddr + 4 } }
  else
    { p with
      oam := Memory.write p.oam p.regs.oamAddr.toNat d, regs := { p.regs with oamAddr := p.regs.oamAddr + 1 } }

/-- A CPU or DMA write to port `port` (0-7) in CPU cycle `c` (47_ppu_registers.md R400-R410): the open-bus latch is
refreshed whole first (R400). -/
def Video.writePort (cfg : Config) (c : Nat) (port : BitVec 3) (d : Byte) (v : Video) : Video :=
  let v := v.mapPpu (.refresh 0xFF#8 d)
  if port = 0#3 then v.mapPpu (.mapRegs (.writeCtrl d))
  else if port = 1#3 then v.mapPpu (.mapRegs fun r => { r with mask := d })
  else if port = 2#3 then v
  else if port = 3#3 then v.mapPpu (.mapRegs fun r => { r with oamAddr := d })
  else if port = 4#3 then v.mapPpu (.writeOamData cfg d)
  else if port = 5#3 then v.mapPpu (.mapRegs (.writeScroll d))
  else if port = 6#3 then v.writeAddr c d
  else v.writeData cfg c d

/-! ### Port reads (47_ppu_registers.md R405-R411) -/

/-- The read happens at the position (NMI_LINE, 1), the race of 47_ppu_registers.md R405. -/
def Position.atVblankStart (p : Position) (cfg : Config) : Bool := decide (p.line = cfg.region.nmiLine) && decide (p.dot = 1)

/-- The value of a $2002 PPUSTATUS read (47_ppu_registers.md R405). -/
def Ppu.statusValue (cfg : Config) (p : Ppu) : Byte :=
  flagBit (p.regs.vbl && !p.pos.atVblankStart cfg) 0x80#8 ||| flagBit p.regs.s0h 0x40#8 ||| flagBit p.regs.sov 0x20#8
    ||| (p.bus.latch &&& 0x1F#8)

/-- The effect of a $2002 PPUSTATUS read (47_ppu_registers.md R405). -/
def Ppu.afterStatus (cfg : Config) (p : Ppu) : Ppu :=
  { p.refresh 0xE0#8 (p.statusValue cfg) with
    regs := { p.regs with vbl := false, w := false }
    pos := { p.pos with vblSuppress := p.pos.vblSuppress || p.pos.atVblankStart cfg } }

/-- The value of OAM[OAMADDR] as $2004 shows it: bits 4-2 of an attribute byte are 0 (47_ppu_registers.md R409). -/
def Ppu.oamValue (p : Ppu) : Byte :=
  let d := Memory.read p.oam p.regs.oamAddr.toNat
  if p.regs.oamAddr &&& 3#8 = 2#8 then d &&& 0xE3#8 else d

/-- The value of a $2004 OAMDATA read (47_ppu_registers.md R409). -/
def Ppu.oamDataValue (cfg : Config) (p : Ppu) : Byte :=
  if p.pos.visible cfg && decide (1 ≤ p.pos.dot) && decide (p.pos.dot ≤ 64) && p.regs.renderingEnabled then
    match cfg.clearRead with
    | .ff => 0xFF#8
    | .oam => p.oamValue
  else p.oamValue

/-- The greyscale mask of a palette lookup (47_ppu_registers.md R407, 48_ppu_pipeline.md R476). -/
def PpuRegs.greyMask (r : PpuRegs) : BitVec 6 := if r.grey then 0x30#6 else 0x3F#6

/-- The value of a $2007 PPUDATA read (47_ppu_registers.md R407). -/
def Video.dataValue (cfg : Config) (v : Video) : Byte :=
  let a := v.ppu.regs.vramAddr
  if v.ppu.renderingActive cfg then v.ppu.bus.latch
  else if a.toNat < 0x3F00 then v.ppu.regs.readBuffer
  else (v.ppu.paletteEntry (palIndex a) &&& v.ppu.regs.greyMask).setWidth 8 ||| (v.ppu.bus.latch &&& 0xC0#8)

/-- The address a $2007 read refills the read buffer from: under the palette, the nametable byte
(47_ppu_registers.md R407). -/
def refillAddr (a : PpuAddr) : PpuAddr := if a.toNat < 0x3F00 then a else a &&& 0x2FFF#14

/-- The effect of a $2007 PPUDATA read (47_ppu_registers.md R407). -/
def Video.afterData (cfg : Config) (c : Nat) (v : Video) : Video :=
  let a := v.ppu.regs.vramAddr
  if v.ppu.renderingActive cfg then v.mapPpu (.mapRegs .renderingInc)
  else
    let fill := v.ppuRead (refillAddr a)
    let mask := if a.toNat < 0x3F00 then 0xFF#8 else 0x3F#8
    let value := v.dataValue cfg
    let v := v.mapPpu fun p => (p.mapRegs fun r => { r with readBuffer := fill }).refresh mask value
    let v := v.driveA12 c (a.getLsbD 12)
    v.mapPpu (.mapRegs .plainInc)

/-- The value a read of port `port` (0-7) returns (47_ppu_registers.md R405, R407, R409, R411). -/
def Video.portValue (cfg : Config) (port : BitVec 3) (v : Video) : Byte :=
  if port = 2#3 then v.ppu.statusValue cfg
  else if port = 4#3 then v.ppu.oamDataValue cfg
  else if port = 7#3 then v.dataValue cfg
  else v.ppu.bus.latch

/-- The effect of a read of port `port` (0-7) in CPU cycle `c` (47_ppu_registers.md R405, R407, R409, R411). -/
def Video.afterPort (cfg : Config) (c : Nat) (port : BitVec 3) (v : Video) : Video :=
  if port = 2#3 then v.mapPpu (.afterStatus cfg)
  else if port = 4#3 then v.mapPpu (.refresh 0xFF#8 (v.ppu.oamDataValue cfg))
  else if port = 7#3 then v.afterData cfg c
  else v

end Sys2Proof.Machine
end

