-- ==== Sys2Proof/Machine/PpuDot.lean ====
section
/-! DEFINITION. The PPU dot (48_ppu_pipeline.md): scanline sequencer, background fetch and shifters, sprite evaluation
and fetch, pixel composition. Everything in a dot is a function of the parameters, the CPU cycle number (for A12) and
the PPU with its cartridge. -/

namespace Sys2Proof.Machine

/-! ### Background shifters (48_ppu_pipeline.md R449) -/

/-- Dots at which the background shifters shift. R449 names dot 257 among them, R454 excludes shifts at dots 257-320; the
model follows R449 at dot 257 (DEDUCED, log entry 41). -/
def shiftDot (dot : Nat) : Bool := (decide (2 ≤ dot) && decide (dot ≤ 257)) || (decide (322 ≤ dot) && decide (dot ≤ 337))

/-- Dots at which they reload: 9, 17, ..., 257, 329 and 337 (R449; dot 257: log entry 41). -/
def reloadDot (dot : Nat) : Bool :=
  (decide (9 ≤ dot) && decide (dot ≤ 257) && decide (dot % 8 = 1)) || decide (dot = 329) || decide (dot = 337)

/-- The four shifters one bit to the left. -/
def BgPipe.shift (b : BgPipe) : BgPipe :=
  { b with bgLo := b.bgLo <<< 1, bgHi := b.bgHi <<< 1, atLo := b.atLo <<< 1, atHi := b.atHi <<< 1 }

/-- A shifter with its low byte reloaded. -/
def reloadLow (w : Word) (d : Byte) : Word := (w &&& 0xFF00#16) ||| d.setWidth 16

/-- The four low bytes reloaded from the fetch latches. -/
def BgPipe.reload (b : BgPipe) : BgPipe :=
  { b with
    bgLo := reloadLow b.bgLo b.ptLo
    bgHi := reloadLow b.bgHi b.ptHi
    atLo := reloadLow b.atLo (if b.atLatch.getLsbD 0 then 0xFF#8 else 0#8)
    atHi := reloadLow b.atHi (if b.atLatch.getLsbD 1 then 0xFF#8 else 0#8) }

/-- `ShiftAndReload()` at dot `dot`: shift, then reload (48_ppu_pipeline.md R449). -/
def BgPipe.shiftAndReload (dot : Nat) (b : BgPipe) : BgPipe :=
  let b := if shiftDot dot then b.shift else b
  if reloadDot dot then b.reload else b

/-! ### Pixel composition (48_ppu_pipeline.md R472-R478) -/

/-- Bit `15 - x_fine` of a shifter (48_ppu_pipeline.md R472). -/
def BgPipe.pick (w : Word) (xFine : BitVec 3) : Nat := (w.getLsbD (15 - xFine.toNat)).toNat

/-- The background colour number b at pixel `x` (48_ppu_pipeline.md R472). -/
def Ppu.bgColour (p : Ppu) (x : Nat) : Nat :=
  if p.regs.bgEn && (decide (8 ≤ x) || p.regs.bgLeft) then
    2 * BgPipe.pick p.bg.bgHi p.regs.xFine + BgPipe.pick p.bg.bgLo p.regs.xFine
  else 0

/-- The background palette number bp (48_ppu_pipeline.md R472). -/
def Ppu.bgPalette (p : Ppu) : Nat := 2 * BgPipe.pick p.bg.atHi p.regs.xFine + BgPipe.pick p.bg.atLo p.regs.xFine

/-- A slot is active when its counter is in (-8, 0] (48_ppu_pipeline.md R471, R473). -/
def SpriteSlot.active (s : SpriteSlot) : Bool := decide (-8 < s.x) && decide (s.x ≤ 0)

/-- The colour number c_i of a slot, 0 where it is not active (48_ppu_pipeline.md R473). -/
def SpriteSlot.colour (s : SpriteSlot) : Nat :=
  if s.active then
    let col := (-s.x).toNat
    2 * bitNat s.hi (7 - col) + bitNat s.lo (7 - col)
  else 0

/-- The first active slot with a non-zero colour (48_ppu_pipeline.md R473). -/
def firstOpaque : List SpriteSlot → Option SpriteSlot
  | [] => none
  | s :: rest => if s.colour = 0 then firstOpaque rest else some s

/-- Sprites are shown at pixel `x` (48_ppu_pipeline.md R473). -/
def PpuRegs.spritesShown (r : PpuRegs) (x : Nat) : Bool := r.sprEn && (decide (8 ≤ x) || r.sprLeft)

/-- The winning sprite slot at pixel `x` (48_ppu_pipeline.md R473). -/
def Ppu.spriteAt (p : Ppu) (x : Nat) : Option SpriteSlot :=
  if p.regs.spritesShown x then firstOpaque (p.spr.slots.take p.spr.count) else none

/-- The palette index of a sprite pixel: $10 + 4*sp + s (48_ppu_pipeline.md R474). -/
def SpriteSlot.paletteIndex (s : SpriteSlot) : Nat := 16 + 4 * (s.attr &&& 3#8).toNat + s.colour

/-- The priority multiplexer (48_ppu_pipeline.md R474): the palette index at pixel `x`. -/
def Ppu.muxIndex (p : Ppu) (x : Nat) : Nat :=
  let b := p.bgColour x
  match p.spriteAt x with
  | none => if b = 0 then 0 else 4 * p.bgPalette + b
  | some s => if b = 0 || !s.attr.getLsbD 5 then s.paletteIndex else 4 * p.bgPalette + b

/-- The 6-bit colour at pixel `x` (48_ppu_pipeline.md R476, R477). -/
def Ppu.colourAt (p : Ppu) (x : Nat) : BitVec 6 :=
  p.paletteEntry (palIndex (0x3F00#14 + BitVec.ofNat 14 (p.muxIndex x))) &&& p.regs.greyMask

/-- A sprite-0 hit occurs at pixel `x` (48_ppu_pipeline.md R475). -/
def Ppu.sprite0Hit (p : Ppu) (x : Nat) : Bool :=
  p.spr.zeroOnLine && p.regs.spritesShown x && decide ((p.spr.slots.headD .zero).colour ≠ 0) && decide (p.bgColour x ≠ 0)
    && p.regs.bgEn && decide (x ≠ 255)

/-- `ComposePixel(x)` on a visible line: the frame-buffer pixel (48_ppu_pipeline.md R478) and the sprite-0 hit, delayed
to dot 2 when it falls on pixel 0 (R475). -/
def Ppu.composePixel (x : Nat) (p : Ppu) : Ppu :=
  let hit := p.sprite0Hit x
  { p with
    fb := putPixel p.fb p.pos.line.toNat x (Config.rgbPalette (p.colourAt x))
    regs := { p.regs with s0h := p.regs.s0h || (hit && decide (1 ≤ x)) }
    pos := { p.pos with s0Delayed := p.pos.s0Delayed || (hit && decide (x = 0)) } }

/-- Every sprite X counter down by one (48_ppu_pipeline.md R471). -/
def Sprites.decrement (s : Sprites) : Sprites := { s with slots := s.slots.map fun slot => { slot with x := slot.x - 1 } }

/-! ### Background fetch (48_ppu_pipeline.md R446-R448) -/

/-- NT address (48_ppu_pipeline.md R447). -/
def ntAddr (v : Scroll) : PpuAddr := 0x2000#14 ||| (v &&& 0x0FFF#15).setWidth 14

/-- AT address (48_ppu_pipeline.md R447). -/
def atAddr (v : Scroll) : PpuAddr :=
  0x23C0#14 ||| (v &&& 0x0C00#15).setWidth 14 ||| ((v >>> 4) &&& 0x38#15).setWidth 14 ||| ((v >>> 2) &&& 0x07#15).setWidth 14

/-- The shift that selects a tile's two attribute bits (48_ppu_pipeline.md R447). -/
def atShift (v : Scroll) : Nat := (((v >>> 4) &&& 4#15) ||| (v &&& 2#15)).toNat

/-- A pattern table's base: `table * $1000`. -/
def tableBase (high : Bool) : PpuAddr := if high then 0x1000#14 else 0#14

/-- Background pattern-low address (48_ppu_pipeline.md R447). -/
def bgPatternAddr (p : Ppu) : PpuAddr :=
  tableBase p.regs.bgTbl + (p.bg.ntLatch.setWidth 14 <<< 4) + (fineY p.regs.v).setWidth 14

/-- A dot that puts an address on the PPU bus: the A12 tracker sees bit 12 (48_ppu_pipeline.md R448, R480). -/
def Video.drive (c : Nat) (a : PpuAddr) (v : Video) : Video := v.driveA12 c (a.getLsbD 12)

/-- A read dot: the address on the bus, `PpuRead`, and what becomes of the byte (48_ppu_pipeline.md R448; log entry
22 for the order). -/
def Video.fetch (c : Nat) (a : PpuAddr) (store : Byte → Ppu → Ppu) (v : Video) : Video :=
  let v := v.drive c a
  v.mapPpu (store (v.ppuRead a))

/-- Update the background pipeline. -/
def Ppu.mapBg (f : BgPipe → BgPipe) (p : Ppu) : Ppu := { p with bg := f p.bg }

/-- Phase `ph` of a background fetch group (48_ppu_pipeline.md R446). -/
def Video.bgPhase (c ph : Nat) (v : Video) : Video :=
  match ph with
  | 0 => v.drive c (ntAddr v.ppu.regs.v)
  | 1 => v.fetch c (ntAddr v.ppu.regs.v) fun d => Ppu.mapBg fun b => { b with ntLatch := d }
  | 2 => v.drive c (atAddr v.ppu.regs.v)
  | 3 =>
    let shift := atShift v.ppu.regs.v
    v.fetch c (atAddr v.ppu.regs.v) fun d => Ppu.mapBg fun b => { b with atLatch := (d >>> shift).setWidth 2 }
  | 4 => v.drive c (bgPatternAddr v.ppu)
  | 5 => v.fetch c (bgPatternAddr v.ppu) fun d => Ppu.mapBg fun b => { b with ptLo := d }
  | 6 => v.drive c (bgPatternAddr v.ppu + 8#14)
  | _ =>
    let v := v.fetch c (bgPatternAddr v.ppu + 8#14) fun d => Ppu.mapBg fun b => { b with ptHi := d }
    v.mapPpu (.mapRegs fun r => { r with v := incCoarseX r.v })

/-- The dummy nametable fetches of dots 337-340: odd dots drive, even dots read and discard (48_ppu_pipeline.md
R446). -/
def Video.dummyNt (c dot : Nat) (v : Video) : Video :=
  if dot % 2 = 1 then v.drive c (ntAddr v.ppu.regs.v) else v.fetch c (ntAddr v.ppu.regs.v) fun _ p => p

/-- Horizontal copy (48_ppu_pipeline.md R452): v[10] and v[4:0] from t. -/
def copyX (v t : Scroll) : Scroll := (v &&& ~~~0x041F#15) ||| (t &&& 0x041F#15)

/-- Vertical copy (48_ppu_pipeline.md R453): v[14:11] and v[9:5] from t. -/
def copyY (v t : Scroll) : Scroll := (v &&& ~~~0x7BE0#15) ||| (t &&& 0x7BE0#15)

/-- The scroll updates of a dot other than the coarse-X increment: fine Y at 256, the copies at 257 and 280-304
(48_ppu_pipeline.md R451-R453; log entry 18). -/
def PpuRegs.scrollDot (line : Int) (dot : Nat) (r : PpuRegs) : PpuRegs :=
  if dot = 256 then { r with v := incFineY r.v }
  else if dot = 257 then { r with v := copyX r.v r.t }
  else if line = -1 && decide (280 ≤ dot) && decide (dot ≤ 304) then { r with v := copyY r.v r.t }
  else r

/-- The PPU after those scroll updates. -/
def Ppu.scrollDot (dot : Nat) (p : Ppu) : Ppu := p.mapRegs (.scrollDot p.pos.line dot)

/-- `BackgroundStep()` at dot `dot` (48_ppu_pipeline.md R446-R448, R450-R454). -/
def Video.backgroundStep (c dot : Nat) (v : Video) : Video :=
  let v :=
    if (decide (1 ≤ dot) && decide (dot ≤ 256)) || (decide (321 ≤ dot) && decide (dot ≤ 336)) then
      v.bgPhase c ((dot - 1) % 8)
    else if 337 ≤ dot then v.dummyNt c dot
    else v
  v.mapPpu (.scrollDot dot)

/-! ### Sprite evaluation (48_ppu_pipeline.md R462-R465) -/

/-- The sprite height H (48_ppu_pipeline.md R463). -/
def PpuRegs.spriteHeight (r : PpuRegs) : Int := if r.sprH then 16 else 8

/-- `in_range(y)`: 0 <= line - y < H (48_ppu_pipeline.md R463). -/
def Ppu.inRange (p : Ppu) (y : Byte) : Bool :=
  decide (0 ≤ p.pos.line - y.toNat) && decide (p.pos.line - y.toNat < p.regs.spriteHeight)

/-- `NextSprite()` (48_ppu_pipeline.md R464). -/
def Evaluator.nextSprite (e : Evaluator) : Evaluator :=
  { e with n := e.n + 1, phase := if e.n + 1 = 0 then .done else e.phase }

/-- The evaluator restarted at dot 65 (48_ppu_pipeline.md R462). -/
def Evaluator.restart (e : Evaluator) : Evaluator :=
  { e with n := 0, m := 0, s := 0, found := 0, phase := .copy, zeroNext := false }

/-- A byte written to secondary OAM, which has 32 bytes (10_state.md R52; log entry 31). -/
def Ppu.writeSecOam (i : Nat) (d : Byte) (p : Ppu) : Ppu :=
  if i < 32 then { p with secOam := Memory.write p.secOam i d } else p

/-- The evaluator after a complete sprite is copied: `ev_m <- 0; ev_found <- ev_found + 1; NextSprite()`, then the
overflow phase when 8 are found (48_ppu_pipeline.md R464). `s`, the secondary-OAM slot of 10_state.md R56, follows
`found` (log entry 20). -/
def Evaluator.copied (e : Evaluator) : Evaluator :=
  let e := { e with m := 0, found := e.found + 1, s := e.found + 1 }.nextSprite
  { e with phase := if e.phase = .copy && e.found = 8 then .overflow else e.phase }

/-- The evaluator after the copy step of an even dot, `inRange` telling of the byte read (48_ppu_pipeline.md R464). -/
def Evaluator.copyStep (inRange : Bool) (e : Evaluator) : Evaluator :=
  if e.m = 0 then
    if inRange then { e with m := 1, zeroNext := e.zeroNext || e.n = 0 } else e.nextSprite
  else if e.m = 3 then e.copied
  else { e with m := e.m + 1 }

/-- The even-dot action of the evaluation (48_ppu_pipeline.md R464). -/
def Ppu.evalAct (p : Ppu) : Ppu :=
  let e := p.ev
  match e.phase with
  | .copy => { p.writeSecOam (4 * e.found + e.m.toNat) e.latch with ev := e.copyStep (p.inRange e.latch) }
  | .overflow =>
    if p.inRange e.latch then { p with regs := { p.regs with sov := true }, ev := { e with phase := .done } }
    else { p with ev := { e with m := e.m + 1 }.nextSprite }
  | .done => p

/-- The odd-dot read of the evaluation (48_ppu_pipeline.md R464). -/
def Ppu.evalRead (p : Ppu) : Ppu :=
  { p with ev := { p.ev with latch := Memory.read p.oam (4 * p.ev.n.toNat + p.ev.m.toNat) } }

/-- `SpriteEvalStep()` at dot `dot` of a visible line (48_ppu_pipeline.md R462, R464). -/
def Ppu.spriteEvalStep (dot : Nat) (p : Ppu) : Ppu :=
  if decide (2 ≤ dot) && decide (dot ≤ 64) then
    if dot % 2 = 0 then p.writeSecOam (dot / 2 - 1) 0xFF#8 else p
  else if decide (65 ≤ dot) && decide (dot ≤ 256) then
    let p := if dot = 65 then { p with ev := p.ev.restart } else p
    if dot % 2 = 1 then p.evalRead else p.evalAct
  else p

/-! ### Sprite fetch (48_ppu_pipeline.md R466-R470) -/

/-- `count`: the sprites the fetch of this line loads, none on the pre-render line (48_ppu_pipeline.md R466). -/
def Ppu.fetchCount (p : Ppu) : Nat := if 0 ≤ p.pos.line then p.ev.found else 0

/-- Byte `k` of secondary OAM entry `i`. -/
def Ppu.secByte (p : Ppu) (i k : Nat) : Byte := Memory.read p.secOam (4 * i + k)

/-- The row of the sprite in entry `i` that the next line shows, flipped if A[7] (48_ppu_pipeline.md R469; log entry
21 for rows outside 0..H-1). -/
def Ppu.spriteRow (p : Ppu) (i : Nat) : PpuAddr :=
  let r := p.pos.line - (p.secByte i 0).toNat
  BitVec.ofInt 14 (if (p.secByte i 2).getLsbD 7 then p.regs.spriteHeight - 1 - r else r)

/-- Sprite pattern-low address of slot `i`: occupied (48_ppu_pipeline.md R469) or empty (R467). -/
def Ppu.spritePatternAddr (p : Ppu) (i : Nat) : PpuAddr :=
  if i < p.fetchCount then
    let tile := p.secByte i 1
    let r := p.spriteRow i
    if p.regs.sprH then
      tableBase (tile.getLsbD 0) + (((tile &&& 0xFE#8).setWidth 14 + (r >>> 3)) <<< 4) + (r &&& 7#14)
    else tableBase p.regs.sprTbl + (tile.setWidth 14 <<< 4) + r
  else if p.regs.sprH then 0x1FE0#14
  else tableBase p.regs.sprTbl + 0x0FF0#14

/-- The slot loaded at phase 7 from the two pattern bytes (48_ppu_pipeline.md R467, R470). -/
def Ppu.loadedSlot (p : Ppu) (i : Nat) (lo hi : Byte) : SpriteSlot :=
  if i < p.fetchCount then
    let attr := p.secByte i 2
    let plane := fun d => if attr.getLsbD 6 then reverse8 d else d
    { lo := plane lo, hi := plane hi, attr := attr, x := (p.secByte i 3).toNat }
  else { lo := 0, hi := 0, attr := 0xFF#8, x := 255 }

/-- Load slot `i` (48_ppu_pipeline.md R466, phase 7). -/
def Ppu.loadSlot (i : Nat) (hi : Byte) (p : Ppu) : Ppu :=
  { p with spr := { p.spr with slots := p.spr.slots.set i (p.loadedSlot i p.spr.fetchLo hi) } }

/-- `sp_count` and `sprite0_on_line` set at dot 257 (48_ppu_pipeline.md R466). -/
def Ppu.startSprites (p : Ppu) : Ppu :=
  { p with spr := { p.spr with count := p.fetchCount, zeroOnLine := decide (0 < p.fetchCount) && p.ev.zeroNext } }

/-- Phase `q` of the fetch of slot `i` (48_ppu_pipeline.md R466). -/
def Video.spritePhase (c i q : Nat) (v : Video) : Video :=
  match q with
  | 0 => v.drive c (ntAddr v.ppu.regs.v)
  | 1 => v.fetch c (ntAddr v.ppu.regs.v) fun _ p => p
  | 2 => v.drive c (ntAddr v.ppu.regs.v)
  | 3 => v.fetch c (ntAddr v.ppu.regs.v) fun _ p => p
  | 4 => v.drive c (v.ppu.spritePatternAddr i)
  | 5 => v.fetch c (v.ppu.spritePatternAddr i) fun d p => { p with spr := { p.spr with fetchLo := d } }
  | 6 => v.drive c (v.ppu.spritePatternAddr i + 8#14)
  | _ => v.fetch c (v.ppu.spritePatternAddr i + 8#14) fun d => Ppu.loadSlot i d

/-- `SpriteFetchStep()` at dot `dot`, and OAMADDR forced to 0 (48_ppu_pipeline.md R466, R468). -/
def Video.spriteFetchStep (c dot : Nat) (v : Video) : Video :=
  if decide (257 ≤ dot) && decide (dot ≤ 320) then
    let v := if dot = 257 then v.mapPpu .startSprites else v
    let v := v.spritePhase c ((dot - 257) / 8) ((dot - 257) % 8)
    v.mapPpu (.mapRegs fun r => { r with oamAddr := 0 })
  else v

/-! ### The dot (48_ppu_pipeline.md R440) -/

/-- `VblankStart()` (48_ppu_pipeline.md R460). -/
def Ppu.vblankStart (p : Ppu) : Ppu :=
  { p with
    regs := { p.regs with vbl := p.regs.vbl || !p.pos.vblSuppress }
    pos := { p.pos with vblSuppress := false } }

/-- `PrerenderClear()` (48_ppu_pipeline.md R461). -/
def Ppu.prerenderClear (p : Ppu) : Ppu :=
  { p with
    regs := { p.regs with vbl := false, s0h := false, sov := false }
    pos := { p.pos with s0Delayed := false } }

/-- The flag events at the start of a dot (48_ppu_pipeline.md R440, R460, R461). -/
def Ppu.flagEvents (cfg : Config) (p : Ppu) : Ppu :=
  let p := if p.pos.atVblankStart cfg then p.vblankStart else p
  if p.pos.line = -1 && decide (p.pos.dot = 1) then p.prerenderClear else p

/-- Shift, compose and count down at dot `dot` of a rendering line (48_ppu_pipeline.md R440). -/
def Ppu.pixelStep (dot : Nat) (p : Ppu) : Ppu :=
  let on := p.regs.renderingEnabled
  let p := if on then p.mapBg (.shiftAndReload dot) else p
  if decide (1 ≤ dot) && decide (dot ≤ 256) && decide (0 ≤ p.pos.line) then
    let p := p.composePixel (dot - 1)
    if on then { p with spr := p.spr.decrement } else p
  else p

/-- The fetches of a dot with rendering enabled, in order: background, sprite evaluation (visible lines), sprite fetch
(48_ppu_pipeline.md R440). -/
def Video.fetchStep (c dot : Nat) (v : Video) : Video :=
  let v := v.backgroundStep c dot
  let v := if 0 ≤ v.ppu.pos.line then v.mapPpu (.spriteEvalStep dot) else v
  v.spriteFetchStep c dot

/-- What a rendering line does in a dot (48_ppu_pipeline.md R440, R445). -/
def Video.renderStep (c : Nat) (v : Video) : Video :=
  let dot := v.ppu.pos.dot
  let v := v.mapPpu (.pixelStep dot)
  if v.ppu.regs.renderingEnabled then v.fetchStep c dot else v

/-- A delayed sprite-0 hit becomes visible at dot 2 (48_ppu_pipeline.md R440, R475). -/
def Ppu.delayedHit (p : Ppu) : Ppu :=
  if p.pos.s0Delayed && decide (p.pos.dot = 2) then
    { p with regs := { p.regs with s0h := true }, pos := { p.pos with s0Delayed := false } }
  else p

/-- `Advance()` (48_ppu_pipeline.md R443). -/
def Position.advance (cfg : Config) (enabled : Bool) (p : Position) : Position :=
  if p.line = -1 && decide (p.dot = 339) && decide (cfg.region = .ntsc) && p.oddFrame && enabled then
    { p with line := 0, dot := 0 }
  else if p.dot < 340 then { p with dot := p.dot + 1 }
  else if p.line < cfg.region.numLines - 2 then { p with line := p.line + 1, dot := 0 }
  else { p with line := -1, dot := 0, oddFrame := !p.oddFrame }

/-- The PPU after `Advance()` (48_ppu_pipeline.md R443). -/
def Ppu.advance (cfg : Config) (p : Ppu) : Ppu := { p with pos := p.pos.advance cfg p.regs.renderingEnabled }

/-- `PpuDot()` in CPU cycle `c` (48_ppu_pipeline.md R440). -/
def Video.dot (cfg : Config) (c : Nat) (v : Video) : Video :=
  let v := v.mapPpu (.flagEvents cfg)
  let v := if v.ppu.pos.renderingLine cfg then v.renderStep c else v
  let v := v.mapPpu .delayedHit
  v.mapPpu (.advance cfg)

end Sys2Proof.Machine
end

