-- ==== Sys2Proof/Machine/Ops.lean ====
section
/-! DEFINITION. The operations every agent shares: the bus decoder (20_memory.md R110), one CPU cycle (R131), the
interrupt inputs and the poll (60_exceptions.md R520-R522), the OAM DMA controller (49_oam_dma.md), one cycle of the CPU
(40_addressing_modes.md R200), the interrupt sequence with its vector choice (60_exceptions.md R524, R526), the return
from it (40_addressing_modes.md R218), and reset (70_reset_and_hazards.md R561, R562). -/

namespace Sys2Proof.Machine

/-! ### Bus decoder (20_memory.md R110) -/

/-- The device an address selects (20_memory.md R110). -/
inductive Target
  | ram
  | ppu
  | apu
  | oamDma
  | pad0
  | pad1
  | testArea
  | mapper
  deriving DecidableEq, Repr

/-- The decoder of 20_memory.md R110, by range. -/
def target (a : Word) : Target :=
  let n := a.toNat
  if n < 0x2000 then .ram
  else if n < 0x4000 then .ppu
  else if n < 0x4014 then .apu
  else if n = 0x4014 then .oamDma
  else if n = 0x4015 then .apu
  else if n = 0x4016 then .pad0
  else if n = 0x4017 then .pad1
  else if n < 0x4020 then .testArea
  else .mapper

/-- The internal RAM index of an address: 2 KiB mirrored (20_memory.md R110). -/
def ramIndex (a : Word) : Nat := (a &&& 0x07FF#16).toNat

/-- The PPU port of an address: mirrored every 8 bytes (20_memory.md R110). -/
def portOf (a : Word) : BitVec 3 := a.setWidth 3

/-- The PPU side of the machine. -/
def State.video (s : State) : Video := { ppu := s.ppu, cart := s.cart }

/-- The machine with its PPU side replaced. -/
def State.withVideo (v : Video) (s : State) : State := { s with ppu := v.ppu, cart := v.cart }

/-- The controller read of $4016 and $4017: bits 4-0 answered, bits 7-5 open bus (20_memory.md R113). -/
def padValue (s : State) (a : Word) : Byte := (s.pads.answer Config.padAnswer a &&& 0x1F#8) ||| (s.cpuBus &&& 0xE0#8)

/-- The byte a read of address `a` returns (20_memory.md R110-R114). -/
def readValue (a : Word) (s : State) : Byte :=
  match target a with
  | .ram => Memory.read s.ram (ramIndex a)
  | .ppu => s.video.portValue s.cfg (portOf a)
  | .apu => s.apu.answer Config.apuAnswer a
  | .oamDma => s.ppu.bus.latch
  | .pad0 => padValue s a
  | .pad1 => padValue s a
  | .testArea => s.cpuBus
  | .mapper => (s.cart.readPrg a).getD s.cpuBus

/-- The side effect of a read of address `a` on the device (20_memory.md R110, R117). -/
def readEffect (a : Word) (s : State) : State :=
  match target a with
  | .ram => s
  | .ppu => s.withVideo (s.video.afterPort s.cfg s.cycle (portOf a))
  | .apu => { s with apu := s.apu.afterRead a }
  | .oamDma => s
  | .pad0 => { s with pads := s.pads.afterRead a }
  | .pad1 => { s with pads := s.pads.afterRead a }
  | .testArea => s
  | .mapper => { s with cart := s.cart.note (.readPrg a) }

/-- The start of an OAM DMA by a write of `d` to $4014 (49_oam_dma.md R500). -/
def Dma.start (d : Byte) (m : Dma) : Dma := { m with page := d, index := 0, step := .halt, active := true }

/-- The effect of a write of `d` to address `a` (20_memory.md R110; the $4016 and $4017 split of C5). -/
def writeEffect (a : Word) (d : Byte) (s : State) : State :=
  match target a with
  | .ram => { s with ram := Memory.write s.ram (ramIndex a) d }
  | .ppu => s.withVideo (s.video.writePort s.cfg s.cycle (portOf a) d)
  | .apu => { s with apu := s.apu.afterWrite a d }
  | .oamDma => { s with dma := s.dma.start d }
  | .pad0 => { s with pads := s.pads.afterWrite a d }
  | .pad1 => { s with apu := s.apu.afterWrite a d }
  | .testArea => s
  | .mapper => { s with cart := s.cart.writePrg a d }

/-- A bus primitive (00_scope.md R9). -/
inductive Act
  | read (a : Word)
  | write (a : Word) (d : Byte)
  | idle
  deriving DecidableEq, Repr

/-- The byte on the bus after a primitive: what a read returns, what a write sends; an idle cycle leaves the latch
(10_state.md R70). -/
def busValue (act : Act) (s : State) : Byte :=
  match act with
  | .read a => readValue a s
  | .write _ d => d
  | .idle => s.cpuBus

/-- The access of a cycle with its side effects, and the data-bus latch (20_memory.md R110, R131; 10_state.md R70). -/
def perform (act : Act) (s : State) : State :=
  match act with
  | .read a => { readEffect a s with cpuBus := readValue a s }
  | .write a d => { writeEffect a d s with cpuBus := d }
  | .idle => s

/-! ### One CPU cycle (20_memory.md R131) -/

/-- `apu.Tick(); controller.Tick()` (20_memory.md R131). -/
def tickDevices (s : State) : State := { s with apu := s.apu.tick, pads := s.pads.tick }

/-- One PPU dot (48_ppu_pipeline.md R440). -/
def ppuDot (s : State) : State := s.withVideo (s.video.dot s.cfg s.cycle)

/-- `SampleInterrupts()` (60_exceptions.md R520, R521). -/
def sampleInterrupts (s : State) : State :=
  let apuIrq := s.apuIrq.advance s.cycle
  let cart := { s.cart with irq := s.cart.irq.advance s.cycle }
  let n := s.ppu.nmiOut
  { s with
    apuIrq := apuIrq
    cart := cart
    arb := { s.arb with
      nmiLatch := s.arb.nmiLatch || (n && !s.arb.nmiPrev), nmiPrev := n, irqSample := apuIrq.level || cart.irqOut } }

/-- The cycle is a PAL long cycle of four dots (20_memory.md R131). -/
def longCycle (s : State) : Bool := decide (s.cfg.region = .pal) && decide (s.cycle % 5 = 4)

/-- `OpenBusDecay(n)` (47_ppu_registers.md R412). -/
def openBusDecay (n : Nat) (s : State) : State :=
  { s with ppu := { s.ppu with bus := s.ppu.bus.tick s.cfg.decayDots n } }

/-- The part of a cycle before its access: ticks, two dots, the interrupt sample (20_memory.md R131). -/
def beforeAccess (s : State) : State := sampleInterrupts (ppuDot (ppuDot (tickDevices s)))

/-- The dots of a cycle after its access: the third, and the fourth of a long cycle (20_memory.md R131). -/
def dotsAfter (s : State) : State := if longCycle s then ppuDot (ppuDot s) else ppuDot s

/-- The dots of a cycle (20_memory.md R131). -/
def cycleDots (s : State) : Nat := if longCycle s then 4 else 3

/-- The cycle count goes up by one (20_memory.md R131). -/
def countCycle (s : State) : State := { s with cycle := s.cycle + 1 }

/-- The part of a cycle after its access: its last dots, open-bus decay, the cycle count (20_memory.md R131). -/
def afterAccess (s : State) : State := countCycle (openBusDecay (cycleDots s) (dotsAfter s))

/-- The machine after one CPU cycle with the primitive `act` chooses at the access (20_memory.md R131). -/
def busCycle (act : State → Act) (s : State) : State := afterAccess (perform (act (beforeAccess s)) (beforeAccess s))

/-- The byte that cycle puts on the bus. -/
def busByte (act : State → Act) (s : State) : Byte := busValue (act (beforeAccess s)) (beforeAccess s)

/-! ### Host reset (70_reset_and_hazards.md R561) -/

/-- The host asserts reset at this cycle boundary (log entry 12). -/
def resetDue (s : State) : Bool :=
  match s.resetAt with
  | [] => false
  | n :: _ => decide (n ≤ s.cycle)

/-- The PPU at a warm reset: registers to their reset values, memories, A12 tracker and frame buffer kept
(70_reset_and_hazards.md R562, R563). -/
def Ppu.warmReset (p : Ppu) : Ppu :=
  { p with regs := .reset, bus := .reset, bg := .reset, spr := .reset, ev := .reset, pos := .reset }

/-- The machine when the host asserts reset: whatever the CPU was doing is abandoned, the arbitrator and the DMA are
cleared, the PPU takes its reset values, and the reset sequence is entered (70_reset_and_hazards.md R561-R563,
10_state.md R80). The spec leaves open what the sequencer's latches (R34) and an inactive DMA's page, index, step and data
(R62) hold after it; that they keep their values is the model's DESIGN CHOICE (log entries 39 and 40). -/
def warmReset (s : State) : State :=
  { s with
    cpu := { s.cpu with mode := .resetSeq, t := 1 }
    arb := { nmiPrev := false, nmiLatch := false, irqSample := false, pending := .none }
    dma := { s.dma with active := false }
    ppu := s.ppu.warmReset
    resetAt := s.resetAt.tail }

/-! ### OAM DMA (49_oam_dma.md R500-R507) -/

/-- The port $2004 that a DMA writes (49_oam_dma.md R502). -/
def oamDataPort : Word := 0x2004#16

/-- The primitive of a DMA cycle (49_oam_dma.md R502). -/
def dmaAct (s : State) : Act :=
  match s.dma.step with
  | .halt => .idle
  | .align => .idle
  | .read => .read (wordOf s.dma.page 0 + BitVec.ofNat 16 s.dma.index)
  | .write => .write oamDataPort s.dma.data

/-- The DMA controller after its cycle `cycle`, with `d` the byte read (49_oam_dma.md R502; log entry 16 for indexes
above 256). -/
def Dma.advance (cycle : Nat) (d : Byte) (m : Dma) : Dma :=
  match m.step with
  | .halt => { m with step := if cycle % 2 = 0 then .align else .read }
  | .align => { m with step := .read }
  | .read => { m with data := d, step := .write }
  | .write =>
    if 256 ≤ m.index + 1 then { m with index := m.index + 1, active := false }
    else { m with index := m.index + 1, step := .read }

/-- One DMA cycle: the DMA controller issues the cycle's primitive, the CPU is frozen (49_oam_dma.md R501, R502). -/
def dmaCycle (s : State) : State :=
  let s' := busCycle dmaAct s
  { s' with dma := s'.dma.advance s.cycle (busByte dmaAct s) }

/-- DMA cycles until the DMA is inactive or the host asserts reset, at most `fuel` (49_oam_dma.md R501). -/
def drainDma : Nat → State → State
  | 0, s => s
  | fuel + 1, s => if s.dma.active && !resetDue s then drainDma fuel (dmaCycle s) else s

/-- The most cycles a DMA takes: halt, alignment, 256 reads and writes (49_oam_dma.md R504). -/
def dmaFuel : Nat := 514

/-! ### One cycle of the CPU (40_addressing_modes.md R200) -/

/-- Where a cycle stands in its instruction or sequence: before the penultimate cycle, penultimate (the poll point of
40_addressing_modes.md R230), or last. -/
inductive CycleKind
  | mid
  | penult
  | last
  deriving DecidableEq, Repr

/-- The interrupt that the poll recognises (60_exceptions.md R522). -/
def polled (arb : Arbiter) (i : Bool) : Pending :=
  if arb.nmiLatch then .nmi
  else if !i && arb.irqSample then .irq
  else .none

/-- `Poll()` (60_exceptions.md R522), with I as it stands at the end of the cycle (40_addressing_modes.md R232). -/
def poll (s : State) : State := { s with arb := { s.arb with pending := polled s.arb s.cpu.p.i } }

/-- The mode after the last cycle of an instruction or sequence (40_addressing_modes.md R200). -/
def nextMode (mode : CpuMode) (pending : Pending) : CpuMode :=
  match mode with
  | .run =>
    match pending with
    | .none => .run
    | .irq => .intSeq .irq
    | .nmi => .intSeq .nmi
  | .intSeq _ => .run
  | .resetSeq => .run
  | .jammed => .jammed
  | .refused => .refused

/-- The end of a cycle: the poll of a penultimate one, the step to the next cycle or the next instruction
(40_addressing_modes.md R200). -/
def endCycle (kind : CycleKind) (s : State) : State :=
  match kind with
  | .mid => { s with cpu := { s.cpu with t := s.cpu.t + 1 } }
  | .penult => poll { s with cpu := { s.cpu with t := s.cpu.t + 1 } }
  | .last => { s with cpu := { s.cpu with t := 1, mode := nextMode s.cpu.mode s.arb.pending } }

/-- One cycle of the CPU: a running DMA first takes its cycles (49_oam_dma.md R501); then, unless the host asserts reset
at this boundary (the rest of the instruction is then abandoned), the bus cycle, the update with the byte on the bus,
and the end of the cycle (40_addressing_modes.md R200). -/
def cyc (kind : CycleKind) (act : State → Act) (upd : Byte → State → State) (s : State) : State :=
  let s := drainDma dmaFuel s
  if resetDue s then s else endCycle kind (upd (busByte act s) (busCycle act s))

/-- Update the CPU. -/
def State.mapCpu (f : Cpu → Cpu) (s : State) : State := { s with cpu := f s.cpu }

/-- A cycle whose primitive depends on the CPU registers and whose update changes only them. -/
def cpuCyc (kind : CycleKind) (act : Cpu → Act) (upd : Byte → Cpu → Cpu) (s : State) : State :=
  cyc kind (fun s => act s.cpu) (fun d => State.mapCpu (upd d)) s

/-! ### Stack (10_state.md R23) -/

/-- A read of PC. -/
def atPc (c : Cpu) : Act := .read c.pc

/-- A read of the stack slot S names. -/
def atStack (c : Cpu) : Act := .read (stackAddr c.s)

/-- A dummy read of PC (40_addressing_modes.md R221). -/
def dummyPc (kind : CycleKind) : State → State := cpuCyc kind atPc fun _ c => c

/-- A push: write $0100 + S, then decrement S (00_scope.md R10). -/
def push (kind : CycleKind) (value : Cpu → Byte) : State → State :=
  cpuCyc kind (fun c => .write (stackAddr c.s) (value c)) fun _ c => { c with s := c.s - 1 }

/-- The dummy stack read that precedes the pulls: read $0100 + S, then increment S (40_addressing_modes.md R215). -/
def stackUp (kind : CycleKind) : State → State := cpuCyc kind atStack fun _ c => { c with s := c.s + 1 }

/-! ### Interrupts (60_exceptions.md R523-R526) -/

/-- The vector's low address, chosen at the T6 access (60_exceptions.md R526; addresses of R523). -/
def vectorFor (kind : IntKind) (nmiLatch : Bool) : Word :=
  if decide (kind = .nmi) || nmiLatch then 0xFFFA#16 else 0xFFFE#16

/-- The B bit an interrupt pushes (10_state.md R31). -/
def pushedB (kind : IntKind) : Bool := decide (kind = .brk)

/-- T6: read the vector's low byte; I <- 1; the NMI latch is cleared if the NMI vector was chosen (60_exceptions.md
R524, R526). The choice is made with the latch as the cycle's sample left it, which the update still sees. -/
def vectorLow (kind : IntKind) : State → State :=
  cyc .mid (fun s => .read (vectorFor kind s.arb.nmiLatch)) fun d s =>
    { s with
      cpu := { s.cpu with adl := d, target := vectorFor kind s.arb.nmiLatch, p := { s.cpu.p with i := true } }
      arb := { s.arb with nmiLatch := false } }

/-- T7: read the vector's high byte; PC <- byte:adl; int_pending <- none (60_exceptions.md R524). The rule names no latch
for the byte; that it stands in `adh` too, as in the reset sequence, is the model's DESIGN CHOICE (log entry 42). -/
def vectorHigh : State → State :=
  cyc .last (fun s => .read (s.cpu.target + 1)) fun d s =>
    { s with
      cpu := { s.cpu with adh := d, pc := wordOf d s.cpu.adl }
      arb := { s.arb with pending := .none } }

/-- T3-T7 of the interrupt sequence: push PC high, PC low and P, then take the vector (60_exceptions.md R524). The one
operation by which BRK, IRQ and NMI are taken. -/
def takeInterrupt (kind : IntKind) (s : State) : State :=
  let s := push .mid (fun c => hiByte c.pc) s
  let s := push .mid (fun c => loByte c.pc) s
  let s := push .mid (fun c => c.p.toByte (pushedB kind)) s
  vectorHigh (vectorLow kind s)

/-- The two first cycles of an IRQ or NMI sequence: dummy reads of PC (60_exceptions.md R524). -/
def interruptEntry (s : State) : State := dummyPc .mid (dummyPc .mid s)

/-- T1 and T2 of BRK: opcode fetch and padding byte, PC advancing over both (40_addressing_modes.md R219,
60_exceptions.md R524). -/
def brkEntry (s : State) : State :=
  let s := cpuCyc .mid atPc (fun _ c => { c with opcode := 0x00#8, pc := c.pc + 1 }) s
  cpuCyc .mid atPc (fun _ c => { c with pc := c.pc + 1 }) s

/-- The 7-cycle interrupt sequence (60_exceptions.md R524). It does not poll (40_addressing_modes.md R231). -/
def interruptSequence (kind : IntKind) (s : State) : State :=
  match kind with
  | .brk => takeInterrupt .brk (brkEntry s)
  | .irq => takeInterrupt .irq (interruptEntry s)
  | .nmi => takeInterrupt .nmi (interruptEntry s)

/-- T3-T6 of RTI, the return from an interrupt: pull P, PC low, PC high (40_addressing_modes.md R218, 60_exceptions.md
R525). P is loaded at the end of T4, so the poll at T5 sees the restored I (R232). -/
def returnFromInterrupt (s : State) : State :=
  let s := stackUp .mid s
  let s := cpuCyc .mid atStack (fun d c => { c with p := .ofByte d, s := c.s + 1 }) s
  let s := cpuCyc .penult atStack (fun d c => { c with adl := d, s := c.s + 1 }) s
  cpuCyc .last atStack (fun d c => { c with adh := d, pc := wordOf d c.adl }) s

/-! ### The reset sequence and the jam (70_reset_and_hazards.md R561, 46_undocumented.md R371) -/

/-- A "dummy stack push" of the reset sequence: a read of $0100 + S, then S <- S - 1 (70_reset_and_hazards.md R561). -/
def dummyPush : State → State := cpuCyc .mid atStack fun _ c => { c with s := c.s - 1 }

/-- S after the reset sequence (70_reset_and_hazards.md R561, `RESET_S_POLICY`). -/
def resetS (policy : ResetSPolicy) (s : Byte) : Byte :=
  match policy with
  | .fixedFD => 0xFD#8
  | .decrement3 => s

/-- The 7-cycle reset sequence (70_reset_and_hazards.md R561). It does not poll (40_addressing_modes.md R231). -/
def resetSequence (s : State) : State :=
  let s := dummyPc .mid (dummyPc .mid s)
  let s := dummyPush (dummyPush (dummyPush s))
  let s := cpuCyc .mid (fun _ => .read 0xFFFC#16) (fun d c => { c with adl := d, p := { c.p with i := true } }) s
  cyc .last (fun _ => .read 0xFFFD#16)
    (fun d s => s.mapCpu fun c => { c with adh := d, pc := wordOf d c.adl, s := resetS s.cfg.resetS c.s }) s

/-- One cycle of the jammed CPU: idle, no poll (46_undocumented.md R371). `t` stays 1 (log entry 44). -/
def jamCycle : State → State := cpuCyc .last (fun _ => .idle) fun _ c => c

end Sys2Proof.Machine
end

