-- ==== Sys2Proof/Machine/Operands.lean ====
section
/-! DEFINITION. The cycle sequences of 40_addressing_modes.md: one operation per addressing mode and operation tag, from
the opcode fetch (T1) to the last cycle. Each takes the opcode byte, the operand bytes that the fetch cycles deliver
(log entry 2), and what the instruction does with its operand: `f` for a Read (operand byte, CPU at the end of the last
cycle), `v` for a Write (the byte stored), `op` for a read-modify-write (original byte: byte written back and CPU). -/

namespace Sys2Proof.Machine

/-! ### Fetch cycles -/

/-- T1: the opcode fetch (40_addressing_modes.md R201). -/
def fetchOp (kind : CycleKind) (op : Byte) : State → State :=
  cpuCyc kind atPc fun _ c => { c with opcode := op, pc := c.pc + 1 }

/-- An operand fetch: read PC, PC <- PC + 1, and the latches `store` fills. -/
def fetchOperand (kind : CycleKind) (store : Cpu → Cpu) : State → State :=
  cpuCyc kind atPc fun _ c => store { c with pc := c.pc + 1 }

/-! ### Index registers and effective addresses -/

/-- The index register of a mode (30_encoding.md R153). -/
inductive Index
  | x
  | y
  deriving DecidableEq, Repr

/-- The index register's value. -/
def Index.of (i : Index) (c : Cpu) : Byte :=
  match i with
  | .x => c.x
  | .y => c.y

/-- EA of the zero-page mode: $00:adl (40_addressing_modes.md R205). -/
def eaZp (c : Cpu) : Word := zeroPage c.adl

/-- EA of the indexed zero-page modes: $00:((base + i) mod 256) (40_addressing_modes.md R206). -/
def eaZpIndexed (i : Index) (c : Cpu) : Word := zeroPage (c.base + i.of c)

/-- EA of the absolute and (Indirect,X) modes: adh:adl (40_addressing_modes.md R207, R212). -/
def eaAbs (c : Cpu) : Word := wordOf c.adh c.adl

/-- The partial address of an indexed mode: adh:(adl + i mod 256), before the carry (40_addressing_modes.md R208,
R213). -/
def eaPartial (i : Index) (c : Cpu) : Word := wordOf c.adh (c.adl + i.of c)

/-- EA of an indexed absolute or (Indirect),Y mode: the carry fixed up (40_addressing_modes.md R208, R213). -/
def eaIndexed (i : Index) (c : Cpu) : Word := wordOf (c.adh + flagBit c.carryFix 1) (c.adl + i.of c)

/-! ### Last cycles by operation tag (40_addressing_modes.md R205) -/

/-- The data read: `data <- Read(EA)`. -/
def readData (kind : CycleKind) (ea : Cpu → Word) : State → State :=
  cpuCyc kind (fun c => .read (ea c)) fun d c => { c with data := d }

/-- A dummy read of an address (40_addressing_modes.md R221). -/
def dummyRead (kind : CycleKind) (ea : Cpu → Word) : State → State := cpuCyc kind (fun c => .read (ea c)) fun _ c => c

/-- Tag Read: read the operand and execute (last cycle). -/
def readTail (ea : Cpu → Word) (f : Byte → Cpu → Cpu) : State → State :=
  cpuCyc .last (fun c => .read (ea c)) fun d c => f d { c with data := d }

/-- Tag Write: write `v` (last cycle). -/
def writeTail (ea : Cpu → Word) (v : Cpu → Byte) : State → State :=
  cpuCyc .last (fun c => .write (ea c) (v c)) fun _ c => c

/-- Tag ReadModifyWrite: read, write the original while the result is formed, write the result and set registers and
flags (40_addressing_modes.md R205). The registers an operation reads do not change between its cycles. -/
def rmwTail (ea : Cpu → Word) (op : Byte → Cpu → Byte × Cpu) (s : State) : State :=
  let s := readData .mid ea s
  let m := s.cpu.data
  let s := cpuCyc .penult (fun c => .write (ea c) c.data) (fun _ c => { c with data := (op m c).1 }) s
  cpuCyc .last (fun c => .write (ea c) c.data) (fun _ c => (op m c).2) s

/-! ### Operand-less modes and immediate -/

/-- Implicit, 2 cycles (40_addressing_modes.md R202), and Accumulator (R203). -/
def implied (op : Byte) (f : Cpu → Cpu) (s : State) : State :=
  cpuCyc .last atPc (fun _ c => f c) (fetchOp .penult op s)

/-- Immediate, 2 cycles (40_addressing_modes.md R204). -/
def immediate (op imm : Byte) (f : Byte → Cpu → Cpu) (s : State) : State :=
  fetchOperand .last (fun c => f imm { c with data := imm }) (fetchOp .penult op s)

/-! ### Zero page (40_addressing_modes.md R205) -/

/-- T1 and T2: opcode and `adl`; `kind` is that of T2. -/
def openZp (op zp : Byte) (kind : CycleKind) (s : State) : State :=
  fetchOperand kind (fun c => { c with adl := zp }) (fetchOp .mid op s)

def zpRead (op zp : Byte) (f : Byte → Cpu → Cpu) (s : State) : State := readTail eaZp f (openZp op zp .penult s)
def zpWrite (op zp : Byte) (v : Cpu → Byte) (s : State) : State := writeTail eaZp v (openZp op zp .penult s)
def zpRmw (op zp : Byte) (f : Byte → Cpu → Byte × Cpu) (s : State) : State := rmwTail eaZp f (openZp op zp .mid s)

/-! ### Zero page indexed (40_addressing_modes.md R206) -/

/-- T1 to T3: opcode, `base`, the dummy read of the un-indexed address; `kind` is that of T3. -/
def openZpIndexed (op zp : Byte) (kind : CycleKind) (s : State) : State :=
  let s := fetchOperand .mid (fun c => { c with base := zp }) (fetchOp .mid op s)
  dummyRead kind (fun c => zeroPage c.base) s

def zpIndexedRead (i : Index) (op zp : Byte) (f : Byte → Cpu → Cpu) (s : State) : State :=
  readTail (eaZpIndexed i) f (openZpIndexed op zp .penult s)
def zpIndexedWrite (i : Index) (op zp : Byte) (v : Cpu → Byte) (s : State) : State :=
  writeTail (eaZpIndexed i) v (openZpIndexed op zp .penult s)
def zpIndexedRmw (i : Index) (op zp : Byte) (f : Byte → Cpu → Byte × Cpu) (s : State) : State :=
  rmwTail (eaZpIndexed i) f (openZpIndexed op zp .mid s)

/-! ### Absolute (40_addressing_modes.md R207) -/

/-- T1 to T3: opcode, `adl`, `adh`; `kind` is that of T3. -/
def openAbs (op : Byte) (addr : Word) (kind : CycleKind) (s : State) : State :=
  let s := fetchOperand .mid (fun c => { c with adl := loByte addr }) (fetchOp .mid op s)
  fetchOperand kind (fun c => { c with adh := hiByte addr }) s

def absRead (op : Byte) (addr : Word) (f : Byte → Cpu → Cpu) (s : State) : State :=
  readTail eaAbs f (openAbs op addr .penult s)
def absWrite (op : Byte) (addr : Word) (v : Cpu → Byte) (s : State) : State :=
  writeTail eaAbs v (openAbs op addr .penult s)
def absRmw (op : Byte) (addr : Word) (f : Byte → Cpu → Byte × Cpu) (s : State) : State :=
  rmwTail eaAbs f (openAbs op addr .mid s)

/-! ### Indexed with fix-up: the common end of Absolute,X, Absolute,Y and (Indirect),Y (40_addressing_modes.md R208,
R213) -/

/-- The kind of the cycle that fetches or reads `adh`, for a Read: the poll point when no page is crossed. -/
def beforePartial (cross : Bool) : CycleKind := if cross then .mid else .penult

/-- Tag Read: the partial address is the operand unless the page is crossed; then one more read at EA. -/
def indexedReadTail (i : Index) (f : Byte → Cpu → Cpu) (s : State) : State :=
  if s.cpu.carryFix then readTail (eaIndexed i) f (readData .penult (eaPartial i) s) else readTail (eaPartial i) f s

/-- Tag Write: the dummy read of the partial address, then the write. -/
def indexedWriteTail (i : Index) (v : Cpu → Byte) (s : State) : State :=
  writeTail (eaIndexed i) v (dummyRead .penult (eaPartial i) s)

/-- Tag ReadModifyWrite: the dummy read of the partial address, then read, write, write. -/
def indexedRmwTail (i : Index) (f : Byte → Cpu → Byte × Cpu) (s : State) : State :=
  rmwTail (eaIndexed i) f (dummyRead .mid (eaPartial i) s)

/-- T1 to T3 of an absolute indexed mode: opcode, `adl`, `adh` and `carry_fix` (40_addressing_modes.md R208). `kind`
gives T3's kind from the carry. That `carry_fix` is written at the end of T3 is DEDUCED (log entry 43). -/
def openAbsIndexed (i : Index) (op : Byte) (addr : Word) (kind : Bool → CycleKind) (s : State) : State :=
  let s := fetchOperand .mid (fun c => { c with adl := loByte addr }) (fetchOp .mid op s)
  let cross := pageCarry s.cpu.adl (i.of s.cpu)
  fetchOperand (kind cross) (fun c => { c with adh := hiByte addr, carryFix := cross }) s

def absIndexedRead (i : Index) (op : Byte) (addr : Word) (f : Byte → Cpu → Cpu) (s : State) : State :=
  indexedReadTail i f (openAbsIndexed i op addr beforePartial s)
def absIndexedWrite (i : Index) (op : Byte) (addr : Word) (v : Cpu → Byte) (s : State) : State :=
  indexedWriteTail i v (openAbsIndexed i op addr (fun _ => .mid) s)
def absIndexedRmw (i : Index) (op : Byte) (addr : Word) (f : Byte → Cpu → Byte × Cpu) (s : State) : State :=
  indexedRmwTail i f (openAbsIndexed i op addr (fun _ => .mid) s)

/-! ### (Indirect,X) (40_addressing_modes.md R212) -/

/-- T1 to T5: opcode, `base`, the dummy read, the two pointer reads in page 0; `kind` is that of T5. -/
def openIzx (op zp : Byte) (kind : CycleKind) (s : State) : State :=
  let s := fetchOperand .mid (fun c => { c with base := zp }) (fetchOp .mid op s)
  let s := dummyRead .mid (fun c => zeroPage c.base) s
  let s := cpuCyc .mid (fun c => .read (zeroPage (c.base + c.x))) (fun d c => { c with adl := d }) s
  cpuCyc kind (fun c => .read (zeroPage (c.base + c.x + 1))) (fun d c => { c with adh := d }) s

def izxRead (op zp : Byte) (f : Byte → Cpu → Cpu) (s : State) : State := readTail eaAbs f (openIzx op zp .penult s)
def izxWrite (op zp : Byte) (v : Cpu → Byte) (s : State) : State := writeTail eaAbs v (openIzx op zp .penult s)
def izxRmw (op zp : Byte) (f : Byte → Cpu → Byte × Cpu) (s : State) : State := rmwTail eaAbs f (openIzx op zp .mid s)

/-! ### (Indirect),Y (40_addressing_modes.md R213) -/

/-- T1 to T4: opcode, `base`, the two pointer reads in page 0, `carry_fix`, written at
the end of T4 (log entry 43). `kind` gives T4's kind from the carry. -/
def openIzy (op zp : Byte) (kind : Bool → CycleKind) (s : State) : State :=
  let s := fetchOperand .mid (fun c => { c with base := zp }) (fetchOp .mid op s)
  let s := cpuCyc .mid (fun c => .read (zeroPage c.base)) (fun d c => { c with adl := d }) s
  let cross := pageCarry s.cpu.adl s.cpu.y
  cpuCyc (kind cross) (fun c => .read (zeroPage (c.base + 1))) (fun d c => { c with adh := d, carryFix := cross }) s

def izyRead (op zp : Byte) (f : Byte → Cpu → Cpu) (s : State) : State :=
  indexedReadTail .y f (openIzy op zp beforePartial s)
def izyWrite (op zp : Byte) (v : Cpu → Byte) (s : State) : State :=
  indexedWriteTail .y v (openIzy op zp (fun _ => .mid) s)
def izyRmw (op zp : Byte) (f : Byte → Cpu → Byte × Cpu) (s : State) : State :=
  indexedRmwTail .y f (openIzy op zp (fun _ => .mid) s)

/-! ### Relative (40_addressing_modes.md R209) -/

/-- The kinds of T1 and T2 of a branch: the penultimate cycle is T1 if it is not taken, T2 if taken in the page, T3 if
taken across it (40_addressing_modes.md R209, R230). -/
def branchT1 (taken : Bool) : CycleKind := if taken then .mid else .penult
def branchT2 (taken cross : Bool) : CycleKind := if taken then (if cross then .mid else .penult) else .last

/-- The target of a branch from the address of the next instruction (44_control_flow.md, section 1). -/
def branchTarget (next : Word) (off : Byte) : Word := next + sext8 off

/-- A conditional branch: `taken` is the condition, evaluated on P (40_addressing_modes.md R209). -/
def relative (op off : Byte) (taken : Flags → Bool) (s : State) : State :=
  let go := taken s.cpu.p
  let s := fetchOp (branchT1 go) op s
  let next := s.cpu.pc + 1
  let target := branchTarget next off
  let cross := !samePage target next
  let s := fetchOperand (branchT2 go cross) (fun c => { c with data := off }) s
  if go then
    if cross then
      let s := cpuCyc .penult (fun _ => .idle) (fun _ c => { c with target := target }) s
      cpuCyc .last (fun _ => .idle) (fun _ c => { c with pc := c.target }) s
    else cpuCyc .last (fun _ => .idle) (fun _ c => { c with target := target, pc := target }) s
  else s

/-! ### Jumps and stack instructions -/

/-- JMP absolute, 3 cycles (40_addressing_modes.md R211). -/
def jumpAbs (op : Byte) (addr : Word) (s : State) : State :=
  let s := fetchOperand .penult (fun c => { c with adl := loByte addr }) (fetchOp .mid op s)
  cpuCyc .last atPc (fun _ c => { c with adh := hiByte addr, pc := wordOf (hiByte addr) c.adl }) s

/-- JMP indirect, 5 cycles (40_addressing_modes.md R210): the high byte comes from the pointer's own page. -/
def jumpInd (op : Byte) (ptr : Word) (s : State) : State :=
  let s := openAbs op ptr .mid s
  let s := readData .penult eaAbs s
  cpuCyc .last (fun c => .read (wordOf c.adh (c.adl + 1))) (fun d c => { c with pc := wordOf d c.data }) s

/-- T1 to T5 of JSR: opcode, `adl`, the dummy stack read, the two pushes of the address of its last byte
(40_addressing_modes.md R216). -/
def openJsr (op lo : Byte) (s : State) : State :=
  let s := fetchOperand .mid (fun c => { c with adl := lo }) (fetchOp .mid op s)
  let s := cpuCyc .mid atStack (fun _ c => c) s
  push .penult (fun c => loByte c.pc) (push .mid (fun c => hiByte c.pc) s)

/-- JSR, 6 cycles (40_addressing_modes.md R216): the high operand byte is fetched after the pushes. -/
def callAbs (op : Byte) (addr : Word) (s : State) : State :=
  cpuCyc .last atPc (fun _ c => { c with adh := hiByte addr, pc := wordOf (hiByte addr) c.adl })
    (openJsr op (loByte addr) s)

/-- RTS, 6 cycles (40_addressing_modes.md R217). -/
def returnSub (op : Byte) (s : State) : State :=
  let s := stackUp .mid (dummyPc .mid (fetchOp .mid op s))
  let s := cpuCyc .mid atStack (fun d c => { c with adl := d, s := c.s + 1 }) s
  let s := cpuCyc .penult atStack (fun d c => { c with adh := d, pc := wordOf d c.adl }) s
  cpuCyc .last atPc (fun _ c => { c with pc := c.pc + 1 }) s

/-- RTI, 6 cycles (40_addressing_modes.md R218). -/
def returnInt (op : Byte) (s : State) : State := returnFromInterrupt (dummyPc .mid (fetchOp .mid op s))

/-- PHA and PHP, 3 cycles (40_addressing_modes.md R214). -/
def pushReg (op : Byte) (value : Cpu → Byte) (s : State) : State :=
  push .last value (dummyPc .penult (fetchOp .mid op s))

/-- PLA and PLP, 4 cycles (40_addressing_modes.md R215). -/
def pullReg (op : Byte) (f : Byte → Cpu → Cpu) (s : State) : State :=
  cpuCyc .last atStack f (stackUp .penult (dummyPc .mid (fetchOp .mid op s)))

/-- STP: the opcode fetch, then the CPU is jammed; no poll (46_undocumented.md R371). `t` is 1 from
then on (log entry 44). -/
def jam (op : Byte) : State → State :=
  cpuCyc .last atPc fun _ c => { c with opcode := op, pc := c.pc + 1, mode := .jammed }

/-- An unstable opcode: the opcode fetch as a normal read, then mode `refused` with the opcode recorded; no step follows
(46_undocumented.md R370). `t` is 1 (log entry 44). -/
def refuse (op : Byte) : State → State :=
  cpuCyc .last atPc fun _ c => { c with opcode := op, pc := c.pc + 1, mode := .refused }

end Sys2Proof.Machine
end

