-- ==== Sys2Proof/Machine/Arith.lean ====
section
/-! DEFINITION. Add and subtract, tag Read (42_arithmetic_logic.md R261, R262): the meaning of each opcode, its cycles
those of its mode and tag (40_addressing_modes.md). -/

namespace Sys2Proof.Machine

open Host (Outcome)

/-- ADC (indirect,X), $61 (42_arithmetic_logic.md R261). -/
def execAdcIzx (zp : Byte) (s : State) : Outcome State Fault Refusal := .next (izxRead 0x61#8 zp Alu.adc s)

/-- ADC zero page, $65 (42_arithmetic_logic.md R261). -/
def execAdcZp (zp : Byte) (s : State) : Outcome State Fault Refusal := .next (zpRead 0x65#8 zp Alu.adc s)

/-- ADC immediate, $69 (42_arithmetic_logic.md R261). -/
def execAdcImm (imm : Byte) (s : State) : Outcome State Fault Refusal := .next (immediate 0x69#8 imm Alu.adc s)

/-- ADC absolute, $6D (42_arithmetic_logic.md R261). -/
def execAdcAbs (addr : Word) (s : State) : Outcome State Fault Refusal := .next (absRead 0x6D#8 addr Alu.adc s)

/-- ADC (indirect),Y, $71 (42_arithmetic_logic.md R261). -/
def execAdcIzy (zp : Byte) (s : State) : Outcome State Fault Refusal := .next (izyRead 0x71#8 zp Alu.adc s)

/-- ADC zero page,X, $75 (42_arithmetic_logic.md R261). -/
def execAdcZpx (zp : Byte) (s : State) : Outcome State Fault Refusal := .next (zpIndexedRead .x 0x75#8 zp Alu.adc s)

/-- ADC absolute,Y, $79 (42_arithmetic_logic.md R261). -/
def execAdcAby (addr : Word) (s : State) : Outcome State Fault Refusal :=
  .next (absIndexedRead .y 0x79#8 addr Alu.adc s)

/-- ADC absolute,X, $7D (42_arithmetic_logic.md R261). -/
def execAdcAbx (addr : Word) (s : State) : Outcome State Fault Refusal :=
  .next (absIndexedRead .x 0x7D#8 addr Alu.adc s)

/-- SBC (indirect,X), $E1 (42_arithmetic_logic.md R262). -/
def execSbcIzx (zp : Byte) (s : State) : Outcome State Fault Refusal := .next (izxRead 0xE1#8 zp Alu.sbc s)

/-- SBC zero page, $E5 (42_arithmetic_logic.md R262). -/
def execSbcZp (zp : Byte) (s : State) : Outcome State Fault Refusal := .next (zpRead 0xE5#8 zp Alu.sbc s)

/-- SBC immediate, $E9 (42_arithmetic_logic.md R262). -/
def execSbcImm (imm : Byte) (s : State) : Outcome State Fault Refusal := .next (immediate 0xE9#8 imm Alu.sbc s)

/-- SBC absolute, $ED (42_arithmetic_logic.md R262). -/
def execSbcAbs (addr : Word) (s : State) : Outcome State Fault Refusal := .next (absRead 0xED#8 addr Alu.sbc s)

/-- SBC (indirect),Y, $F1 (42_arithmetic_logic.md R262). -/
def execSbcIzy (zp : Byte) (s : State) : Outcome State Fault Refusal := .next (izyRead 0xF1#8 zp Alu.sbc s)

/-- SBC zero page,X, $F5 (42_arithmetic_logic.md R262). -/
def execSbcZpx (zp : Byte) (s : State) : Outcome State Fault Refusal := .next (zpIndexedRead .x 0xF5#8 zp Alu.sbc s)

/-- SBC absolute,Y, $F9 (42_arithmetic_logic.md R262). -/
def execSbcAby (addr : Word) (s : State) : Outcome State Fault Refusal :=
  .next (absIndexedRead .y 0xF9#8 addr Alu.sbc s)

/-- SBC absolute,X, $FD (42_arithmetic_logic.md R262). -/
def execSbcAbx (addr : Word) (s : State) : Outcome State Fault Refusal :=
  .next (absIndexedRead .x 0xFD#8 addr Alu.sbc s)

end Sys2Proof.Machine
end

