-- ==== Sys2Proof/Machine/Branch.lean ====
section
/-! DEFINITION. Conditional branches (44_control_flow.md R301-R308): the meaning of each opcode, its cycles those of
its mode and tag (40_addressing_modes.md). -/

namespace Sys2Proof.Machine

open Host (Outcome)

/-- BPL, $10: taken if N = 0 (44_control_flow.md R301). -/
def execBpl (off : Byte) (s : State) : Outcome State Fault Refusal := .next (relative 0x10#8 off (fun p => !p.n) s)

/-- BMI, $30: taken if N = 1 (44_control_flow.md R302). -/
def execBmi (off : Byte) (s : State) : Outcome State Fault Refusal := .next (relative 0x30#8 off (fun p => p.n) s)

/-- BVC, $50: taken if V = 0 (44_control_flow.md R303). -/
def execBvc (off : Byte) (s : State) : Outcome State Fault Refusal := .next (relative 0x50#8 off (fun p => !p.v) s)

/-- BVS, $70: taken if V = 1 (44_control_flow.md R304). -/
def execBvs (off : Byte) (s : State) : Outcome State Fault Refusal := .next (relative 0x70#8 off (fun p => p.v) s)

/-- BCC, $90: taken if C = 0 (44_control_flow.md R305). -/
def execBcc (off : Byte) (s : State) : Outcome State Fault Refusal := .next (relative 0x90#8 off (fun p => !p.c) s)

/-- BCS, $B0: taken if C = 1 (44_control_flow.md R306). -/
def execBcs (off : Byte) (s : State) : Outcome State Fault Refusal := .next (relative 0xB0#8 off (fun p => p.c) s)

/-- BNE, $D0: taken if Z = 0 (44_control_flow.md R307). -/
def execBne (off : Byte) (s : State) : Outcome State Fault Refusal := .next (relative 0xD0#8 off (fun p => !p.z) s)

/-- BEQ, $F0: taken if Z = 1 (44_control_flow.md R308). -/
def execBeq (off : Byte) (s : State) : Outcome State Fault Refusal := .next (relative 0xF0#8 off (fun p => p.z) s)

end Sys2Proof.Machine
end

