-- ==== Sys2Proof/Machine/Combined.lean ====
section
/-! DEFINITION. Stable combined undocumented opcodes with memory operands (46_undocumented.md R341-R348): the meaning
of each opcode, its cycles those of its mode and tag (40_addressing_modes.md). -/

namespace Sys2Proof.Machine

open Host (Outcome)

/-- SLO (indirect,X), $03 (46_undocumented.md R345). -/
def execSloIzx (zp : Byte) (s : State) : Outcome State Fault Refusal := .next (izxRmw 0x03#8 zp Alu.slo s)

/-- SLO zero page, $07 (46_undocumented.md R345). -/
def execSloZp (zp : Byte) (s : State) : Outcome State Fault Refusal := .next (zpRmw 0x07#8 zp Alu.slo s)

/-- SLO absolute, $0F (46_undocumented.md R345). -/
def execSloAbs (addr : Word) (s : State) : Outcome State Fault Refusal := .next (absRmw 0x0F#8 addr Alu.slo s)

/-- SLO (indirect),Y, $13 (46_undocumented.md R345). -/
def execSloIzy (zp : Byte) (s : State) : Outcome State Fault Refusal := .next (izyRmw 0x13#8 zp Alu.slo s)

/-- SLO zero page,X, $17 (46_undocumented.md R345). -/
def execSloZpx (zp : Byte) (s : State) : Outcome State Fault Refusal := .next (zpIndexedRmw .x 0x17#8 zp Alu.slo s)

/-- SLO absolute,Y, $1B (46_undocumented.md R345). -/
def execSloAby (addr : Word) (s : State) : Outcome State Fault Refusal :=
  .next (absIndexedRmw .y 0x1B#8 addr Alu.slo s)

/-- SLO absolute,X, $1F (46_undocumented.md R345). -/
def execSloAbx (addr : Word) (s : State) : Outcome State Fault Refusal :=
  .next (absIndexedRmw .x 0x1F#8 addr Alu.slo s)

/-- RLA (indirect,X), $23 (46_undocumented.md R346). -/
def execRlaIzx (zp : Byte) (s : State) : Outcome State Fault Refusal := .next (izxRmw 0x23#8 zp Alu.rla s)

/-- RLA zero page, $27 (46_undocumented.md R346). -/
def execRlaZp (zp : Byte) (s : State) : Outcome State Fault Refusal := .next (zpRmw 0x27#8 zp Alu.rla s)

/-- RLA absolute, $2F (46_undocumented.md R346). -/
def execRlaAbs (addr : Word) (s : State) : Outcome State Fault Refusal := .next (absRmw 0x2F#8 addr Alu.rla s)

/-- RLA (indirect),Y, $33 (46_undocumented.md R346). -/
def execRlaIzy (zp : Byte) (s : State) : Outcome State Fault Refusal := .next (izyRmw 0x33#8 zp Alu.rla s)

/-- RLA zero page,X, $37 (46_undocumented.md R346). -/
def execRlaZpx (zp : Byte) (s : State) : Outcome State Fault Refusal := .next (zpIndexedRmw .x 0x37#8 zp Alu.rla s)

/-- RLA absolute,Y, $3B (46_undocumented.md R346). -/
def execRlaAby (addr : Word) (s : State) : Outcome State Fault Refusal :=
  .next (absIndexedRmw .y 0x3B#8 addr Alu.rla s)

/-- RLA absolute,X, $3F (46_undocumented.md R346). -/
def execRlaAbx (addr : Word) (s : State) : Outcome State Fault Refusal :=
  .next (absIndexedRmw .x 0x3F#8 addr Alu.rla s)

/-- SRE (indirect,X), $43 (46_undocumented.md R347). -/
def execSreIzx (zp : Byte) (s : State) : Outcome State Fault Refusal := .next (izxRmw 0x43#8 zp Alu.sre s)

/-- SRE zero page, $47 (46_undocumented.md R347). -/
def execSreZp (zp : Byte) (s : State) : Outcome State Fault Refusal := .next (zpRmw 0x47#8 zp Alu.sre s)

/-- SRE absolute, $4F (46_undocumented.md R347). -/
def execSreAbs (addr : Word) (s : State) : Outcome State Fault Refusal := .next (absRmw 0x4F#8 addr Alu.sre s)

/-- SRE (indirect),Y, $53 (46_undocumented.md R347). -/
def execSreIzy (zp : Byte) (s : State) : Outcome State Fault Refusal := .next (izyRmw 0x53#8 zp Alu.sre s)

/-- SRE zero page,X, $57 (46_undocumented.md R347). -/
def execSreZpx (zp : Byte) (s : State) : Outcome State Fault Refusal := .next (zpIndexedRmw .x 0x57#8 zp Alu.sre s)

/-- SRE absolute,Y, $5B (46_undocumented.md R347). -/
def execSreAby (addr : Word) (s : State) : Outcome State Fault Refusal :=
  .next (absIndexedRmw .y 0x5B#8 addr Alu.sre s)

/-- SRE absolute,X, $5F (46_undocumented.md R347). -/
def execSreAbx (addr : Word) (s : State) : Outcome State Fault Refusal :=
  .next (absIndexedRmw .x 0x5F#8 addr Alu.sre s)

/-- RRA (indirect,X), $63 (46_undocumented.md R348). -/
def execRraIzx (zp : Byte) (s : State) : Outcome State Fault Refusal := .next (izxRmw 0x63#8 zp Alu.rra s)

/-- RRA zero page, $67 (46_undocumented.md R348). -/
def execRraZp (zp : Byte) (s : State) : Outcome State Fault Refusal := .next (zpRmw 0x67#8 zp Alu.rra s)

/-- RRA absolute, $6F (46_undocumented.md R348). -/
def execRraAbs (addr : Word) (s : State) : Outcome State Fault Refusal := .next (absRmw 0x6F#8 addr Alu.rra s)

/-- RRA (indirect),Y, $73 (46_undocumented.md R348). -/
def execRraIzy (zp : Byte) (s : State) : Outcome State Fault Refusal := .next (izyRmw 0x73#8 zp Alu.rra s)

/-- RRA zero page,X, $77 (46_undocumented.md R348). -/
def execRraZpx (zp : Byte) (s : State) : Outcome State Fault Refusal := .next (zpIndexedRmw .x 0x77#8 zp Alu.rra s)

/-- RRA absolute,Y, $7B (46_undocumented.md R348). -/
def execRraAby (addr : Word) (s : State) : Outcome State Fault Refusal :=
  .next (absIndexedRmw .y 0x7B#8 addr Alu.rra s)

/-- RRA absolute,X, $7F (46_undocumented.md R348). -/
def execRraAbx (addr : Word) (s : State) : Outcome State Fault Refusal :=
  .next (absIndexedRmw .x 0x7F#8 addr Alu.rra s)

/-- SAX (indirect,X), $83 (46_undocumented.md R342). -/
def execSaxIzx (zp : Byte) (s : State) : Outcome State Fault Refusal := .next (izxWrite 0x83#8 zp Alu.sax s)

/-- SAX zero page, $87 (46_undocumented.md R342). -/
def execSaxZp (zp : Byte) (s : State) : Outcome State Fault Refusal := .next (zpWrite 0x87#8 zp Alu.sax s)

/-- SAX absolute, $8F (46_undocumented.md R342). -/
def execSaxAbs (addr : Word) (s : State) : Outcome State Fault Refusal := .next (absWrite 0x8F#8 addr Alu.sax s)

/-- SAX zero page,Y, $97 (46_undocumented.md R342). -/
def execSaxZpy (zp : Byte) (s : State) : Outcome State Fault Refusal := .next (zpIndexedWrite .y 0x97#8 zp Alu.sax s)

/-- LAX (indirect,X), $A3 (46_undocumented.md R341). -/
def execLaxIzx (zp : Byte) (s : State) : Outcome State Fault Refusal := .next (izxRead 0xA3#8 zp Alu.lax s)

/-- LAX zero page, $A7 (46_undocumented.md R341). -/
def execLaxZp (zp : Byte) (s : State) : Outcome State Fault Refusal := .next (zpRead 0xA7#8 zp Alu.lax s)

/-- LAX absolute, $AF (46_undocumented.md R341). -/
def execLaxAbs (addr : Word) (s : State) : Outcome State Fault Refusal := .next (absRead 0xAF#8 addr Alu.lax s)

/-- LAX (indirect),Y, $B3 (46_undocumented.md R341). -/
def execLaxIzy (zp : Byte) (s : State) : Outcome State Fault Refusal := .next (izyRead 0xB3#8 zp Alu.lax s)

/-- LAX zero page,Y, $B7 (46_undocumented.md R341). -/
def execLaxZpy (zp : Byte) (s : State) : Outcome State Fault Refusal := .next (zpIndexedRead .y 0xB7#8 zp Alu.lax s)

/-- LAX absolute,Y, $BF (46_undocumented.md R341). -/
def execLaxAby (addr : Word) (s : State) : Outcome State Fault Refusal :=
  .next (absIndexedRead .y 0xBF#8 addr Alu.lax s)

/-- DCP (indirect,X), $C3 (46_undocumented.md R343). -/
def execDcpIzx (zp : Byte) (s : State) : Outcome State Fault Refusal := .next (izxRmw 0xC3#8 zp Alu.dcp s)

/-- DCP zero page, $C7 (46_undocumented.md R343). -/
def execDcpZp (zp : Byte) (s : State) : Outcome State Fault Refusal := .next (zpRmw 0xC7#8 zp Alu.dcp s)

/-- DCP absolute, $CF (46_undocumented.md R343). -/
def execDcpAbs (addr : Word) (s : State) : Outcome State Fault Refusal := .next (absRmw 0xCF#8 addr Alu.dcp s)

/-- DCP (indirect),Y, $D3 (46_undocumented.md R343). -/
def execDcpIzy (zp : Byte) (s : State) : Outcome State Fault Refusal := .next (izyRmw 0xD3#8 zp Alu.dcp s)

/-- DCP zero page,X, $D7 (46_undocumented.md R343). -/
def execDcpZpx (zp : Byte) (s : State) : Outcome State Fault Refusal := .next (zpIndexedRmw .x 0xD7#8 zp Alu.dcp s)

/-- DCP absolute,Y, $DB (46_undocumented.md R343). -/
def execDcpAby (addr : Word) (s : State) : Outcome State Fault Refusal :=
  .next (absIndexedRmw .y 0xDB#8 addr Alu.dcp s)

/-- DCP absolute,X, $DF (46_undocumented.md R343). -/
def execDcpAbx (addr : Word) (s : State) : Outcome State Fault Refusal :=
  .next (absIndexedRmw .x 0xDF#8 addr Alu.dcp s)

/-- ISB (indirect,X), $E3 (46_undocumented.md R344). -/
def execIsbIzx (zp : Byte) (s : State) : Outcome State Fault Refusal := .next (izxRmw 0xE3#8 zp Alu.isb s)

/-- ISB zero page, $E7 (46_undocumented.md R344). -/
def execIsbZp (zp : Byte) (s : State) : Outcome State Fault Refusal := .next (zpRmw 0xE7#8 zp Alu.isb s)

/-- ISB absolute, $EF (46_undocumented.md R344). -/
def execIsbAbs (addr : Word) (s : State) : Outcome State Fault Refusal := .next (absRmw 0xEF#8 addr Alu.isb s)

/-- ISB (indirect),Y, $F3 (46_undocumented.md R344). -/
def execIsbIzy (zp : Byte) (s : State) : Outcome State Fault Refusal := .next (izyRmw 0xF3#8 zp Alu.isb s)

/-- ISB zero page,X, $F7 (46_undocumented.md R344). -/
def execIsbZpx (zp : Byte) (s : State) : Outcome State Fault Refusal := .next (zpIndexedRmw .x 0xF7#8 zp Alu.isb s)

/-- ISB absolute,Y, $FB (46_undocumented.md R344). -/
def execIsbAby (addr : Word) (s : State) : Outcome State Fault Refusal :=
  .next (absIndexedRmw .y 0xFB#8 addr Alu.isb s)

/-- ISB absolute,X, $FF (46_undocumented.md R344). -/
def execIsbAbx (addr : Word) (s : State) : Outcome State Fault Refusal :=
  .next (absIndexedRmw .x 0xFF#8 addr Alu.isb s)

end Sys2Proof.Machine
end

