-- ==== Sys2Proof/Machine/Compare.lean ====
section
/-! DEFINITION. Compares and BIT, tag Read (42_arithmetic_logic.md R267-R270): the meaning of each opcode, its cycles
those of its mode and tag (40_addressing_modes.md). -/

namespace Sys2Proof.Machine

open Host (Outcome)

/-- BIT zero page, $24 (42_arithmetic_logic.md R270). -/
def execBitZp (zp : Byte) (s : State) : Outcome State Fault Refusal := .next (zpRead 0x24#8 zp Alu.bit s)

/-- BIT absolute, $2C (42_arithmetic_logic.md R270). -/
def execBitAbs (addr : Word) (s : State) : Outcome State Fault Refusal := .next (absRead 0x2C#8 addr Alu.bit s)

/-- CPY immediate, $C0 (42_arithmetic_logic.md R269). -/
def execCpyImm (imm : Byte) (s : State) : Outcome State Fault Refusal := .next (immediate 0xC0#8 imm Alu.cpy s)

/-- CMP (indirect,X), $C1 (42_arithmetic_logic.md R267). -/
def execCmpIzx (zp : Byte) (s : State) : Outcome State Fault Refusal := .next (izxRead 0xC1#8 zp Alu.cmp s)

/-- CPY zero page, $C4 (42_arithmetic_logic.md R269). -/
def execCpyZp (zp : Byte) (s : State) : Outcome State Fault Refusal := .next (zpRead 0xC4#8 zp Alu.cpy s)

/-- CMP zero page, $C5 (42_arithmetic_logic.md R267). -/
def execCmpZp (zp : Byte) (s : State) : Outcome State Fault Refusal := .next (zpRead 0xC5#8 zp Alu.cmp s)

/-- CMP immediate, $C9 (42_arithmetic_logic.md R267). -/
def execCmpImm (imm : Byte) (s : State) : Outcome State Fault Refusal := .next (immediate 0xC9#8 imm Alu.cmp s)

/-- CPY absolute, $CC (42_arithmetic_logic.md R269). -/
def execCpyAbs (addr : Word) (s : State) : Outcome State Fault Refusal := .next (absRead 0xCC#8 addr Alu.cpy s)

/-- CMP absolute, $CD (42_arithmetic_logic.md R267). -/
def execCmpAbs (addr : Word) (s : State) : Outcome State Fault Refusal := .next (absRead 0xCD#8 addr Alu.cmp s)

/-- CMP (indirect),Y, $D1 (42_arithmetic_logic.md R267). -/
def execCmpIzy (zp : Byte) (s : State) : Outcome State Fault Refusal := .next (izyRead 0xD1#8 zp Alu.cmp s)

/-- CMP zero page,X, $D5 (42_arithmetic_logic.md R267). -/
def execCmpZpx (zp : Byte) (s : State) : Outcome State Fault Refusal := .next (zpIndexedRead .x 0xD5#8 zp Alu.cmp s)

/-- CMP absolute,Y, $D9 (42_arithmetic_logic.md R267). -/
def execCmpAby (addr : Word) (s : State) : Outcome State Fault Refusal :=
  .next (absIndexedRead .y 0xD9#8 addr Alu.cmp s)

/-- CMP absolute,X, $DD (42_arithmetic_logic.md R267). -/
def execCmpAbx (addr : Word) (s : State) : Outcome State Fault Refusal :=
  .next (absIndexedRead .x 0xDD#8 addr Alu.cmp s)

/-- CPX immediate, $E0 (42_arithmetic_logic.md R268). -/
def execCpxImm (imm : Byte) (s : State) : Outcome State Fault Refusal := .next (immediate 0xE0#8 imm Alu.cpx s)

/-- CPX zero page, $E4 (42_arithmetic_logic.md R268). -/
def execCpxZp (zp : Byte) (s : State) : Outcome State Fault Refusal := .next (zpRead 0xE4#8 zp Alu.cpx s)

/-- CPX absolute, $EC (42_arithmetic_logic.md R268). -/
def execCpxAbs (addr : Word) (s : State) : Outcome State Fault Refusal := .next (absRead 0xEC#8 addr Alu.cpx s)

end Sys2Proof.Machine
end

