-- ==== Sys2Proof/Machine/FlagOps.lean ====
section
/-! DEFINITION. Flag instructions (45_stack_flags_nop.md R324-R330): the meaning of each opcode, its cycles those of
its mode and tag (40_addressing_modes.md). -/

namespace Sys2Proof.Machine

open Host (Outcome)

/-- CLC, $18 (45_stack_flags_nop.md R324). -/
def execClc (s : State) : Outcome State Fault Refusal :=
  .next (implied 0x18#8 (fun c => { c with p := { c.p with c := false } }) s)

/-- SEC, $38 (45_stack_flags_nop.md R325). -/
def execSec (s : State) : Outcome State Fault Refusal :=
  .next (implied 0x38#8 (fun c => { c with p := { c.p with c := true } }) s)

/-- CLI, $58 (45_stack_flags_nop.md R326). -/
def execCli (s : State) : Outcome State Fault Refusal :=
  .next (implied 0x58#8 (fun c => { c with p := { c.p with i := false } }) s)

/-- SEI, $78 (45_stack_flags_nop.md R327). -/
def execSei (s : State) : Outcome State Fault Refusal :=
  .next (implied 0x78#8 (fun c => { c with p := { c.p with i := true } }) s)

/-- CLV, $B8 (45_stack_flags_nop.md R330). -/
def execClv (s : State) : Outcome State Fault Refusal :=
  .next (implied 0xB8#8 (fun c => { c with p := { c.p with v := false } }) s)

/-- CLD, $D8 (45_stack_flags_nop.md R328). -/
def execCld (s : State) : Outcome State Fault Refusal :=
  .next (implied 0xD8#8 (fun c => { c with p := { c.p with d := false } }) s)

/-- SED, $F8 (45_stack_flags_nop.md R329). -/
def execSed (s : State) : Outcome State Fault Refusal :=
  .next (implied 0xF8#8 (fun c => { c with p := { c.p with d := true } }) s)

end Sys2Proof.Machine
end

