-- ==== Sys2Proof/Machine/IncDec.lean ====
section
/-! DEFINITION. Increments and decrements (42_arithmetic_logic.md R271-R276): the meaning of each opcode, its cycles
those of its mode and tag (40_addressing_modes.md). -/

namespace Sys2Proof.Machine

open Host (Outcome)

/-- DEY, $88 (42_arithmetic_logic.md R276). -/
def execDey (s : State) : Outcome State Fault Refusal := .next (implied 0x88#8 Alu.dey s)

/-- DEC zero page, $C6 (42_arithmetic_logic.md R272). -/
def execDecZp (zp : Byte) (s : State) : Outcome State Fault Refusal := .next (zpRmw 0xC6#8 zp Alu.dec s)

/-- INY, $C8 (42_arithmetic_logic.md R274). -/
def execIny (s : State) : Outcome State Fault Refusal := .next (implied 0xC8#8 Alu.iny s)

/-- DEX, $CA (42_arithmetic_logic.md R275). -/
def execDex (s : State) : Outcome State Fault Refusal := .next (implied 0xCA#8 Alu.dex s)

/-- DEC absolute, $CE (42_arithmetic_logic.md R272). -/
def execDecAbs (addr : Word) (s : State) : Outcome State Fault Refusal := .next (absRmw 0xCE#8 addr Alu.dec s)

/-- DEC zero page,X, $D6 (42_arithmetic_logic.md R272). -/
def execDecZpx (zp : Byte) (s : State) : Outcome State Fault Refusal := .next (zpIndexedRmw .x 0xD6#8 zp Alu.dec s)

/-- DEC absolute,X, $DE (42_arithmetic_logic.md R272). -/
def execDecAbx (addr : Word) (s : State) : Outcome State Fault Refusal :=
  .next (absIndexedRmw .x 0xDE#8 addr Alu.dec s)

/-- INC zero page, $E6 (42_arithmetic_logic.md R271). -/
def execIncZp (zp : Byte) (s : State) : Outcome State Fault Refusal := .next (zpRmw 0xE6#8 zp Alu.inc s)

/-- INX, $E8 (42_arithmetic_logic.md R273). -/
def execInx (s : State) : Outcome State Fault Refusal := .next (implied 0xE8#8 Alu.inx s)

/-- INC absolute, $EE (42_arithmetic_logic.md R271). -/
def execIncAbs (addr : Word) (s : State) : Outcome State Fault Refusal := .next (absRmw 0xEE#8 addr Alu.inc s)

/-- INC zero page,X, $F6 (42_arithmetic_logic.md R271). -/
def execIncZpx (zp : Byte) (s : State) : Outcome State Fault Refusal := .next (zpIndexedRmw .x 0xF6#8 zp Alu.inc s)

/-- INC absolute,X, $FE (42_arithmetic_logic.md R271). -/
def execIncAbx (addr : Word) (s : State) : Outcome State Fault Refusal :=
  .next (absIndexedRmw .x 0xFE#8 addr Alu.inc s)

end Sys2Proof.Machine
end

