-- ==== Sys2Proof/Machine/Jump.lean ====
section
/-! DEFINITION. Jumps, subroutines, BRK and RTI (44_control_flow.md R309-R314): the meaning of each opcode, its cycles
those of its mode and tag (40_addressing_modes.md). -/

namespace Sys2Proof.Machine

open Host (Outcome)

/-- BRK, $00 (44_control_flow.md R314). -/
def execBrk (s : State) : Outcome State Fault Refusal := .next (interruptSequence .brk s)

/-- JSR absolute, $20 (44_control_flow.md R311). -/
def execJsr (addr : Word) (s : State) : Outcome State Fault Refusal := .next (callAbs 0x20#8 addr s)

/-- RTI, $40 (44_control_flow.md R313). -/
def execRti (s : State) : Outcome State Fault Refusal := .next (returnInt 0x40#8 s)

/-- JMP absolute, $4C (44_control_flow.md R309). -/
def execJmpAbs (addr : Word) (s : State) : Outcome State Fault Refusal := .next (jumpAbs 0x4C#8 addr s)

/-- RTS, $60 (44_control_flow.md R312). -/
def execRts (s : State) : Outcome State Fault Refusal := .next (returnSub 0x60#8 s)

/-- JMP indirect, $6C (44_control_flow.md R310). -/
def execJmpInd (ptr : Word) (s : State) : Outcome State Fault Refusal := .next (jumpInd 0x6C#8 ptr s)

end Sys2Proof.Machine
end

