-- ==== Sys2Proof/Machine/Load.lean ====
section
/-! DEFINITION. Loads, tag Read (41_load_store_transfer.md R240-R242): the meaning of each opcode, its cycles those of
its mode and tag (40_addressing_modes.md). -/

namespace Sys2Proof.Machine

open Host (Outcome)

/-- LDY immediate, $A0 (41_load_store_transfer.md R242). -/
def execLdyImm (imm : Byte) (s : State) : Outcome State Fault Refusal := .next (immediate 0xA0#8 imm Alu.ldy s)

/-- LDA (indirect,X), $A1 (41_load_store_transfer.md R240). -/
def execLdaIzx (zp : Byte) (s : State) : Outcome State Fault Refusal := .next (izxRead 0xA1#8 zp Alu.lda s)

/-- LDX immediate, $A2 (41_load_store_transfer.md R241). -/
def execLdxImm (imm : Byte) (s : State) : Outcome State Fault Refusal := .next (immediate 0xA2#8 imm Alu.ldx s)

/-- LDY zero page, $A4 (41_load_store_transfer.md R242). -/
def execLdyZp (zp : Byte) (s : State) : Outcome State Fault Refusal := .next (zpRead 0xA4#8 zp Alu.ldy s)

/-- LDA zero page, $A5 (41_load_store_transfer.md R240). -/
def execLdaZp (zp : Byte) (s : State) : Outcome State Fault Refusal := .next (zpRead 0xA5#8 zp Alu.lda s)

/-- LDX zero page, $A6 (41_load_store_transfer.md R241). -/
def execLdxZp (zp : Byte) (s : State) : Outcome State Fault Refusal := .next (zpRead 0xA6#8 zp Alu.ldx s)

/-- LDA immediate, $A9 (41_load_store_transfer.md R240). -/
def execLdaImm (imm : Byte) (s : State) : Outcome State Fault Refusal := .next (immediate 0xA9#8 imm Alu.lda s)

/-- LDY absolute, $AC (41_load_store_transfer.md R242). -/
def execLdyAbs (addr : Word) (s : State) : Outcome State Fault Refusal := .next (absRead 0xAC#8 addr Alu.ldy s)

/-- LDA absolute, $AD (41_load_store_transfer.md R240). -/
def execLdaAbs (addr : Word) (s : State) : Outcome State Fault Refusal := .next (absRead 0xAD#8 addr Alu.lda s)

/-- LDX absolute, $AE (41_load_store_transfer.md R241). -/
def execLdxAbs (addr : Word) (s : State) : Outcome State Fault Refusal := .next (absRead 0xAE#8 addr Alu.ldx s)

/-- LDA (indirect),Y, $B1 (41_load_store_transfer.md R240). -/
def execLdaIzy (zp : Byte) (s : State) : Outcome State Fault Refusal := .next (izyRead 0xB1#8 zp Alu.lda s)

/-- LDY zero page,X, $B4 (41_load_store_transfer.md R242). -/
def execLdyZpx (zp : Byte) (s : State) : Outcome State Fault Refusal := .next (zpIndexedRead .x 0xB4#8 zp Alu.ldy s)

/-- LDA zero page,X, $B5 (41_load_store_transfer.md R240). -/
def execLdaZpx (zp : Byte) (s : State) : Outcome State Fault Refusal := .next (zpIndexedRead .x 0xB5#8 zp Alu.lda s)

/-- LDX zero page,Y, $B6 (41_load_store_transfer.md R241). -/
def execLdxZpy (zp : Byte) (s : State) : Outcome State Fault Refusal := .next (zpIndexedRead .y 0xB6#8 zp Alu.ldx s)

/-- LDA absolute,Y, $B9 (41_load_store_transfer.md R240). -/
def execLdaAby (addr : Word) (s : State) : Outcome State Fault Refusal :=
  .next (absIndexedRead .y 0xB9#8 addr Alu.lda s)

/-- LDY absolute,X, $BC (41_load_store_transfer.md R242). -/
def execLdyAbx (addr : Word) (s : State) : Outcome State Fault Refusal :=
  .next (absIndexedRead .x 0xBC#8 addr Alu.ldy s)

/-- LDA absolute,X, $BD (41_load_store_transfer.md R240). -/
def execLdaAbx (addr : Word) (s : State) : Outcome State Fault Refusal :=
  .next (absIndexedRead .x 0xBD#8 addr Alu.lda s)

/-- LDX absolute,Y, $BE (41_load_store_transfer.md R241). -/
def execLdxAby (addr : Word) (s : State) : Outcome State Fault Refusal :=
  .next (absIndexedRead .y 0xBE#8 addr Alu.ldx s)

end Sys2Proof.Machine
end

