-- ==== Sys2Proof/Machine/Logic.lean ====
section
/-! DEFINITION. Bitwise logic, tag Read (42_arithmetic_logic.md R263-R265): the meaning of each opcode, its cycles
those of its mode and tag (40_addressing_modes.md). -/

namespace Sys2Proof.Machine

open Host (Outcome)

/-- ORA (indirect,X), $01 (42_arithmetic_logic.md R264). -/
def execOraIzx (zp : Byte) (s : State) : Outcome State Fault Refusal := .next (izxRead 0x01#8 zp Alu.ora s)

/-- ORA zero page, $05 (42_arithmetic_logic.md R264). -/
def execOraZp (zp : Byte) (s : State) : Outcome State Fault Refusal := .next (zpRead 0x05#8 zp Alu.ora s)

/-- ORA immediate, $09 (42_arithmetic_logic.md R264). -/
def execOraImm (imm : Byte) (s : State) : Outcome State Fault Refusal := .next (immediate 0x09#8 imm Alu.ora s)

/-- ORA absolute, $0D (42_arithmetic_logic.md R264). -/
def execOraAbs (addr : Word) (s : State) : Outcome State Fault Refusal := .next (absRead 0x0D#8 addr Alu.ora s)

/-- ORA (indirect),Y, $11 (42_arithmetic_logic.md R264). -/
def execOraIzy (zp : Byte) (s : State) : Outcome State Fault Refusal := .next (izyRead 0x11#8 zp Alu.ora s)

/-- ORA zero page,X, $15 (42_arithmetic_logic.md R264). -/
def execOraZpx (zp : Byte) (s : State) : Outcome State Fault Refusal := .next (zpIndexedRead .x 0x15#8 zp Alu.ora s)

/-- ORA absolute,Y, $19 (42_arithmetic_logic.md R264). -/
def execOraAby (addr : Word) (s : State) : Outcome State Fault Refusal :=
  .next (absIndexedRead .y 0x19#8 addr Alu.ora s)

/-- ORA absolute,X, $1D (42_arithmetic_logic.md R264). -/
def execOraAbx (addr : Word) (s : State) : Outcome State Fault Refusal :=
  .next (absIndexedRead .x 0x1D#8 addr Alu.ora s)

/-- AND (indirect,X), $21 (42_arithmetic_logic.md R263). -/
def execAndIzx (zp : Byte) (s : State) : Outcome State Fault Refusal := .next (izxRead 0x21#8 zp Alu.and s)

/-- AND zero page, $25 (42_arithmetic_logic.md R263). -/
def execAndZp (zp : Byte) (s : State) : Outcome State Fault Refusal := .next (zpRead 0x25#8 zp Alu.and s)

/-- AND immediate, $29 (42_arithmetic_logic.md R263). -/
def execAndImm (imm : Byte) (s : State) : Outcome State Fault Refusal := .next (immediate 0x29#8 imm Alu.and s)

/-- AND absolute, $2D (42_arithmetic_logic.md R263). -/
def execAndAbs (addr : Word) (s : State) : Outcome State Fault Refusal := .next (absRead 0x2D#8 addr Alu.and s)

/-- AND (indirect),Y, $31 (42_arithmetic_logic.md R263). -/
def execAndIzy (zp : Byte) (s : State) : Outcome State Fault Refusal := .next (izyRead 0x31#8 zp Alu.and s)

/-- AND zero page,X, $35 (42_arithmetic_logic.md R263). -/
def execAndZpx (zp : Byte) (s : State) : Outcome State Fault Refusal := .next (zpIndexedRead .x 0x35#8 zp Alu.and s)

/-- AND absolute,Y, $39 (42_arithmetic_logic.md R263). -/
def execAndAby (addr : Word) (s : State) : Outcome State Fault Refusal :=
  .next (absIndexedRead .y 0x39#8 addr Alu.and s)

/-- AND absolute,X, $3D (42_arithmetic_logic.md R263). -/
def execAndAbx (addr : Word) (s : State) : Outcome State Fault Refusal :=
  .next (absIndexedRead .x 0x3D#8 addr Alu.and s)

/-- EOR (indirect,X), $41 (42_arithmetic_logic.md R265). -/
def execEorIzx (zp : Byte) (s : State) : Outcome State Fault Refusal := .next (izxRead 0x41#8 zp Alu.eor s)

/-- EOR zero page, $45 (42_arithmetic_logic.md R265). -/
def execEorZp (zp : Byte) (s : State) : Outcome State Fault Refusal := .next (zpRead 0x45#8 zp Alu.eor s)

/-- EOR immediate, $49 (42_arithmetic_logic.md R265). -/
def execEorImm (imm : Byte) (s : State) : Outcome State Fault Refusal := .next (immediate 0x49#8 imm Alu.eor s)

/-- EOR absolute, $4D (42_arithmetic_logic.md R265). -/
def execEorAbs (addr : Word) (s : State) : Outcome State Fault Refusal := .next (absRead 0x4D#8 addr Alu.eor s)

/-- EOR (indirect),Y, $51 (42_arithmetic_logic.md R265). -/
def execEorIzy (zp : Byte) (s : State) : Outcome State Fault Refusal := .next (izyRead 0x51#8 zp Alu.eor s)

/-- EOR zero page,X, $55 (42_arithmetic_logic.md R265). -/
def execEorZpx (zp : Byte) (s : State) : Outcome State Fault Refusal := .next (zpIndexedRead .x 0x55#8 zp Alu.eor s)

/-- EOR absolute,Y, $59 (42_arithmetic_logic.md R265). -/
def execEorAby (addr : Word) (s : State) : Outcome State Fault Refusal :=
  .next (absIndexedRead .y 0x59#8 addr Alu.eor s)

/-- EOR absolute,X, $5D (42_arithmetic_logic.md R265). -/
def execEorAbx (addr : Word) (s : State) : Outcome State Fault Refusal :=
  .next (absIndexedRead .x 0x5D#8 addr Alu.eor s)

end Sys2Proof.Machine
end

