-- ==== Sys2Proof/Syntax.lean ====
section
/-! DEFINITION. The instructions: one constructor per row of spec/opcode_table.json (30_encoding.md R155, R161),
named mnemonic then mode, with the opcode byte where several rows share both. The twelve STP rows (46_undocumented.md
R371) and the six undocumented implied NOP rows (R351) are one constructor each, whose field says which row: Lean's
runtime admits at most 244 constructors with fields (log entry 33). An operand is the operand byte, or the
16-bit operand of an absolute form, low byte first (R151). BRK's padding byte is skipped, not decoded (R314). -/

namespace Sys2Proof

/-- Which of the twelve STP opcodes (46_undocumented.md R371). -/
inductive StpRow
  | op02 | op12 | op22 | op32 | op42 | op52 | op62 | op72 | op92 | opB2 | opD2 | opF2
  deriving DecidableEq, Repr

/-- Which of the six undocumented implied NOPs (46_undocumented.md R351). -/
inductive NopRow
  | op1A | op3A | op5A | op7A | opDA | opFA
  deriving DecidableEq, Repr

/-- The instruction set of 30_encoding.md R155. -/
inductive Instr
  | brk
  | oraIzx (zp : Byte)
  | stp (row : StpRow)
  | sloIzx (zp : Byte)
  | nopZp04 (zp : Byte)
  | oraZp (zp : Byte)
  | aslZp (zp : Byte)
  | sloZp (zp : Byte)
  | php
  | oraImm (imm : Byte)
  | aslAcc
  | anc0B (imm : Byte)
  | nopAbs0C (addr : Word)
  | oraAbs (addr : Word)
  | aslAbs (addr : Word)
  | sloAbs (addr : Word)
  | bpl (off : Byte)
  | oraIzy (zp : Byte)
  | sloIzy (zp : Byte)
  | nopZpx14 (zp : Byte)
  | oraZpx (zp : Byte)
  | aslZpx (zp : Byte)
  | sloZpx (zp : Byte)
  | clc
  | oraAby (addr : Word)
  | nopImplied (row : NopRow)
  | sloAby (addr : Word)
  | nopAbx1C (addr : Word)
  | oraAbx (addr : Word)
  | aslAbx (addr : Word)
  | sloAbx (addr : Word)
  | jsr (addr : Word)
  | andIzx (zp : Byte)
  | rlaIzx (zp : Byte)
  | bitZp (zp : Byte)
  | andZp (zp : Byte)
  | rolZp (zp : Byte)
  | rlaZp (zp : Byte)
  | plp
  | andImm (imm : Byte)
  | rolAcc
  | anc2B (imm : Byte)
  | bitAbs (addr : Word)
  | andAbs (addr : Word)
  | rolAbs (addr : Word)
  | rlaAbs (addr : Word)
  | bmi (off : Byte)
  | andIzy (zp : Byte)
  | rlaIzy (zp : Byte)
  | nopZpx34 (zp : Byte)
  | andZpx (zp : Byte)
  | rolZpx (zp : Byte)
  | rlaZpx (zp : Byte)
  | sec
  | andAby (addr : Word)
  | rlaAby (addr : Word)
  | nopAbx3C (addr : Word)
  | andAbx (addr : Word)
  | rolAbx (addr : Word)
  | rlaAbx (addr : Word)
  | rti
  | eorIzx (zp : Byte)
  | sreIzx (zp : Byte)
  | nopZp44 (zp : Byte)
  | eorZp (zp : Byte)
  | lsrZp (zp : Byte)
  | sreZp (zp : Byte)
  | pha
  | eorImm (imm : Byte)
  | lsrAcc
  | alr (imm : Byte)
  | jmpAbs (addr : Word)
  | eorAbs (addr : Word)
  | lsrAbs (addr : Word)
  | sreAbs (addr : Word)
  | bvc (off : Byte)
  | eorIzy (zp : Byte)
  | sreIzy (zp : Byte)
  | nopZpx54 (zp : Byte)
  | eorZpx (zp : Byte)
  | lsrZpx (zp : Byte)
  | sreZpx (zp : Byte)
  | cli
  | eorAby (addr : Word)
  | sreAby (addr : Word)
  | nopAbx5C (addr : Word)
  | eorAbx (addr : Word)
  | lsrAbx (addr : Word)
  | sreAbx (addr : Word)
  | rts
  | adcIzx (zp : Byte)
  | rraIzx (zp : Byte)
  | nopZp64 (zp : Byte)
  | adcZp (zp : Byte)
  | rorZp (zp : Byte)
  | rraZp (zp : Byte)
  | pla
  | adcImm (imm : Byte)
  | rorAcc
  | arr (imm : Byte)
  | jmpInd (ptr : Word)
  | adcAbs (addr : Word)
  | rorAbs (addr : Word)
  | rraAbs (addr : Word)
  | bvs (off : Byte)
  | adcIzy (zp : Byte)
  | rraIzy (zp : Byte)
  | nopZpx74 (zp : Byte)
  | adcZpx (zp : Byte)
  | rorZpx (zp : Byte)
  | rraZpx (zp : Byte)
  | sei
  | adcAby (addr : Word)
  | rraAby (addr : Word)
  | nopAbx7C (addr : Word)
  | adcAbx (addr : Word)
  | rorAbx (addr : Word)
  | rraAbx (addr : Word)
  | nopImm80 (imm : Byte)
  | staIzx (zp : Byte)
  | nopImm82 (imm : Byte)
  | saxIzx (zp : Byte)
  | styZp (zp : Byte)
  | staZp (zp : Byte)
  | stxZp (zp : Byte)
  | saxZp (zp : Byte)
  | dey
  | nopImm89 (imm : Byte)
  | txa
  | xaa (imm : Byte)
  | styAbs (addr : Word)
  | staAbs (addr : Word)
  | stxAbs (addr : Word)
  | saxAbs (addr : Word)
  | bcc (off : Byte)
  | staIzy (zp : Byte)
  | ahxIzy (zp : Byte)
  | styZpx (zp : Byte)
  | staZpx (zp : Byte)
  | stxZpy (zp : Byte)
  | saxZpy (zp : Byte)
  | tya
  | staAby (addr : Word)
  | txs
  | tas (addr : Word)
  | shy (addr : Word)
  | staAbx (addr : Word)
  | shx (addr : Word)
  | ahxAby (addr : Word)
  | ldyImm (imm : Byte)
  | ldaIzx (zp : Byte)
  | ldxImm (imm : Byte)
  | laxIzx (zp : Byte)
  | ldyZp (zp : Byte)
  | ldaZp (zp : Byte)
  | ldxZp (zp : Byte)
  | laxZp (zp : Byte)
  | tay
  | ldaImm (imm : Byte)
  | tax
  | lxa (imm : Byte)
  | ldyAbs (addr : Word)
  | ldaAbs (addr : Word)
  | ldxAbs (addr : Word)
  | laxAbs (addr : Word)
  | bcs (off : Byte)
  | ldaIzy (zp : Byte)
  | laxIzy (zp : Byte)
  | ldyZpx (zp : Byte)
  | ldaZpx (zp : Byte)
  | ldxZpy (zp : Byte)
  | laxZpy (zp : Byte)
  | clv
  | ldaAby (addr : Word)
  | tsx
  | las (addr : Word)
  | ldyAbx (addr : Word)
  | ldaAbx (addr : Word)
  | ldxAby (addr : Word)
  | laxAby (addr : Word)
  | cpyImm (imm : Byte)
  | cmpIzx (zp : Byte)
  | nopImmC2 (imm : Byte)
  | dcpIzx (zp : Byte)
  | cpyZp (zp : Byte)
  | cmpZp (zp : Byte)
  | decZp (zp : Byte)
  | dcpZp (zp : Byte)
  | iny
  | cmpImm (imm : Byte)
  | dex
  | axs (imm : Byte)
  | cpyAbs (addr : Word)
  | cmpAbs (addr : Word)
  | decAbs (addr : Word)
  | dcpAbs (addr : Word)
  | bne (off : Byte)
  | cmpIzy (zp : Byte)
  | dcpIzy (zp : Byte)
  | nopZpxD4 (zp : Byte)
  | cmpZpx (zp : Byte)
  | decZpx (zp : Byte)
  | dcpZpx (zp : Byte)
  | cld
  | cmpAby (addr : Word)
  | dcpAby (addr : Word)
  | nopAbxDC (addr : Word)
  | cmpAbx (addr : Word)
  | decAbx (addr : Word)
  | dcpAbx (addr : Word)
  | cpxImm (imm : Byte)
  | sbcIzx (zp : Byte)
  | nopImmE2 (imm : Byte)
  | isbIzx (zp : Byte)
  | cpxZp (zp : Byte)
  | sbcZp (zp : Byte)
  | incZp (zp : Byte)
  | isbZp (zp : Byte)
  | inx
  | sbcImm (imm : Byte)
  | nop
  | usbc (imm : Byte)
  | cpxAbs (addr : Word)
  | sbcAbs (addr : Word)
  | incAbs (addr : Word)
  | isbAbs (addr : Word)
  | beq (off : Byte)
  | sbcIzy (zp : Byte)
  | isbIzy (zp : Byte)
  | nopZpxF4 (zp : Byte)
  | sbcZpx (zp : Byte)
  | incZpx (zp : Byte)
  | isbZpx (zp : Byte)
  | sed
  | sbcAby (addr : Word)
  | isbAby (addr : Word)
  | nopAbxFC (addr : Word)
  | sbcAbx (addr : Word)
  | incAbx (addr : Word)
  | isbAbx (addr : Word)
  deriving DecidableEq, Repr

end Sys2Proof
end

