-- ==== Sys2Proof/WellFormed.lean ====
section
/-! DEFINITION. Well-formedness. "The operand bytes of every instruction take all 256 values with no reserved
value" (30_encoding.md R157), and every operand is held in a bit vector of exactly its encoded width, so there is no
check to make: every term of `Instr` is well formed (log entry 32). -/

namespace Sys2Proof

/-- Every instruction term is encodable (30_encoding.md R157). -/
def Instr.wellFormed (_ : Instr) : Bool := true

end Sys2Proof
end

