-- ==== Sys2Proof/Decode.lean ====
section
/-! DEFINITION. The decoder (30_encoding.md R150-R158): the 256-entry table of R155, one list per row of that table
(opcode bits 7-4) with sixteen columns (bits 3-0), then the encoder and the host's table-word reader. -/

namespace Sys2Proof

open Machine

/-- Why bytes are not an instruction: the opcode byte or an operand byte is missing. No opcode byte is illegal
(30_encoding.md R157). -/
inductive DecodeError
  | empty
  | truncated (opcode : Byte)
  deriving DecidableEq, Repr

/-- An entry of the decode table: the instruction its opcode makes of the two following bytes. -/
abbrev DecodeEntry := Byte → Byte → Instr

/-- Opcodes $00-$0F (30_encoding.md R155). -/
def decodeRow0 : List DecodeEntry :=
  [ fun _ _ => .brk,
    fun b _ => .oraIzx b,
    fun _ _ => .stp .op02,
    fun b _ => .sloIzx b,
    fun b _ => .nopZp04 b,
    fun b _ => .oraZp b,
    fun b _ => .aslZp b,
    fun b _ => .sloZp b,
    fun _ _ => .php,
    fun b _ => .oraImm b,
    fun _ _ => .aslAcc,
    fun b _ => .anc0B b,
    fun b h => .nopAbs0C (wordOf h b),
    fun b h => .oraAbs (wordOf h b),
    fun b h => .aslAbs (wordOf h b),
    fun b h => .sloAbs (wordOf h b) ]

/-- Opcodes $10-$1F (30_encoding.md R155). -/
def decodeRow1 : List DecodeEntry :=
  [ fun b _ => .bpl b,
    fun b _ => .oraIzy b,
    fun _ _ => .stp .op12,
    fun b _ => .sloIzy b,
    fun b _ => .nopZpx14 b,
    fun b _ => .oraZpx b,
    fun b _ => .aslZpx b,
    fun b _ => .sloZpx b,
    fun _ _ => .clc,
    fun b h => .oraAby (wordOf h b),
    fun _ _ => .nopImplied .op1A,
    fun b h => .sloAby (wordOf h b),
    fun b h => .nopAbx1C (wordOf h b),
    fun b h => .oraAbx (wordOf h b),
    fun b h => .aslAbx (wordOf h b),
    fun b h => .sloAbx (wordOf h b) ]

/-- Opcodes $20-$2F (30_encoding.md R155). -/
def decodeRow2 : List DecodeEntry :=
  [ fun b h => .jsr (wordOf h b),
    fun b _ => .andIzx b,
    fun _ _ => .stp .op22,
    fun b _ => .rlaIzx b,
    fun b _ => .bitZp b,
    fun b _ => .andZp b,
    fun b _ => .rolZp b,
    fun b _ => .rlaZp b,
    fun _ _ => .plp,
    fun b _ => .andImm b,
    fun _ _ => .rolAcc,
    fun b _ => .anc2B b,
    fun b h => .bitAbs (wordOf h b),
    fun b h => .andAbs (wordOf h b),
    fun b h => .rolAbs (wordOf h b),
    fun b h => .rlaAbs (wordOf h b) ]

/-- Opcodes $30-$3F (30_encoding.md R155). -/
def decodeRow3 : List DecodeEntry :=
  [ fun b _ => .bmi b,
    fun b _ => .andIzy b,
    fun _ _ => .stp .op32,
    fun b _ => .rlaIzy b,
    fun b _ => .nopZpx34 b,
    fun b _ => .andZpx b,
    fun b _ => .rolZpx b,
    fun b _ => .rlaZpx b,
    fun _ _ => .sec,
    fun b h => .andAby (wordOf h b),
    fun _ _ => .nopImplied .op3A,
    fun b h => .rlaAby (wordOf h b),
    fun b h => .nopAbx3C (wordOf h b),
    fun b h => .andAbx (wordOf h b),
    fun b h => .rolAbx (wordOf h b),
    fun b h => .rlaAbx (wordOf h b) ]

/-- Opcodes $40-$4F (30_encoding.md R155). -/
def decodeRow4 : List DecodeEntry :=
  [ fun _ _ => .rti,
    fun b _ => .eorIzx b,
    fun _ _ => .stp .op42,
    fun b _ => .sreIzx b,
    fun b _ => .nopZp44 b,
    fun b _ => .eorZp b,
    fun b _ => .lsrZp b,
    fun b _ => .sreZp b,
    fun _ _ => .pha,
    fun b _ => .eorImm b,
    fun _ _ => .lsrAcc,
    fun b _ => .alr b,
    fun b h => .jmpAbs (wordOf h b),
    fun b h => .eorAbs (wordOf h b),
    fun b h => .lsrAbs (wordOf h b),
    fun b h => .sreAbs (wordOf h b) ]

/-- Opcodes $50-$5F (30_encoding.md R155). -/
def decodeRow5 : List DecodeEntry :=
  [ fun b _ => .bvc b,
    fun b _ => .eorIzy b,
    fun _ _ => .stp .op52,
    fun b _ => .sreIzy b,
    fun b _ => .nopZpx54 b,
    fun b _ => .eorZpx b,
    fun b _ => .lsrZpx b,
    fun b _ => .sreZpx b,
    fun _ _ => .cli,
    fun b h => .eorAby (wordOf h b),
    fun _ _ => .nopImplied .op5A,
    fun b h => .sreAby (wordOf h b),
    fun b h => .nopAbx5C (wordOf h b),
    fun b h => .eorAbx (wordOf h b),
    fun b h => .lsrAbx (wordOf h b),
    fun b h => .sreAbx (wordOf h b) ]

/-- Opcodes $60-$6F (30_encoding.md R155). -/
def decodeRow6 : List DecodeEntry :=
  [ fun _ _ => .rts,
    fun b _ => .adcIzx b,
    fun _ _ => .stp .op62,
    fun b _ => .rraIzx b,
    fun b _ => .nopZp64 b,
    fun b _ => .adcZp b,
    fun b _ => .rorZp b,
    fun b _ => .rraZp b,
    fun _ _ => .pla,
    fun b _ => .adcImm b,
    fun _ _ => .rorAcc,
    fun b _ => .arr b,
    fun b h => .jmpInd (wordOf h b),
    fun b h => .adcAbs (wordOf h b),
    fun b h => .rorAbs (wordOf h b),
    fun b h => .rraAbs (wordOf h b) ]

/-- Opcodes $70-$7F (30_encoding.md R155). -/
def decodeRow7 : List DecodeEntry :=
  [ fun b _ => .bvs b,
    fun b _ => .adcIzy b,
    fun _ _ => .stp .op72,
    fun b _ => .rraIzy b,
    fun b _ => .nopZpx74 b,
    fun b _ => .adcZpx b,
    fun b _ => .rorZpx b,
    fun b _ => .rraZpx b,
    fun _ _ => .sei,
    fun b h => .adcAby (wordOf h b),
    fun _ _ => .nopImplied .op7A,
    fun b h => .rraAby (wordOf h b),
    fun b h => .nopAbx7C (wordOf h b),
    fun b h => .adcAbx (wordOf h b),
    fun b h => .rorAbx (wordOf h b),
    fun b h => .rraAbx (wordOf h b) ]

/-- Opcodes $80-$8F (30_encoding.md R155). -/
def decodeRow8 : List DecodeEntry :=
  [ fun b _ => .nopImm80 b,
    fun b _ => .staIzx b,
    fun b _ => .nopImm82 b,
    fun b _ => .saxIzx b,
    fun b _ => .styZp b,
    fun b _ => .staZp b,
    fun b _ => .stxZp b,
    fun b _ => .saxZp b,
    fun _ _ => .dey,
    fun b _ => .nopImm89 b,
    fun _ _ => .txa,
    fun b _ => .xaa b,
    fun b h => .styAbs (wordOf h b),
    fun b h => .staAbs (wordOf h b),
    fun b h => .stxAbs (wordOf h b),
    fun b h => .saxAbs (wordOf h b) ]

/-- Opcodes $90-$9F (30_encoding.md R155). -/
def decodeRow9 : List DecodeEntry :=
  [ fun b _ => .bcc b,
    fun b _ => .staIzy b,
    fun _ _ => .stp .op92,
    fun b _ => .ahxIzy b,
    fun b _ => .styZpx b,
    fun b _ => .staZpx b,
    fun b _ => .stxZpy b,
    fun b _ => .saxZpy b,
    fun _ _ => .tya,
    fun b h => .staAby (wordOf h b),
    fun _ _ => .txs,
    fun b h => .tas (wordOf h b),
    fun b h => .shy (wordOf h b),
    fun b h => .staAbx (wordOf h b),
    fun b h => .shx (wordOf h b),
    fun b h => .ahxAby (wordOf h b) ]

/-- Opcodes $A0-$AF (30_encoding.md R155). -/
def decodeRowA : List DecodeEntry :=
  [ fun b _ => .ldyImm b,
    fun b _ => .ldaIzx b,
    fun b _ => .ldxImm b,
    fun b _ => .laxIzx b,
    fun b _ => .ldyZp b,
    fun b _ => .ldaZp b,
    fun b _ => .ldxZp b,
    fun b _ => .laxZp b,
    fun _ _ => .tay,
    fun b _ => .ldaImm b,
    fun _ _ => .tax,
    fun b _ => .lxa b,
    fun b h => .ldyAbs (wordOf h b),
    fun b h => .ldaAbs (wordOf h b),
    fun b h => .ldxAbs (wordOf h b),
    fun b h => .laxAbs (wordOf h b) ]

/-- Opcodes $B0-$BF (30_encoding.md R155). -/
def decodeRowB : List DecodeEntry :=
  [ fun b _ => .bcs b,
    fun b _ => .ldaIzy b,
    fun _ _ => .stp .opB2,
    fun b _ => .laxIzy b,
    fun b _ => .ldyZpx b,
    fun b _ => .ldaZpx b,
    fun b _ => .ldxZpy b,
    fun b _ => .laxZpy b,
    fun _ _ => .clv,
    fun b h => .ldaAby (wordOf h b),
    fun _ _ => .tsx,
    fun b h => .las (wordOf h b),
    fun b h => .ldyAbx (wordOf h b),
    fun b h => .ldaAbx (wordOf h b),
    fun b h => .ldxAby (wordOf h b),
    fun b h => .laxAby (wordOf h b) ]

/-- Opcodes $C0-$CF (30_encoding.md R155). -/
def decodeRowC : List DecodeEntry :=
  [ fun b _ => .cpyImm b,
    fun b _ => .cmpIzx b,
    fun b _ => .nopImmC2 b,
    fun b _ => .dcpIzx b,
    fun b _ => .cpyZp b,
    fun b _ => .cmpZp b,
    fun b _ => .decZp b,
    fun b _ => .dcpZp b,
    fun _ _ => .iny,
    fun b _ => .cmpImm b,
    fun _ _ => .dex,
    fun b _ => .axs b,
    fun b h => .cpyAbs (wordOf h b),
    fun b h => .cmpAbs (wordOf h b),
    fun b h => .decAbs (wordOf h b),
    fun b h => .dcpAbs (wordOf h b) ]

/-- Opcodes $D0-$DF (30_encoding.md R155). -/
def decodeRowD : List DecodeEntry :=
  [ fun b _ => .bne b,
    fun b _ => .cmpIzy b,
    fun _ _ => .stp .opD2,
    fun b _ => .dcpIzy b,
    fun b _ => .nopZpxD4 b,
    fun b _ => .cmpZpx b,
    fun b _ => .decZpx b,
    fun b _ => .dcpZpx b,
    fun _ _ => .cld,
    fun b h => .cmpAby (wordOf h b),
    fun _ _ => .nopImplied .opDA,
    fun b h => .dcpAby (wordOf h b),
    fun b h => .nopAbxDC (wordOf h b),
    fun b h => .cmpAbx (wordOf h b),
    fun b h => .decAbx (wordOf h b),
    fun b h => .dcpAbx (wordOf h b) ]

/-- Opcodes $E0-$EF (30_encoding.md R155). -/
def decodeRowE : List DecodeEntry :=
  [ fun b _ => .cpxImm b,
    fun b _ => .sbcIzx b,
    fun b _ => .nopImmE2 b,
    fun b _ => .isbIzx b,
    fun b _ => .cpxZp b,
    fun b _ => .sbcZp b,
    fun b _ => .incZp b,
    fun b _ => .isbZp b,
    fun _ _ => .inx,
    fun b _ => .sbcImm b,
    fun _ _ => .nop,
    fun b _ => .usbc b,
    fun b h => .cpxAbs (wordOf h b),
    fun b h => .sbcAbs (wordOf h b),
    fun b h => .incAbs (wordOf h b),
    fun b h => .isbAbs (wordOf h b) ]

/-- Opcodes $F0-$FF (30_encoding.md R155). -/
def decodeRowF : List DecodeEntry :=
  [ fun b _ => .beq b,
    fun b _ => .sbcIzy b,
    fun _ _ => .stp .opF2,
    fun b _ => .isbIzy b,
    fun b _ => .nopZpxF4 b,
    fun b _ => .sbcZpx b,
    fun b _ => .incZpx b,
    fun b _ => .isbZpx b,
    fun _ _ => .sed,
    fun b h => .sbcAby (wordOf h b),
    fun _ _ => .nopImplied .opFA,
    fun b h => .isbAby (wordOf h b),
    fun b h => .nopAbxFC (wordOf h b),
    fun b h => .sbcAbx (wordOf h b),
    fun b h => .incAbx (wordOf h b),
    fun b h => .isbAbx (wordOf h b) ]

/-- The decode table of 30_encoding.md R155, row by row. -/
def decodeTable : List (List DecodeEntry) :=
  [decodeRow0, decodeRow1, decodeRow2, decodeRow3] ++ [decodeRow4, decodeRow5, decodeRow6, decodeRow7]
    ++ [decodeRow8, decodeRow9, decodeRowA, decodeRowB] ++ [decodeRowC, decodeRowD, decodeRowE, decodeRowF]

/-- The instruction of an opcode byte and the two bytes after it (those its format has; 30_encoding.md R152). -/
def decodeOp (op b1 b2 : Byte) : Option Instr :=
  ((decodeTable[op.toNat / 16]?).bind (·[op.toNat % 16]?)).map fun entry => entry b1 b2

/-- The opcode byte of an STP row (46_undocumented.md R371). -/
def StpRow.opcode : StpRow → Byte
  | .op02 => 0x02#8
  | .op12 => 0x12#8
  | .op22 => 0x22#8
  | .op32 => 0x32#8
  | .op42 => 0x42#8
  | .op52 => 0x52#8
  | .op62 => 0x62#8
  | .op72 => 0x72#8
  | .op92 => 0x92#8
  | .opB2 => 0xB2#8
  | .opD2 => 0xD2#8
  | .opF2 => 0xF2#8

/-- The opcode byte of an undocumented implied NOP (46_undocumented.md R351). -/
def NopRow.opcode : NopRow → Byte
  | .op1A => 0x1A#8
  | .op3A => 0x3A#8
  | .op5A => 0x5A#8
  | .op7A => 0x7A#8
  | .opDA => 0xDA#8
  | .opFA => 0xFA#8

/-- The encoding of an instruction: its opcode byte, then its operand bytes, low byte first (30_encoding.md R151,
R161; 20_memory.md R101). -/
def encode : Instr → List Byte
  | .brk => [0x00#8]
  | .oraIzx b => [0x01#8, b]
  | .stp row => [row.opcode]
  | .sloIzx b => [0x03#8, b]
  | .nopZp04 b => [0x04#8, b]
  | .oraZp b => [0x05#8, b]
  | .aslZp b => [0x06#8, b]
  | .sloZp b => [0x07#8, b]
  | .php => [0x08#8]
  | .oraImm b => [0x09#8, b]
  | .aslAcc => [0x0A#8]
  | .anc0B b => [0x0B#8, b]
  | .nopAbs0C w => [0x0C#8, loByte w, hiByte w]
  | .oraAbs w => [0x0D#8, loByte w, hiByte w]
  | .aslAbs w => [0x0E#8, loByte w, hiByte w]
  | .sloAbs w => [0x0F#8, loByte w, hiByte w]
  | .bpl b => [0x10#8, b]
  | .oraIzy b => [0x11#8, b]
  | .sloIzy b => [0x13#8, b]
  | .nopZpx14 b => [0x14#8, b]
  | .oraZpx b => [0x15#8, b]
  | .aslZpx b => [0x16#8, b]
  | .sloZpx b => [0x17#8, b]
  | .clc => [0x18#8]
  | .oraAby w => [0x19#8, loByte w, hiByte w]
  | .nopImplied row => [row.opcode]
  | .sloAby w => [0x1B#8, loByte w, hiByte w]
  | .nopAbx1C w => [0x1C#8, loByte w, hiByte w]
  | .oraAbx w => [0x1D#8, loByte w, hiByte w]
  | .aslAbx w => [0x1E#8, loByte w, hiByte w]
  | .sloAbx w => [0x1F#8, loByte w, hiByte w]
  | .jsr w => [0x20#8, loByte w, hiByte w]
  | .andIzx b => [0x21#8, b]
  | .rlaIzx b => [0x23#8, b]
  | .bitZp b => [0x24#8, b]
  | .andZp b => [0x25#8, b]
  | .rolZp b => [0x26#8, b]
  | .rlaZp b => [0x27#8, b]
  | .plp => [0x28#8]
  | .andImm b => [0x29#8, b]
  | .rolAcc => [0x2A#8]
  | .anc2B b => [0x2B#8, b]
  | .bitAbs w => [0x2C#8, loByte w, hiByte w]
  | .andAbs w => [0x2D#8, loByte w, hiByte w]
  | .rolAbs w => [0x2E#8, loByte w, hiByte w]
  | .rlaAbs w => [0x2F#8, loByte w, hiByte w]
  | .bmi b => [0x30#8, b]
  | .andIzy b => [0x31#8, b]
  | .rlaIzy b => [0x33#8, b]
  | .nopZpx34 b => [0x34#8, b]
  | .andZpx b => [0x35#8, b]
  | .rolZpx b => [0x36#8, b]
  | .rlaZpx b => [0x37#8, b]
  | .sec => [0x38#8]
  | .andAby w => [0x39#8, loByte w, hiByte w]
  | .rlaAby w => [0x3B#8, loByte w, hiByte w]
  | .nopAbx3C w => [0x3C#8, loByte w, hiByte w]
  | .andAbx w => [0x3D#8, loByte w, hiByte w]
  | .rolAbx w => [0x3E#8, loByte w, hiByte w]
  | .rlaAbx w => [0x3F#8, loByte w, hiByte w]
  | .rti => [0x40#8]
  | .eorIzx b => [0x41#8, b]
  | .sreIzx b => [0x43#8, b]
  | .nopZp44 b => [0x44#8, b]
  | .eorZp b => [0x45#8, b]
  | .lsrZp b => [0x46#8, b]
  | .sreZp b => [0x47#8, b]
  | .pha => [0x48#8]
  | .eorImm b => [0x49#8, b]
  | .lsrAcc => [0x4A#8]
  | .alr b => [0x4B#8, b]
  | .jmpAbs w => [0x4C#8, loByte w, hiByte w]
  | .eorAbs w => [0x4D#8, loByte w, hiByte w]
  | .lsrAbs w => [0x4E#8, loByte w, hiByte w]
  | .sreAbs w => [0x4F#8, loByte w, hiByte w]
  | .bvc b => [0x50#8, b]
  | .eorIzy b => [0x51#8, b]
  | .sreIzy b => [0x53#8, b]
  | .nopZpx54 b => [0x54#8, b]
  | .eorZpx b => [0x55#8, b]
  | .lsrZpx b => [0x56#8, b]
  | .sreZpx b => [0x57#8, b]
  | .cli => [0x58#8]
  | .eorAby w => [0x59#8, loByte w, hiByte w]
  | .sreAby w => [0x5B#8, loByte w, hiByte w]
  | .nopAbx5C w => [0x5C#8, loByte w, hiByte w]
  | .eorAbx w => [0x5D#8, loByte w, hiByte w]
  | .lsrAbx w => [0x5E#8, loByte w, hiByte w]
  | .sreAbx w => [0x5F#8, loByte w, hiByte w]
  | .rts => [0x60#8]
  | .adcIzx b => [0x61#8, b]
  | .rraIzx b => [0x63#8, b]
  | .nopZp64 b => [0x64#8, b]
  | .adcZp b => [0x65#8, b]
  | .rorZp b => [0x66#8, b]
  | .rraZp b => [0x67#8, b]
  | .pla => [0x68#8]
  | .adcImm b => [0x69#8, b]
  | .rorAcc => [0x6A#8]
  | .arr b => [0x6B#8, b]
  | .jmpInd w => [0x6C#8, loByte w, hiByte w]
  | .adcAbs w => [0x6D#8, loByte w, hiByte w]
  | .rorAbs w => [0x6E#8, loByte w, hiByte w]
  | .rraAbs w => [0x6F#8, loByte w, hiByte w]
  | .bvs b => [0x70#8, b]
  | .adcIzy b => [0x71#8, b]
  | .rraIzy b => [0x73#8, b]
  | .nopZpx74 b => [0x74#8, b]
  | .adcZpx b => [0x75#8, b]
  | .rorZpx b => [0x76#8, b]
  | .rraZpx b => [0x77#8, b]
  | .sei => [0x78#8]
  | .adcAby w => [0x79#8, loByte w, hiByte w]
  | .rraAby w => [0x7B#8, loByte w, hiByte w]
  | .nopAbx7C w => [0x7C#8, loByte w, hiByte w]
  | .adcAbx w => [0x7D#8, loByte w, hiByte w]
  | .rorAbx w => [0x7E#8, loByte w, hiByte w]
  | .rraAbx w => [0x7F#8, loByte w, hiByte w]
  | .nopImm80 b => [0x80#8, b]
  | .staIzx b => [0x81#8, b]
  | .nopImm82 b => [0x82#8, b]
  | .saxIzx b => [0x83#8, b]
  | .styZp b => [0x84#8, b]
  | .staZp b => [0x85#8, b]
  | .stxZp b => [0x86#8, b]
  | .saxZp b => [0x87#8, b]
  | .dey => [0x88#8]
  | .nopImm89 b => [0x89#8, b]
  | .txa => [0x8A#8]
  | .xaa b => [0x8B#8, b]
  | .styAbs w => [0x8C#8, loByte w, hiByte w]
  | .staAbs w => [0x8D#8, loByte w, hiByte w]
  | .stxAbs w => [0x8E#8, loByte w, hiByte w]
  | .saxAbs w => [0x8F#8, loByte w, hiByte w]
  | .bcc b => [0x90#8, b]
  | .staIzy b => [0x91#8, b]
  | .ahxIzy b => [0x93#8, b]
  | .styZpx b => [0x94#8, b]
  | .staZpx b => [0x95#8, b]
  | .stxZpy b => [0x96#8, b]
  | .saxZpy b => [0x97#8, b]
  | .tya => [0x98#8]
  | .staAby w => [0x99#8, loByte w, hiByte w]
  | .txs => [0x9A#8]
  | .tas w => [0x9B#8, loByte w, hiByte w]
  | .shy w => [0x9C#8, loByte w, hiByte w]
  | .staAbx w => [0x9D#8, loByte w, hiByte w]
  | .shx w => [0x9E#8, loByte w, hiByte w]
  | .ahxAby w => [0x9F#8, loByte w, hiByte w]
  | .ldyImm b => [0xA0#8, b]
  | .ldaIzx b => [0xA1#8, b]
  | .ldxImm b => [0xA2#8, b]
  | .laxIzx b => [0xA3#8, b]
  | .ldyZp b => [0xA4#8, b]
  | .ldaZp b => [0xA5#8, b]
  | .ldxZp b => [0xA6#8, b]
  | .laxZp b => [0xA7#8, b]
  | .tay => [0xA8#8]
  | .ldaImm b => [0xA9#8, b]
  | .tax => [0xAA#8]
  | .lxa b => [0xAB#8, b]
  | .ldyAbs w => [0xAC#8, loByte w, hiByte w]
  | .ldaAbs w => [0xAD#8, loByte w, hiByte w]
  | .ldxAbs w => [0xAE#8, loByte w, hiByte w]
  | .laxAbs w => [0xAF#8, loByte w, hiByte w]
  | .bcs b => [0xB0#8, b]
  | .ldaIzy b => [0xB1#8, b]
  | .laxIzy b => [0xB3#8, b]
  | .ldyZpx b => [0xB4#8, b]
  | .ldaZpx b => [0xB5#8, b]
  | .ldxZpy b => [0xB6#8, b]
  | .laxZpy b => [0xB7#8, b]
  | .clv => [0xB8#8]
  | .ldaAby w => [0xB9#8, loByte w, hiByte w]
  | .tsx => [0xBA#8]
  | .las w => [0xBB#8, loByte w, hiByte w]
  | .ldyAbx w => [0xBC#8, loByte w, hiByte w]
  | .ldaAbx w => [0xBD#8, loByte w, hiByte w]
  | .ldxAby w => [0xBE#8, loByte w, hiByte w]
  | .laxAby w => [0xBF#8, loByte w, hiByte w]
  | .cpyImm b => [0xC0#8, b]
  | .cmpIzx b => [0xC1#8, b]
  | .nopImmC2 b => [0xC2#8, b]
  | .dcpIzx b => [0xC3#8, b]
  | .cpyZp b => [0xC4#8, b]
  | .cmpZp b => [0xC5#8, b]
  | .decZp b => [0xC6#8, b]
  | .dcpZp b => [0xC7#8, b]
  | .iny => [0xC8#8]
  | .cmpImm b => [0xC9#8, b]
  | .dex => [0xCA#8]
  | .axs b => [0xCB#8, b]
  | .cpyAbs w => [0xCC#8, loByte w, hiByte w]
  | .cmpAbs w => [0xCD#8, loByte w, hiByte w]
  | .decAbs w => [0xCE#8, loByte w, hiByte w]
  | .dcpAbs w => [0xCF#8, loByte w, hiByte w]
  | .bne b => [0xD0#8, b]
  | .cmpIzy b => [0xD1#8, b]
  | .dcpIzy b => [0xD3#8, b]
  | .nopZpxD4 b => [0xD4#8, b]
  | .cmpZpx b => [0xD5#8, b]
  | .decZpx b => [0xD6#8, b]
  | .dcpZpx b => [0xD7#8, b]
  | .cld => [0xD8#8]
  | .cmpAby w => [0xD9#8, loByte w, hiByte w]
  | .dcpAby w => [0xDB#8, loByte w, hiByte w]
  | .nopAbxDC w => [0xDC#8, loByte w, hiByte w]
  | .cmpAbx w => [0xDD#8, loByte w, hiByte w]
  | .decAbx w => [0xDE#8, loByte w, hiByte w]
  | .dcpAbx w => [0xDF#8, loByte w, hiByte w]
  | .cpxImm b => [0xE0#8, b]
  | .sbcIzx b => [0xE1#8, b]
  | .nopImmE2 b => [0xE2#8, b]
  | .isbIzx b => [0xE3#8, b]
  | .cpxZp b => [0xE4#8, b]
  | .sbcZp b => [0xE5#8, b]
  | .incZp b => [0xE6#8, b]
  | .isbZp b => [0xE7#8, b]
  | .inx => [0xE8#8]
  | .sbcImm b => [0xE9#8, b]
  | .nop => [0xEA#8]
  | .usbc b => [0xEB#8, b]
  | .cpxAbs w => [0xEC#8, loByte w, hiByte w]
  | .sbcAbs w => [0xED#8, loByte w, hiByte w]
  | .incAbs w => [0xEE#8, loByte w, hiByte w]
  | .isbAbs w => [0xEF#8, loByte w, hiByte w]
  | .beq b => [0xF0#8, b]
  | .sbcIzy b => [0xF1#8, b]
  | .isbIzy b => [0xF3#8, b]
  | .nopZpxF4 b => [0xF4#8, b]
  | .sbcZpx b => [0xF5#8, b]
  | .incZpx b => [0xF6#8, b]
  | .isbZpx b => [0xF7#8, b]
  | .sed => [0xF8#8]
  | .sbcAby w => [0xF9#8, loByte w, hiByte w]
  | .isbAby w => [0xFB#8, loByte w, hiByte w]
  | .nopAbxFC w => [0xFC#8, loByte w, hiByte w]
  | .sbcAbx w => [0xFD#8, loByte w, hiByte w]
  | .incAbx w => [0xFE#8, loByte w, hiByte w]
  | .isbAbx w => [0xFF#8, loByte w, hiByte w]

/-- The opcode byte of an instruction. -/
def Instr.opcode (i : Instr) : Byte := (encode i).headD 0

/-- The length in bytes: 1, 2 or 3 by the mode (30_encoding.md R151, R158). -/
def Instr.length (i : Instr) : Nat := (encode i).length

/-- The length an opcode byte announces (30_encoding.md R158). -/
def opcodeLength (op : Byte) : Nat := ((decodeOp op 0 0).map Instr.length).getD 0

/-- The first instruction of a byte list, with the bytes after it; a list too short for its opcode is rejected by
name (30_encoding.md R150, R158). -/
def decode : List Byte → Except DecodeError (Instr × List Byte)
  | [] => .error .empty
  | op :: rest =>
    if rest.length + 1 < opcodeLength op then .error (.truncated op)
    else
      match decodeOp op (rest.getD 0 0) (rest.getD 1 0) with
      | some i => .ok (i, rest.drop (opcodeLength op - 1))
      | none => .error (.truncated op)

/-- The `k` bytes of a table word, the first byte in bits 7-0, bits at and above `nbits` zero (host's numbering). -/
def tableBytes (nbits w : Nat) : Nat → List Byte
  | 0 => []
  | k + 1 => BitVec.ofNat 8 (w % 2 ^ nbits) :: tableBytes (nbits - 8) (w % 2 ^ nbits / 256) k

/-- The instruction the decoder reads from a row's word: its bytes in memory order, up to the longest instruction. -/
def decodeTableWord (nbits w : Nat) : Option Instr :=
  match decode (tableBytes nbits w 3) with
  | .ok (i, _) => some i
  | .error _ => none

end Sys2Proof
end

