-- ==== Sys2Proof/Machine/Nop.lean ====
section
/-! DEFINITION. NOP and its undocumented variants (45_stack_flags_nop.md R331, 46_undocumented.md R351-R353): the
meaning of each opcode, its cycles those of its mode and tag (40_addressing_modes.md). -/

namespace Sys2Proof.Machine

open Host (Outcome)

/-- NOP zero page, $04 (46_undocumented.md R353). -/
def execNopZp04 (zp : Byte) (s : State) : Outcome State Fault Refusal := .next (zpRead 0x04#8 zp Alu.nop s)

/-- NOP absolute, $0C (46_undocumented.md R353). -/
def execNopAbs0C (addr : Word) (s : State) : Outcome State Fault Refusal := .next (absRead 0x0C#8 addr Alu.nop s)

/-- NOP zero page,X, $14 (46_undocumented.md R353). -/
def execNopZpx14 (zp : Byte) (s : State) : Outcome State Fault Refusal := .next (zpIndexedRead .x 0x14#8 zp Alu.nop s)

/-- NOP, $1A, $3A, $5A, $7A, $DA, $FA (46_undocumented.md R351). -/
def execNopImplied (row : NopRow) (s : State) : Outcome State Fault Refusal :=
  .next (implied row.opcode (fun c => c) s)

/-- NOP absolute,X, $1C (46_undocumented.md R353). -/
def execNopAbx1C (addr : Word) (s : State) : Outcome State Fault Refusal :=
  .next (absIndexedRead .x 0x1C#8 addr Alu.nop s)

/-- NOP zero page,X, $34 (46_undocumented.md R353). -/
def execNopZpx34 (zp : Byte) (s : State) : Outcome State Fault Refusal := .next (zpIndexedRead .x 0x34#8 zp Alu.nop s)

/-- NOP absolute,X, $3C (46_undocumented.md R353). -/
def execNopAbx3C (addr : Word) (s : State) : Outcome State Fault Refusal :=
  .next (absIndexedRead .x 0x3C#8 addr Alu.nop s)

/-- NOP zero page, $44 (46_undocumented.md R353). -/
def execNopZp44 (zp : Byte) (s : State) : Outcome State Fault Refusal := .next (zpRead 0x44#8 zp Alu.nop s)

/-- NOP zero page,X, $54 (46_undocumented.md R353). -/
def execNopZpx54 (zp : Byte) (s : State) : Outcome State Fault Refusal := .next (zpIndexedRead .x 0x54#8 zp Alu.nop s)

/-- NOP absolute,X, $5C (46_undocumented.md R353). -/
def execNopAbx5C (addr : Word) (s : State) : Outcome State Fault Refusal :=
  .next (absIndexedRead .x 0x5C#8 addr Alu.nop s)

/-- NOP zero page, $64 (46_undocumented.md R353). -/
def execNopZp64 (zp : Byte) (s : State) : Outcome State Fault Refusal := .next (zpRead 0x64#8 zp Alu.nop s)

/-- NOP zero page,X, $74 (46_undocumented.md R353). -/
def execNopZpx74 (zp : Byte) (s : State) : Outcome State Fault Refusal := .next (zpIndexedRead .x 0x74#8 zp Alu.nop s)

/-- NOP absolute,X, $7C (46_undocumented.md R353). -/
def execNopAbx7C (addr : Word) (s : State) : Outcome State Fault Refusal :=
  .next (absIndexedRead .x 0x7C#8 addr Alu.nop s)

/-- NOP immediate, $80 (46_undocumented.md R352). -/
def execNopImm80 (imm : Byte) (s : State) : Outcome State Fault Refusal := .next (immediate 0x80#8 imm Alu.nop s)

/-- NOP immediate, $82 (46_undocumented.md R352). -/
def execNopImm82 (imm : Byte) (s : State) : Outcome State Fault Refusal := .next (immediate 0x82#8 imm Alu.nop s)

/-- NOP immediate, $89 (46_undocumented.md R352). -/
def execNopImm89 (imm : Byte) (s : State) : Outcome State Fault Refusal := .next (immediate 0x89#8 imm Alu.nop s)

/-- NOP immediate, $C2 (46_undocumented.md R352). -/
def execNopImmC2 (imm : Byte) (s : State) : Outcome State Fault Refusal := .next (immediate 0xC2#8 imm Alu.nop s)

/-- NOP zero page,X, $D4 (46_undocumented.md R353). -/
def execNopZpxD4 (zp : Byte) (s : State) : Outcome State Fault Refusal := .next (zpIndexedRead .x 0xD4#8 zp Alu.nop s)

/-- NOP absolute,X, $DC (46_undocumented.md R353). -/
def execNopAbxDC (addr : Word) (s : State) : Outcome State Fault Refusal :=
  .next (absIndexedRead .x 0xDC#8 addr Alu.nop s)

/-- NOP immediate, $E2 (46_undocumented.md R352). -/
def execNopImmE2 (imm : Byte) (s : State) : Outcome State Fault Refusal := .next (immediate 0xE2#8 imm Alu.nop s)

/-- NOP, $EA (45_stack_flags_nop.md R331). -/
def execNop (s : State) : Outcome State Fault Refusal := .next (implied 0xEA#8 (fun c => c) s)

/-- NOP zero page,X, $F4 (46_undocumented.md R353). -/
def execNopZpxF4 (zp : Byte) (s : State) : Outcome State Fault Refusal := .next (zpIndexedRead .x 0xF4#8 zp Alu.nop s)

/-- NOP absolute,X, $FC (46_undocumented.md R353). -/
def execNopAbxFC (addr : Word) (s : State) : Outcome State Fault Refusal :=
  .next (absIndexedRead .x 0xFC#8 addr Alu.nop s)

end Sys2Proof.Machine
end

