-- ==== Sys2Proof/Machine/Shift.lean ====
section
/-! DEFINITION. Shifts and rotates (43_shift_rotate.md R290-R293): the meaning of each opcode, its cycles those of its
mode and tag (40_addressing_modes.md). -/

namespace Sys2Proof.Machine

open Host (Outcome)

/-- ASL zero page, $06 (43_shift_rotate.md R290). -/
def execAslZp (zp : Byte) (s : State) : Outcome State Fault Refusal := .next (zpRmw 0x06#8 zp Alu.asl s)

/-- ASL accumulator, $0A (43_shift_rotate.md R290). -/
def execAslAcc (s : State) : Outcome State Fault Refusal := .next (implied 0x0A#8 (Alu.onA Alu.asl) s)

/-- ASL absolute, $0E (43_shift_rotate.md R290). -/
def execAslAbs (addr : Word) (s : State) : Outcome State Fault Refusal := .next (absRmw 0x0E#8 addr Alu.asl s)

/-- ASL zero page,X, $16 (43_shift_rotate.md R290). -/
def execAslZpx (zp : Byte) (s : State) : Outcome State Fault Refusal := .next (zpIndexedRmw .x 0x16#8 zp Alu.asl s)

/-- ASL absolute,X, $1E (43_shift_rotate.md R290). -/
def execAslAbx (addr : Word) (s : State) : Outcome State Fault Refusal :=
  .next (absIndexedRmw .x 0x1E#8 addr Alu.asl s)

/-- ROL zero page, $26 (43_shift_rotate.md R292). -/
def execRolZp (zp : Byte) (s : State) : Outcome State Fault Refusal := .next (zpRmw 0x26#8 zp Alu.rol s)

/-- ROL accumulator, $2A (43_shift_rotate.md R292). -/
def execRolAcc (s : State) : Outcome State Fault Refusal := .next (implied 0x2A#8 (Alu.onA Alu.rol) s)

/-- ROL absolute, $2E (43_shift_rotate.md R292). -/
def execRolAbs (addr : Word) (s : State) : Outcome State Fault Refusal := .next (absRmw 0x2E#8 addr Alu.rol s)

/-- ROL zero page,X, $36 (43_shift_rotate.md R292). -/
def execRolZpx (zp : Byte) (s : State) : Outcome State Fault Refusal := .next (zpIndexedRmw .x 0x36#8 zp Alu.rol s)

/-- ROL absolute,X, $3E (43_shift_rotate.md R292). -/
def execRolAbx (addr : Word) (s : State) : Outcome State Fault Refusal :=
  .next (absIndexedRmw .x 0x3E#8 addr Alu.rol s)

/-- LSR zero page, $46 (43_shift_rotate.md R291). -/
def execLsrZp (zp : Byte) (s : State) : Outcome State Fault Refusal := .next (zpRmw 0x46#8 zp Alu.lsr s)

/-- LSR accumulator, $4A (43_shift_rotate.md R291). -/
def execLsrAcc (s : State) : Outcome State Fault Refusal := .next (implied 0x4A#8 (Alu.onA Alu.lsr) s)

/-- LSR absolute, $4E (43_shift_rotate.md R291). -/
def execLsrAbs (addr : Word) (s : State) : Outcome State Fault Refusal := .next (absRmw 0x4E#8 addr Alu.lsr s)

/-- LSR zero page,X, $56 (43_shift_rotate.md R291). -/
def execLsrZpx (zp : Byte) (s : State) : Outcome State Fault Refusal := .next (zpIndexedRmw .x 0x56#8 zp Alu.lsr s)

/-- LSR absolute,X, $5E (43_shift_rotate.md R291). -/
def execLsrAbx (addr : Word) (s : State) : Outcome State Fault Refusal :=
  .next (absIndexedRmw .x 0x5E#8 addr Alu.lsr s)

/-- ROR zero page, $66 (43_shift_rotate.md R293). -/
def execRorZp (zp : Byte) (s : State) : Outcome State Fault Refusal := .next (zpRmw 0x66#8 zp Alu.ror s)

/-- ROR accumulator, $6A (43_shift_rotate.md R293). -/
def execRorAcc (s : State) : Outcome State Fault Refusal := .next (implied 0x6A#8 (Alu.onA Alu.ror) s)

/-- ROR absolute, $6E (43_shift_rotate.md R293). -/
def execRorAbs (addr : Word) (s : State) : Outcome State Fault Refusal := .next (absRmw 0x6E#8 addr Alu.ror s)

/-- ROR zero page,X, $76 (43_shift_rotate.md R293). -/
def execRorZpx (zp : Byte) (s : State) : Outcome State Fault Refusal := .next (zpIndexedRmw .x 0x76#8 zp Alu.ror s)

/-- ROR absolute,X, $7E (43_shift_rotate.md R293). -/
def execRorAbx (addr : Word) (s : State) : Outcome State Fault Refusal :=
  .next (absIndexedRmw .x 0x7E#8 addr Alu.ror s)

end Sys2Proof.Machine
end

