-- ==== Sys2Proof/Machine/Stack.lean ====
section
/-! DEFINITION. Stack instructions (45_stack_flags_nop.md R320-R323): the meaning of each opcode, its cycles those of
its mode and tag (40_addressing_modes.md). -/

namespace Sys2Proof.Machine

open Host (Outcome)

/-- PHP, $08 (45_stack_flags_nop.md R321). -/
def execPhp (s : State) : Outcome State Fault Refusal := .next (pushReg 0x08#8 (fun c => c.p.toByte true) s)

/-- PLP, $28 (45_stack_flags_nop.md R323). -/
def execPlp (s : State) : Outcome State Fault Refusal :=
  .next (pullReg 0x28#8 (fun d c => { c with p := .ofByte d }) s)

/-- PHA, $48 (45_stack_flags_nop.md R320). -/
def execPha (s : State) : Outcome State Fault Refusal := .next (pushReg 0x48#8 Cpu.a s)

/-- PLA, $68 (45_stack_flags_nop.md R322). -/
def execPla (s : State) : Outcome State Fault Refusal :=
  .next (pullReg 0x68#8 (fun d c => { c with a := d, p := c.p.setZN d }) s)

end Sys2Proof.Machine
end

