-- ==== Sys2Proof/Machine/Stop.lean ====
section
/-! DEFINITION. STP, which jams the CPU, and the unstable opcodes, after whose fetch no step follows
(46_undocumented.md R370, R371): the meaning of each opcode, its cycles those of its mode and tag
(40_addressing_modes.md). -/

namespace Sys2Proof.Machine

open Host (Outcome)

/-- STP, $02, $12, $22, $32, $42, $52, $62, $72, $92, $B2, $D2, $F2 (46_undocumented.md R371). -/
def execStp (row : StpRow) (s : State) : Outcome State Fault Refusal := .next (jam row.opcode s)

/-- XAA immediate, $8B: its opcode fetch, then the model takes no further step (46_undocumented.md R370). -/
def execXaa (_imm : Byte) (s : State) : Outcome State Fault Refusal := .next (refuse 0x8B#8 s)

/-- AHX (indirect),Y, $93: its opcode fetch, then the model takes no further step (46_undocumented.md R370). -/
def execAhxIzy (_zp : Byte) (s : State) : Outcome State Fault Refusal := .next (refuse 0x93#8 s)

/-- TAS absolute,Y, $9B: its opcode fetch, then the model takes no further step (46_undocumented.md R370). -/
def execTas (_addr : Word) (s : State) : Outcome State Fault Refusal := .next (refuse 0x9B#8 s)

/-- SHY absolute,X, $9C: its opcode fetch, then the model takes no further step (46_undocumented.md R370). -/
def execShy (_addr : Word) (s : State) : Outcome State Fault Refusal := .next (refuse 0x9C#8 s)

/-- SHX absolute,Y, $9E: its opcode fetch, then the model takes no further step (46_undocumented.md R370). -/
def execShx (_addr : Word) (s : State) : Outcome State Fault Refusal := .next (refuse 0x9E#8 s)

/-- AHX absolute,Y, $9F: its opcode fetch, then the model takes no further step (46_undocumented.md R370). -/
def execAhxAby (_addr : Word) (s : State) : Outcome State Fault Refusal := .next (refuse 0x9F#8 s)

/-- LXA immediate, $AB: its opcode fetch, then the model takes no further step (46_undocumented.md R370). -/
def execLxa (_imm : Byte) (s : State) : Outcome State Fault Refusal := .next (refuse 0xAB#8 s)

/-- LAS absolute,Y, $BB: its opcode fetch, then the model takes no further step (46_undocumented.md R370). -/
def execLas (_addr : Word) (s : State) : Outcome State Fault Refusal := .next (refuse 0xBB#8 s)

end Sys2Proof.Machine
end

