-- ==== Sys2Proof/Machine/Store.lean ====
section
/-! DEFINITION. Stores, tag Write (41_load_store_transfer.md R243-R245): the meaning of each opcode, its cycles those
of its mode and tag (40_addressing_modes.md). -/

namespace Sys2Proof.Machine

open Host (Outcome)

/-- STA (indirect,X), $81 (41_load_store_transfer.md R243). -/
def execStaIzx (zp : Byte) (s : State) : Outcome State Fault Refusal := .next (izxWrite 0x81#8 zp Cpu.a s)

/-- STY zero page, $84 (41_load_store_transfer.md R245). -/
def execStyZp (zp : Byte) (s : State) : Outcome State Fault Refusal := .next (zpWrite 0x84#8 zp Cpu.y s)

/-- STA zero page, $85 (41_load_store_transfer.md R243). -/
def execStaZp (zp : Byte) (s : State) : Outcome State Fault Refusal := .next (zpWrite 0x85#8 zp Cpu.a s)

/-- STX zero page, $86 (41_load_store_transfer.md R244). -/
def execStxZp (zp : Byte) (s : State) : Outcome State Fault Refusal := .next (zpWrite 0x86#8 zp Cpu.x s)

/-- STY absolute, $8C (41_load_store_transfer.md R245). -/
def execStyAbs (addr : Word) (s : State) : Outcome State Fault Refusal := .next (absWrite 0x8C#8 addr Cpu.y s)

/-- STA absolute, $8D (41_load_store_transfer.md R243). -/
def execStaAbs (addr : Word) (s : State) : Outcome State Fault Refusal := .next (absWrite 0x8D#8 addr Cpu.a s)

/-- STX absolute, $8E (41_load_store_transfer.md R244). -/
def execStxAbs (addr : Word) (s : State) : Outcome State Fault Refusal := .next (absWrite 0x8E#8 addr Cpu.x s)

/-- STA (indirect),Y, $91 (41_load_store_transfer.md R243). -/
def execStaIzy (zp : Byte) (s : State) : Outcome State Fault Refusal := .next (izyWrite 0x91#8 zp Cpu.a s)

/-- STY zero page,X, $94 (41_load_store_transfer.md R245). -/
def execStyZpx (zp : Byte) (s : State) : Outcome State Fault Refusal := .next (zpIndexedWrite .x 0x94#8 zp Cpu.y s)

/-- STA zero page,X, $95 (41_load_store_transfer.md R243). -/
def execStaZpx (zp : Byte) (s : State) : Outcome State Fault Refusal := .next (zpIndexedWrite .x 0x95#8 zp Cpu.a s)

/-- STX zero page,Y, $96 (41_load_store_transfer.md R244). -/
def execStxZpy (zp : Byte) (s : State) : Outcome State Fault Refusal := .next (zpIndexedWrite .y 0x96#8 zp Cpu.x s)

/-- STA absolute,Y, $99 (41_load_store_transfer.md R243). -/
def execStaAby (addr : Word) (s : State) : Outcome State Fault Refusal :=
  .next (absIndexedWrite .y 0x99#8 addr Cpu.a s)

/-- STA absolute,X, $9D (41_load_store_transfer.md R243). -/
def execStaAbx (addr : Word) (s : State) : Outcome State Fault Refusal :=
  .next (absIndexedWrite .x 0x9D#8 addr Cpu.a s)

end Sys2Proof.Machine
end

