-- ==== Sys2Proof/Machine/Transfer.lean ====
section
/-! DEFINITION. Register transfers, Implicit (41_load_store_transfer.md R246-R251): the meaning of each opcode, its
cycles those of its mode and tag (40_addressing_modes.md). -/

namespace Sys2Proof.Machine

open Host (Outcome)

/-- TXA, $8A (41_load_store_transfer.md R248). -/
def execTxa (s : State) : Outcome State Fault Refusal := .next (implied 0x8A#8 Alu.txa s)

/-- TYA, $98 (41_load_store_transfer.md R249). -/
def execTya (s : State) : Outcome State Fault Refusal := .next (implied 0x98#8 Alu.tya s)

/-- TXS, $9A (41_load_store_transfer.md R251). -/
def execTxs (s : State) : Outcome State Fault Refusal := .next (implied 0x9A#8 Alu.txs s)

/-- TAY, $A8 (41_load_store_transfer.md R247). -/
def execTay (s : State) : Outcome State Fault Refusal := .next (implied 0xA8#8 Alu.tay s)

/-- TAX, $AA (41_load_store_transfer.md R246). -/
def execTax (s : State) : Outcome State Fault Refusal := .next (implied 0xAA#8 Alu.tax s)

/-- TSX, $BA (41_load_store_transfer.md R250). -/
def execTsx (s : State) : Outcome State Fault Refusal := .next (implied 0xBA#8 Alu.tsx s)

end Sys2Proof.Machine
end

