-- ==== Sys2Proof/Machine/UndocImm.lean ====
section
/-! DEFINITION. Stable undocumented immediate opcodes (46_undocumented.md R349, R350, R354-R356): the meaning of each
opcode, its cycles those of its mode and tag (40_addressing_modes.md). -/

namespace Sys2Proof.Machine

open Host (Outcome)

/-- ANC immediate, $0B (46_undocumented.md R349). -/
def execAnc0B (imm : Byte) (s : State) : Outcome State Fault Refusal := .next (immediate 0x0B#8 imm Alu.anc s)

/-- ANC immediate, $2B (46_undocumented.md R349). -/
def execAnc2B (imm : Byte) (s : State) : Outcome State Fault Refusal := .next (immediate 0x2B#8 imm Alu.anc s)

/-- ALR immediate, $4B (46_undocumented.md R350). -/
def execAlr (imm : Byte) (s : State) : Outcome State Fault Refusal := .next (immediate 0x4B#8 imm Alu.alr s)

/-- ARR immediate, $6B (46_undocumented.md R354). -/
def execArr (imm : Byte) (s : State) : Outcome State Fault Refusal := .next (immediate 0x6B#8 imm Alu.arr s)

/-- AXS immediate, $CB (46_undocumented.md R355). -/
def execAxs (imm : Byte) (s : State) : Outcome State Fault Refusal := .next (immediate 0xCB#8 imm Alu.axs s)

/-- USBC immediate, $EB (46_undocumented.md R356). -/
def execUsbc (imm : Byte) (s : State) : Outcome State Fault Refusal := .next (immediate 0xEB#8 imm Alu.sbc s)

end Sys2Proof.Machine
end

