-- ==== Sys2Proof/Machine/Fetch.lean ====
section
/-! DEFINITION. Which instruction the machine runs next: the operand bytes its own fetch cycles will deliver, found by
running those cycles ahead (log entry 2), and the placing of an instruction at PC for the host's table words. -/

namespace Sys2Proof.Machine

/-- The byte a fetch of PC delivers now. -/
def fetchByte (s : State) : Byte := busByte (fun s => atPc s.cpu) (drainDma dmaFuel s)

/-- The third byte's fetch: T3 of the absolute modes, but T6 of JSR, after its pushes (40_addressing_modes.md R216,
44_control_flow.md R311). `s` is the machine after T1. -/
def beforeThird (op b1 : Byte) (s : State) : State :=
  if op = 0x20#8 then
    push .penult (fun c => loByte c.pc) (push .mid (fun c => hiByte c.pc)
      (cpuCyc .mid atStack (fun _ c => c) (fetchOperand .mid (fun c => { c with adl := b1 }) s)))
  else fetchOperand .mid (fun c => { c with adl := b1 }) s

/-- The instruction whose bytes the fetch cycles from this state deliver (40_addressing_modes.md R201, 30_encoding.md
R150). -/
def fetchInstr (s : State) : Option Instr :=
  let op := fetchByte s
  let s1 := fetchOp .mid op s
  let b1 := fetchByte s1
  let b2 := fetchByte (beforeThird op b1 s1)
  decodeOp op b1 b2

/-- Whether the three bytes from `a` are all plain memory the host can place bytes in: internal RAM, or mapper 0's
PRG-ROM. -/
def placeable (a : Word) (c : Cart) : Bool :=
  decide (a.toNat + 2 < 0x2000)
    || (decide (c.kind = .nrom) && decide (0x8000 ≤ a.toNat) && decide (a.toNat + 2 < 0x10000))

/-- The machine with byte `d` stored behind the placeable address `a`. -/
def placeByte (a : Word) (d : Byte) (s : State) : State :=
  if a.toNat < 0x2000 then { s with ram := Memory.write s.ram (ramIndex a) d }
  else { s with cart := { s.cart with prg := Memory.write s.cart.prg (prgIndex s.cart.prgSize a) d } }

/-- The machine with bytes stored from address `a` on. -/
def placeBytes : Word → List Byte → State → State
  | _, [], s => s
  | a, d :: rest, s => placeBytes (a + 1) rest (placeByte a d s)

end Sys2Proof.Machine
end

