-- ==== Sys2Proof/Machine/Step.lean ====
section
/-! DEFINITION. The step: a host reset, a DMA cycle, one whole instruction, interrupt sequence or reset sequence, or one
jammed cycle (40_addressing_modes.md R200; log entry 1), and the host's placing of a table word. -/

namespace Sys2Proof.Machine

/-- One step, with `i` the instruction whose bytes the fetch cycles deliver if the CPU runs one. -/
def stepAs (i : Option Instr) (s : State) : Host.Outcome State Fault Refusal :=
  if s.cpu.mode = .refused then .refused (.unstableOpcode s.cpu.opcode)
  else if resetDue s then .next (warmReset s)
  else if s.dma.active then .next (dmaCycle s)
  else
    match s.cpu.mode with
    | .run =>
      match i with
      | some i => exec i s
      | none => .refused .undecodable
    | .intSeq kind => .next (interruptSequence kind s)
    | .resetSeq => .next (resetSequence s)
    | .jammed => .next (jamCycle s)
    | .refused => .refused (.unstableOpcode s.cpu.opcode)

/-- One step. Every cycle inside it is a full CPU cycle of 20_memory.md R131; `PerCycle.tick` is the step of one cycle. -/
def step (s : State) : Host.Outcome State Fault Refusal := stepAs (fetchInstr s) s

/-- The state with the table word's bytes at PC and the CPU about to fetch them: mode `run`, no DMA and no host reset at
this boundary. A PC whose three bytes are not plain memory is moved to $0000 (log entry 3). -/
def State.withFetchWord (s : State) (nbits w : Nat) : State :=
  let pc := if placeable s.cpu.pc s.cart then s.cpu.pc else 0
  placeBytes pc (tableBytes nbits w 3)
    { s with
      cpu := { s.cpu with mode := .run, pc := pc }
      dma := { s.dma with active := false }
      resetAt := if resetDue s then [] else s.resetAt }

end Sys2Proof.Machine
end

