-- ==== Sys2Proof/Machine/PerCycle.lean ====
section
/-! DEFINITION. The step relation per CPU cycle (00_scope.md R13) over the one meaning of `step` and `exec`: a machine that
stands between two cycles is the machine its last step started from, with the number of that step's cycles that have run.
A step that meets a reset at a cycle boundary goes no further (70_reset_and_hazards.md R561), so the state at a boundary is
what the step leaves when it is made to stop there (log entry 1). -/

namespace Sys2Proof.Machine

open Host (Outcome)

/-- The machine made to stop at cycle boundary `n`, unless a reset of the host stops it there or before. -/
def State.stoppingAt (n : Nat) (s : State) : State :=
  { s with resetAt := if s.resetAt.head?.any (fun m => decide (m ≤ n)) then s.resetAt else n :: s.resetAt }

/-- The machine after the first `k` cycles of `f` from `s`, or after all of them if `f` takes no more. -/
def partway (k : Nat) (f : State → Outcome State Fault Refusal) (s : State) : State :=
  if k = 0 then s
  else
    match f (s.stoppingAt (s.cycle + k)) with
    | .next t => { t with resetAt := s.resetAt }
    | .fault _ => s
    | .refused _ => s

/-- The machine after the first `k` cycles of an instruction. -/
def afterCycles (k : Nat) (i : Instr) (s : State) : State := partway k (exec i) s

/-- The machine after the first `k` cycles of a step. -/
def stepCycles (k : Nat) (s : State) : State := partway k (stepAs (fetchInstr s)) s

/-- The host's resets that are due at this boundary, taken (70_reset_and_hazards.md R561); none where no step follows
(46_undocumented.md R370). -/
def honourResets : Nat → State → State
  | 0, s => s
  | fuel + 1, s => if s.cpu.mode ≠ .refused ∧ resetDue s then honourResets fuel (warmReset s) else s

/-- A machine at a cycle boundary: `cycles` cycles into the step that starts at `start`. -/
structure PerCycle where
  start  : State
  cycles : Nat
  deriving DecidableEq, Repr

/-- The state at the boundary. -/
def PerCycle.now (c : PerCycle) : State := stepCycles c.cycles c.start

/-- The step has no further cycle. -/
def PerCycle.over (c : PerCycle) : Bool := decide ((stepCycles (c.cycles + 1) c.start).cycle ≤ c.now.cycle)

/-- The state from which the next cycle runs: that of the boundary, after the resets due at it. -/
def PerCycle.ready (c : PerCycle) : State := honourResets c.now.resetAt.length c.now

/-- One CPU cycle: the next cycle of the step, or the first of the step that follows it (00_scope.md R13). -/
def PerCycle.tick (c : PerCycle) : Outcome PerCycle Fault Refusal :=
  if c.over then
    match step c.ready with
    | .next _ => .next { start := c.ready, cycles := 1 }
    | .fault r => .fault r
    | .refused r => .refused r
  else .next { c with cycles := c.cycles + 1 }

/-- The machine stepped by the cycle, from power-on. -/
def cycleCore : Host.Core :=
  { State := PerCycle, Fault := Fault, Refusal := Refusal, step := PerCycle.tick, reset := { start := .reset, cycles := 0 } }

end Sys2Proof.Machine
end

