-- ==== Sys2Proof/Machine/Forms.lean ====
section
/-! DEFINITION. The columns of the instruction table of 30_encoding.md R161: mnemonic, addressing mode with its operand,
operation tag, and the cycle count without a page cross or a taken branch; and what a mode says of an instruction: its
length, its effective address, and whether an indexed address crosses a page; the spec's arithmetic as formulas over
numbers; and what is said of a step. Statements are made in these terms; no meaning uses them. -/

namespace Sys2Proof

/-- The mnemonics of 30_encoding.md R161. -/
inductive Mnemonic
  | brk | ora | stp | slo | nop | asl | php | anc | bpl | clc | jsr
  | and | rla | bit | rol | plp | bmi | sec | rti | eor | sre | lsr
  | pha | alr | jmp | bvc | cli | rts | adc | rra | ror | pla | arr
  | bvs | sei | sta | sax | sty | stx | dey | txa | xaa | bcc | ahx
  | tya | txs | tas | shy | shx | ldy | lda | ldx | lax | tay | tax
  | lxa | bcs | clv | tsx | las | cpy | cmp | dcp | dec | iny | dex
  | axs | bne | cld | cpx | sbc | isb | inc | inx | usbc | beq | sed
  deriving DecidableEq, Repr

/-- The addressing modes of 30_encoding.md R153, each with the operand the instruction carries. -/
inductive Mode
  | implicit
  | accumulator
  | immediate (imm : Byte)
  | zeroPage (zp : Byte)
  | zeroPageX (zp : Byte)
  | zeroPageY (zp : Byte)
  | absolute (addr : Word)
  | absoluteX (addr : Word)
  | absoluteY (addr : Word)
  | indirect (ptr : Word)
  | indirectX (zp : Byte)
  | indirectY (zp : Byte)
  | relative (off : Byte)
  deriving DecidableEq, Repr

/-- A mode without its operand. -/
inductive ModeName
  | implicit | accumulator | immediate | zeroPage | zeroPageX | zeroPageY | absolute | absoluteX | absoluteY
  | indirect | indirectX | indirectY | relative
  deriving DecidableEq, Repr

/-- The name of a mode. -/
def Mode.name : Mode → ModeName
  | .implicit => .implicit
  | .accumulator => .accumulator
  | .immediate _ => .immediate
  | .zeroPage _ => .zeroPage
  | .zeroPageX _ => .zeroPageX
  | .zeroPageY _ => .zeroPageY
  | .absolute _ => .absolute
  | .absoluteX _ => .absoluteX
  | .absoluteY _ => .absoluteY
  | .indirect _ => .indirect
  | .indirectX _ => .indirectX
  | .indirectY _ => .indirectY
  | .relative _ => .relative

/-- The operation tags of 30_encoding.md R154; the unstable opcodes carry none. -/
inductive Tag
  | implicit
  | read
  | write
  | rmw
  | untagged
  deriving DecidableEq, Repr

/-- One row of the table (30_encoding.md R161). -/
structure Row where
  mnemonic : Mnemonic
  mode     : Mode
  tag      : Tag
  cycles   : Nat
  deriving DecidableEq, Repr

/-- The row of an instruction (30_encoding.md R161). STP's count is its opcode fetch, after which the CPU is jammed
(46_undocumented.md R371); an unstable opcode's is its opcode fetch (R370). -/
def Instr.row : Instr → Row
  | .brk => ⟨.brk, .implicit, .implicit, 7⟩
  | .oraIzx zp => ⟨.ora, .indirectX zp, .read, 6⟩
  | .stp _ => ⟨.stp, .implicit, .implicit, 1⟩
  | .sloIzx zp => ⟨.slo, .indirectX zp, .rmw, 8⟩
  | .nopZp04 zp => ⟨.nop, .zeroPage zp, .read, 3⟩
  | .oraZp zp => ⟨.ora, .zeroPage zp, .read, 3⟩
  | .aslZp zp => ⟨.asl, .zeroPage zp, .rmw, 5⟩
  | .sloZp zp => ⟨.slo, .zeroPage zp, .rmw, 5⟩
  | .php => ⟨.php, .implicit, .implicit, 3⟩
  | .oraImm imm => ⟨.ora, .immediate imm, .read, 2⟩
  | .aslAcc => ⟨.asl, .accumulator, .implicit, 2⟩
  | .anc0B imm => ⟨.anc, .immediate imm, .read, 2⟩
  | .nopAbs0C addr => ⟨.nop, .absolute addr, .read, 4⟩
  | .oraAbs addr => ⟨.ora, .absolute addr, .read, 4⟩
  | .aslAbs addr => ⟨.asl, .absolute addr, .rmw, 6⟩
  | .sloAbs addr => ⟨.slo, .absolute addr, .rmw, 6⟩
  | .bpl off => ⟨.bpl, .relative off, .implicit, 2⟩
  | .oraIzy zp => ⟨.ora, .indirectY zp, .read, 5⟩
  | .sloIzy zp => ⟨.slo, .indirectY zp, .rmw, 8⟩
  | .nopZpx14 zp => ⟨.nop, .zeroPageX zp, .read, 4⟩
  | .oraZpx zp => ⟨.ora, .zeroPageX zp, .read, 4⟩
  | .aslZpx zp => ⟨.asl, .zeroPageX zp, .rmw, 6⟩
  | .sloZpx zp => ⟨.slo, .zeroPageX zp, .rmw, 6⟩
  | .clc => ⟨.clc, .implicit, .implicit, 2⟩
  | .oraAby addr => ⟨.ora, .absoluteY addr, .read, 4⟩
  | .nopImplied _ => ⟨.nop, .implicit, .implicit, 2⟩
  | .sloAby addr => ⟨.slo, .absoluteY addr, .rmw, 7⟩
  | .nopAbx1C addr => ⟨.nop, .absoluteX addr, .read, 4⟩
  | .oraAbx addr => ⟨.ora, .absoluteX addr, .read, 4⟩
  | .aslAbx addr => ⟨.asl, .absoluteX addr, .rmw, 7⟩
  | .sloAbx addr => ⟨.slo, .absoluteX addr, .rmw, 7⟩
  | .jsr addr => ⟨.jsr, .absolute addr, .implicit, 6⟩
  | .andIzx zp => ⟨.and, .indirectX zp, .read, 6⟩
  | .rlaIzx zp => ⟨.rla, .indirectX zp, .rmw, 8⟩
  | .bitZp zp => ⟨.bit, .zeroPage zp, .read, 3⟩
  | .andZp zp => ⟨.and, .zeroPage zp, .read, 3⟩
  | .rolZp zp => ⟨.rol, .zeroPage zp, .rmw, 5⟩
  | .rlaZp zp => ⟨.rla, .zeroPage zp, .rmw, 5⟩
  | .plp => ⟨.plp, .implicit, .implicit, 4⟩
  | .andImm imm => ⟨.and, .immediate imm, .read, 2⟩
  | .rolAcc => ⟨.rol, .accumulator, .implicit, 2⟩
  | .anc2B imm => ⟨.anc, .immediate imm, .read, 2⟩
  | .bitAbs addr => ⟨.bit, .absolute addr, .read, 4⟩
  | .andAbs addr => ⟨.and, .absolute addr, .read, 4⟩
  | .rolAbs addr => ⟨.rol, .absolute addr, .rmw, 6⟩
  | .rlaAbs addr => ⟨.rla, .absolute addr, .rmw, 6⟩
  | .bmi off => ⟨.bmi, .relative off, .implicit, 2⟩
  | .andIzy zp => ⟨.and, .indirectY zp, .read, 5⟩
  | .rlaIzy zp => ⟨.rla, .indirectY zp, .rmw, 8⟩
  | .nopZpx34 zp => ⟨.nop, .zeroPageX zp, .read, 4⟩
  | .andZpx zp => ⟨.and, .zeroPageX zp, .read, 4⟩
  | .rolZpx zp => ⟨.rol, .zeroPageX zp, .rmw, 6⟩
  | .rlaZpx zp => ⟨.rla, .zeroPageX zp, .rmw, 6⟩
  | .sec => ⟨.sec, .implicit, .implicit, 2⟩
  | .andAby addr => ⟨.and, .absoluteY addr, .read, 4⟩
  | .rlaAby addr => ⟨.rla, .absoluteY addr, .rmw, 7⟩
  | .nopAbx3C addr => ⟨.nop, .absoluteX addr, .read, 4⟩
  | .andAbx addr => ⟨.and, .absoluteX addr, .read, 4⟩
  | .rolAbx addr => ⟨.rol, .absoluteX addr, .rmw, 7⟩
  | .rlaAbx addr => ⟨.rla, .absoluteX addr, .rmw, 7⟩
  | .rti => ⟨.rti, .implicit, .implicit, 6⟩
  | .eorIzx zp => ⟨.eor, .indirectX zp, .read, 6⟩
  | .sreIzx zp => ⟨.sre, .indirectX zp, .rmw, 8⟩
  | .nopZp44 zp => ⟨.nop, .zeroPage zp, .read, 3⟩
  | .eorZp zp => ⟨.eor, .zeroPage zp, .read, 3⟩
  | .lsrZp zp => ⟨.lsr, .zeroPage zp, .rmw, 5⟩
  | .sreZp zp => ⟨.sre, .zeroPage zp, .rmw, 5⟩
  | .pha => ⟨.pha, .implicit, .implicit, 3⟩
  | .eorImm imm => ⟨.eor, .immediate imm, .read, 2⟩
  | .lsrAcc => ⟨.lsr, .accumulator, .implicit, 2⟩
  | .alr imm => ⟨.alr, .immediate imm, .read, 2⟩
  | .jmpAbs addr => ⟨.jmp, .absolute addr, .implicit, 3⟩
  | .eorAbs addr => ⟨.eor, .absolute addr, .read, 4⟩
  | .lsrAbs addr => ⟨.lsr, .absolute addr, .rmw, 6⟩
  | .sreAbs addr => ⟨.sre, .absolute addr, .rmw, 6⟩
  | .bvc off => ⟨.bvc, .relative off, .implicit, 2⟩
  | .eorIzy zp => ⟨.eor, .indirectY zp, .read, 5⟩
  | .sreIzy zp => ⟨.sre, .indirectY zp, .rmw, 8⟩
  | .nopZpx54 zp => ⟨.nop, .zeroPageX zp, .read, 4⟩
  | .eorZpx zp => ⟨.eor, .zeroPageX zp, .read, 4⟩
  | .lsrZpx zp => ⟨.lsr, .zeroPageX zp, .rmw, 6⟩
  | .sreZpx zp => ⟨.sre, .zeroPageX zp, .rmw, 6⟩
  | .cli => ⟨.cli, .implicit, .implicit, 2⟩
  | .eorAby addr => ⟨.eor, .absoluteY addr, .read, 4⟩
  | .sreAby addr => ⟨.sre, .absoluteY addr, .rmw, 7⟩
  | .nopAbx5C addr => ⟨.nop, .absoluteX addr, .read, 4⟩
  | .eorAbx addr => ⟨.eor, .absoluteX addr, .read, 4⟩
  | .lsrAbx addr => ⟨.lsr, .absoluteX addr, .rmw, 7⟩
  | .sreAbx addr => ⟨.sre, .absoluteX addr, .rmw, 7⟩
  | .rts => ⟨.rts, .implicit, .implicit, 6⟩
  | .adcIzx zp => ⟨.adc, .indirectX zp, .read, 6⟩
  | .rraIzx zp => ⟨.rra, .indirectX zp, .rmw, 8⟩
  | .nopZp64 zp => ⟨.nop, .zeroPage zp, .read, 3⟩
  | .adcZp zp => ⟨.adc, .zeroPage zp, .read, 3⟩
  | .rorZp zp => ⟨.ror, .zeroPage zp, .rmw, 5⟩
  | .rraZp zp => ⟨.rra, .zeroPage zp, .rmw, 5⟩
  | .pla => ⟨.pla, .implicit, .implicit, 4⟩
  | .adcImm imm => ⟨.adc, .immediate imm, .read, 2⟩
  | .rorAcc => ⟨.ror, .accumulator, .implicit, 2⟩
  | .arr imm => ⟨.arr, .immediate imm, .read, 2⟩
  | .jmpInd ptr => ⟨.jmp, .indirect ptr, .implicit, 5⟩
  | .adcAbs addr => ⟨.adc, .absolute addr, .read, 4⟩
  | .rorAbs addr => ⟨.ror, .absolute addr, .rmw, 6⟩
  | .rraAbs addr => ⟨.rra, .absolute addr, .rmw, 6⟩
  | .bvs off => ⟨.bvs, .relative off, .implicit, 2⟩
  | .adcIzy zp => ⟨.adc, .indirectY zp, .read, 5⟩
  | .rraIzy zp => ⟨.rra, .indirectY zp, .rmw, 8⟩
  | .nopZpx74 zp => ⟨.nop, .zeroPageX zp, .read, 4⟩
  | .adcZpx zp => ⟨.adc, .zeroPageX zp, .read, 4⟩
  | .rorZpx zp => ⟨.ror, .zeroPageX zp, .rmw, 6⟩
  | .rraZpx zp => ⟨.rra, .zeroPageX zp, .rmw, 6⟩
  | .sei => ⟨.sei, .implicit, .implicit, 2⟩
  | .adcAby addr => ⟨.adc, .absoluteY addr, .read, 4⟩
  | .rraAby addr => ⟨.rra, .absoluteY addr, .rmw, 7⟩
  | .nopAbx7C addr => ⟨.nop, .absoluteX addr, .read, 4⟩
  | .adcAbx addr => ⟨.adc, .absoluteX addr, .read, 4⟩
  | .rorAbx addr => ⟨.ror, .absoluteX addr, .rmw, 7⟩
  | .rraAbx addr => ⟨.rra, .absoluteX addr, .rmw, 7⟩
  | .nopImm80 imm => ⟨.nop, .immediate imm, .read, 2⟩
  | .staIzx zp => ⟨.sta, .indirectX zp, .write, 6⟩
  | .nopImm82 imm => ⟨.nop, .immediate imm, .read, 2⟩
  | .saxIzx zp => ⟨.sax, .indirectX zp, .write, 6⟩
  | .styZp zp => ⟨.sty, .zeroPage zp, .write, 3⟩
  | .staZp zp => ⟨.sta, .zeroPage zp, .write, 3⟩
  | .stxZp zp => ⟨.stx, .zeroPage zp, .write, 3⟩
  | .saxZp zp => ⟨.sax, .zeroPage zp, .write, 3⟩
  | .dey => ⟨.dey, .implicit, .implicit, 2⟩
  | .nopImm89 imm => ⟨.nop, .immediate imm, .read, 2⟩
  | .txa => ⟨.txa, .implicit, .implicit, 2⟩
  | .xaa imm => ⟨.xaa, .immediate imm, .untagged, 1⟩
  | .styAbs addr => ⟨.sty, .absolute addr, .write, 4⟩
  | .staAbs addr => ⟨.sta, .absolute addr, .write, 4⟩
  | .stxAbs addr => ⟨.stx, .absolute addr, .write, 4⟩
  | .saxAbs addr => ⟨.sax, .absolute addr, .write, 4⟩
  | .bcc off => ⟨.bcc, .relative off, .implicit, 2⟩
  | .staIzy zp => ⟨.sta, .indirectY zp, .write, 6⟩
  | .ahxIzy zp => ⟨.ahx, .indirectY zp, .untagged, 1⟩
  | .styZpx zp => ⟨.sty, .zeroPageX zp, .write, 4⟩
  | .staZpx zp => ⟨.sta, .zeroPageX zp, .write, 4⟩
  | .stxZpy zp => ⟨.stx, .zeroPageY zp, .write, 4⟩
  | .saxZpy zp => ⟨.sax, .zeroPageY zp, .write, 4⟩
  | .tya => ⟨.tya, .implicit, .implicit, 2⟩
  | .staAby addr => ⟨.sta, .absoluteY addr, .write, 5⟩
  | .txs => ⟨.txs, .implicit, .implicit, 2⟩
  | .tas addr => ⟨.tas, .absoluteY addr, .untagged, 1⟩
  | .shy addr => ⟨.shy, .absoluteX addr, .untagged, 1⟩
  | .staAbx addr => ⟨.sta, .absoluteX addr, .write, 5⟩
  | .shx addr => ⟨.shx, .absoluteY addr, .untagged, 1⟩
  | .ahxAby addr => ⟨.ahx, .absoluteY addr, .untagged, 1⟩
  | .ldyImm imm => ⟨.ldy, .immediate imm, .read, 2⟩
  | .ldaIzx zp => ⟨.lda, .indirectX zp, .read, 6⟩
  | .ldxImm imm => ⟨.ldx, .immediate imm, .read, 2⟩
  | .laxIzx zp => ⟨.lax, .indirectX zp, .read, 6⟩
  | .ldyZp zp => ⟨.ldy, .zeroPage zp, .read, 3⟩
  | .ldaZp zp => ⟨.lda, .zeroPage zp, .read, 3⟩
  | .ldxZp zp => ⟨.ldx, .zeroPage zp, .read, 3⟩
  | .laxZp zp => ⟨.lax, .zeroPage zp, .read, 3⟩
  | .tay => ⟨.tay, .implicit, .implicit, 2⟩
  | .ldaImm imm => ⟨.lda, .immediate imm, .read, 2⟩
  | .tax => ⟨.tax, .implicit, .implicit, 2⟩
  | .lxa imm => ⟨.lxa, .immediate imm, .untagged, 1⟩
  | .ldyAbs addr => ⟨.ldy, .absolute addr, .read, 4⟩
  | .ldaAbs addr => ⟨.lda, .absolute addr, .read, 4⟩
  | .ldxAbs addr => ⟨.ldx, .absolute addr, .read, 4⟩
  | .laxAbs addr => ⟨.lax, .absolute addr, .read, 4⟩
  | .bcs off => ⟨.bcs, .relative off, .implicit, 2⟩
  | .ldaIzy zp => ⟨.lda, .indirectY zp, .read, 5⟩
  | .laxIzy zp => ⟨.lax, .indirectY zp, .read, 5⟩
  | .ldyZpx zp => ⟨.ldy, .zeroPageX zp, .read, 4⟩
  | .ldaZpx zp => ⟨.lda, .zeroPageX zp, .read, 4⟩
  | .ldxZpy zp => ⟨.ldx, .zeroPageY zp, .read, 4⟩
  | .laxZpy zp => ⟨.lax, .zeroPageY zp, .read, 4⟩
  | .clv => ⟨.clv, .implicit, .implicit, 2⟩
  | .ldaAby addr => ⟨.lda, .absoluteY addr, .read, 4⟩
  | .tsx => ⟨.tsx, .implicit, .implicit, 2⟩
  | .las addr => ⟨.las, .absoluteY addr, .untagged, 1⟩
  | .ldyAbx addr => ⟨.ldy, .absoluteX addr, .read, 4⟩
  | .ldaAbx addr => ⟨.lda, .absoluteX addr, .read, 4⟩
  | .ldxAby addr => ⟨.ldx, .absoluteY addr, .read, 4⟩
  | .laxAby addr => ⟨.lax, .absoluteY addr, .read, 4⟩
  | .cpyImm imm => ⟨.cpy, .immediate imm, .read, 2⟩
  | .cmpIzx zp => ⟨.cmp, .indirectX zp, .read, 6⟩
  | .nopImmC2 imm => ⟨.nop, .immediate imm, .read, 2⟩
  | .dcpIzx zp => ⟨.dcp, .indirectX zp, .rmw, 8⟩
  | .cpyZp zp => ⟨.cpy, .zeroPage zp, .read, 3⟩
  | .cmpZp zp => ⟨.cmp, .zeroPage zp, .read, 3⟩
  | .decZp zp => ⟨.dec, .zeroPage zp, .rmw, 5⟩
  | .dcpZp zp => ⟨.dcp, .zeroPage zp, .rmw, 5⟩
  | .iny => ⟨.iny, .implicit, .implicit, 2⟩
  | .cmpImm imm => ⟨.cmp, .immediate imm, .read, 2⟩
  | .dex => ⟨.dex, .implicit, .implicit, 2⟩
  | .axs imm => ⟨.axs, .immediate imm, .read, 2⟩
  | .cpyAbs addr => ⟨.cpy, .absolute addr, .read, 4⟩
  | .cmpAbs addr => ⟨.cmp, .absolute addr, .read, 4⟩
  | .decAbs addr => ⟨.dec, .absolute addr, .rmw, 6⟩
  | .dcpAbs addr => ⟨.dcp, .absolute addr, .rmw, 6⟩
  | .bne off => ⟨.bne, .relative off, .implicit, 2⟩
  | .cmpIzy zp => ⟨.cmp, .indirectY zp, .read, 5⟩
  | .dcpIzy zp => ⟨.dcp, .indirectY zp, .rmw, 8⟩
  | .nopZpxD4 zp => ⟨.nop, .zeroPageX zp, .read, 4⟩
  | .cmpZpx zp => ⟨.cmp, .zeroPageX zp, .read, 4⟩
  | .decZpx zp => ⟨.dec, .zeroPageX zp, .rmw, 6⟩
  | .dcpZpx zp => ⟨.dcp, .zeroPageX zp, .rmw, 6⟩
  | .cld => ⟨.cld, .implicit, .implicit, 2⟩
  | .cmpAby addr => ⟨.cmp, .absoluteY addr, .read, 4⟩
  | .dcpAby addr => ⟨.dcp, .absoluteY addr, .rmw, 7⟩
  | .nopAbxDC addr => ⟨.nop, .absoluteX addr, .read, 4⟩
  | .cmpAbx addr => ⟨.cmp, .absoluteX addr, .read, 4⟩
  | .decAbx addr => ⟨.dec, .absoluteX addr, .rmw, 7⟩
  | .dcpAbx addr => ⟨.dcp, .absoluteX addr, .rmw, 7⟩
  | .cpxImm imm => ⟨.cpx, .immediate imm, .read, 2⟩
  | .sbcIzx zp => ⟨.sbc, .indirectX zp, .read, 6⟩
  | .nopImmE2 imm => ⟨.nop, .immediate imm, .read, 2⟩
  | .isbIzx zp => ⟨.isb, .indirectX zp, .rmw, 8⟩
  | .cpxZp zp => ⟨.cpx, .zeroPage zp, .read, 3⟩
  | .sbcZp zp => ⟨.sbc, .zeroPage zp, .read, 3⟩
  | .incZp zp => ⟨.inc, .zeroPage zp, .rmw, 5⟩
  | .isbZp zp => ⟨.isb, .zeroPage zp, .rmw, 5⟩
  | .inx => ⟨.inx, .implicit, .implicit, 2⟩
  | .sbcImm imm => ⟨.sbc, .immediate imm, .read, 2⟩
  | .nop => ⟨.nop, .implicit, .implicit, 2⟩
  | .usbc imm => ⟨.usbc, .immediate imm, .read, 2⟩
  | .cpxAbs addr => ⟨.cpx, .absolute addr, .read, 4⟩
  | .sbcAbs addr => ⟨.sbc, .absolute addr, .read, 4⟩
  | .incAbs addr => ⟨.inc, .absolute addr, .rmw, 6⟩
  | .isbAbs addr => ⟨.isb, .absolute addr, .rmw, 6⟩
  | .beq off => ⟨.beq, .relative off, .implicit, 2⟩
  | .sbcIzy zp => ⟨.sbc, .indirectY zp, .read, 5⟩
  | .isbIzy zp => ⟨.isb, .indirectY zp, .rmw, 8⟩
  | .nopZpxF4 zp => ⟨.nop, .zeroPageX zp, .read, 4⟩
  | .sbcZpx zp => ⟨.sbc, .zeroPageX zp, .read, 4⟩
  | .incZpx zp => ⟨.inc, .zeroPageX zp, .rmw, 6⟩
  | .isbZpx zp => ⟨.isb, .zeroPageX zp, .rmw, 6⟩
  | .sed => ⟨.sed, .implicit, .implicit, 2⟩
  | .sbcAby addr => ⟨.sbc, .absoluteY addr, .read, 4⟩
  | .isbAby addr => ⟨.isb, .absoluteY addr, .rmw, 7⟩
  | .nopAbxFC addr => ⟨.nop, .absoluteX addr, .read, 4⟩
  | .sbcAbx addr => ⟨.sbc, .absoluteX addr, .read, 4⟩
  | .incAbx addr => ⟨.inc, .absoluteX addr, .rmw, 7⟩
  | .isbAbx addr => ⟨.isb, .absoluteX addr, .rmw, 7⟩

/-- The mnemonic column (30_encoding.md R161). -/
def Instr.mnemonic (i : Instr) : Mnemonic := i.row.mnemonic

/-- The mode column, with the operand (30_encoding.md R161). -/
def Instr.mode (i : Instr) : Mode := i.row.mode

/-- The tag column (30_encoding.md R161). -/
def Instr.tag (i : Instr) : Tag := i.row.tag

/-- The opcodes that decode to a mnemonic, rising, each with its mode (30_encoding.md R155). -/
def encodings (m : Mnemonic) : List (Nat × ModeName) :=
  (List.range 256).filterMap fun op =>
    (decodeOp (BitVec.ofNat 8 op) 0 0).bind fun i => if i.mnemonic = m then some (op, i.mode.name) else none

open Machine

/-- The bytes an instruction of a mode takes, opcode included (40_addressing_modes.md, section 1). -/
def Mode.bytes : Mode → Word
  | .implicit | .accumulator => 1
  | .immediate _ | .zeroPage _ | .zeroPageX _ | .zeroPageY _ | .indirectX _ | .indirectY _ | .relative _ => 2
  | .absolute _ | .absoluteX _ | .absoluteY _ | .indirect _ => 3

/-- The byte of internal RAM behind an address (20_memory.md R110). -/
def ramAt (s : State) (a : Word) : Byte := Memory.read s.ram (ramIndex a)

/-- The effective address of a mode that has one (40_addressing_modes.md R205-R208, R212, R213): zero-page sums stay in
page 0, indexed sums wrap at $10000, and the pointer of an indirect mode is read from page 0. -/
def Mode.ea (m : Mode) (s : State) : Option Word :=
  match m with
  | .zeroPage zp => some (Machine.zeroPage zp)
  | .zeroPageX zp => some (Machine.zeroPage (zp + s.cpu.x))
  | .zeroPageY zp => some (Machine.zeroPage (zp + s.cpu.y))
  | .absolute addr => some addr
  | .absoluteX addr => some (addr + s.cpu.x.setWidth 16)
  | .absoluteY addr => some (addr + s.cpu.y.setWidth 16)
  | .indirectX zp =>
    some (wordOf (ramAt s (Machine.zeroPage (zp + s.cpu.x + 1))) (ramAt s (Machine.zeroPage (zp + s.cpu.x))))
  | .indirectY zp =>
    some (wordOf (ramAt s (Machine.zeroPage (zp + 1))) (ramAt s (Machine.zeroPage zp)) + s.cpu.y.setWidth 16)
  | .implicit | .accumulator | .immediate _ | .indirect _ | .relative _ => none

/-- Indexing carries into the address's high byte (00_scope.md R14, "Page cross"; 40_addressing_modes.md R208,
R213). -/
def Mode.crosses (m : Mode) (s : State) : Bool :=
  match m with
  | .absoluteX addr => !samePage (addr + s.cpu.x.setWidth 16) addr
  | .absoluteY addr => !samePage (addr + s.cpu.y.setWidth 16) addr
  | .indirectY zp =>
    let base := wordOf (ramAt s (Machine.zeroPage (zp + 1))) (ramAt s (Machine.zeroPage zp))
    !samePage (base + s.cpu.y.setWidth 16) base
  | _ => false

/-- The condition of a branch (44_control_flow.md R301-R308). -/
def Mnemonic.taken (m : Mnemonic) (p : Flags) : Bool :=
  match m with
  | .bpl => !p.n
  | .bmi => p.n
  | .bvc => !p.v
  | .bvs => p.v
  | .bcc => !p.c
  | .bcs => p.c
  | .bne => !p.z
  | .beq => p.z
  | _ => false

/-- The address of the instruction after this one: the base of a branch (44_control_flow.md, section 1). -/
def nextPc (i : Instr) (s : State) : Word := s.cpu.pc + i.mode.bytes

/-- The cycles an instruction takes (30_encoding.md R161, 40_addressing_modes.md R220): the row's count, one more for a
Read whose index crosses a page, one more for a taken branch and one more if its target is in another page. -/
def cyclesOf (i : Instr) (s : State) : Nat :=
  i.row.cycles +
    match i.mode with
    | .relative off =>
      if i.mnemonic.taken s.cpu.p then (if samePage (nextPc i s + sext8 off) (nextPc i s) then 1 else 2) else 0
    | m => if i.tag = .read && m.crosses s then 1 else 0

namespace Machine

/-! ### The spec's arithmetic -/

/-- `setZN(r)` (00_scope.md R10). -/
def zn (r : Byte) (p : Flags) : Flags := { p with z := decide (r.toNat = 0), n := decide (128 ≤ r.toNat) }

/-- `Add8(a, b, c)` (42_arithmetic_logic.md R260): the result, and the flags after it. -/
def add8 (a b : Byte) (c : Bool) (p : Flags) : Byte × Flags :=
  let s := a.toNat + b.toNat + c.toNat
  let r := BitVec.ofNat 8 (s % 256)
  (r, { zn r p with c := decide (255 < s), v := decide ((a ^^^ r) &&& (b ^^^ r) &&& 0x80#8 ≠ 0#8) })

/-- `Compare(r, m)` (42_arithmetic_logic.md R266): the flags after it. -/
def compared (r m : Byte) (p : Flags) : Flags :=
  { zn (BitVec.ofNat 8 ((256 + r.toNat - m.toNat) % 256)) p with c := decide (m.toNat ≤ r.toNat) }

/-- The result and the carry out of a shift or rotate of `m` with carry in `c` (43_shift_rotate.md R290-R293), for the
mnemonic itself or for the combined one that begins with it (46_undocumented.md R345-R348). -/
def shiftOf (k : Mnemonic) (m : Byte) (c : Bool) : Byte × Bool :=
  match k with
  | .asl | .slo => (BitVec.ofNat 8 (m.toNat * 2 % 256), decide (128 ≤ m.toNat))
  | .rol | .rla => (BitVec.ofNat 8 ((m.toNat * 2 + c.toNat) % 256), decide (128 ≤ m.toNat))
  | .lsr | .sre => (BitVec.ofNat 8 (m.toNat / 2), decide (m.toNat % 2 = 1))
  | _ => (BitVec.ofNat 8 (128 * c.toNat + m.toNat / 2), decide (m.toNat % 2 = 1))

/-! ### What statements say of a step -/

/-- No DMA runs, and the host asserts no reset at the next `k` cycle boundaries, the one before the first cycle included
(49_oam_dma.md R501, 70_reset_and_hazards.md R561). -/
def undisturbed (k : Nat) (s : State) : Prop := s.dma.active = false ∧ ∀ n ∈ s.resetAt.head?, s.cycle + k ≤ n

/-- Every byte of the memories other than internal RAM reads as before: OAM, palette, nametables, pattern memory and
PRG-ROM. Secondary OAM is left out: the PPU writes it in every visible line. -/
def storageKept (s t : State) : Prop :=
  ∀ a, Memory.read t.ppu.oam a = Memory.read s.ppu.oam a
    ∧ Memory.read t.ppu.palette a = Memory.read s.ppu.palette a
    ∧ Memory.read t.cart.nt a = Memory.read s.cart.nt a
    ∧ Memory.read t.cart.chr a = Memory.read s.cart.chr a
    ∧ Memory.read t.cart.prg a = Memory.read s.cart.prg a

/-- The registers and parameters that only a CPU write, a DMA or a reset changes are as before. -/
def controlKept (s t : State) : Prop :=
  t.cfg = s.cfg ∧ t.resetAt = s.resetAt ∧ t.dma = s.dma ∧ t.ppu.regs.ctrl = s.ppu.regs.ctrl
    ∧ t.ppu.regs.mask = s.ppu.regs.mask ∧ t.ppu.regs.t = s.ppu.regs.t ∧ t.ppu.regs.xFine = s.ppu.regs.xFine

/-- Nothing is stored: every byte of internal RAM and of every other memory reads as before. -/
def storesNothing (s t : State) : Prop :=
  (∀ a, Memory.read t.ram a = Memory.read s.ram a) ∧ storageKept s t ∧ controlKept s t

/-- Address `a` selects PPU port `k` (20_memory.md R110). -/
def onPort (a : Word) (k : BitVec 3) : Bool := decide (target a = .ppu) && decide (portOf a = k)

/-- The byte `v` is stored at `a` and nothing else is stored. Internal RAM holds it if `a` is there, and every other byte
of RAM reads as before; a PRG-ROM byte never changes (20_memory.md R121); a store to $4014 starts the DMA (49_oam_dma.md
R500). PPU registers and memories change only by the port that writes them (47_ppu_registers.md R401-R410): OAM by port 4,
palette, nametables and pattern memory by port 7, PPUCTRL by port 0, PPUMASK by port 1, t by ports 0, 5 and 6, x by
port 5. -/
def stores (a : Word) (v : Byte) (s t : State) : Prop :=
  (∀ b, Memory.read t.ram b = if target a = .ram ∧ b = ramIndex a then v else Memory.read s.ram b)
    ∧ (∀ b, Memory.read t.cart.prg b = Memory.read s.cart.prg b)
    ∧ t.cfg = s.cfg ∧ t.resetAt = s.resetAt
    ∧ t.dma = (if target a = .oamDma then s.dma.start v else s.dma)
    ∧ (onPort a 4#3 = false → ∀ b, Memory.read t.ppu.oam b = Memory.read s.ppu.oam b)
    ∧ (onPort a 7#3 = false → ∀ b, Memory.read t.ppu.palette b = Memory.read s.ppu.palette b
        ∧ Memory.read t.cart.nt b = Memory.read s.cart.nt b ∧ Memory.read t.cart.chr b = Memory.read s.cart.chr b)
    ∧ t.ppu.regs.ctrl = (if onPort a 0#3 then v else s.ppu.regs.ctrl)
    ∧ t.ppu.regs.mask = (if onPort a 1#3 then v else s.ppu.regs.mask)
    ∧ ((onPort a 0#3 || onPort a 5#3 || onPort a 6#3) = false → t.ppu.regs.t = s.ppu.regs.t)
    ∧ (onPort a 5#3 = false → t.ppu.regs.xFine = s.ppu.regs.xFine)

/-- Internal RAM after bytes are pushed in order from stack pointer `sp` (10_state.md R23). -/
def pushedOn (sp : Byte) : List Byte → Memory → Memory
  | [], m => m
  | d :: rest, m => pushedOn (sp - 1) rest (Memory.write m (ramIndex (stackAddr sp)) d)

/-- The bytes are pushed, first one first, and nothing else is stored. -/
def pushes (bytes : List Byte) (s t : State) : Prop :=
  (∀ a, Memory.read t.ram a = Memory.read (pushedOn s.cpu.s bytes s.ram) a) ∧ storageKept s t ∧ controlKept s t

/-- `d` is the byte at `a` where `a` is internal RAM or mapper 0's PRG-ROM; what a device answers is not said here. -/
def delivers (a : Word) (s : State) (d : Byte) : Prop :=
  (target a = .ram → d = ramAt s a)
    ∧ (s.cart.kind = .nrom → 0x8000 ≤ a.toNat → d = Memory.read s.cart.prg (prgIndex s.cart.prgSize a))

/-- `d` is the operand of a Read instruction: the immediate byte, or the byte that the last cycle's read of the
effective address put on the bus. -/
def operandIs (m : Mode) (s t : State) (d : Byte) : Prop :=
  match m with
  | .immediate imm => d = imm
  | m => d = t.cpuBus ∧ ∀ a, m.ea s = some a → delivers a s d

/-- The stack byte `up` places above S (10_state.md R23). -/
def pulled (s : State) (up : Nat) : Byte := ramAt s (stackAddr (s.cpu.s + BitVec.ofNat 8 up))

/-- The APU holds its interrupt output high from now on, so the IRQ line is high in every cycle (60_exceptions.md
R521). -/
def irqHeld (s : State) : Prop := s.apuIrq = { level := true, changes := [] }

/-- No collaborator drives the IRQ line, now or later (60_exceptions.md R521). -/
def irqLow (s : State) : Prop := s.apuIrq = .low ∧ (s.cart.kind = .nrom ∨ s.cart.irq = .low)

/-- The registers of 10_state.md R20-R25. -/
def regs (c : Cpu) : Byte × Byte × Byte × Byte × Word × Flags := (c.a, c.x, c.y, c.s, c.pc, c.p)

/-- The instruction is complete and the next cycle starts the next one, or the interrupt sequence that its poll called
for (40_addressing_modes.md R200). -/
def ended (s t : State) : Prop := t.cpu.t = 1 ∧ t.cpu.mode = nextMode s.cpu.mode t.arb.pending

/-- The byte an address holds, with `ram` as internal RAM, where it is plain memory: internal RAM, or mapper 0's PRG-ROM
(20_memory.md R110, R121). -/
def plainByte (ram : Memory) (s : State) (a : Word) : Option Byte :=
  if a.toNat < 0x2000 then some (Memory.read ram (ramIndex a))
  else if s.cart.kind = .nrom ∧ 0x8000 ≤ a.toNat then some (Memory.read s.cart.prg (prgIndex s.cart.prgSize a))
  else none

/-- `v` is `u` one CPU cycle later, `act` the cycle's one bus primitive (00_scope.md R13): devices, dots, interrupt inputs,
access and cycle count are those of `busCycle` (20_memory.md R131). Of a DMA's cycle the controller is the bus master and
the CPU is as before (49_oam_dma.md R501, R502); of any other the CPU is, and updates its registers, what it polls, and the
NMI latch where it takes an NMI's vector. -/
def oneCycle (act : Act) (u v : State) : Prop :=
  v = { busCycle (fun _ => act) u with cpu := v.cpu, arb := v.arb, dma := v.dma }
    ∧ v.arb.nmiPrev = (busCycle (fun _ => act) u).arb.nmiPrev
    ∧ v.arb.irqSample = (busCycle (fun _ => act) u).arb.irqSample
    ∧ (v.arb.nmiLatch = true → (busCycle (fun _ => act) u).arb.nmiLatch = true)
    ∧ (u.dma.active = true → act = dmaAct u ∧ v.cpu = u.cpu ∧ v.arb = (busCycle (fun _ => act) u).arb
      ∧ v.dma = u.dma.advance u.cycle (busByte (fun _ => act) u))
    ∧ (u.dma.active = false → v.dma = (busCycle (fun _ => act) u).dma)

/-- The machine `k` cycles before the end of an instruction that takes its count of cycles. -/
def cyclesBefore (k : Nat) (i : Instr) (s : State) : State := afterCycles (cyclesOf i s - k) i s

/-- The instruction's last cycle reads its effective address, if it has one, and leaves the byte read on the bus
(40_addressing_modes.md R205): no other address is read there, and a device sees that read and no other. -/
def lastCycleReads (i : Instr) (s t : State) : Prop :=
  ∀ a, i.mode.ea s = some a →
    oneCycle (.read a) (cyclesBefore 1 i s) t ∧ t.cpuBus = busByte (fun _ => .read a) (cyclesBefore 1 i s)

/-- The instruction's last cycle writes `v` at `a` (40_addressing_modes.md R205). -/
def lastCycleWrites (i : Instr) (a : Word) (v : Byte) (s t : State) : Prop := oneCycle (.write a v) (cyclesBefore 1 i s) t

/-- The instruction's last three cycles read `m` at `a`, write `m` back and write `r` there (40_addressing_modes.md
R205). -/
def lastCyclesModify (i : Instr) (a : Word) (m r : Byte) (s t : State) : Prop :=
  m = busByte (fun _ => .read a) (cyclesBefore 3 i s)
    ∧ oneCycle (.read a) (cyclesBefore 3 i s) (cyclesBefore 2 i s)
    ∧ oneCycle (.write a m) (cyclesBefore 2 i s) (cyclesBefore 1 i s)
    ∧ oneCycle (.write a r) (cyclesBefore 1 i s) t

/-- The bytes of the instruction stand at PC, in plain memory. JSR's third byte is fetched after its two pushes
(40_addressing_modes.md R216), so it is the byte that stands there then. -/
def standsAtPc (i : Instr) (s : State) : Prop :=
  ∀ k < i.length,
    plainByte (if i.opcode = 0x20#8 ∧ k = 2 then pushedOn s.cpu.s [hiByte (s.cpu.pc + 2), loByte (s.cpu.pc + 2)] s.ram
        else s.ram) s (s.cpu.pc + BitVec.ofNat 16 k)
      = (encode i)[k]?

/-- The byte a read-modify-write instruction stores and the CPU registers after it, from the byte it read
(42_arithmetic_logic.md R271, R272, 43_shift_rotate.md R290-R293, 46_undocumented.md R343-R348). -/
def modified (k : Mnemonic) (m : Byte) (c : Cpu) : Byte × Cpu :=
  let r := match k with
    | .inc | .isb => BitVec.ofNat 8 ((m.toNat + 1) % 256)
    | .dec | .dcp => BitVec.ofNat 8 ((m.toNat + 255) % 256)
    | k => (shiftOf k m c.p.c).1
  let out := (shiftOf k m c.p.c).2
  (r, match k with
    | .inc | .dec => { c with p := zn r c.p }
    | .dcp => { c with p := compared c.a r c.p }
    | .isb => { c with a := (add8 c.a (r ^^^ 0xFF#8) c.p.c c.p).1, p := (add8 c.a (r ^^^ 0xFF#8) c.p.c c.p).2 }
    | .slo => { c with a := c.a ||| r, p := { zn (c.a ||| r) c.p with c := out } }
    | .rla => { c with a := c.a &&& r, p := { zn (c.a &&& r) c.p with c := out } }
    | .sre => { c with a := c.a ^^^ r, p := { zn (c.a ^^^ r) c.p with c := out } }
    | .rra => { c with a := (add8 c.a r out c.p).1, p := (add8 c.a r out c.p).2 }
    | _ => { c with p := { zn r c.p with c := out } })

/-- The PPU position after `n` dots, `on` telling of each whether rendering is enabled (48_ppu_pipeline.md R443). -/
def positionAfter (cfg : Config) (on : Nat → Bool) (p : Position) : Nat → Position
  | 0 => p
  | n + 1 => (positionAfter cfg on p n).advance cfg (on n)

/-- The position as `Advance()` sees it: line, dot, frame parity. -/
def Position.place (p : Position) : Int × Nat × Bool := (p.line, p.dot, p.oddFrame)

/-! ### The PPU -/

/-- Address `a` is a mirror of PPU port `k` (20_memory.md R110). -/
abbrev isPort (k : Nat) (a : Word) : Prop := 0x2000 ≤ a.toNat ∧ a.toNat < 0x4000 ∧ a.toNat % 8 = k

/-- The open-bus latch after all its bits are refreshed with `d` (47_ppu_registers.md R400, R411). -/
def refreshedBus (d : Byte) : OpenBus := { latch := d, decay := [0, 0, 0, 0, 0, 0, 0, 0] }

/-- `rendering_enabled` (48_ppu_pipeline.md R442). -/
abbrev renderingOn (s : State) : Prop := s.ppu.regs.mask.getLsbD 3 = true ∨ s.ppu.regs.mask.getLsbD 4 = true

/-- The line is visible (48_ppu_pipeline.md R441). -/
abbrev visibleLine (s : State) : Prop := 0 ≤ s.ppu.pos.line ∧ s.ppu.pos.line < s.cfg.region.visibleLines

/-- `rendering_active` (48_ppu_pipeline.md R442). -/
abbrev renderingNow (s : State) : Prop := renderingOn s ∧ (s.ppu.pos.line = -1 ∨ visibleLine s)

/-- What a DMA of `page` that starts at `s` leaves in OAM at its end `t` (49_oam_dma.md R502-R505; a DMA takes 2056 dots at
most). Where none of its dots is one of rendering: the page's bytes from OAMADDR on, and OAMADDR as it was. Where all of them
are: what it held (47_ppu_registers.md R410); OAMADDR then is 0 since its last dot of 257-320 (48_ppu_pipeline.md R468) but for
the increments after it. -/
def copiesPage (page : Byte) (s t : State) : Prop :=
  (¬ renderingOn s ∨ (s.cfg.region.visibleLines ≤ s.ppu.pos.line ∧ s.ppu.pos.line + 7 < s.cfg.region.numLines - 1) →
      t.ppu.regs.oamAddr = s.ppu.regs.oamAddr
        ∧ ∀ i < 256, delivers (wordOf page 0 + BitVec.ofNat 16 i) s
          (Memory.read t.ppu.oam ((s.ppu.regs.oamAddr.toNat + i) % 256)))
    ∧ (renderingOn s → -1 ≤ s.ppu.pos.line → s.ppu.pos.line + 7 < s.cfg.region.visibleLines →
      ∀ a, Memory.read t.ppu.oam a = Memory.read s.ppu.oam a)

/-- The dot puts an address with bit 12 `high` on the PPU bus (48_ppu_pipeline.md R480, R481): the tracker takes it, a fall is
recorded in the dot's CPU cycle, and a rise after at least 3 cycles low clocks the mapper's IRQ counter once. -/
def drivenTo (high : Bool) (s t : State) : Prop :=
  t.ppu.a12 = {
      level := high
      fallCycle := if s.ppu.a12.level = true ∧ high = false then s.cycle else s.ppu.a12.fallCycle }
    ∧ t.cart.clockIrqs = s.cart.clockIrqs
      + if s.ppu.a12.level = false ∧ high = true ∧ 3 ≤ (s.cycle : Int) - s.ppu.a12.fallCycle then 1 else 0

/-- What no dot changes: the machine outside PPU and cartridge; of the PPU its open bus, OAM, the palette and the registers but
the three flags, v and OAMADDR (48_ppu_pipeline.md R440); of the cartridge all but the record of its calls, which mapper 0 does
not keep. -/
def dotKeeps (s t : State) : Prop :=
  t = { s with ppu := t.ppu, cart := t.cart }
    ∧ t.ppu.bus = s.ppu.bus ∧ t.ppu.oam = s.ppu.oam ∧ t.ppu.palette = s.ppu.palette
    ∧ t.ppu.regs = { s.ppu.regs with
        vbl := t.ppu.regs.vbl, s0h := t.ppu.regs.s0h, sov := t.ppu.regs.sov, v := t.ppu.regs.v
        oamAddr := t.ppu.regs.oamAddr }
    ∧ t.cart = { s.cart with clockIrqs := t.cart.clockIrqs, log := t.cart.log }
    ∧ (s.cart.kind = .nrom → t.cart.log = s.cart.log)

/-- The dot puts no address on the PPU bus. -/
def drivesNothing (s t : State) : Prop := t.ppu.a12 = s.ppu.a12 ∧ t.cart = s.cart

/-- The nametable (0-3) of the 4 KiB store that a mirroring makes of nametable `table` (20_memory.md R119). -/
def mirrored (m : Mirroring) (table : Nat) : Nat :=
  match m with
  | .horizontal => table - table % 2
  | .vertical => table % 2
  | .singleLower => 0
  | .singleUpper => 1
  | .fourScreen => table

/-- The cell that PPU address `n` names (20_memory.md R119, R125, R126): itself in pattern memory, the cell of the
nametable store from $2000 on, the palette entry from $3F00 on. -/
def ppuCell (m : Mirroring) (n : Nat) : Nat :=
  if n < 0x2000 then n
  else if n < 0x3F00 then 0x2000 + 0x400 * mirrored m (n / 0x400 % 4) + n % 0x400
  else 0x3F00 + if 16 ≤ n % 32 ∧ n % 4 = 0 then n % 32 - 16 else n % 32

/-- Bit `i` of a word as a number 0 or 1. -/
def bitOf {w : Nat} (d : BitVec w) (i : Nat) : Nat := (d.getLsbD i).toNat

/-- The colour number a sprite slot shows with its counter at `x`, 0 if it is not active (48_ppu_pipeline.md R473). -/
def slotColour (u : SpriteSlot) : Nat :=
  if -8 < u.x ∧ u.x ≤ 0 then 2 * bitOf u.hi (7 + u.x).toNat + bitOf u.lo (7 + u.x).toNat else 0

/-- `in_range(y)` on the current line (48_ppu_pipeline.md R463). -/
abbrev onNextLine (s : State) (y : Byte) : Prop :=
  0 ≤ s.ppu.pos.line - y.toNat ∧ s.ppu.pos.line - y.toNat < if s.ppu.regs.ctrl.getLsbD 5 then 16 else 8

/-- Byte `k` of entry `i` of secondary OAM (10_state.md R52). -/
def secOamByte (s : State) (i k : Nat) : Byte := Memory.read s.ppu.secOam (4 * i + k)

end Machine

end Sys2Proof
end

