-- ==== Sys2Proof/Safety.lean ====
section
/-! DEFINITION. What a safe step and a safe run are: no step is refused (60_exceptions.md R529: an unstable opcode is the one
thing that stops the model); and the invariant of the machine, in the terms of 10_state.md. -/

namespace Sys2Proof.Machine

/-- The machine goes on from this state. -/
def goesOn (s : State) : Prop := ∃ t, step s = .next t

/-- The next `n` steps all go on. -/
def safeFor : Nat → State → Prop
  | 0, _ => True
  | n + 1, s => ∃ t, step s = .next t ∧ safeFor n t

/-- A memory in canonical form whose listed addresses lie below its size. -/
def Memory.fits (m : Memory) (size : Nat) : Prop := m.wf = true ∧ m.within size = true

/-- Pattern memory in canonical form, 8 KiB of it in mapper 0 (20_memory.md R121); the spec gives that of an external mapper no
size (R120). -/
def Cart.chrFits (c : Cart) : Prop := c.chr.wf = true ∧ (c.kind = .nrom → c.chr.within 8192 = true)

/-- The frame buffer in canonical form: lines and pixels in rising order, 256 pixels a line, only visible lines (10_state.md
R59). -/
def frameFits (cfg : Config) (fb : FrameBuffer) : Prop :=
  sorted fb = true ∧ ∀ line ∈ fb, (line.1 : Int) < cfg.region.visibleLines ∧ sorted line.2 = true
    ∧ ∀ pixel ∈ line.2, pixel.1 < 256

/-- The PPU's part of the invariant. -/
structure PpuInv (cfg : Config) (p : Ppu) : Prop where
  /-- OAM is 256 bytes (10_state.md R51). -/
  oam : p.oam.fits 256
  /-- Secondary OAM is 32 bytes (10_state.md R52). -/
  secOam : p.secOam.fits 32
  /-- Palette RAM is 32 entries of 6 bits (10_state.md R53). -/
  palette : p.palette.fits 32 ∧ ∀ i, (Memory.read p.palette i).toNat < 64
  /-- The frame buffer (10_state.md R59). -/
  frame : frameFits cfg p.fb
  /-- The position is one of the region's dots (10_state.md R57, 48_ppu_pipeline.md R441). -/
  line : -1 ≤ p.pos.line ∧ p.pos.line ≤ cfg.region.numLines - 2
  dot : p.pos.dot ≤ 340
  /-- Eight decay counters (10_state.md R54). -/
  decay : p.bus.decay.length = 8
  /-- Eight sprite output units, at most eight of them occupied (10_state.md R55). -/
  slots : p.spr.slots.length = 8
  count : p.spr.count ≤ 8
  /-- The evaluator finds at most eight sprites, and still copies only while it has found fewer (10_state.md R56). -/
  found : p.ev.found ≤ 8
  copying : p.ev.phase = .copy → p.ev.found < 8

/-- The invariant of the machine: memories canonical and inside their sizes, counters and positions in range. -/
structure Inv (s : State) : Prop where
  /-- Internal RAM is 2 KiB (10_state.md R71). -/
  ram : s.ram.fits 2048
  ppu : PpuInv s.cfg s.ppu
  /-- Nametable, pattern and program memory (10_state.md R72, 20_memory.md R119-R121). -/
  nt : s.cart.nt.fits 4096
  chr : s.cart.chrFits
  prg : s.cart.prg.fits s.cart.prgSize.bytes
  /-- The DMA index counts to 256 (10_state.md R62). -/
  dma : s.dma.index ≤ 256 ∧ (s.dma.active = true → s.dma.index < 256)

end Sys2Proof.Machine
end

