-- ==== Sys2Proof/Certificates/Slice0/Obligations.lean ====
section
/-! DEFINITION. The statements for the provers, by file of the spec. The vocabulary is that of Sys2Proof/Machine/Forms.lean
(mnemonics, modes, effective addresses, what is stored and what is left alone) and of the model's accessors. A statement
about an instruction is made of a machine in which no DMA runs and for whose next cycles the host asserts no reset
(`undisturbed`): with either, the CPU's cycles are not its own (49_oam_dma.md R501, 70_reset_and_hazards.md R561). -/

open Sys2Proof Sys2Proof.Machine

/-! ### Loads, stores, transfers (41_load_store_transfer.md) -/

/-- LDA, LDX and LDY in every mode (41_load_store_transfer.md R240-R242): the register takes the operand, which the last cycle
reads at the effective address, N and Z are set from it, nothing else changes; one more cycle where an index crosses a
page. -/
def Obligations.LoadsTakeTheOperandAndSetNZ : Prop :=
  encodings .lda = [(0xA1, .indirectX), (0xA5, .zeroPage), (0xA9, .immediate), (0xAD, .absolute), (0xB1, .indirectY),
      (0xB5, .zeroPageX), (0xB9, .absoluteY), (0xBD, .absoluteX)]
    ∧ encodings .ldx = [(0xA2, .immediate), (0xA6, .zeroPage), (0xAE, .absolute), (0xB6, .zeroPageY), (0xBE, .absoluteY)]
    ∧ encodings .ldy = [(0xA0, .immediate), (0xA4, .zeroPage), (0xAC, .absolute), (0xB4, .zeroPageX), (0xBC, .absoluteX)]
    ∧ ∀ (i : Instr) (s : State), undisturbed 8 s → i.mnemonic ∈ [.lda, .ldx, .ldy] →
      ∃ (t : State) (m : Byte), exec i s = .next t ∧ operandIs i.mode s t m ∧ lastCycleReads i s t
        ∧ regs t.cpu = regs { s.cpu with
            a := if i.mnemonic = .lda then m else s.cpu.a
            x := if i.mnemonic = .ldx then m else s.cpu.x
            y := if i.mnemonic = .ldy then m else s.cpu.y
            p := zn m s.cpu.p
            pc := nextPc i s }
        ∧ storesNothing s t ∧ t.cycle = s.cycle + cyclesOf i s ∧ ended s t

/-- STA, STX and STY in every mode (41_load_store_transfer.md R243-R245): the register is stored at the effective address,
which the last cycle writes; no register or flag changes. -/
def Obligations.StoresWriteTheRegister : Prop :=
  encodings .sta = [(0x81, .indirectX), (0x85, .zeroPage), (0x8D, .absolute), (0x91, .indirectY), (0x95, .zeroPageX),
      (0x99, .absoluteY), (0x9D, .absoluteX)]
    ∧ encodings .stx = [(0x86, .zeroPage), (0x8E, .absolute), (0x96, .zeroPageY)]
    ∧ encodings .sty = [(0x84, .zeroPage), (0x8C, .absolute), (0x94, .zeroPageX)]
    ∧ ∀ (i : Instr) (s : State), undisturbed 8 s → i.mnemonic ∈ [.sta, .stx, .sty] →
      ∃ (t : State) (a : Word) (v : Byte), exec i s = .next t ∧ i.mode.ea s = some a
        ∧ v = (if i.mnemonic = .sta then s.cpu.a else if i.mnemonic = .stx then s.cpu.x else s.cpu.y)
        ∧ stores a v s t ∧ lastCycleWrites i a v s t
        ∧ regs t.cpu = regs { s.cpu with pc := nextPc i s }
        ∧ t.cycle = s.cycle + cyclesOf i s ∧ ended s t

/-- TAX, TAY, TXA, TYA, TSX and TXS (41_load_store_transfer.md R246-R251): one register takes another; N and Z are set from
it, but not by TXS. -/
def Obligations.TransfersCopyARegister : Prop :=
  encodings .tax = [(0xAA, .implicit)] ∧ encodings .tay = [(0xA8, .implicit)] ∧ encodings .txa = [(0x8A, .implicit)]
    ∧ encodings .tya = [(0x98, .implicit)] ∧ encodings .tsx = [(0xBA, .implicit)] ∧ encodings .txs = [(0x9A, .implicit)]
    ∧ ∀ (i : Instr) (s : State), undisturbed 2 s → i.mnemonic ∈ [.tax, .tay, .txa, .tya, .tsx, .txs] →
      ∃ t : State, exec i s = .next t
        ∧ regs t.cpu = regs (match i.mnemonic with
            | .tax => { s.cpu with x := s.cpu.a, p := zn s.cpu.a s.cpu.p, pc := s.cpu.pc + 1 }
            | .tay => { s.cpu with y := s.cpu.a, p := zn s.cpu.a s.cpu.p, pc := s.cpu.pc + 1 }
            | .txa => { s.cpu with a := s.cpu.x, p := zn s.cpu.x s.cpu.p, pc := s.cpu.pc + 1 }
            | .tya => { s.cpu with a := s.cpu.y, p := zn s.cpu.y s.cpu.p, pc := s.cpu.pc + 1 }
            | .tsx => { s.cpu with x := s.cpu.s, p := zn s.cpu.s s.cpu.p, pc := s.cpu.pc + 1 }
            | _ => { s.cpu with s := s.cpu.x, pc := s.cpu.pc + 1 })
        ∧ storesNothing s t ∧ t.cycle = s.cycle + 2 ∧ ended s t

/-! ### Arithmetic, logic, compare, increment (42_arithmetic_logic.md) -/

/-- ADC in every mode (42_arithmetic_logic.md R260, R261): A, N, V, Z and C from `Add8(A, M, C)`, whatever D holds. -/
def Obligations.AdcAddsWithCarryInBinary : Prop :=
  encodings .adc = [(0x61, .indirectX), (0x65, .zeroPage), (0x69, .immediate), (0x6D, .absolute), (0x71, .indirectY),
      (0x75, .zeroPageX), (0x79, .absoluteY), (0x7D, .absoluteX)]
    ∧ ∀ (i : Instr) (s : State), undisturbed 8 s → i.mnemonic = .adc →
      ∃ (t : State) (m : Byte), exec i s = .next t ∧ operandIs i.mode s t m ∧ lastCycleReads i s t
        ∧ regs t.cpu = regs { s.cpu with
            a := (add8 s.cpu.a m s.cpu.p.c s.cpu.p).1
            p := (add8 s.cpu.a m s.cpu.p.c s.cpu.p).2
            pc := nextPc i s }
        ∧ storesNothing s t ∧ t.cycle = s.cycle + cyclesOf i s ∧ ended s t

/-- SBC in every mode and its duplicate $EB (42_arithmetic_logic.md R262, 46_undocumented.md R356): `Add8(A, M xor $FF, C)`,
that is A - M - (1 - C) modulo 256, with C = 1 exactly when A >= M + 1 - C, and V the signed overflow of the
subtraction. -/
def Obligations.SbcSubtractsWithBorrow : Prop :=
  encodings .sbc = [(0xE1, .indirectX), (0xE5, .zeroPage), (0xE9, .immediate), (0xED, .absolute), (0xF1, .indirectY),
      (0xF5, .zeroPageX), (0xF9, .absoluteY), (0xFD, .absoluteX)]
    ∧ encodings .usbc = [(0xEB, .immediate)]
    ∧ ∀ (i : Instr) (s : State), undisturbed 8 s → i.mnemonic ∈ [.sbc, .usbc] →
      ∃ (t : State) (m : Byte), exec i s = .next t ∧ operandIs i.mode s t m ∧ lastCycleReads i s t
        ∧ regs t.cpu = regs { s.cpu with
            a := (add8 s.cpu.a (m ^^^ 0xFF#8) s.cpu.p.c s.cpu.p).1
            p := (add8 s.cpu.a (m ^^^ 0xFF#8) s.cpu.p.c s.cpu.p).2
            pc := nextPc i s }
        ∧ (t.cpu.a.toNat : Int) = ((s.cpu.a.toNat : Int) - m.toNat - (1 - s.cpu.p.c.toNat)) % 256
        ∧ (t.cpu.p.c = true ↔ m.toNat + 1 ≤ s.cpu.a.toNat + s.cpu.p.c.toNat)
        ∧ (t.cpu.p.v = true ↔ s.cpu.a.toInt - m.toInt - (1 - s.cpu.p.c.toNat) < -128
            ∨ 127 < s.cpu.a.toInt - m.toInt - (1 - s.cpu.p.c.toNat))
        ∧ storesNothing s t ∧ t.cycle = s.cycle + cyclesOf i s ∧ ended s t

/-- AND, ORA and EOR in every mode (42_arithmetic_logic.md R263-R265). -/
def Obligations.LogicCombinesAWithTheOperand : Prop :=
  encodings .and = [(0x21, .indirectX), (0x25, .zeroPage), (0x29, .immediate), (0x2D, .absolute), (0x31, .indirectY),
      (0x35, .zeroPageX), (0x39, .absoluteY), (0x3D, .absoluteX)]
    ∧ encodings .ora = [(0x01, .indirectX), (0x05, .zeroPage), (0x09, .immediate), (0x0D, .absolute), (0x11, .indirectY),
      (0x15, .zeroPageX), (0x19, .absoluteY), (0x1D, .absoluteX)]
    ∧ encodings .eor = [(0x41, .indirectX), (0x45, .zeroPage), (0x49, .immediate), (0x4D, .absolute), (0x51, .indirectY),
      (0x55, .zeroPageX), (0x59, .absoluteY), (0x5D, .absoluteX)]
    ∧ ∀ (i : Instr) (s : State), undisturbed 8 s → i.mnemonic ∈ [.and, .ora, .eor] →
      ∃ (t : State) (m r : Byte), exec i s = .next t ∧ operandIs i.mode s t m ∧ lastCycleReads i s t
        ∧ r = (if i.mnemonic = .and then s.cpu.a &&& m else if i.mnemonic = .ora then s.cpu.a ||| m else s.cpu.a ^^^ m)
        ∧ regs t.cpu = regs { s.cpu with a := r, p := zn r s.cpu.p, pc := nextPc i s }
        ∧ storesNothing s t ∧ t.cycle = s.cycle + cyclesOf i s ∧ ended s t

/-- CMP, CPX and CPY in every mode (42_arithmetic_logic.md R266-R269): N, Z and C from the comparison, no register
written. -/
def Obligations.ComparesSetNZC : Prop :=
  encodings .cmp = [(0xC1, .indirectX), (0xC5, .zeroPage), (0xC9, .immediate), (0xCD, .absolute), (0xD1, .indirectY),
      (0xD5, .zeroPageX), (0xD9, .absoluteY), (0xDD, .absoluteX)]
    ∧ encodings .cpx = [(0xE0, .immediate), (0xE4, .zeroPage), (0xEC, .absolute)]
    ∧ encodings .cpy = [(0xC0, .immediate), (0xC4, .zeroPage), (0xCC, .absolute)]
    ∧ ∀ (i : Instr) (s : State), undisturbed 8 s → i.mnemonic ∈ [.cmp, .cpx, .cpy] →
      ∃ (t : State) (m : Byte), exec i s = .next t ∧ operandIs i.mode s t m ∧ lastCycleReads i s t
        ∧ regs t.cpu = regs { s.cpu with
            p := compared (if i.mnemonic = .cmp then s.cpu.a else if i.mnemonic = .cpx then s.cpu.x else s.cpu.y) m s.cpu.p
            pc := nextPc i s }
        ∧ storesNothing s t ∧ t.cycle = s.cycle + cyclesOf i s ∧ ended s t

/-- BIT (42_arithmetic_logic.md R270): Z from A and M, V and N from bits 6 and 7 of the memory byte, which the last cycle
reads. -/
def Obligations.BitTestsTheMemoryByte : Prop :=
  encodings .bit = [(0x24, .zeroPage), (0x2C, .absolute)]
    ∧ ∀ (i : Instr) (s : State), undisturbed 8 s → i.mnemonic = .bit →
      ∃ (t : State) (m : Byte), exec i s = .next t ∧ operandIs i.mode s t m ∧ lastCycleReads i s t
        ∧ regs t.cpu = regs { s.cpu with
            p := { s.cpu.p with z := decide (s.cpu.a &&& m = 0#8), v := m.getLsbD 6, n := m.getLsbD 7 }
            pc := nextPc i s }
        ∧ storesNothing s t ∧ t.cycle = s.cycle + cyclesOf i s ∧ ended s t

/-- INC and DEC (42_arithmetic_logic.md R271, R272) at any address but $4014, where the first write starts a DMA
(49_oam_dma.md R508; `RmwOnOamDmaRegister` says what happens there): the last three cycles read the byte, write it back and
write the result. -/
def Obligations.IncDecChangeMemoryByOne : Prop :=
  encodings .inc = [(0xE6, .zeroPage), (0xEE, .absolute), (0xF6, .zeroPageX), (0xFE, .absoluteX)]
    ∧ encodings .dec = [(0xC6, .zeroPage), (0xCE, .absolute), (0xD6, .zeroPageX), (0xDE, .absoluteX)]
    ∧ ∀ (i : Instr) (s : State) (a : Word), undisturbed 8 s → i.mnemonic ∈ [.inc, .dec] → i.mode.ea s = some a →
      a ≠ 0x4014#16 →
      ∃ (t : State) (m r : Byte), exec i s = .next t ∧ delivers a s m
        ∧ r.toNat = (m.toNat + if i.mnemonic = .inc then 1 else 255) % 256
        ∧ stores a r s t ∧ lastCyclesModify i a m r s t
        ∧ regs t.cpu = regs { s.cpu with p := zn r s.cpu.p, pc := nextPc i s }
        ∧ t.cycle = s.cycle + cyclesOf i s ∧ ended s t

/-- INX, INY, DEX and DEY (42_arithmetic_logic.md R273-R276). -/
def Obligations.IndexRegistersCountByOne : Prop :=
  encodings .inx = [(0xE8, .implicit)] ∧ encodings .iny = [(0xC8, .implicit)] ∧ encodings .dex = [(0xCA, .implicit)]
    ∧ encodings .dey = [(0x88, .implicit)]
    ∧ ∀ (i : Instr) (s : State), undisturbed 2 s → i.mnemonic ∈ [.inx, .iny, .dex, .dey] →
      ∃ (t : State) (r : Byte), exec i s = .next t
        ∧ r.toNat = ((if i.mnemonic ∈ [.inx, .dex] then s.cpu.x.toNat else s.cpu.y.toNat)
            + if i.mnemonic ∈ [.inx, .iny] then 1 else 255) % 256
        ∧ regs t.cpu = regs { s.cpu with
            x := if i.mnemonic ∈ [.inx, .dex] then r else s.cpu.x
            y := if i.mnemonic ∈ [.inx, .dex] then s.cpu.y else r
            p := zn r s.cpu.p
            pc := s.cpu.pc + 1 }
        ∧ storesNothing s t ∧ t.cycle = s.cycle + 2 ∧ ended s t

/-! ### Shifts and rotates (43_shift_rotate.md) -/

/-- ASL, LSR, ROL and ROR (43_shift_rotate.md R290-R293), on memory at any address but $4014, where the first write
starts a DMA (`RmwOnOamDmaRegister`), and on A (40_addressing_modes.md R203). -/
def Obligations.ShiftsAndRotates : Prop :=
  encodings .asl = [(0x06, .zeroPage), (0x0A, .accumulator), (0x0E, .absolute), (0x16, .zeroPageX), (0x1E, .absoluteX)]
    ∧ encodings .lsr = [(0x46, .zeroPage), (0x4A, .accumulator), (0x4E, .absolute), (0x56, .zeroPageX), (0x5E, .absoluteX)]
    ∧ encodings .rol = [(0x26, .zeroPage), (0x2A, .accumulator), (0x2E, .absolute), (0x36, .zeroPageX), (0x3E, .absoluteX)]
    ∧ encodings .ror = [(0x66, .zeroPage), (0x6A, .accumulator), (0x6E, .absolute), (0x76, .zeroPageX), (0x7E, .absoluteX)]
    ∧ (∀ (i : Instr) (s : State) (a : Word), undisturbed 8 s → i.mnemonic ∈ [.asl, .lsr, .rol, .ror] →
      i.mode.ea s = some a → a ≠ 0x4014#16 →
      ∃ (t : State) (m r : Byte) (out : Bool), exec i s = .next t ∧ delivers a s m
        ∧ (r, out) = shiftOf i.mnemonic m s.cpu.p.c
        ∧ stores a r s t ∧ lastCyclesModify i a m r s t
        ∧ regs t.cpu = regs { s.cpu with p := { zn r s.cpu.p with c := out }, pc := nextPc i s }
        ∧ t.cycle = s.cycle + cyclesOf i s ∧ ended s t)
    ∧ ∀ (i : Instr) (s : State), undisturbed 2 s → i.mnemonic ∈ [.asl, .lsr, .rol, .ror] → i.mode = .accumulator →
      ∃ (t : State) (r : Byte) (out : Bool), exec i s = .next t
        ∧ (r, out) = shiftOf i.mnemonic s.cpu.a s.cpu.p.c
        ∧ regs t.cpu = regs { s.cpu with a := r, p := { zn r s.cpu.p with c := out }, pc := s.cpu.pc + 1 }
        ∧ storesNothing s t ∧ t.cycle = s.cycle + 2 ∧ ended s t

/-! ### Branches, jumps, subroutines, interrupts (44_control_flow.md) -/

/-- The eight branches (44_control_flow.md R301-R308): taken, PC is the next instruction's address plus the signed offset,
in 3 cycles or in 4 across a page; not taken, the next instruction's address in 2. -/
def Obligations.BranchesFollowTheirFlag : Prop :=
  encodings .bpl = [(0x10, .relative)] ∧ encodings .bmi = [(0x30, .relative)] ∧ encodings .bvc = [(0x50, .relative)]
    ∧ encodings .bvs = [(0x70, .relative)] ∧ encodings .bcc = [(0x90, .relative)] ∧ encodings .bcs = [(0xB0, .relative)]
    ∧ encodings .bne = [(0xD0, .relative)] ∧ encodings .beq = [(0xF0, .relative)]
    ∧ ∀ (i : Instr) (s : State) (off : Byte), undisturbed 4 s → i.mode = .relative off →
      ∃ (t : State) (holds : Bool) (pc : Word), exec i s = .next t
        ∧ some holds = (match i.mnemonic with
            | .bpl => some (!s.cpu.p.n)
            | .bmi => some s.cpu.p.n
            | .bvc => some (!s.cpu.p.v)
            | .bvs => some s.cpu.p.v
            | .bcc => some (!s.cpu.p.c)
            | .bcs => some s.cpu.p.c
            | .bne => some (!s.cpu.p.z)
            | .beq => some s.cpu.p.z
            | _ => none)
        ∧ (pc.toNat : Int) = ((s.cpu.pc.toNat : Int) + 2 + if holds then off.toInt else 0) % 0x10000
        ∧ regs t.cpu = regs { s.cpu with pc := pc }
        ∧ storesNothing s t ∧ ended s t
        ∧ t.cycle = s.cycle + (if holds then (if pc.toNat / 256 = (s.cpu.pc + 2).toNat / 256 then 3 else 4) else 2)

/-- JMP absolute and JMP indirect (44_control_flow.md R309, R310): the indirect form's last two cycles read the pointer's low
byte and, from the pointer's own page, its high byte. -/
def Obligations.JumpsLoadPc : Prop :=
  encodings .jmp = [(0x4C, .absolute), (0x6C, .indirect)]
    ∧ ∀ s : State, undisturbed 5 s →
      (∀ addr : Word, ∃ t : State, exec (.jmpAbs addr) s = .next t ∧ regs t.cpu = regs { s.cpu with pc := addr }
        ∧ storesNothing s t ∧ t.cycle = s.cycle + 3 ∧ ended s t)
      ∧ ∀ ptr : Word, ∃ (t u v : State) (lo hi : Byte) (next : Word), exec (.jmpInd ptr) s = .next t
        ∧ u = cyclesBefore 2 (.jmpInd ptr) s ∧ v = cyclesBefore 1 (.jmpInd ptr) s
        ∧ next = wordOf (hiByte ptr) (loByte ptr + 1)
        ∧ oneCycle (.read ptr) u v ∧ oneCycle (.read next) v t
        ∧ lo = busByte (fun _ => .read ptr) u ∧ hi = busByte (fun _ => .read next) v
        ∧ delivers ptr s lo ∧ delivers next s hi
        ∧ regs t.cpu = regs { s.cpu with pc := wordOf hi lo }
        ∧ storesNothing s t ∧ t.cycle = s.cycle + 5 ∧ ended s t

/-- JSR and RTS (44_control_flow.md R311, R312): JSR pushes the address of its last byte, high byte first, and PC takes the
operand; RTS pulls PC, low byte first, and adds 1. -/
def Obligations.SubroutineCallAndReturn : Prop :=
  encodings .jsr = [(0x20, .absolute)] ∧ encodings .rts = [(0x60, .implicit)]
    ∧ ∀ s : State, undisturbed 6 s →
      (∀ addr : Word, ∃ t : State, exec (.jsr addr) s = .next t
        ∧ pushes [hiByte (s.cpu.pc + 2), loByte (s.cpu.pc + 2)] s t
        ∧ regs t.cpu = regs { s.cpu with s := s.cpu.s - 2, pc := addr }
        ∧ t.cycle = s.cycle + 6 ∧ ended s t)
      ∧ ∃ t : State, exec .rts s = .next t
        ∧ regs t.cpu = regs { s.cpu with s := s.cpu.s + 2, pc := wordOf (pulled s 2) (pulled s 1) + 1 }
        ∧ storesNothing s t ∧ t.cycle = s.cycle + 6 ∧ ended s t

/-- RTI (44_control_flow.md R313): pulls P, bits 5 and 4 ignored, then PC, not incremented; an RTI that clears I lets an
asserted IRQ in at once. -/
def Obligations.RtiRestoresPAndPc : Prop :=
  encodings .rti = [(0x40, .implicit)]
    ∧ ∀ s : State, undisturbed 6 s →
      ∃ t : State, exec .rti s = .next t
        ∧ regs t.cpu = regs { s.cpu with
            s := s.cpu.s + 3
            p := { n := (pulled s 1).getLsbD 7, v := (pulled s 1).getLsbD 6, d := (pulled s 1).getLsbD 3
                   i := (pulled s 1).getLsbD 2, z := (pulled s 1).getLsbD 1, c := (pulled s 1).getLsbD 0 }
            pc := wordOf (pulled s 3) (pulled s 2) }
        ∧ storesNothing s t ∧ t.cycle = s.cycle + 6 ∧ ended s t
        ∧ (irqHeld s → (pulled s 1).getLsbD 2 = false → t.arb.pending ≠ .none)

/-- BRK (44_control_flow.md R314): pushes the address of the byte after its padding byte and P with B = 1, sets I, and takes
the vector at $FFFE, or at $FFFA if an NMI is latched by then (60_exceptions.md R526). -/
def Obligations.BrkTakesTheSoftwareInterrupt : Prop :=
  encodings .brk = [(0x00, .implicit)]
    ∧ ∀ s : State, undisturbed 7 s →
      ∃ (t : State) (vec : Word) (lo hi : Byte), exec .brk s = .next t
        ∧ vec ∈ [0xFFFE#16, 0xFFFA#16]
        ∧ (s.arb.nmiLatch = true → vec = 0xFFFA#16)
        ∧ (s.arb.nmiLatch = false → s.ppu.regs.ctrl.getLsbD 7 = false → vec = 0xFFFE#16)
        ∧ delivers vec s lo ∧ delivers (vec + 1) s hi
        ∧ pushes [hiByte (s.cpu.pc + 2), loByte (s.cpu.pc + 2), s.cpu.p.toByte true] s t
        ∧ regs t.cpu = regs { s.cpu with s := s.cpu.s - 3, p := { s.cpu.p with i := true }, pc := wordOf hi lo }
        ∧ t.cycle = s.cycle + 7 ∧ t.cpu.t = 1 ∧ t.cpu.mode = nextMode s.cpu.mode .none ∧ t.arb.pending = .none

/-! ### Stack, flags, NOP (45_stack_flags_nop.md) -/

/-- PHA and PHP (45_stack_flags_nop.md R320, R321): A, or P with bits 5 and 4 set, written at $0100 + S; S goes down by
one, modulo 256. -/
def Obligations.PushesStoreAtS : Prop :=
  encodings .pha = [(0x48, .implicit)] ∧ encodings .php = [(0x08, .implicit)]
    ∧ ∀ (i : Instr) (s : State), undisturbed 3 s → i.mnemonic ∈ [.pha, .php] →
      ∃ (t : State) (v : Byte), exec i s = .next t
        ∧ (i.mnemonic = .pha → v = s.cpu.a)
        ∧ (i.mnemonic = .php → v.toNat = 128 * s.cpu.p.n.toNat + 64 * s.cpu.p.v.toNat + 32 + 16 + 8 * s.cpu.p.d.toNat
            + 4 * s.cpu.p.i.toNat + 2 * s.cpu.p.z.toNat + s.cpu.p.c.toNat)
        ∧ ramAt t (stackAddr s.cpu.s) = v
        ∧ pushes [v] s t
        ∧ regs t.cpu = regs { s.cpu with s := s.cpu.s - 1, pc := s.cpu.pc + 1 }
        ∧ t.cycle = s.cycle + 3 ∧ ended s t

/-- PLA and PLP (45_stack_flags_nop.md R322, R323): S goes up by one, modulo 256, and the byte there is pulled; PLP's own
poll still sees the old I: one that clears I does not let an asserted IRQ in at once, one that sets I still does. -/
def Obligations.PullsReadAboveS : Prop :=
  encodings .pla = [(0x68, .implicit)] ∧ encodings .plp = [(0x28, .implicit)]
    ∧ ∀ s : State, undisturbed 4 s →
      (∃ t : State, exec .pla s = .next t
        ∧ regs t.cpu = regs { s.cpu with
            a := pulled s 1, s := s.cpu.s + 1, p := zn (pulled s 1) s.cpu.p, pc := s.cpu.pc + 1 }
        ∧ storesNothing s t ∧ t.cycle = s.cycle + 4 ∧ ended s t)
      ∧ ∃ t : State, exec .plp s = .next t
        ∧ regs t.cpu = regs { s.cpu with
            s := s.cpu.s + 1
            p := { n := (pulled s 1).getLsbD 7, v := (pulled s 1).getLsbD 6, d := (pulled s 1).getLsbD 3
                   i := (pulled s 1).getLsbD 2, z := (pulled s 1).getLsbD 1, c := (pulled s 1).getLsbD 0 }
            pc := s.cpu.pc + 1 }
        ∧ storesNothing s t ∧ t.cycle = s.cycle + 4 ∧ ended s t
        ∧ (s.cpu.p.i = true → t.arb.pending ≠ .irq)
        ∧ (s.cpu.p.i = false → irqHeld s → t.arb.pending ≠ .none)

/-- CLC, SEC, CLI, SEI, CLD, SED and CLV (45_stack_flags_nop.md R324-R330): one flag each. CLI's own poll still sees I = 1
and SEI's still sees I = 0. -/
def Obligations.FlagInstructionsSetOneFlag : Prop :=
  encodings .clc = [(0x18, .implicit)] ∧ encodings .sec = [(0x38, .implicit)] ∧ encodings .cli = [(0x58, .implicit)]
    ∧ encodings .sei = [(0x78, .implicit)] ∧ encodings .cld = [(0xD8, .implicit)] ∧ encodings .sed = [(0xF8, .implicit)]
    ∧ encodings .clv = [(0xB8, .implicit)]
    ∧ ∀ (i : Instr) (s : State), undisturbed 2 s → i.mnemonic ∈ [.clc, .sec, .cli, .sei, .cld, .sed, .clv] →
      ∃ t : State, exec i s = .next t
        ∧ regs t.cpu = regs { s.cpu with
            pc := s.cpu.pc + 1
            p := match i.mnemonic with
              | .clc => { s.cpu.p with c := false }
              | .sec => { s.cpu.p with c := true }
              | .cli => { s.cpu.p with i := false }
              | .sei => { s.cpu.p with i := true }
              | .cld => { s.cpu.p with d := false }
              | .sed => { s.cpu.p with d := true }
              | _ => { s.cpu.p with v := false } }
        ∧ storesNothing s t ∧ t.cycle = s.cycle + 2 ∧ ended s t
        ∧ (s.cpu.p.i = true → t.arb.pending ≠ .irq)
        ∧ (s.cpu.p.i = false → irqHeld s → t.arb.pending ≠ .none)

/-- NOP and its undocumented variants (45_stack_flags_nop.md R331, 46_undocumented.md R351-R353): no register or flag
changes and nothing is stored; the variants with an operand take the cycles of their mode. -/
def Obligations.NopsChangeNothingButPc : Prop :=
  encodings .nop = [(0x04, .zeroPage), (0x0C, .absolute), (0x14, .zeroPageX), (0x1A, .implicit), (0x1C, .absoluteX),
      (0x34, .zeroPageX), (0x3A, .implicit), (0x3C, .absoluteX), (0x44, .zeroPage), (0x54, .zeroPageX), (0x5A, .implicit),
      (0x5C, .absoluteX), (0x64, .zeroPage), (0x74, .zeroPageX), (0x7A, .implicit), (0x7C, .absoluteX), (0x80, .immediate),
      (0x82, .immediate), (0x89, .immediate), (0xC2, .immediate), (0xD4, .zeroPageX), (0xDA, .implicit),
      (0xDC, .absoluteX), (0xE2, .immediate), (0xEA, .implicit), (0xF4, .zeroPageX), (0xFA, .implicit), (0xFC, .absoluteX)]
    ∧ ∀ (i : Instr) (s : State), undisturbed 8 s → i.mnemonic = .nop →
      ∃ t : State, exec i s = .next t ∧ regs t.cpu = regs { s.cpu with pc := nextPc i s }
        ∧ (∀ a, i.mode.ea s = some a → delivers a s t.cpuBus) ∧ lastCycleReads i s t
        ∧ storesNothing s t ∧ t.cycle = s.cycle + cyclesOf i s ∧ ended s t

/-! ### Undocumented opcodes (46_undocumented.md) -/

/-- LAX and SAX in every mode (46_undocumented.md R341, R342). -/
def Obligations.LaxLoadsAAndXAndSaxStoresTheirAnd : Prop :=
  encodings .lax = [(0xA3, .indirectX), (0xA7, .zeroPage), (0xAF, .absolute), (0xB3, .indirectY), (0xB7, .zeroPageY),
      (0xBF, .absoluteY)]
    ∧ encodings .sax = [(0x83, .indirectX), (0x87, .zeroPage), (0x8F, .absolute), (0x97, .zeroPageY)]
    ∧ (∀ (i : Instr) (s : State), undisturbed 8 s → i.mnemonic = .lax →
      ∃ (t : State) (m : Byte), exec i s = .next t ∧ operandIs i.mode s t m ∧ lastCycleReads i s t
        ∧ regs t.cpu = regs { s.cpu with a := m, x := m, p := zn m s.cpu.p, pc := nextPc i s }
        ∧ storesNothing s t ∧ t.cycle = s.cycle + cyclesOf i s ∧ ended s t)
    ∧ ∀ (i : Instr) (s : State), undisturbed 8 s → i.mnemonic = .sax →
      ∃ (t : State) (a : Word), exec i s = .next t ∧ i.mode.ea s = some a
        ∧ stores a (s.cpu.a &&& s.cpu.x) s t ∧ lastCycleWrites i a (s.cpu.a &&& s.cpu.x) s t
        ∧ regs t.cpu = regs { s.cpu with pc := nextPc i s }
        ∧ t.cycle = s.cycle + cyclesOf i s ∧ ended s t

/-- DCP and ISB in every mode (46_undocumented.md R343, R344), at any address but $4014. -/
def Obligations.DcpComparesAndIsbSubtracts : Prop :=
  encodings .dcp = [(0xC3, .indirectX), (0xC7, .zeroPage), (0xCF, .absolute), (0xD3, .indirectY), (0xD7, .zeroPageX),
      (0xDB, .absoluteY), (0xDF, .absoluteX)]
    ∧ encodings .isb = [(0xE3, .indirectX), (0xE7, .zeroPage), (0xEF, .absolute), (0xF3, .indirectY), (0xF7, .zeroPageX),
      (0xFB, .absoluteY), (0xFF, .absoluteX)]
    ∧ ∀ (i : Instr) (s : State) (a : Word), undisturbed 8 s → i.mnemonic ∈ [.dcp, .isb] → i.mode.ea s = some a →
      a ≠ 0x4014#16 →
      ∃ (t : State) (m r : Byte), exec i s = .next t ∧ delivers a s m
        ∧ r.toNat = (m.toNat + if i.mnemonic = .isb then 1 else 255) % 256
        ∧ stores a r s t ∧ lastCyclesModify i a m r s t
        ∧ regs t.cpu = regs (if i.mnemonic = .dcp then { s.cpu with p := compared s.cpu.a r s.cpu.p, pc := nextPc i s }
            else { s.cpu with
              a := (add8 s.cpu.a (r ^^^ 0xFF#8) s.cpu.p.c s.cpu.p).1
              p := (add8 s.cpu.a (r ^^^ 0xFF#8) s.cpu.p.c s.cpu.p).2
              pc := nextPc i s })
        ∧ t.cycle = s.cycle + cyclesOf i s ∧ ended s t

/-- SLO, RLA, SRE and RRA in every mode (46_undocumented.md R345-R348), at any address but $4014: the shifted byte is
stored, then combined with A; RRA adds it with the carry just produced. -/
def Obligations.ShiftAndCombineOpcodes : Prop :=
  encodings .slo = [(0x03, .indirectX), (0x07, .zeroPage), (0x0F, .absolute), (0x13, .indirectY), (0x17, .zeroPageX),
      (0x1B, .absoluteY), (0x1F, .absoluteX)]
    ∧ encodings .rla = [(0x23, .indirectX), (0x27, .zeroPage), (0x2F, .absolute), (0x33, .indirectY), (0x37, .zeroPageX),
      (0x3B, .absoluteY), (0x3F, .absoluteX)]
    ∧ encodings .sre = [(0x43, .indirectX), (0x47, .zeroPage), (0x4F, .absolute), (0x53, .indirectY), (0x57, .zeroPageX),
      (0x5B, .absoluteY), (0x5F, .absoluteX)]
    ∧ encodings .rra = [(0x63, .indirectX), (0x67, .zeroPage), (0x6F, .absolute), (0x73, .indirectY), (0x77, .zeroPageX),
      (0x7B, .absoluteY), (0x7F, .absoluteX)]
    ∧ ∀ (i : Instr) (s : State) (a : Word), undisturbed 8 s → i.mnemonic ∈ [.slo, .rla, .sre, .rra] →
      i.mode.ea s = some a → a ≠ 0x4014#16 →
      ∃ (t : State) (m r : Byte) (out : Bool), exec i s = .next t ∧ delivers a s m
        ∧ (r, out) = shiftOf i.mnemonic m s.cpu.p.c
        ∧ stores a r s t ∧ lastCyclesModify i a m r s t
        ∧ regs t.cpu = regs (match i.mnemonic with
            | .slo => { s.cpu with
                a := s.cpu.a ||| r, p := { zn (s.cpu.a ||| r) s.cpu.p with c := out }, pc := nextPc i s }
            | .rla => { s.cpu with
                a := s.cpu.a &&& r, p := { zn (s.cpu.a &&& r) s.cpu.p with c := out }, pc := nextPc i s }
            | .sre => { s.cpu with
                a := s.cpu.a ^^^ r, p := { zn (s.cpu.a ^^^ r) s.cpu.p with c := out }, pc := nextPc i s }
            | _ => { s.cpu with
                a := (add8 s.cpu.a r out s.cpu.p).1, p := (add8 s.cpu.a r out s.cpu.p).2, pc := nextPc i s })
        ∧ t.cycle = s.cycle + cyclesOf i s ∧ ended s t

/-- ANC, ALR, ARR and AXS (46_undocumented.md R349, R350, R354, R355). -/
def Obligations.ImmediateCombinedOpcodes : Prop :=
  encodings .anc = [(0x0B, .immediate), (0x2B, .immediate)] ∧ encodings .alr = [(0x4B, .immediate)]
    ∧ encodings .arr = [(0x6B, .immediate)] ∧ encodings .axs = [(0xCB, .immediate)]
    ∧ ∀ (i : Instr) (s : State) (m : Byte), undisturbed 2 s → i.mnemonic ∈ [.anc, .alr, .arr, .axs] →
      i.mode = .immediate m →
      ∃ (t : State) (r : Byte), exec i s = .next t
        ∧ (i.mnemonic = .anc → r = s.cpu.a &&& m
            ∧ t.cpu.p = { zn r s.cpu.p with c := r.getLsbD 7 })
        ∧ (i.mnemonic = .alr → r.toNat = (s.cpu.a &&& m).toNat / 2
            ∧ t.cpu.p = { zn r s.cpu.p with c := (s.cpu.a &&& m).getLsbD 0 })
        ∧ (i.mnemonic = .arr → r.toNat = 128 * s.cpu.p.c.toNat + (s.cpu.a &&& m).toNat / 2
            ∧ t.cpu.p = { zn r s.cpu.p with c := r.getLsbD 6, v := xor (r.getLsbD 6) (r.getLsbD 5) })
        ∧ (i.mnemonic = .axs → r.toNat = (256 + (s.cpu.a &&& s.cpu.x).toNat - m.toNat) % 256
            ∧ t.cpu.p = { zn r s.cpu.p with c := decide (m.toNat ≤ (s.cpu.a &&& s.cpu.x).toNat) })
        ∧ regs t.cpu = regs { s.cpu with
            a := if i.mnemonic = .axs then s.cpu.a else r
            x := if i.mnemonic = .axs then r else s.cpu.x
            p := t.cpu.p
            pc := s.cpu.pc + 2 }
        ∧ storesNothing s t ∧ t.cycle = s.cycle + 2 ∧ ended s t

/-- The unstable opcodes (46_undocumented.md R370): the opcode fetch, then mode `refused` with the opcode recorded, and the
model takes no further step. -/
def Obligations.UnstableOpcodesAreRefused : Prop :=
  encodings .xaa = [(0x8B, .immediate)] ∧ encodings .ahx = [(0x93, .indirectY), (0x9F, .absoluteY)]
    ∧ encodings .tas = [(0x9B, .absoluteY)] ∧ encodings .shy = [(0x9C, .absoluteX)] ∧ encodings .shx = [(0x9E, .absoluteY)]
    ∧ encodings .lxa = [(0xAB, .immediate)] ∧ encodings .las = [(0xBB, .absoluteY)]
    ∧ (∀ (i : Instr) (s : State), undisturbed 1 s → i.mnemonic ∈ [.xaa, .ahx, .tas, .shy, .shx, .lxa, .las] →
      ∃ t : State, exec i s = .next t ∧ t.cpu.mode = .refused ∧ t.cpu.opcode = i.opcode ∧ t.cycle = s.cycle + 1
        ∧ regs t.cpu = regs { s.cpu with pc := s.cpu.pc + 1 } ∧ storesNothing s t)
    ∧ ∀ s : State, s.cpu.mode = .refused → step s = .refused (.unstableOpcode s.cpu.opcode)

/-- STP (46_undocumented.md R371): the opcode fetch, then mode `jammed`; every step of a jammed machine is one cycle that
leaves PC and all registers as they are and recognises no interrupt, until the host asserts reset. The PPU, the APU and a
running DMA still advance, and the NMI latch may be set. -/
def Obligations.StpJamsUntilReset : Prop :=
  encodings .stp = [(0x02, .implicit), (0x12, .implicit), (0x22, .implicit), (0x32, .implicit), (0x42, .implicit),
      (0x52, .implicit), (0x62, .implicit), (0x72, .implicit), (0x92, .implicit), (0xB2, .implicit), (0xD2, .implicit),
      (0xF2, .implicit)]
    ∧ (∀ (row : StpRow) (s : State), undisturbed 1 s →
      ∃ t : State, exec (.stp row) s = .next t ∧ t.cpu.mode = .jammed ∧ t.cycle = s.cycle + 1
        ∧ regs t.cpu = regs { s.cpu with pc := s.cpu.pc + 1 } ∧ storesNothing s t)
    ∧ (∀ s : State, s.cpu.mode = .jammed → resetDue s = false →
      ∃ (t : State) (act : State → Act), step s = .next t ∧ act = (if s.dma.active then dmaAct else fun _ => .idle)
        ∧ t.cpu.mode = .jammed ∧ regs t.cpu = regs s.cpu ∧ t.cycle = s.cycle + 1
        ∧ t.ppu = (busCycle act s).ppu ∧ t.apu = (busCycle act s).apu ∧ t.pads = (busCycle act s).pads
        ∧ (s.dma.active = true → t.dma = s.dma.advance s.cycle (busByte act s))
        ∧ t.arb.nmiLatch = (beforeAccess s).arb.nmiLatch ∧ t.arb.pending = s.arb.pending
        ∧ (∀ a, Memory.read t.ram a = Memory.read s.ram a)
        ∧ (s.dma.active = false → t.cpuBus = s.cpuBus ∧ storesNothing s t))
    ∧ ∀ s : State, s.cpu.mode = .jammed → resetDue s = true → ∃ t : State, step s = .next t ∧ t.cpu.mode = .resetSeq

/-! ### Cycle counts (40_addressing_modes.md R220) -/

/-- Every instruction completes, in the cycles of its row: one more for a Read whose index crosses a page, one or two more
for a taken branch. A read-modify-write of $4014, whose first write starts a DMA, is `RmwOnOamDmaRegister`'s. -/
def Obligations.EveryInstructionTakesItsCycles : Prop :=
  ∀ (i : Instr) (s : State), undisturbed 8 s → (i.tag = .rmw → i.mode.ea s ≠ some 0x4014#16) →
    ∃ t : State, exec i s = .next t ∧ t.cycle = s.cycle + cyclesOf i s ∧ t.cfg = s.cfg
      ∧ (∀ a, Memory.read t.cart.prg a = Memory.read s.cart.prg a)

/-! ### Encoding (30_encoding.md) -/

/-- Decoding the encoding of any instruction, whatever bytes follow, gives the instruction and those bytes
(30_encoding.md R151, R155): every operand bit survives. -/
def Obligations.DecodingInvertsEncoding : Prop :=
  ∀ (i : Instr) (rest : List Byte), decode (encode i ++ rest) = .ok (i, rest)

/-- Every byte is an opcode (30_encoding.md R157): any three bytes decode to an instruction whose encoding they begin with;
a byte string that is decoded is the instruction's encoding and the rest; only a string too short for its opcode is
refused, by name. -/
def Obligations.EveryByteStringDecodes : Prop :=
  (∀ (op b1 b2 : Byte) (rest : List Byte), ∃ (i : Instr) (after : List Byte),
      decode (op :: b1 :: b2 :: rest) = .ok (i, after) ∧ i.opcode = op)
    ∧ (∀ (bytes : List Byte) (i : Instr) (after : List Byte), decode bytes = .ok (i, after) → bytes = encode i ++ after)
    ∧ decode [] = .error .empty
    ∧ ∀ (op : Byte) (rest : List Byte),
      (rest.length + 1 < opcodeLength op → decode (op :: rest) = .error (.truncated op))
        ∧ (opcodeLength op ≤ rest.length + 1 → ∃ ok, decode (op :: rest) = .ok ok)

/-- Words written out from the table of 30_encoding.md R155, one at least of each of the thirteen operand formats of R151. -/
def Obligations.SampleWordsDecode : Prop :=
  decode [0xA9#8, 0x7F#8] = .ok (.ldaImm 0x7F#8, [])
    ∧ decode [0x8D#8, 0x34#8, 0x12#8] = .ok (.staAbs 0x1234#16, [])
    ∧ decode [0x71#8, 0x80#8, 0xEA#8] = .ok (.adcIzy 0x80#8, [0xEA#8])
    ∧ decode [0x3E#8, 0xFF#8, 0x07#8] = .ok (.rolAbx 0x07FF#16, [])
    ∧ decode [0xD0#8, 0xFE#8] = .ok (.bne 0xFE#8, [])
    ∧ decode [0x6C#8, 0xFF#8, 0x30#8] = .ok (.jmpInd 0x30FF#16, [])
    ∧ decode [0x20#8, 0x00#8, 0x80#8] = .ok (.jsr 0x8000#16, [])
    ∧ decode [0xB6#8, 0x10#8] = .ok (.ldxZpy 0x10#8, [])
    ∧ decode [0x28#8] = .ok (.plp, [])
    ∧ decode [0xC3#8, 0x44#8] = .ok (.dcpIzx 0x44#8, [])
    ∧ decode [0x72#8] = .ok (.stp .op72, [])
    ∧ decode [0x9C#8, 0x00#8, 0x02#8] = .ok (.shy 0x0200#16, [])
    ∧ decode [0x4A#8] = .ok (.lsrAcc, [])
    ∧ decode [0xA5#8, 0x80#8] = .ok (.ldaZp 0x80#8, [])
    ∧ decode [0xB5#8, 0x0F#8] = .ok (.ldaZpx 0x0F#8, [])
    ∧ decode [0xB9#8, 0xCD#8, 0xAB#8] = .ok (.ldaAby 0xABCD#16, [])

/-! ### The step -/

/-- In mode `run`, with no DMA and no host reset, a step is the instruction whose bytes stand at PC (40_addressing_modes.md
R200, R201): `exec` itself makes every fetch, moves PC past the bytes and polls. -/
def Obligations.StepRunsTheInstructionAtPc : Prop :=
  ∀ (i : Instr) (s : State), undisturbed 8 s → s.cpu.mode = .run → standsAtPc i s → step s = exec i s

/-- Nothing a program does stops the machine but an unstable opcode (60_exceptions.md R529, 46_undocumented.md R370): every
state that is not in mode `refused` has a next state, and one that is in it has none; and a step enters that mode only by
fetching, at PC in mode `run`, one of the eight unstable opcodes. -/
def Obligations.OnlyUnstableOpcodesStopTheMachine : Prop :=
  ∀ s : State, (s.cpu.mode ≠ .refused → ∃ t : State, step s = .next t)
    ∧ (s.cpu.mode = .refused → step s = .refused (.unstableOpcode s.cpu.opcode))
    ∧ ∀ t : State, step s = .next t → s.cpu.mode ≠ .refused → t.cpu.mode = .refused →
      s.cpu.mode = .run ∧ s.dma.active = false ∧ resetDue s = false
        ∧ t.cpu.opcode = busByte (fun _ => .read s.cpu.pc) s
        ∧ t.cpu.opcode.toNat ∈ [0x8B, 0x93, 0x9B, 0x9C, 0x9E, 0x9F, 0xAB, 0xBB]
        ∧ oneCycle (.read s.cpu.pc) s t

/-- The invariant holds in the power-on state of `State.reset`, whose parameter values are the model's choice (log entries
4 to 8). -/
def Obligations.PowerOnMeetsTheInvariant : Prop := Inv State.reset

/-- Every step keeps the invariant: memories canonical and within their sizes (10_state.md R51-R53, R71, R72; the spec gives the
pattern memory of an external mapper no size), palette entries 6 bits wide, the frame buffer of the region's size, the position
one of the region's dots (48_ppu_pipeline.md R441, R443), at most eight sprites, the DMA index at most 256. -/
def Obligations.EveryStepKeepsTheInvariant : Prop :=
  ∀ s t : State, Inv s → step s = .next t → Inv t

/-- No step changes a parameter (00_scope.md R6) or the cartridge's PRG-ROM, kind, sizes and mirroring, nor CHR-ROM
(20_memory.md R120, R121). That the mirroring never changes is, for an external mapper, the model's choice (log
entry 13). -/
def Obligations.ProgramRomAndParametersNeverChange : Prop :=
  ∀ s t : State, step s = .next t →
    t.cfg = s.cfg ∧ t.cart.prg = s.cart.prg ∧ t.cart.kind = s.cart.kind ∧ t.cart.prgSize = s.cart.prgSize
      ∧ t.cart.mirroring = s.cart.mirroring ∧ t.cart.chrIsRam = s.cart.chrIsRam
      ∧ (s.cart.chrIsRam = false → t.cart.chr = s.cart.chr)

/-! ### Interrupts (60_exceptions.md) -/

/-- `SampleInterrupts()` (60_exceptions.md R520, R521) runs in every cycle, whatever the cycle's primitive, after its second
dot: a rise of PPUCTRL.7 & VBL sets the latch, the IRQ sample is the OR of the two outputs; the access and the dots after
it do not change them. -/
def Obligations.InterruptInputsAreSampledEveryCycle : Prop :=
  ∀ (act : State → Act) (s : State),
    let u := ppuDot (ppuDot (tickDevices s))
    let n := u.ppu.regs.ctrl.getLsbD 7 && u.ppu.regs.vbl
    (busCycle act s).arb.nmiPrev = n
      ∧ ((busCycle act s).arb.nmiLatch = true ↔ s.arb.nmiLatch = true ∨ (n = true ∧ s.arb.nmiPrev = false))
      ∧ ((busCycle act s).arb.irqSample = true ↔ (s.apuIrq.advance s.cycle).level = true
          ∨ (u.cart.kind = .external ∧ (u.cart.irq.advance s.cycle).level = true))
      ∧ (busCycle act s).arb.pending = s.arb.pending

/-- `Poll()` (60_exceptions.md R522) at the end of a penultimate cycle, with I as the cycle leaves it
(40_addressing_modes.md R232): NMI before IRQ, IRQ masked by I, the latch kept. No other cycle polls, and every instruction
has one that does (R230) but BRK and the opcodes that stop the CPU (R231, 46_undocumented.md R370, R371): an NMI latched before
it is recognised by it, an IRQ line held high unless I masks it (RTI polls with the I it pulls), and nothing where neither
input asks. -/
def Obligations.ThePenultimateCyclePolls : Prop :=
  (∀ (act : Cpu → Act) (upd : Byte → Cpu → Cpu) (s : State), undisturbed 1 s →
    (∀ t : State, t = cpuCyc .penult act upd s →
      (t.arb.nmiLatch = true → t.arb.pending = .nmi)
        ∧ (t.arb.nmiLatch = false → t.arb.irqSample = true → t.cpu.p.i = false → t.arb.pending = .irq)
        ∧ (t.arb.nmiLatch = false → (t.arb.irqSample = false ∨ t.cpu.p.i = true) → t.arb.pending = .none)
        ∧ t.arb.nmiLatch = (beforeAccess s).arb.nmiLatch)
      ∧ (cpuCyc .mid act upd s).arb.pending = s.arb.pending
      ∧ (cpuCyc .last act upd s).arb.pending = s.arb.pending)
    ∧ ∀ (i : Instr) (s : State), undisturbed 8 s →
      i.mnemonic ∉ [.brk, .stp, .xaa, .ahx, .tas, .shy, .shx, .lxa, .las] →
      ∃ (t : State) (masked : Bool), exec i s = .next t
        ∧ masked = (if i.mnemonic = .rti then (pulled s 1).getLsbD 2 else s.cpu.p.i)
        ∧ (s.arb.nmiLatch = true → t.arb.pending = .nmi)
        ∧ (masked = false → irqHeld s → t.arb.pending ≠ .none)
        ∧ (masked = true → t.arb.pending ≠ .irq)
        ∧ (s.arb.nmiLatch = false → s.ppu.regs.ctrl.getLsbD 7 = false → irqLow s → t.arb.pending = .none)

/-- The IRQ and NMI sequences (60_exceptions.md R524): 7 cycles, PC and P with B = 0 pushed, I set, PC from the vector, and
nothing pending; the handler's first instruction runs next. -/
def Obligations.HardwareInterruptSequence : Prop :=
  ∀ (s : State) (kind : IntKind), undisturbed 7 s → s.cpu.mode = .intSeq kind → kind ≠ .brk →
    ∃ (t : State) (vec : Word) (lo hi p : Byte), step s = .next t
      ∧ vec ∈ [0xFFFE#16, 0xFFFA#16]
      ∧ (kind = .nmi ∨ s.arb.nmiLatch = true → vec = 0xFFFA#16)
      ∧ (kind = .irq → s.arb.nmiLatch = false → s.ppu.regs.ctrl.getLsbD 7 = false → vec = 0xFFFE#16)
      ∧ delivers vec s lo ∧ delivers (vec + 1) s hi
      ∧ p.toNat = 128 * s.cpu.p.n.toNat + 64 * s.cpu.p.v.toNat + 32 + 8 * s.cpu.p.d.toNat + 4 * s.cpu.p.i.toNat
          + 2 * s.cpu.p.z.toNat + s.cpu.p.c.toNat
      ∧ pushes [hiByte s.cpu.pc, loByte s.cpu.pc, p] s t
      ∧ regs t.cpu = regs { s.cpu with s := s.cpu.s - 3, p := { s.cpu.p with i := true }, pc := wordOf hi lo }
      ∧ t.cycle = s.cycle + 7 ∧ t.cpu.t = 1 ∧ t.cpu.mode = .run ∧ t.arb.pending = .none

/-- The vector is chosen at the T6 access, with the latch as that cycle's sample leaves it (60_exceptions.md R526): the NMI
vector if the sequence is an NMI's or the latch is set, which clears the latch; and T7 loads PC from it. That the chosen vector
stands in `cpu.target` between the two cycles is the model's choice (log entry 17): R524 and R526 give it no place. -/
def Obligations.TheVectorIsChosenAtTheT6Access : Prop :=
  ∀ (kind : IntKind) (s : State), undisturbed 2 s →
    let latch := (beforeAccess s).arb.nmiLatch
    let u := vectorLow kind s
    u.cpu.target = (if kind = .nmi ∨ latch = true then 0xFFFA#16 else 0xFFFE#16)
      ∧ u.arb.nmiLatch = false ∧ u.cpu.p = { s.cpu.p with i := true }
      ∧ delivers u.cpu.target s u.cpu.adl
      ∧ ∃ hi, delivers (u.cpu.target + 1) s hi ∧ (vectorHigh u).cpu.pc = wordOf hi u.cpu.adl
        ∧ (vectorHigh u).arb.pending = .none

/-! ### Reset (70_reset_and_hazards.md) -/

/-- The reset sequence (70_reset_and_hazards.md R561, R564): 7 cycles, nothing stored, I set, PC from $FFFC, S by the policy,
A, X, Y and the other flags kept; from power-on S is $FD under both policies. -/
def Obligations.TheResetSequenceLoadsPc : Prop :=
  (∀ s : State, undisturbed 7 s → s.cpu.mode = .resetSeq →
      ∃ (t : State) (lo hi : Byte), step s = .next t ∧ delivers 0xFFFC#16 s lo ∧ delivers 0xFFFD#16 s hi
        ∧ regs t.cpu = regs { s.cpu with
            s := (match s.cfg.resetS with | .fixedFD => 0xFD#8 | .decrement3 => s.cpu.s - 3)
            p := { s.cpu.p with i := true }
            pc := wordOf hi lo }
        ∧ storesNothing s t ∧ t.cycle = s.cycle + 7 ∧ t.cpu.t = 1 ∧ t.cpu.mode = .run)
    ∧ ∀ (cfg : Config) (p : PowerOn), (∀ n ∈ p.resetAt.head?, 7 ≤ n) → p.cart.kind = .nrom →
      ∃ t : State, step (.powerOn cfg p) = .next t ∧ t.cycle = 7 ∧ t.cpu.s = 0xFD#8
        ∧ t.cpu.pc = wordOf (Memory.read p.cart.prg (prgIndex p.cart.prgSize 0xFFFD#16))
            (Memory.read p.cart.prg (prgIndex p.cart.prgSize 0xFFFC#16))
        ∧ t.cpu.a = p.a ∧ t.cpu.x = p.x ∧ t.cpu.y = p.y
        ∧ t.cpu.p = { n := p.n, v := p.v, d := p.d, i := true, z := p.z, c := p.c }

/-- A reset the host asserts (70_reset_and_hazards.md R561, R562): the reset sequence is entered, the arbitrator and the DMA
are cleared (10_state.md R35, R80), and the PPU's registers, flags, open bus, shifters, latches, sprite units, evaluator and
position take their reset values; registers and memories are kept. -/
def Obligations.HostResetClearsWhatTheSpecNames : Prop :=
  ∀ s : State, s.cpu.mode ≠ .refused → resetDue s = true →
    ∃ t : State, step s = .next t ∧ t.cpu.mode = .resetSeq ∧ t.cpu.t = 1
      ∧ t.arb = { nmiPrev := false, nmiLatch := false, irqSample := false, pending := .none } ∧ t.dma.active = false
      ∧ t.ppu.regs = {
          ctrl := 0, mask := 0, vbl := false, s0h := false, sov := false, oamAddr := 0, v := 0, t := 0, xFine := 0,
          w := false, readBuffer := 0 }
      ∧ t.ppu.bus = { latch := 0, decay := [0, 0, 0, 0, 0, 0, 0, 0] }
      ∧ t.ppu.bg = { bgLo := 0, bgHi := 0, atLo := 0, atHi := 0, ntLatch := 0, atLatch := 0, ptLo := 0, ptHi := 0 }
      ∧ (t.ppu.spr.slots = List.replicate 8 { lo := 0, hi := 0, attr := 0, x := 0 }) ∧ t.ppu.spr.count = 0
      ∧ t.ppu.spr.zeroOnLine = false
      ∧ t.ppu.ev = { n := 0, m := 0, s := 0, latch := 0, phase := .done, found := 0, zeroNext := false }
      ∧ t.ppu.pos = { line := -1, dot := 0, oddFrame := false, vblSuppress := false, s0Delayed := false }
      ∧ regs t.cpu = regs s.cpu ∧ t.ram = s.ram ∧ t.ppu.oam = s.ppu.oam ∧ t.ppu.secOam = s.ppu.secOam
      ∧ t.ppu.palette = s.ppu.palette ∧ t.ppu.fb = s.ppu.fb ∧ t.ppu.a12 = s.ppu.a12 ∧ t.cart = s.cart ∧ t.apu = s.apu
      ∧ t.pads = s.pads ∧ t.apuIrq = s.apuIrq ∧ t.cpuBus = s.cpuBus ∧ t.cycle = s.cycle ∧ t.cfg = s.cfg

/-- Power-on (70_reset_and_hazards.md R560, 10_state.md R80): for any parameters, the fixed values; `State.reset` is the
power-on state for the parameter values named here, which are the model's choice (log entries 4, 7, 8), as I before the reset
sequence is (log entry 5). -/
def Obligations.PowerOnHasTheFixedValues : Prop :=
  (∀ (cfg : Config) (p : PowerOn),
      let s := State.powerOn cfg p
      s.cpu.mode = .resetSeq ∧ s.cpu.t = 1 ∧ s.cpu.s = 0 ∧ s.cpu.pc = 0
        ∧ s.ppu.regs = {
            ctrl := 0, mask := 0, vbl := false, s0h := false, sov := false, oamAddr := 0, v := 0, t := 0, xFine := 0,
            w := false, readBuffer := 0 }
        ∧ s.ppu.bus = { latch := 0, decay := [0, 0, 0, 0, 0, 0, 0, 0] }
        ∧ s.ppu.bg = { bgLo := 0, bgHi := 0, atLo := 0, atHi := 0, ntLatch := 0, atLatch := 0, ptLo := 0, ptHi := 0 }
        ∧ s.ppu.spr.slots = List.replicate 8 { lo := 0, hi := 0, attr := 0, x := 0 } ∧ s.ppu.spr.count = 0
        ∧ s.ppu.spr.zeroOnLine = false
        ∧ s.ppu.ev = { n := 0, m := 0, s := 0, latch := 0, phase := .done, found := 0, zeroNext := false }
        ∧ s.ppu.pos = { line := -1, dot := 0, oddFrame := false, vblSuppress := false, s0Delayed := false }
        ∧ s.ppu.a12 = { level := false, fallCycle := 0 }
        ∧ s.arb = { nmiPrev := false, nmiLatch := false, irqSample := false, pending := .none }
        ∧ s.dma.active = false ∧ s.cpuBus = 0 ∧ s.cycle = 0
        ∧ s.ram = p.ram ∧ s.ppu.oam = p.oam ∧ s.ppu.secOam = p.secOam ∧ s.ppu.palette = p.palette ∧ s.ppu.fb = p.fb
        ∧ s.cart = p.cart ∧ s.cpu.a = p.a ∧ s.cpu.x = p.x ∧ s.cpu.y = p.y
        ∧ s.cpu.p = { n := p.n, v := p.v, d := p.d, i := true, z := p.z, c := p.c } ∧ s.cfg = cfg ∧ s.apu = p.apu
        ∧ s.apuIrq = p.apuIrq ∧ s.pads = p.pads ∧ s.resetAt = p.resetAt)
    ∧ State.reset = .powerOn { region := .ntsc, resetS := .fixedFD, clearRead := .ff, decayDots := 3216312 } {
        a := 0, x := 0, y := 0, n := false, v := false, d := false, z := false, c := false
        ram := [], oam := [], secOam := [], palette := [], fb := []
        cart := {
          kind := .nrom, prgSize := .k32, chrIsRam := true, mirroring := .horizontal, prg := [], chr := [], nt := []
          irq := { level := false, changes := [] }, clockIrqs := 0, log := [] }
        apu := { answers := [], ticks := 0, log := [] }, apuIrq := { level := false, changes := [] }
        pads := { answers := [], ticks := 0, log := [] }, resetAt := [] }

/-! ### The bus and the cycle (20_memory.md) -/

/-- The decoder of 20_memory.md R110, device by device, with open bus (R112, R114), the controllers' three open-bus bits
(R113) and mapper 0's ROM (R121). The PPU ports have statements of their own. What the APU and the controllers answer and note
is the model's form of an opaque device (log entry 10), what an external mapper answers and notes its form of a collaborator
(log entry 13). -/
def Obligations.TheBusDecoder : Prop :=
  ∀ (a : Word) (s : State) (d : Byte),
    (a.toNat < 0x2000 →
      perform (.read a) s = { s with cpuBus := ramAt s a }
        ∧ (∀ b : Word, b.toNat < 0x2000 →
          ramAt (perform (.write a d) s) b = if b.toNat % 0x800 = a.toNat % 0x800 then d else ramAt s b)
        ∧ { perform (.write a d) s with ram := s.ram } = { s with cpuBus := d })
    ∧ (a.toNat < 0x4014 ∧ 0x4000 ≤ a.toNat ∨ a.toNat = 0x4015 →
      perform (.read a) s = { s with apu := s.apu.afterRead a, cpuBus := s.apu.answer Config.apuAnswer a }
        ∧ perform (.write a d) s = { s with apu := s.apu.afterWrite a d, cpuBus := d })
    ∧ (a.toNat = 0x4014 →
      perform (.read a) s = { s with cpuBus := s.ppu.bus.latch }
        ∧ perform (.write a d) s
          = { s with dma := { s.dma with active := true, page := d, index := 0, step := .halt }, cpuBus := d })
    ∧ (a.toNat = 0x4016 ∨ a.toNat = 0x4017 →
      (perform (.read a) s).pads = s.pads.afterRead a
        ∧ (∀ b < 5, (perform (.read a) s).cpuBus.getLsbD b = (s.pads.answer Config.padAnswer a).getLsbD b)
        ∧ (∀ b, 5 ≤ b → (perform (.read a) s).cpuBus.getLsbD b = s.cpuBus.getLsbD b)
        ∧ { perform (.read a) s with pads := s.pads, cpuBus := s.cpuBus } = s)
    ∧ (a.toNat = 0x4016 → perform (.write a d) s = { s with pads := s.pads.afterWrite a d, cpuBus := d })
    ∧ (a.toNat = 0x4017 → perform (.write a d) s = { s with apu := s.apu.afterWrite a d, cpuBus := d })
    ∧ (0x4018 ≤ a.toNat ∧ a.toNat < 0x4020 →
      perform (.read a) s = s ∧ perform (.write a d) s = { s with cpuBus := d })
    ∧ (0x4020 ≤ a.toNat → s.cart.kind = .nrom →
      perform (.read a) s
          = (if 0x8000 ≤ a.toNat then
              { s with
                cpuBus := (Memory.read s.cart.prg
                  ((a.toNat - 0x8000) % match s.cart.prgSize with | .k16 => 16384 | .k32 => 32768)) }
            else s)
        ∧ perform (.write a d) s = { s with cpuBus := d })
    ∧ (0x4020 ≤ a.toNat → s.cart.kind = .external →
      (perform (.read a) s).cpuBus = (Config.mapperPrg s.cart.log a).getD s.cpuBus
        ∧ (perform (.read a) s).cart = { s.cart with log := .readPrg a :: s.cart.log }
        ∧ (perform (.write a d) s).cart = { s.cart with log := .writePrg a d :: s.cart.log })

/-- One CPU cycle (20_memory.md R131, R132): devices tick, two dots, the interrupt sample, the access, the third dot (and the
fourth of a PAL long cycle), open-bus decay, the cycle count; so the access sees the first two dots and no later one. And the
step relation per CPU cycle (00_scope.md R13), `PerCycle.tick` over the states between the cycles of a step (log entry 1): every
tick is one such cycle; no machine that is not refused lacks one; and a step is the run of its ticks, from its start through
every cycle count to its end, after which the machine ticks as from there. -/
def Obligations.TheCycleSchedule : Prop :=
  (∀ (act : State → Act) (s : State),
    let before := sampleInterrupts (ppuDot (ppuDot { s with apu := s.apu.tick, pads := s.pads.tick }))
    let after := perform (act before) before
    let long := s.cfg.region = .pal ∧ s.cycle % 5 = 4
    ∃ t : State, t = openBusDecay (if long then 4 else 3) (if long then ppuDot (ppuDot after) else ppuDot after)
      ∧ busCycle act s = { t with cycle := t.cycle + 1 }
      ∧ busByte act s = busValue (act before) before ∧ (busCycle act s).cycle = s.cycle + 1
      ∧ (busCycle act s).apu.ticks = s.apu.ticks + 1 ∧ (busCycle act s).pads.ticks = s.pads.ticks + 1)
    ∧ (∀ c d : PerCycle, c.tick = .next d → ∃ act : Act, oneCycle act c.ready d.now)
    ∧ (∀ c : PerCycle, c.now.cpu.mode ≠ .refused → ∃ d : PerCycle, c.tick = .next d)
    ∧ ∀ s t : State, resetDue s = false → step s = .next t →
      s.cycle < t.cycle
        ∧ (∀ k, s.cycle + k ≤ t.cycle → cycleCore.run k { start := s, cycles := 0 } = .next { start := s, cycles := k }
          ∧ (PerCycle.now { start := s, cycles := k }).cycle = s.cycle + k)
        ∧ PerCycle.now { start := s, cycles := t.cycle - s.cycle } = t
        ∧ PerCycle.tick { start := s, cycles := t.cycle - s.cycle } = PerCycle.tick { start := t, cycles := 0 }

/-! ### The PPU's ports and memory (47_ppu_registers.md, 20_memory.md) -/

/-- Writes of ports 0-6 but 4 (47_ppu_registers.md R400-R404, R406): every write refreshes the whole open-bus latch; then
the register takes the byte, and bit for bit t, x, w and v what the two writes of PPUSCROLL and PPUADDR put there; the
second PPUADDR write drives A12. And the filter of A12 (48_ppu_pipeline.md R481). -/
def Obligations.PortWrites : Prop :=
  (∀ (k : Nat) (a : Word) (d : Byte) (s : State), isPort k a → s.ppu.bus.decay.length = 8 →
      (perform (.write a d) s).ppu.bus = refreshedBus d
        ∧ (k = 2 → perform (.write a d) s = { s with cpuBus := d, ppu := { s.ppu with bus := refreshedBus d } })
        ∧ (k = 3 → perform (.write a d) s = { s with
            cpuBus := d
            ppu := { s.ppu with bus := refreshedBus d, regs := { s.ppu.regs with oamAddr := d } } })
        ∧ (k = 1 → perform (.write a d) s = { s with
            cpuBus := d
            ppu := { s.ppu with bus := refreshedBus d, regs := { s.ppu.regs with mask := d } } })
        ∧ (k = 0 → ∃ t : Scroll, t.extractLsb' 10 2 = d.extractLsb' 0 2
          ∧ t.extractLsb' 0 10 = s.ppu.regs.t.extractLsb' 0 10 ∧ t.extractLsb' 12 3 = s.ppu.regs.t.extractLsb' 12 3
          ∧ perform (.write a d) s = { s with
              cpuBus := d
              ppu := { s.ppu with bus := refreshedBus d, regs := { s.ppu.regs with ctrl := d, t := t } } })
        ∧ (k = 5 → s.ppu.regs.w = false → ∃ t : Scroll, t.extractLsb' 0 5 = d.extractLsb' 3 5
          ∧ t.extractLsb' 5 10 = s.ppu.regs.t.extractLsb' 5 10
          ∧ perform (.write a d) s = { s with
              cpuBus := d
              ppu := { s.ppu with
                bus := refreshedBus d
                regs := { s.ppu.regs with t := t, xFine := d.extractLsb' 0 3, w := true } } })
        ∧ (k = 5 → s.ppu.regs.w = true → ∃ t : Scroll, t.extractLsb' 12 3 = d.extractLsb' 0 3
          ∧ t.extractLsb' 5 5 = d.extractLsb' 3 5 ∧ t.extractLsb' 0 5 = s.ppu.regs.t.extractLsb' 0 5
          ∧ t.extractLsb' 10 2 = s.ppu.regs.t.extractLsb' 10 2
          ∧ perform (.write a d) s = { s with
              cpuBus := d
              ppu := { s.ppu with bus := refreshedBus d, regs := { s.ppu.regs with t := t, w := false } } })
        ∧ (k = 6 → s.ppu.regs.w = false → ∃ t : Scroll, t.extractLsb' 8 6 = d.extractLsb' 0 6 ∧ t.getLsbD 14 = false
          ∧ t.extractLsb' 0 8 = s.ppu.regs.t.extractLsb' 0 8
          ∧ perform (.write a d) s = { s with
              cpuBus := d
              ppu := { s.ppu with bus := refreshedBus d, regs := { s.ppu.regs with t := t, w := true } } })
        ∧ (k = 6 → s.ppu.regs.w = true → ∃ t : Scroll, t.extractLsb' 0 8 = d
          ∧ t.extractLsb' 8 7 = s.ppu.regs.t.extractLsb' 8 7
          ∧ perform (.write a d) s = State.withVideo (({
                ppu := { s.ppu with bus := refreshedBus d, regs := { s.ppu.regs with t := t, v := t, w := false } }
                cart := s.cart } : Video).driveA12 s.cycle (t.getLsbD 12))
              { s with cpuBus := d }))
    ∧ ∀ (c : Nat) (high : Bool) (v : Video),
      v.driveA12 c high = {
        ppu := { v.ppu with a12 := {
          level := high
          fallCycle := if v.ppu.a12.level = true ∧ high = false then c else v.ppu.a12.fallCycle } }
        cart := if v.ppu.a12.level = false ∧ high = true ∧ 3 ≤ (c : Int) - v.ppu.a12.fallCycle then v.cart.clockIrq
          else v.cart }

/-- A read of PPUSTATUS (47_ppu_registers.md R405): the flags over five bits of open bus, VBL and w cleared, three bits of
open bus refreshed; at the dot before VBL is set, VBL reads 0 and that dot does not set it. -/
def Obligations.StatusRead : Prop :=
  ∀ (a : Word) (s : State), isPort 2 a → s.ppu.bus.decay.length = 8 →
    ∃ (value : Byte) (race : Bool), (race = true ↔ s.ppu.pos.line = s.cfg.region.nmiLine ∧ s.ppu.pos.dot = 1)
      ∧ value.getLsbD 7 = (s.ppu.regs.vbl && !race) ∧ value.getLsbD 6 = s.ppu.regs.s0h
      ∧ value.getLsbD 5 = s.ppu.regs.sov ∧ value.extractLsb' 0 5 = s.ppu.bus.latch.extractLsb' 0 5
      ∧ perform (.read a) s = { s with
          cpuBus := value
          ppu := { s.ppu with
            regs := { s.ppu.regs with vbl := false, w := false }
            pos := { s.ppu.pos with vblSuppress := s.ppu.pos.vblSuppress || race }
            bus := { latch := value, decay := s.ppu.bus.decay.take 5 ++ [0, 0, 0] } } }
      ∧ (perform (.read a) s).ppu.nmiOut = false
      ∧ (race = true → (ppuDot (perform (.read a) s)).ppu.regs.vbl = false
          ∧ (ppuDot (perform (.read a) s)).ppu.nmiOut = false)

/-- Reads and writes of PPUDATA (47_ppu_registers.md R407, R408), outside rendering and during it. -/
def Obligations.PpuDataAccess : Prop :=
  ∀ (a : Word) (d : Byte) (s : State), isPort 7 a → s.ppu.bus.decay.length = 8 →
    ∀ (r : PpuRegs) (addr : PpuAddr) (inc : Scroll) (refill : PpuAddr) (index : Nat) (colour : Byte),
      r = s.ppu.regs → addr.toNat = r.v.toNat % 0x4000 → inc = (if r.ctrl.getLsbD 2 then 32#15 else 1#15) →
      refill = (if addr.toNat < 0x3F00 then addr else addr &&& 0x2FFF#14) →
      index = ppuCell s.cart.mirroring addr.toNat - 0x3F00 →
      colour = Memory.read s.ppu.palette index &&& (if r.mask.getLsbD 0 then 0x30#8 else 0x3F#8) →
      (renderingNow s →
        perform (.read a) s = { s with
            cpuBus := s.ppu.bus.latch, ppu := { s.ppu with regs := { r with v := incFineY (incCoarseX r.v) } } }
          ∧ perform (.write a d) s = { s with
            cpuBus := d
            ppu := { s.ppu with
              bus := refreshedBus d
              palette := if 0x3F00 ≤ addr.toNat then Memory.write s.ppu.palette index (d &&& 0x3F#8) else s.ppu.palette
              regs := { r with v := incFineY (incCoarseX r.v) } } })
      ∧ (¬ renderingNow s →
        (∃ (value : Byte) (bus : OpenBus) (u : Video),
          (addr.toNat < 0x3F00 → value = r.readBuffer ∧ bus = refreshedBus value)
            ∧ (0x3F00 ≤ addr.toNat → value = colour ||| (s.ppu.bus.latch &&& 0xC0#8)
              ∧ bus = { latch := value, decay := [0, 0, 0, 0, 0, 0] ++ s.ppu.bus.decay.drop 6 })
            ∧ u = ({
                ppu := { s.ppu with bus := bus, regs := { r with readBuffer := s.video.ppuRead refill } }
                cart := s.cart } : Video).driveA12 s.cycle (addr.getLsbD 12)
            ∧ perform (.read a) s = { s with
              cpuBus := value, cart := u.cart, ppu := { u.ppu with regs := { u.ppu.regs with v := r.v + inc } } })
          ∧ ∃ u : Video, u = (({ ppu := { s.ppu with bus := refreshedBus d }, cart := s.cart } : Video).ppuWrite addr d).driveA12
              s.cycle (addr.getLsbD 12)
            ∧ perform (.write a d) s = { s with
              cpuBus := d, cart := u.cart, ppu := { u.ppu with regs := { u.ppu.regs with v := r.v + inc } } })

/-- Reads and writes of OAMDATA (47_ppu_registers.md R409, R410). -/
def Obligations.OamDataAccess : Prop :=
  ∀ (a : Word) (d : Byte) (s : State), isPort 4 a → s.ppu.bus.decay.length = 8 →
    (∃ held value : Byte,
      held = (if s.ppu.regs.oamAddr.toNat % 4 = 2 then Memory.read s.ppu.oam s.ppu.regs.oamAddr.toNat &&& 0xE3#8
        else Memory.read s.ppu.oam s.ppu.regs.oamAddr.toNat)
        ∧ (renderingOn s ∧ visibleLine s ∧ 1 ≤ s.ppu.pos.dot ∧ s.ppu.pos.dot ≤ 64 ∧ s.cfg.clearRead = .ff → value = 0xFF#8)
        ∧ (¬ (renderingOn s ∧ visibleLine s ∧ 1 ≤ s.ppu.pos.dot ∧ s.ppu.pos.dot ≤ 64 ∧ s.cfg.clearRead = .ff) → value = held)
        ∧ perform (.read a) s = { s with cpuBus := value, ppu := { s.ppu with bus := refreshedBus value } })
      ∧ (renderingNow s → perform (.write a d) s = { s with
          cpuBus := d
          ppu := { s.ppu with
            bus := refreshedBus d, regs := { s.ppu.regs with oamAddr := s.ppu.regs.oamAddr + 4 } } })
      ∧ (¬ renderingNow s → perform (.write a d) s = { s with
          cpuBus := d
          ppu := { s.ppu with
            bus := refreshedBus d
            oam := Memory.write s.ppu.oam s.ppu.regs.oamAddr.toNat d
            regs := { s.ppu.regs with oamAddr := s.ppu.regs.oamAddr + 1 } } })

/-- The PPU's address space (20_memory.md R119, R120, R125, R126): a write is read back at every address that names the same
cell and at no other, palette entries as 6 bits; CHR-RAM stores the byte, a write to CHR-ROM changes nothing at all. Which cell
of pattern memory an external mapper reaches is its bank switching, a free value (`Config.mapperChrCell`, log entry 13). -/
def Obligations.PpuMemoryReadsBackThroughItsMirrors : Prop :=
  ∀ (a b : PpuAddr) (d : Byte) (v : Video),
    (v.cart.kind = .nrom →
      (v.ppuWrite a d).ppuRead b
        = if ppuCell v.cart.mirroring a.toNat = ppuCell v.cart.mirroring b.toNat
              ∧ (0x2000 ≤ a.toNat ∨ v.cart.chrIsRam = true) then
            (if a.toNat < 0x3F00 then d else d &&& 0x3F#8)
          else v.ppuRead b)
      ∧ (v.cart.kind = .external →
        (v.ppuWrite a d).ppuRead b
          = if (a.toNat < 0x2000 ∧ b.toNat < 0x2000 ∧ v.cart.chrIsRam = true
                ∧ Config.mapperChrCell v.cart.log a = Config.mapperChrCell v.cart.log b)
              ∨ (0x2000 ≤ a.toNat ∧ 0x2000 ≤ b.toNat
                ∧ ppuCell v.cart.mirroring a.toNat = ppuCell v.cart.mirroring b.toNat) then
              (if a.toNat < 0x3F00 then d else d &&& 0x3F#8)
            else v.ppuRead b)
      ∧ (a.toNat < 0x2000 →
        v.ppuRead a = Memory.read v.cart.chr
            (match v.cart.kind with | .nrom => a.toNat | .external => Config.mapperChrCell v.cart.log a)
          ∧ (v.cart.chrIsRam = false → v.ppuWrite a d = v))
      ∧ (v.ppuWrite a d).cart.log = v.cart.log

/-- Open bus (47_ppu_registers.md R411, R412): ports 0, 1, 3, 5 and 6 read as the latch and refresh nothing; a refresh takes
the bits of its mask and resets their counters; every counter counts the dots, and a bit whose counter has reached the
decay time is 0. -/
def Obligations.OpenBusRefreshAndDecay : Prop :=
  (∀ (k : Nat) (a : Word) (s : State), isPort k a → k ∈ [0, 1, 3, 5, 6] →
      perform (.read a) s = { s with cpuBus := s.ppu.bus.latch })
    ∧ (∀ (b : OpenBus) (mask value : Byte), b.decay.length = 8 →
      (b.refresh mask value).decay.length = 8
        ∧ ∀ i < 8, (b.refresh mask value).latch.getLsbD i = (if mask.getLsbD i then value.getLsbD i else b.latch.getLsbD i)
          ∧ (b.refresh mask value).decay[i]? = (if mask.getLsbD i then some 0 else b.decay[i]?))
    ∧ ∀ (n : Nat) (s : State), s.ppu.bus.decay.length = 8 →
      ∀ t : State, t = openBusDecay n s →
        t.ppu.bus.decay = s.ppu.bus.decay.map (· + n)
          ∧ (∀ i < 8, ∀ count ∈ s.ppu.bus.decay[i]?,
            (t.ppu.bus.latch.getLsbD i = true ↔ s.ppu.bus.latch.getLsbD i = true ∧ count + n < s.cfg.decayDots))
          ∧ { t with ppu := { t.ppu with bus := s.ppu.bus } } = s

/-! ### The dot (48_ppu_pipeline.md) -/

/-- Frames (48_ppu_pipeline.md R443, R444): a dot moves the position by `Advance()`; so from dot 0 of the pre-render line a
frame returns there after 341 dots for each line, or one fewer on NTSC for an odd frame with rendering enabled at the
pre-render line's dot 339, and not before. -/
def Obligations.FramesHaveTheirLength : Prop :=
  (∀ s : State, ∀ (line : Int) (dot : Nat) (odd : Bool), (line, dot, odd) = s.ppu.pos.place →
      (ppuDot s).ppu.pos.place
        = (if line = -1 ∧ dot = 339 ∧ s.cfg.region = .ntsc ∧ odd = true ∧ renderingOn s then (0, 0, odd)
          else if dot < 340 then (line, dot + 1, odd)
          else if line < s.cfg.region.numLines - 2 then (line + 1, 0, odd)
          else (-1, 0, !odd)))
    ∧ (∀ (cfg : Config) (p : PowerOn), (State.powerOn cfg p).ppu.pos.place = (-1, 0, false))
    ∧ ∀ (cfg : Config) (on : Nat → Bool) (p : Position) (n : Nat), p.line = -1 → p.dot = 0 →
      n = 341 * cfg.region.numLines.toNat
        - (if cfg.region = .ntsc ∧ p.oddFrame = true ∧ on 339 = true then 1 else 0) →
      (positionAfter cfg on p n).place = (-1, 0, !p.oddFrame)
        ∧ ∀ m, 0 < m → m < n → ¬ ((positionAfter cfg on p m).line = -1 ∧ (positionAfter cfg on p m).dot = 0)

/-- VBL (48_ppu_pipeline.md R460, R461): set at dot 1 of the vblank line unless a status read suppressed it, whether or not
rendering is enabled; cleared with the sprite flags at dot 1 of the pre-render line; changed by no other dot. And the sprite
flags (10_state.md R43): SOV is set by the overflow search alone (R464) and S0H, where no pixel of rendering is composed, by a
delayed hit at dot 2 alone (R475; `PixelAndSprite0Hit` has the pixels); no dot but that of the pre-render line clears either. -/
def Obligations.VblankIsSetAndCleared : Prop :=
  ∀ s : State,
    ((ppuDot s).ppu.regs.vbl = true ↔
        ¬ (s.ppu.pos.line = -1 ∧ s.ppu.pos.dot = 1)
          ∧ (s.ppu.regs.vbl = true
            ∨ s.ppu.pos.line = s.cfg.region.nmiLine ∧ s.ppu.pos.dot = 1 ∧ s.ppu.pos.vblSuppress = false))
      ∧ ((ppuDot s).ppu.pos.vblSuppress = true ↔
        s.ppu.pos.vblSuppress = true ∧ ¬ (s.ppu.pos.line = s.cfg.region.nmiLine ∧ s.ppu.pos.dot = 1))
      ∧ (ppuDot s).ppu.nmiOut = (s.ppu.regs.ctrl.getLsbD 7 && (ppuDot s).ppu.regs.vbl)
      ∧ (s.ppu.pos.line = -1 → s.ppu.pos.dot = 1 →
        (ppuDot s).ppu.regs.s0h = false ∧ (ppuDot s).ppu.regs.sov = false ∧ (ppuDot s).ppu.pos.s0Delayed = false)
      ∧ ((ppuDot s).ppu.regs.sov = true ↔
        ¬ (s.ppu.pos.line = -1 ∧ s.ppu.pos.dot = 1)
          ∧ (s.ppu.regs.sov = true
            ∨ renderingOn s ∧ visibleLine s ∧ 66 ≤ s.ppu.pos.dot ∧ s.ppu.pos.dot ≤ 256 ∧ s.ppu.pos.dot % 2 = 0
              ∧ s.ppu.ev.phase = .overflow ∧ onNextLine s s.ppu.ev.latch))
      ∧ (s.ppu.regs.s0h = true → ¬ (s.ppu.pos.line = -1 ∧ s.ppu.pos.dot = 1) → (ppuDot s).ppu.regs.s0h = true)
      ∧ (¬ (renderingOn s ∧ visibleLine s ∧ 1 ≤ s.ppu.pos.dot ∧ s.ppu.pos.dot ≤ 256) →
        ((ppuDot s).ppu.regs.s0h = true ↔
          (s.ppu.regs.s0h = true ∧ ¬ (s.ppu.pos.line = -1 ∧ s.ppu.pos.dot = 1))
            ∨ (s.ppu.pos.s0Delayed = true ∧ s.ppu.pos.dot = 2))
        ∧ ((ppuDot s).ppu.pos.s0Delayed = true ↔
          s.ppu.pos.s0Delayed = true ∧ s.ppu.pos.dot ≠ 2 ∧ ¬ (s.ppu.pos.line = -1 ∧ s.ppu.pos.dot = 1)))

/-- With rendering disabled (48_ppu_pipeline.md R445, R477), or on a line that renders nothing (R440, R454), a dot moves the
position, runs the flag events and, on a visible line, writes the backdrop; it does nothing else. -/
def Obligations.RenderingDisabledOnlyShowsTheBackdrop : Prop :=
  ∀ s : State, ¬ renderingNow s →
    ∃ (fb : FrameBuffer) (pos : Position) (sov s0h : Bool),
      ppuDot s = { s with ppu := { s.ppu with
          fb := fb, pos := pos, regs := { s.ppu.regs with vbl := (ppuDot s).ppu.regs.vbl, s0h := s0h, sov := sov } } }
        ∧ (∀ y x, pixelAt fb y x
          = if (s.ppu.pos.line = y ∧ s.ppu.pos.line < s.cfg.region.visibleLines ∧ s.ppu.pos.dot = x + 1 ∧ x < 256) then
              some (Config.rgbPalette ((Memory.read s.ppu.palette 0).setWidth 6
                &&& if s.ppu.regs.mask.getLsbD 0 then 0x30#6 else 0x3F#6))
            else pixelAt s.ppu.fb y x)
        ∧ pos.place = (s.ppu.pos.advance s.cfg false).place
        ∧ (pos.vblSuppress = true ↔
          s.ppu.pos.vblSuppress = true ∧ ¬ (s.ppu.pos.line = s.cfg.region.nmiLine ∧ s.ppu.pos.dot = 1))
        ∧ (pos.s0Delayed = true ↔
          s.ppu.pos.s0Delayed = true ∧ s.ppu.pos.dot ≠ 2 ∧ ¬ (s.ppu.pos.line = -1 ∧ s.ppu.pos.dot = 1))
        ∧ (sov = true ↔ s.ppu.regs.sov = true ∧ ¬ (s.ppu.pos.line = -1 ∧ s.ppu.pos.dot = 1))
        ∧ (s0h = true ↔ (s.ppu.regs.s0h = true ∧ ¬ (s.ppu.pos.line = -1 ∧ s.ppu.pos.dot = 1))
          ∨ (s.ppu.pos.s0Delayed = true ∧ s.ppu.pos.dot = 2))

/-- v (48_ppu_pipeline.md R450-R453): the two increments field by field, the dots and accesses that make them, and the copies
from t at dot 257 and, on the pre-render line, at dots 280-304; no other dot changes v. -/
def Obligations.ScrollRegisterInRendering : Prop :=
  (∀ v : Scroll,
      (v.extractLsb' 0 5 = 31#5 → (incCoarseX v).extractLsb' 0 5 = 0#5 ∧ (incCoarseX v).getLsbD 10 = !v.getLsbD 10)
        ∧ (v.extractLsb' 0 5 ≠ 31#5 →
          (incCoarseX v).extractLsb' 0 5 = v.extractLsb' 0 5 + 1 ∧ (incCoarseX v).getLsbD 10 = v.getLsbD 10)
        ∧ (incCoarseX v).extractLsb' 5 5 = v.extractLsb' 5 5 ∧ (incCoarseX v).extractLsb' 11 4 = v.extractLsb' 11 4
        ∧ (v.extractLsb' 12 3 ≠ 7#3 → (incFineY v).extractLsb' 12 3 = v.extractLsb' 12 3 + 1
          ∧ (incFineY v).extractLsb' 0 12 = v.extractLsb' 0 12)
        ∧ (v.extractLsb' 12 3 = 7#3 → (incFineY v).extractLsb' 12 3 = 0#3
          ∧ (incFineY v).getLsbD 11 = (v.getLsbD 11 ^^ decide (v.extractLsb' 5 5 = 29#5))
          ∧ (incFineY v).extractLsb' 5 5
            = (if v.extractLsb' 5 5 = 29#5 ∨ v.extractLsb' 5 5 = 31#5 then 0#5 else v.extractLsb' 5 5 + 1)
          ∧ (incFineY v).extractLsb' 0 5 = v.extractLsb' 0 5 ∧ (incFineY v).getLsbD 10 = v.getLsbD 10))
    ∧ (∀ s : State, renderingNow s → ∀ (dot : Nat) (v t w : Scroll), dot = s.ppu.pos.dot → v = s.ppu.regs.v →
      t = s.ppu.regs.t → w = (ppuDot s).ppu.regs.v →
      (dot % 8 = 0 → 0 < dot → dot < 256 ∨ dot = 328 ∨ dot = 336 → w = incCoarseX v)
        ∧ (dot = 256 → w = incFineY (incCoarseX v))
        ∧ (dot = 257 → w.getLsbD 10 = t.getLsbD 10 ∧ w.extractLsb' 0 5 = t.extractLsb' 0 5
          ∧ w.extractLsb' 5 5 = v.extractLsb' 5 5 ∧ w.extractLsb' 11 4 = v.extractLsb' 11 4)
        ∧ (280 ≤ dot → dot ≤ 304 → s.ppu.pos.line = -1 →
          w.extractLsb' 11 4 = t.extractLsb' 11 4 ∧ w.extractLsb' 5 5 = t.extractLsb' 5 5
            ∧ w.getLsbD 10 = v.getLsbD 10 ∧ w.extractLsb' 0 5 = v.extractLsb' 0 5)
        ∧ (¬ (dot % 8 = 0 ∧ 0 < dot ∧ (dot ≤ 256 ∨ dot = 328 ∨ dot = 336)) → dot ≠ 257 →
          ¬ (280 ≤ dot ∧ dot ≤ 304 ∧ s.ppu.pos.line = -1) → w = v))
    ∧ (∀ s : State, ¬ renderingNow s → (ppuDot s).ppu.regs.v = s.ppu.regs.v)
    ∧ ∀ (a : Word) (d : Byte) (s : State), isPort 7 a → renderingNow s →
      (perform (.read a) s).ppu.regs.v = incFineY (incCoarseX s.ppu.regs.v)
        ∧ (perform (.write a d) s).ppu.regs.v = incFineY (incCoarseX s.ppu.regs.v)

/-- Background fetch and shifters (48_ppu_pipeline.md R446, R447, R449): the latch each read dot fills and, over mapper 0, from
which address, the shift and then the reload from the latches as the dot finds them; and the A12 tracker
(R448, R480, R481): nametable and attribute fetches drive A12 low, pattern fetches to the background table, and a dot outside
rendering and the sprite fetch drives nothing. -/
def Obligations.BackgroundFetchAndShift : Prop :=
  (∀ s : State, renderingNow s → s.ppu.pos.dot ≤ 340 →
    ∀ (dot p : Nat) (group : Prop), dot = s.ppu.pos.dot → p = (dot - 1) % 8 →
      (group ↔ 1 ≤ dot ∧ dot ≤ 256 ∨ 321 ≤ dot ∧ dot ≤ 336) →
      (group ∧ p < 4 → drivenTo false s (ppuDot s))
        ∧ (group ∧ 4 ≤ p → drivenTo (s.ppu.regs.ctrl.getLsbD 4) s (ppuDot s))
        ∧ (337 ≤ dot → drivenTo false s (ppuDot s))
        ∧ (dot = 0 → drivesNothing s (ppuDot s)))
    ∧ (∀ s : State, ¬ renderingNow s → drivesNothing s (ppuDot s))
    ∧ ∀ s : State, renderingNow s → s.ppu.pos.dot ≤ 340 →
    ∀ (dot p v : Nat) (group shifts reloads : Prop) (b c : BgPipe), dot = s.ppu.pos.dot → p = (dot - 1) % 8 →
      v = s.ppu.regs.v.toNat → b = s.ppu.bg → c = (ppuDot s).ppu.bg →
      (group ↔ 1 ≤ dot ∧ dot ≤ 256 ∨ 321 ≤ dot ∧ dot ≤ 336) →
      (shifts ↔ 2 ≤ dot ∧ dot ≤ 257 ∨ 322 ≤ dot ∧ dot ≤ 337) →
      (reloads ↔ dot % 8 = 1 ∧ 9 ≤ dot ∧ dot ≤ 257 ∨ dot = 329 ∨ dot = 337) →
      ∃ nt at' lo hi : PpuAddr,
        nt.toNat = 0x2000 + v % 0x1000
          ∧ at'.toNat = 0x23C0 + 0x400 * (v / 0x400 % 4) + 8 * (v / 0x80 % 8) + v / 4 % 8
          ∧ lo.toNat = 0x1000 * bitOf s.ppu.regs.ctrl 4 + 16 * b.ntLatch.toNat + v / 0x1000
          ∧ hi.toNat = lo.toNat + 8
          ∧ (group ∧ p = 1 → s.cart.kind = .nrom → c.ntLatch = s.video.ppuRead nt)
          ∧ (¬ (group ∧ p = 1) → c.ntLatch = b.ntLatch)
          ∧ (group ∧ p = 3 → s.cart.kind = .nrom → c.atLatch.toNat
            = (s.video.ppuRead at').toNat / 2 ^ (4 * (v / 0x40 % 2) + 2 * (v / 2 % 2)) % 4)
          ∧ (¬ (group ∧ p = 3) → c.atLatch = b.atLatch)
          ∧ (group ∧ p = 5 → s.cart.kind = .nrom → c.ptLo = s.video.ppuRead lo)
          ∧ (¬ (group ∧ p = 5) → c.ptLo = b.ptLo)
          ∧ (group ∧ p = 7 → s.cart.kind = .nrom → c.ptHi = s.video.ppuRead hi)
          ∧ (¬ (group ∧ p = 7) → c.ptHi = b.ptHi)
          ∧ (¬ shifts → c.bgLo = b.bgLo ∧ c.bgHi = b.bgHi ∧ c.atLo = b.atLo ∧ c.atHi = b.atHi)
          ∧ (shifts → ¬ reloads →
            c.bgLo = b.bgLo <<< 1 ∧ c.bgHi = b.bgHi <<< 1 ∧ c.atLo = b.atLo <<< 1 ∧ c.atHi = b.atHi <<< 1)
          ∧ (reloads → c.bgLo = wordOf (hiByte (b.bgLo <<< 1)) b.ptLo ∧ c.bgHi = wordOf (hiByte (b.bgHi <<< 1)) b.ptHi
            ∧ c.atLo = wordOf (hiByte (b.atLo <<< 1)) (if b.atLatch.getLsbD 0 then 0xFF#8 else 0#8)
            ∧ c.atHi = wordOf (hiByte (b.atHi <<< 1)) (if b.atLatch.getLsbD 1 then 0xFF#8 else 0#8))

/-- Sprite evaluation (48_ppu_pipeline.md R462-R464), dot by dot: secondary OAM cleared at the even dots 2-64, the evaluator
restarted at dot 65, a byte read at every odd dot and acted on at every even one; none of it on the pre-render line. -/
def Obligations.SpriteEvaluation : Prop :=
  ∀ s : State, renderingOn s → (s.ppu.ev.phase = .copy → s.ppu.ev.found < 8) →
    ∀ (dot : Nat) (e f : Evaluator) (sec : Nat → Byte) (sov : Bool), dot = s.ppu.pos.dot → e = s.ppu.ev →
      f = (ppuDot s).ppu.ev → sec = Memory.read (ppuDot s).ppu.secOam → sov = (ppuDot s).ppu.regs.sov →
      (¬ (visibleLine s ∧ 2 ≤ dot ∧ dot ≤ 256) → f = e ∧ sec = Memory.read s.ppu.secOam)
        ∧ (visibleLine s →
          (2 ≤ dot → dot ≤ 64 → f = e
            ∧ ∀ i, sec i = if dot % 2 = 0 ∧ i = dot / 2 - 1 then 0xFF#8 else Memory.read s.ppu.secOam i)
          ∧ (dot = 65 → sec = Memory.read s.ppu.secOam ∧ f = {
              n := 0, m := 0, s := 0, latch := Memory.read s.ppu.oam 0, phase := .copy, found := 0, zeroNext := false })
          ∧ (66 ≤ dot → dot ≤ 256 → dot % 2 = 1 →
            f = { e with latch := Memory.read s.ppu.oam (4 * e.n.toNat + e.m.toNat) } ∧ sec = Memory.read s.ppu.secOam)
          ∧ (66 ≤ dot → dot ≤ 256 → dot % 2 = 0 →
            (e.phase = .done → f = e ∧ sec = Memory.read s.ppu.secOam ∧ sov = s.ppu.regs.sov)
            ∧ (e.phase = .overflow → sec = Memory.read s.ppu.secOam
              ∧ (onNextLine s e.latch → f = { e with phase := .done } ∧ sov = true)
              ∧ (¬ onNextLine s e.latch → sov = s.ppu.regs.sov
                ∧ f = { e with m := e.m + 1, n := e.n + 1, phase := if e.n = 63 then .done else .overflow }))
            ∧ (e.phase = .copy → sov = s.ppu.regs.sov
              ∧ (∀ i, sec i = if i = 4 * e.found + e.m.toNat then e.latch else Memory.read s.ppu.secOam i)
              ∧ (e.m = 0 → onNextLine s e.latch → f = { e with m := 1, zeroNext := e.zeroNext || decide (e.n = 0) })
              ∧ (e.m = 0 → ¬ onNextLine s e.latch →
                f = { e with n := e.n + 1, phase := if e.n = 63 then .done else .copy })
              ∧ (e.m = 1 ∨ e.m = 2 → f = { e with m := e.m + 1 })
              ∧ (e.m = 3 → f = { e with
                  m := 0, found := e.found + 1, s := e.found + 1, n := e.n + 1
                  phase := if e.n = 63 then .done else if e.found = 7 then .overflow else .copy }))))

/-- Sprite fetch (48_ppu_pipeline.md R466-R470): what dot 257 latches, OAMADDR forced to 0, the slots kept but for the load at
phase 7; over mapper 0 the pattern address of an occupied slot and what it loads, an empty slot's load; the pre-render line has
no sprite. And with any cartridge the A12 tracker (R480-R482): low at the nametable fetches, at the pattern fetches of every
slot the table its sprite, or an empty slot's tile $FF, is taken from. And what no dot changes, and that only these dots change
OAMADDR and load the sprite output units, which at the pixels of a visible line count down (R471) and otherwise stand. -/
def Obligations.SpriteFetch : Prop :=
  (∀ s : State, dotKeeps s (ppuDot s)
    ∧ (¬ (renderingNow s ∧ 257 ≤ s.ppu.pos.dot ∧ s.ppu.pos.dot ≤ 320) →
      (ppuDot s).ppu.regs.oamAddr = s.ppu.regs.oamAddr
        ∧ (ppuDot s).ppu.spr = { s.ppu.spr with
            slots := if renderingOn s ∧ visibleLine s ∧ 1 ≤ s.ppu.pos.dot ∧ s.ppu.pos.dot ≤ 256 then
                s.ppu.spr.slots.map (fun u => { u with x := u.x - 1 })
              else s.ppu.spr.slots }))
    ∧ ∀ s : State, renderingNow s → 257 ≤ s.ppu.pos.dot → s.ppu.pos.dot ≤ 320 →
    ∀ (i q count : Nat) (y tile attr x : Byte) (big : Bool) (t : State), i = (s.ppu.pos.dot - 257) / 8 →
      q = (s.ppu.pos.dot - 257) % 8 → count = (if s.ppu.pos.line = -1 then 0 else s.ppu.ev.found) →
      y = secOamByte s i 0 → tile = secOamByte s i 1 → attr = secOamByte s i 2 → x = secOamByte s i 3 →
      big = s.ppu.regs.ctrl.getLsbD 5 → t = ppuDot s →
      t.ppu.regs.oamAddr = 0
        ∧ (s.ppu.pos.dot = 257 → t.ppu.spr.count = count
          ∧ (t.ppu.spr.zeroOnLine = true ↔ 0 < count ∧ s.ppu.ev.zeroNext = true))
        ∧ (s.ppu.pos.dot ≠ 257 → t.ppu.spr.count = s.ppu.spr.count ∧ t.ppu.spr.zeroOnLine = s.ppu.spr.zeroOnLine)
        ∧ (q ≠ 7 → t.ppu.spr.slots = s.ppu.spr.slots)
        ∧ (q ≠ 5 → t.ppu.spr.fetchLo = s.ppu.spr.fetchLo)
        ∧ (count ≤ i → q = 7 →
          t.ppu.spr.slots = s.ppu.spr.slots.set i { lo := 0, hi := 0, attr := 0xFF, x := 0xFF })
        ∧ (i < count → onNextLine s y →
          ∃ (lo hi : PpuAddr) (r : Nat),
            (r : Int) = (if attr.getLsbD 7 then (if big then 16 else 8) - 1 - (s.ppu.pos.line - y.toNat)
              else s.ppu.pos.line - y.toNat)
            ∧ lo.toNat = (if big then 0x1000 * bitOf tile 0 + 16 * (tile.toNat / 2 * 2 + r / 8) + r % 8
              else 0x1000 * bitOf s.ppu.regs.ctrl 3 + 16 * tile.toNat + r)
            ∧ hi.toNat = lo.toNat + 8
            ∧ (q = 5 → s.cart.kind = .nrom → t.ppu.spr.fetchLo = s.video.ppuRead lo)
            ∧ (q = 7 → s.cart.kind = .nrom → t.ppu.spr.slots = s.ppu.spr.slots.set i {
                lo := if attr.getLsbD 6 then s.ppu.spr.fetchLo.reverse else s.ppu.spr.fetchLo
                hi := if attr.getLsbD 6 then (s.video.ppuRead hi).reverse else s.video.ppuRead hi
                attr := attr
                x := x.toNat }))
        ∧ (q < 4 → drivenTo false s t)
        ∧ (4 ≤ q → count ≤ i → drivenTo (big || s.ppu.regs.ctrl.getLsbD 3) s t)
        ∧ (4 ≤ q → i < count → onNextLine s y →
          drivenTo (if big then tile.getLsbD 0 else s.ppu.regs.ctrl.getLsbD 3) s t)

/-- The pixel (48_ppu_pipeline.md R472-R476, R478): dot x + 1 of a visible line shows the background and the first opaque
sprite through the priority multiplexer and the palette, from the shifters after that dot's shift and the sprite counters
before that dot's decrement (R440, R471); and the sprite-0 hit, which shows at dot 2 when it falls on pixel 0. A dot that
composes no pixel (R479) leaves the frame buffer alone. -/
def Obligations.PixelAndSprite0Hit : Prop :=
  (∀ s : State, ¬ (visibleLine s ∧ 1 ≤ s.ppu.pos.dot ∧ s.ppu.pos.dot ≤ 256) → (ppuDot s).ppu.fb = s.ppu.fb)
    ∧ ∀ s : State, renderingOn s → visibleLine s → 1 ≤ s.ppu.pos.dot → s.ppu.pos.dot ≤ 256 →
    ∀ (dot fine : Nat) (shifted : Word → Word) (bgShown sprShown : Bool) (b bp idx : Nat) (winner : Option SpriteSlot)
      (hit : Prop) (t : State), dot = s.ppu.pos.dot → fine = 15 - s.ppu.regs.xFine.toNat →
      (∀ w, shifted w = if 2 ≤ dot then w <<< 1 else w) →
      bgShown = (s.ppu.regs.mask.getLsbD 3 && (decide (9 ≤ dot) || s.ppu.regs.mask.getLsbD 1)) →
      sprShown = (s.ppu.regs.mask.getLsbD 4 && (decide (9 ≤ dot) || s.ppu.regs.mask.getLsbD 2)) →
      b = (if bgShown then 2 * bitOf (shifted s.ppu.bg.bgHi) fine + bitOf (shifted s.ppu.bg.bgLo) fine else 0) →
      bp = 2 * bitOf (shifted s.ppu.bg.atHi) fine + bitOf (shifted s.ppu.bg.atLo) fine →
      winner = (if sprShown then (s.ppu.spr.slots.take s.ppu.spr.count).find? (fun u => decide (slotColour u ≠ 0)) else none) →
      idx = (match winner with
        | none => if b = 0 then 0 else 4 * bp + b
        | some u => if b = 0 ∨ u.attr.getLsbD 5 = false then 16 + 4 * (u.attr.toNat % 4) + slotColour u else 4 * bp + b) →
      (hit ↔ s.ppu.spr.zeroOnLine = true ∧ sprShown = true ∧ (∃ u, s.ppu.spr.slots.head? = some u ∧ slotColour u ≠ 0) ∧ b ≠ 0
        ∧ s.ppu.regs.mask.getLsbD 3 = true ∧ dot ≠ 256) →
      t = ppuDot s →
      (∀ y x, pixelAt t.ppu.fb y x
          = if s.ppu.pos.line = y ∧ dot = x + 1 then
              some (Config.rgbPalette ((Memory.read s.ppu.palette (if idx % 4 = 0 then 0 else idx)).setWidth 6
                &&& if s.ppu.regs.mask.getLsbD 0 then 0x30#6 else 0x3F#6))
            else pixelAt s.ppu.fb y x)
        ∧ (t.ppu.regs.s0h = true ↔ s.ppu.regs.s0h = true ∨ (hit ∧ 2 ≤ dot) ∨ (s.ppu.pos.s0Delayed = true ∧ dot = 2))
        ∧ (t.ppu.pos.s0Delayed = true ↔ (s.ppu.pos.s0Delayed = true ∧ dot ≠ 2) ∨ (hit ∧ dot = 1))
        ∧ t.ppu.spr.slots = s.ppu.spr.slots.map (fun u => { u with x := u.x - 1 })

/-! ### OAM DMA (49_oam_dma.md) -/

/-- A DMA whose first cycle is the next one (49_oam_dma.md R500-R505), in a machine that runs on: after 514 cycles if that
cycle is even, else 513, it is over and not before; each of them is a cycle of the controller, the CPU is as it was; and OAM
holds the page's bytes from OAMADDR on and OAMADDR is as it was where no dot of the DMA is one of rendering. In rendering OAM is
unchanged; OAMADDR, which R505 finds preserved by the 256 increments alone, R468 forces to 0 at dots 257-320 of each of the
lines that such a DMA spans. -/
def Obligations.OamDmaCopiesAPage : Prop :=
  ∀ (s : State) (n : Nat), s.dma.active = true → s.dma.step = .halt → s.dma.index = 0 → s.cpu.mode ≠ .refused →
    (∀ m ∈ s.resetAt.head?, s.cycle + 514 ≤ m) → n = (if s.cycle % 2 = 0 then 514 else 513) →
    ∃ t : State, core.run n s = .next t ∧ t.dma.active = false ∧ t.cycle = s.cycle + n ∧ t.cpu = s.cpu
      ∧ t.arb.pending = s.arb.pending ∧ (∀ a, Memory.read t.ram a = Memory.read s.ram a)
      ∧ (∀ k < n, ∃ u v : State, core.run k s = .next u ∧ core.run (k + 1) s = .next v ∧ u.dma.active = true
        ∧ oneCycle (dmaAct u) u v)
      ∧ copiesPage s.dma.page s t

/-- A read-modify-write instruction on $4014 (49_oam_dma.md R508): it reads the PPU's open bus (20_memory.md R114); its first
write, of that byte, starts a DMA of that page, which runs to its end before the second write, which starts another, of the
result's page; internal RAM keeps its bytes; registers and flags as at any other address. -/
def Obligations.RmwOnOamDmaRegister : Prop :=
  ∀ (i : Instr) (s : State), i.tag = .rmw → i.mode.ea s = some 0x4014#16 → s.dma.active = false →
    (∀ n ∈ s.resetAt.head?, s.cycle + 522 ≤ n) →
    ∃ (u v t : State) (during : Nat → State) (m r : Byte) (d : Nat), exec i s = .next t
      ∧ u = cyclesBefore 3 i s ∧ v = cyclesBefore 2 i s
      ∧ during = (fun k => afterCycles (cyclesOf i s - 1 + k) i s)
      ∧ d = (if (s.cycle + cyclesOf i s) % 2 = 1 then 514 else 513)
      ∧ oneCycle (.read 0x4014#16) u v ∧ m = u.ppu.bus.latch
      ∧ oneCycle (.write 0x4014#16 m) v (during 0)
      ∧ (during 0).dma = { s.dma with active := true, page := m, index := 0, step := .halt }
      ∧ (∀ k < d, (during k).dma.active = true ∧ oneCycle (dmaAct (during k)) (during k) (during (k + 1)))
      ∧ (during d).dma.active = false
      ∧ copiesPage m (during 0) (during d)
      ∧ r = (modified i.mnemonic m s.cpu).1
      ∧ oneCycle (.write 0x4014#16 r) (during d) t
      ∧ t.dma = { (during d).dma with active := true, page := r, index := 0, step := .halt }
      ∧ (∀ a, Memory.read t.ram a = Memory.read s.ram a)
      ∧ (∀ a, Memory.read t.ppu.oam a = Memory.read (during d).ppu.oam a)
      ∧ regs t.cpu = regs { (modified i.mnemonic m s.cpu).2 with pc := nextPc i s }
      ∧ t.cycle = s.cycle + cyclesOf i s + d
      ∧ ended s t
end

