-- ==== Sys2Proof/Laws/Memory.lean ====
section
/-! SUPPORT. Sparse memories: what a read gives after a write, and that a write keeps the canonical form and the size. -/

namespace Sys2Proof.Machine

theorem lookupKey_eraseKey {α : Type} (m : List (Nat × α)) (a b : Nat) :
    lookupKey (eraseKey m a) b = if b = a then none else lookupKey m b := by
  induction m with
  | nil => simp [eraseKey, lookupKey]
  | cons cell rest ih =>
    obtain ⟨k, v⟩ := cell
    simp only [eraseKey, lookupKey]
    split_ifs <;> simp_all [lookupKey]

theorem lookupKey_insertKey {α : Type} (m : List (Nat × α)) (a b : Nat) (v : α) (h : lookupKey m a = none) :
    lookupKey (insertKey m a v) b = if b = a then some v else lookupKey m b := by
  induction m with
  | nil => simp [insertKey, lookupKey, eq_comm]
  | cons cell rest ih =>
    obtain ⟨k, w⟩ := cell
    simp only [lookupKey] at h
    split_ifs at h with hk
    simp only [insertKey]
    split_ifs <;> simp_all [lookupKey, eq_comm]

@[simp] theorem lookupKey_putKey {α : Type} (m : List (Nat × α)) (a b : Nat) (v : α) :
    lookupKey (putKey m a v) b = if b = a then some v else lookupKey m b := by
  rw [putKey, lookupKey_insertKey _ _ _ _ (by simp [lookupKey_eraseKey]), lookupKey_eraseKey]
  split_ifs <;> rfl

/-- A read after a write: the byte written at its address, every other byte as before. -/
theorem Memory.read_write (m : Memory) (a b : Nat) (d : Byte) :
    Memory.read (Memory.write m a d) b = if b = a then d else Memory.read m b := by
  simp only [Memory.read, Memory.write]
  split_ifs <;> simp_all [lookupKey_eraseKey]

@[simp] theorem Memory.read_write_same (m : Memory) (a : Nat) (d : Byte) : Memory.read (Memory.write m a d) a = d := by
  simp [Memory.read_write]

theorem Memory.read_write_ne (m : Memory) {a b : Nat} (d : Byte) (h : b ≠ a) :
    Memory.read (Memory.write m a d) b = Memory.read m b := by
  simp [Memory.read_write, h]

@[simp] theorem Memory.read_nil (a : Nat) : Memory.read [] a = 0 := rfl

/-- A pixel after a pixel is written. -/
theorem pixelAt_putPixel (fb : FrameBuffer) (y x y' x' : Nat) (c : Rgb) :
    pixelAt (putPixel fb y x c) y' x' = if y' = y ∧ x' = x then some c else pixelAt fb y' x' := by
  simp only [pixelAt, putPixel, lookupKey_putKey]
  by_cases hy : y' = y
  · subst hy
    cases h : lookupKey fb y' <;> by_cases hx : x' = x <;> simp [hx, lookupKey]
  · simp [hy]

/-! ### The canonical form -/

/-- Sorted, as the core library says it. -/
theorem sorted_iff {α : Type} (m : List (Nat × α)) : sorted m = true ↔ m.Pairwise fun p q => p.1 < q.1 := by
  induction m with
  | nil => simp [sorted]
  | cons p rest ih =>
    cases rest with
    | nil => simp [sorted]
    | cons q rest =>
      obtain ⟨k, v⟩ := p
      obtain ⟨k', v'⟩ := q
      simp only [sorted, Bool.and_eq_true, decide_eq_true_eq, ih]
      constructor
      · rintro ⟨hk, hs⟩
        refine List.pairwise_cons.2 ⟨fun r hr => ?_, hs⟩
        rcases List.mem_cons.1 hr with rfl | hr
        · exact hk
        · exact hk.trans ((List.pairwise_cons.1 hs).1 r hr)
      · intro hs
        exact ⟨(List.pairwise_cons.1 hs).1 (k', v') (by simp), (List.pairwise_cons.1 hs).2⟩

theorem eraseKey_eq_filter {α : Type} (m : List (Nat × α)) (a : Nat) : eraseKey m a = m.filter fun p => p.1 ≠ a := by
  induction m with
  | nil => rfl
  | cons p rest ih =>
    obtain ⟨k, v⟩ := p
    simp only [eraseKey, List.filter_cons]
    split_ifs <;> simp_all

theorem mem_insertKey {α : Type} (m : List (Nat × α)) (a : Nat) (v : α) (p : Nat × α) :
    p ∈ insertKey m a v ↔ p = (a, v) ∨ p ∈ m := by
  induction m with
  | nil => simp [insertKey]
  | cons q rest ih =>
    obtain ⟨k, w⟩ := q
    simp only [insertKey]
    split_ifs
    · simp
    · simp only [List.mem_cons, ih]; tauto

theorem sorted_eraseKey {α : Type} (m : List (Nat × α)) (a : Nat) (h : sorted m = true) :
    sorted (eraseKey m a) = true := by
  rw [sorted_iff] at *
  rw [eraseKey_eq_filter]
  exact h.filter _

theorem sorted_putKey {α : Type} (m : List (Nat × α)) (a : Nat) (v : α) (h : sorted m = true) :
    sorted (putKey m a v) = true := by
  have h' := sorted_eraseKey m a h
  have hne : ∀ p ∈ eraseKey m a, p.1 ≠ a := by simp [eraseKey_eq_filter]
  rw [putKey]
  generalize eraseKey m a = e at h' hne
  rw [sorted_iff] at *
  induction e with
  | nil => simp [insertKey]
  | cons q rest ih =>
    obtain ⟨k, w⟩ := q
    have hq := List.pairwise_cons.1 h'
    simp only [insertKey]
    split_ifs with hak
    · refine List.pairwise_cons.2 ⟨fun r hr => ?_, h'⟩
      rcases List.mem_cons.1 hr with rfl | hr
      · exact hak
      · exact hak.trans (hq.1 r hr)
    · refine List.pairwise_cons.2 ⟨fun r hr => ?_, ih hq.2 fun p hp => hne p (by simp [hp])⟩
      rcases (mem_insertKey _ _ _ _).1 hr with rfl | hr
      · have := hne (k, w) (by simp); simp only at this ⊢; omega
      · exact hq.1 r hr

theorem mem_putKey {α : Type} (m : List (Nat × α)) (a : Nat) (v : α) (p : Nat × α) (h : p ∈ putKey m a v) :
    p = (a, v) ∨ p ∈ m := by
  rcases (mem_insertKey _ _ _ _).1 h with h | h
  · exact .inl h
  · rw [eraseKey_eq_filter] at h; exact .inr (List.mem_filter.1 h).1

/-- A write keeps the canonical form. -/
theorem Memory.wf_write (m : Memory) (a : Nat) (d : Byte) (h : Memory.wf m = true) :
    Memory.wf (Memory.write m a d) = true := by
  simp only [Memory.wf, Bool.and_eq_true, List.all_eq_true, bne_iff_ne, ne_eq] at *
  simp only [Memory.write]
  split_ifs with hd
  · refine ⟨sorted_eraseKey _ _ h.1, fun p hp => h.2 p ?_⟩
    rw [eraseKey_eq_filter] at hp; exact (List.mem_filter.1 hp).1
  · refine ⟨sorted_putKey _ _ _ h.1, fun p hp => ?_⟩
    rcases mem_putKey _ _ _ _ hp with rfl | hp
    · exact hd
    · exact h.2 p hp

/-- A write below the size keeps the memory within it. -/
theorem Memory.within_write (m : Memory) (a size : Nat) (d : Byte) (h : Memory.within m size = true) (ha : a < size) :
    Memory.within (Memory.write m a d) size = true := by
  simp only [Memory.within, List.all_eq_true, decide_eq_true_eq] at *
  simp only [Memory.write]
  split_ifs with hd
  · intro p hp
    rw [eraseKey_eq_filter] at hp; exact h p (List.mem_filter.1 hp).1
  · intro p hp
    rcases mem_putKey _ _ _ _ hp with rfl | hp
    · exact ha
    · exact h p hp

end Sys2Proof.Machine
end

