-- ==== Sys2Proof/Laws/State.lean ====
section
/-! SUPPORT. One lemma per field per update of the state, so that no proof unfolds a record update. -/

namespace Sys2Proof.Machine

/-! ### `State.mapCpu` -/

@[simp] theorem State.mapCpu_cfg (f : Cpu → Cpu) (s : State) : (s.mapCpu f).cfg = s.cfg := rfl
@[simp] theorem State.mapCpu_cpu (f : Cpu → Cpu) (s : State) : (s.mapCpu f).cpu = f s.cpu := rfl
@[simp] theorem State.mapCpu_arb (f : Cpu → Cpu) (s : State) : (s.mapCpu f).arb = s.arb := rfl
@[simp] theorem State.mapCpu_ppu (f : Cpu → Cpu) (s : State) : (s.mapCpu f).ppu = s.ppu := rfl
@[simp] theorem State.mapCpu_dma (f : Cpu → Cpu) (s : State) : (s.mapCpu f).dma = s.dma := rfl
@[simp] theorem State.mapCpu_cart (f : Cpu → Cpu) (s : State) : (s.mapCpu f).cart = s.cart := rfl
@[simp] theorem State.mapCpu_apu (f : Cpu → Cpu) (s : State) : (s.mapCpu f).apu = s.apu := rfl
@[simp] theorem State.mapCpu_apuIrq (f : Cpu → Cpu) (s : State) : (s.mapCpu f).apuIrq = s.apuIrq := rfl
@[simp] theorem State.mapCpu_pads (f : Cpu → Cpu) (s : State) : (s.mapCpu f).pads = s.pads := rfl
@[simp] theorem State.mapCpu_ram (f : Cpu → Cpu) (s : State) : (s.mapCpu f).ram = s.ram := rfl
@[simp] theorem State.mapCpu_cpuBus (f : Cpu → Cpu) (s : State) : (s.mapCpu f).cpuBus = s.cpuBus := rfl
@[simp] theorem State.mapCpu_cycle (f : Cpu → Cpu) (s : State) : (s.mapCpu f).cycle = s.cycle := rfl
@[simp] theorem State.mapCpu_resetAt (f : Cpu → Cpu) (s : State) : (s.mapCpu f).resetAt = s.resetAt := rfl

/-! ### `State.withVideo` and `State.video` -/

@[simp] theorem State.withVideo_cfg (v : Video) (s : State) : (s.withVideo v).cfg = s.cfg := rfl
@[simp] theorem State.withVideo_cpu (v : Video) (s : State) : (s.withVideo v).cpu = s.cpu := rfl
@[simp] theorem State.withVideo_arb (v : Video) (s : State) : (s.withVideo v).arb = s.arb := rfl
@[simp] theorem State.withVideo_ppu (v : Video) (s : State) : (s.withVideo v).ppu = v.ppu := rfl
@[simp] theorem State.withVideo_dma (v : Video) (s : State) : (s.withVideo v).dma = s.dma := rfl
@[simp] theorem State.withVideo_cart (v : Video) (s : State) : (s.withVideo v).cart = v.cart := rfl
@[simp] theorem State.withVideo_apu (v : Video) (s : State) : (s.withVideo v).apu = s.apu := rfl
@[simp] theorem State.withVideo_apuIrq (v : Video) (s : State) : (s.withVideo v).apuIrq = s.apuIrq := rfl
@[simp] theorem State.withVideo_pads (v : Video) (s : State) : (s.withVideo v).pads = s.pads := rfl
@[simp] theorem State.withVideo_ram (v : Video) (s : State) : (s.withVideo v).ram = s.ram := rfl
@[simp] theorem State.withVideo_cpuBus (v : Video) (s : State) : (s.withVideo v).cpuBus = s.cpuBus := rfl
@[simp] theorem State.withVideo_cycle (v : Video) (s : State) : (s.withVideo v).cycle = s.cycle := rfl
@[simp] theorem State.withVideo_resetAt (v : Video) (s : State) : (s.withVideo v).resetAt = s.resetAt := rfl
@[simp] theorem State.video_ppu (s : State) : s.video.ppu = s.ppu := rfl
@[simp] theorem State.video_cart (s : State) : s.video.cart = s.cart := rfl
@[simp] theorem State.withVideo_video (v : Video) (s : State) : (s.withVideo v).video = v := rfl

/-! ### `Video.mapPpu` -/

@[simp] theorem Video.mapPpu_ppu (f : Ppu → Ppu) (v : Video) : (v.mapPpu f).ppu = f v.ppu := rfl
@[simp] theorem Video.mapPpu_cart (f : Ppu → Ppu) (v : Video) : (v.mapPpu f).cart = v.cart := rfl

/-! ### `tickDevices` -/

@[simp] theorem tickDevices_cfg (s : State) : (tickDevices s).cfg = s.cfg := rfl
@[simp] theorem tickDevices_cpu (s : State) : (tickDevices s).cpu = s.cpu := rfl
@[simp] theorem tickDevices_arb (s : State) : (tickDevices s).arb = s.arb := rfl
@[simp] theorem tickDevices_ppu (s : State) : (tickDevices s).ppu = s.ppu := rfl
@[simp] theorem tickDevices_dma (s : State) : (tickDevices s).dma = s.dma := rfl
@[simp] theorem tickDevices_cart (s : State) : (tickDevices s).cart = s.cart := rfl
@[simp] theorem tickDevices_apu (s : State) : (tickDevices s).apu = s.apu.tick := rfl
@[simp] theorem tickDevices_apuIrq (s : State) : (tickDevices s).apuIrq = s.apuIrq := rfl
@[simp] theorem tickDevices_pads (s : State) : (tickDevices s).pads = s.pads.tick := rfl
@[simp] theorem tickDevices_ram (s : State) : (tickDevices s).ram = s.ram := rfl
@[simp] theorem tickDevices_cpuBus (s : State) : (tickDevices s).cpuBus = s.cpuBus := rfl
@[simp] theorem tickDevices_cycle (s : State) : (tickDevices s).cycle = s.cycle := rfl
@[simp] theorem tickDevices_resetAt (s : State) : (tickDevices s).resetAt = s.resetAt := rfl

/-! ### `ppuDot` -/

@[simp] theorem ppuDot_cfg (s : State) : (ppuDot s).cfg = s.cfg := rfl
@[simp] theorem ppuDot_cpu (s : State) : (ppuDot s).cpu = s.cpu := rfl
@[simp] theorem ppuDot_arb (s : State) : (ppuDot s).arb = s.arb := rfl
@[simp] theorem ppuDot_ppu (s : State) : (ppuDot s).ppu = (s.video.dot s.cfg s.cycle).ppu := rfl
@[simp] theorem ppuDot_dma (s : State) : (ppuDot s).dma = s.dma := rfl
@[simp] theorem ppuDot_cart (s : State) : (ppuDot s).cart = (s.video.dot s.cfg s.cycle).cart := rfl
@[simp] theorem ppuDot_apu (s : State) : (ppuDot s).apu = s.apu := rfl
@[simp] theorem ppuDot_apuIrq (s : State) : (ppuDot s).apuIrq = s.apuIrq := rfl
@[simp] theorem ppuDot_pads (s : State) : (ppuDot s).pads = s.pads := rfl
@[simp] theorem ppuDot_ram (s : State) : (ppuDot s).ram = s.ram := rfl
@[simp] theorem ppuDot_cpuBus (s : State) : (ppuDot s).cpuBus = s.cpuBus := rfl
@[simp] theorem ppuDot_cycle (s : State) : (ppuDot s).cycle = s.cycle := rfl
@[simp] theorem ppuDot_resetAt (s : State) : (ppuDot s).resetAt = s.resetAt := rfl

/-! ### `sampleInterrupts` -/

@[simp] theorem sampleInterrupts_cfg (s : State) : (sampleInterrupts s).cfg = s.cfg := rfl
@[simp] theorem sampleInterrupts_cpu (s : State) : (sampleInterrupts s).cpu = s.cpu := rfl
@[simp] theorem sampleInterrupts_ppu (s : State) : (sampleInterrupts s).ppu = s.ppu := rfl
@[simp] theorem sampleInterrupts_dma (s : State) : (sampleInterrupts s).dma = s.dma := rfl
@[simp] theorem sampleInterrupts_cart (s : State) :
    (sampleInterrupts s).cart = { s.cart with irq := s.cart.irq.advance s.cycle } := rfl
@[simp] theorem sampleInterrupts_apu (s : State) : (sampleInterrupts s).apu = s.apu := rfl
@[simp] theorem sampleInterrupts_apuIrq (s : State) : (sampleInterrupts s).apuIrq = s.apuIrq.advance s.cycle := rfl
@[simp] theorem sampleInterrupts_pads (s : State) : (sampleInterrupts s).pads = s.pads := rfl
@[simp] theorem sampleInterrupts_ram (s : State) : (sampleInterrupts s).ram = s.ram := rfl
@[simp] theorem sampleInterrupts_cpuBus (s : State) : (sampleInterrupts s).cpuBus = s.cpuBus := rfl
@[simp] theorem sampleInterrupts_cycle (s : State) : (sampleInterrupts s).cycle = s.cycle := rfl
@[simp] theorem sampleInterrupts_resetAt (s : State) : (sampleInterrupts s).resetAt = s.resetAt := rfl

/-! ### `openBusDecay` -/

@[simp] theorem openBusDecay_cfg (n : Nat) (s : State) : (openBusDecay n s).cfg = s.cfg := rfl
@[simp] theorem openBusDecay_cpu (n : Nat) (s : State) : (openBusDecay n s).cpu = s.cpu := rfl
@[simp] theorem openBusDecay_arb (n : Nat) (s : State) : (openBusDecay n s).arb = s.arb := rfl
@[simp] theorem openBusDecay_ppu (n : Nat) (s : State) :
    (openBusDecay n s).ppu = { s.ppu with bus := s.ppu.bus.tick s.cfg.decayDots n } := rfl
@[simp] theorem openBusDecay_dma (n : Nat) (s : State) : (openBusDecay n s).dma = s.dma := rfl
@[simp] theorem openBusDecay_cart (n : Nat) (s : State) : (openBusDecay n s).cart = s.cart := rfl
@[simp] theorem openBusDecay_apu (n : Nat) (s : State) : (openBusDecay n s).apu = s.apu := rfl
@[simp] theorem openBusDecay_apuIrq (n : Nat) (s : State) : (openBusDecay n s).apuIrq = s.apuIrq := rfl
@[simp] theorem openBusDecay_pads (n : Nat) (s : State) : (openBusDecay n s).pads = s.pads := rfl
@[simp] theorem openBusDecay_ram (n : Nat) (s : State) : (openBusDecay n s).ram = s.ram := rfl
@[simp] theorem openBusDecay_cpuBus (n : Nat) (s : State) : (openBusDecay n s).cpuBus = s.cpuBus := rfl
@[simp] theorem openBusDecay_cycle (n : Nat) (s : State) : (openBusDecay n s).cycle = s.cycle := rfl
@[simp] theorem openBusDecay_resetAt (n : Nat) (s : State) : (openBusDecay n s).resetAt = s.resetAt := rfl

/-! ### `warmReset` -/

@[simp] theorem warmReset_cfg (s : State) : (warmReset s).cfg = s.cfg := rfl
@[simp] theorem warmReset_cart (s : State) : (warmReset s).cart = s.cart := rfl
@[simp] theorem warmReset_apu (s : State) : (warmReset s).apu = s.apu := rfl
@[simp] theorem warmReset_apuIrq (s : State) : (warmReset s).apuIrq = s.apuIrq := rfl
@[simp] theorem warmReset_pads (s : State) : (warmReset s).pads = s.pads := rfl
@[simp] theorem warmReset_ram (s : State) : (warmReset s).ram = s.ram := rfl
@[simp] theorem warmReset_cpuBus (s : State) : (warmReset s).cpuBus = s.cpuBus := rfl
@[simp] theorem warmReset_cycle (s : State) : (warmReset s).cycle = s.cycle := rfl

/-! ### `poll` -/

@[simp] theorem poll_cfg (s : State) : (poll s).cfg = s.cfg := rfl
@[simp] theorem poll_cpu (s : State) : (poll s).cpu = s.cpu := rfl
@[simp] theorem poll_ppu (s : State) : (poll s).ppu = s.ppu := rfl
@[simp] theorem poll_dma (s : State) : (poll s).dma = s.dma := rfl
@[simp] theorem poll_cart (s : State) : (poll s).cart = s.cart := rfl
@[simp] theorem poll_apu (s : State) : (poll s).apu = s.apu := rfl
@[simp] theorem poll_apuIrq (s : State) : (poll s).apuIrq = s.apuIrq := rfl
@[simp] theorem poll_pads (s : State) : (poll s).pads = s.pads := rfl
@[simp] theorem poll_ram (s : State) : (poll s).ram = s.ram := rfl
@[simp] theorem poll_cpuBus (s : State) : (poll s).cpuBus = s.cpuBus := rfl
@[simp] theorem poll_cycle (s : State) : (poll s).cycle = s.cycle := rfl
@[simp] theorem poll_resetAt (s : State) : (poll s).resetAt = s.resetAt := rfl
@[simp] theorem poll_pending (s : State) : (poll s).arb.pending = polled s.arb s.cpu.p.i := rfl

/-! ### `Ppu.mapRegs`, `Ppu.mapBg` and `Ppu.refresh` -/

@[simp] theorem Ppu.mapRegs_regs (f : PpuRegs → PpuRegs) (p : Ppu) : (p.mapRegs f).regs = f p.regs := rfl
@[simp] theorem Ppu.mapRegs_bus (f : PpuRegs → PpuRegs) (p : Ppu) : (p.mapRegs f).bus = p.bus := rfl
@[simp] theorem Ppu.mapRegs_bg (f : PpuRegs → PpuRegs) (p : Ppu) : (p.mapRegs f).bg = p.bg := rfl
@[simp] theorem Ppu.mapRegs_spr (f : PpuRegs → PpuRegs) (p : Ppu) : (p.mapRegs f).spr = p.spr := rfl
@[simp] theorem Ppu.mapRegs_ev (f : PpuRegs → PpuRegs) (p : Ppu) : (p.mapRegs f).ev = p.ev := rfl
@[simp] theorem Ppu.mapRegs_pos (f : PpuRegs → PpuRegs) (p : Ppu) : (p.mapRegs f).pos = p.pos := rfl
@[simp] theorem Ppu.mapRegs_a12 (f : PpuRegs → PpuRegs) (p : Ppu) : (p.mapRegs f).a12 = p.a12 := rfl
@[simp] theorem Ppu.mapRegs_oam (f : PpuRegs → PpuRegs) (p : Ppu) : (p.mapRegs f).oam = p.oam := rfl
@[simp] theorem Ppu.mapRegs_secOam (f : PpuRegs → PpuRegs) (p : Ppu) : (p.mapRegs f).secOam = p.secOam := rfl
@[simp] theorem Ppu.mapRegs_palette (f : PpuRegs → PpuRegs) (p : Ppu) : (p.mapRegs f).palette = p.palette := rfl
@[simp] theorem Ppu.mapRegs_fb (f : PpuRegs → PpuRegs) (p : Ppu) : (p.mapRegs f).fb = p.fb := rfl
@[simp] theorem Ppu.mapBg_regs (f : BgPipe → BgPipe) (p : Ppu) : (p.mapBg f).regs = p.regs := rfl
@[simp] theorem Ppu.mapBg_bus (f : BgPipe → BgPipe) (p : Ppu) : (p.mapBg f).bus = p.bus := rfl
@[simp] theorem Ppu.mapBg_bg (f : BgPipe → BgPipe) (p : Ppu) : (p.mapBg f).bg = f p.bg := rfl
@[simp] theorem Ppu.mapBg_spr (f : BgPipe → BgPipe) (p : Ppu) : (p.mapBg f).spr = p.spr := rfl
@[simp] theorem Ppu.mapBg_ev (f : BgPipe → BgPipe) (p : Ppu) : (p.mapBg f).ev = p.ev := rfl
@[simp] theorem Ppu.mapBg_pos (f : BgPipe → BgPipe) (p : Ppu) : (p.mapBg f).pos = p.pos := rfl
@[simp] theorem Ppu.mapBg_a12 (f : BgPipe → BgPipe) (p : Ppu) : (p.mapBg f).a12 = p.a12 := rfl
@[simp] theorem Ppu.mapBg_oam (f : BgPipe → BgPipe) (p : Ppu) : (p.mapBg f).oam = p.oam := rfl
@[simp] theorem Ppu.mapBg_secOam (f : BgPipe → BgPipe) (p : Ppu) : (p.mapBg f).secOam = p.secOam := rfl
@[simp] theorem Ppu.mapBg_palette (f : BgPipe → BgPipe) (p : Ppu) : (p.mapBg f).palette = p.palette := rfl
@[simp] theorem Ppu.mapBg_fb (f : BgPipe → BgPipe) (p : Ppu) : (p.mapBg f).fb = p.fb := rfl
@[simp] theorem Ppu.refresh_regs (mask value : Byte) (p : Ppu) : (p.refresh mask value).regs = p.regs := rfl
@[simp] theorem Ppu.refresh_bus (mask value : Byte) (p : Ppu) :
    (p.refresh mask value).bus = p.bus.refresh mask value := rfl
@[simp] theorem Ppu.refresh_bg (mask value : Byte) (p : Ppu) : (p.refresh mask value).bg = p.bg := rfl
@[simp] theorem Ppu.refresh_spr (mask value : Byte) (p : Ppu) : (p.refresh mask value).spr = p.spr := rfl
@[simp] theorem Ppu.refresh_ev (mask value : Byte) (p : Ppu) : (p.refresh mask value).ev = p.ev := rfl
@[simp] theorem Ppu.refresh_pos (mask value : Byte) (p : Ppu) : (p.refresh mask value).pos = p.pos := rfl
@[simp] theorem Ppu.refresh_a12 (mask value : Byte) (p : Ppu) : (p.refresh mask value).a12 = p.a12 := rfl
@[simp] theorem Ppu.refresh_oam (mask value : Byte) (p : Ppu) : (p.refresh mask value).oam = p.oam := rfl
@[simp] theorem Ppu.refresh_secOam (mask value : Byte) (p : Ppu) : (p.refresh mask value).secOam = p.secOam := rfl
@[simp] theorem Ppu.refresh_palette (mask value : Byte) (p : Ppu) : (p.refresh mask value).palette = p.palette := rfl
@[simp] theorem Ppu.refresh_fb (mask value : Byte) (p : Ppu) : (p.refresh mask value).fb = p.fb := rfl

/-! ### `Dma.start` -/

@[simp] theorem Dma.start_active (d : Byte) (m : Dma) : (m.start d).active = true := rfl
@[simp] theorem Dma.start_page (d : Byte) (m : Dma) : (m.start d).page = d := rfl
@[simp] theorem Dma.start_index (d : Byte) (m : Dma) : (m.start d).index = 0 := rfl
@[simp] theorem Dma.start_step (d : Byte) (m : Dma) : (m.start d).step = .halt := rfl
@[simp] theorem Dma.start_data (d : Byte) (m : Dma) : (m.start d).data = m.data := rfl

/-! ### `endCycle` -/

@[simp] theorem endCycle_cfg (kind : CycleKind) (s : State) : (endCycle kind s).cfg = s.cfg := by cases kind <;> rfl
@[simp] theorem endCycle_ppu (kind : CycleKind) (s : State) : (endCycle kind s).ppu = s.ppu := by cases kind <;> rfl
@[simp] theorem endCycle_dma (kind : CycleKind) (s : State) : (endCycle kind s).dma = s.dma := by cases kind <;> rfl
@[simp] theorem endCycle_cart (kind : CycleKind) (s : State) : (endCycle kind s).cart = s.cart := by cases kind <;> rfl
@[simp] theorem endCycle_apu (kind : CycleKind) (s : State) : (endCycle kind s).apu = s.apu := by cases kind <;> rfl
@[simp] theorem endCycle_apuIrq (kind : CycleKind) (s : State) : (endCycle kind s).apuIrq = s.apuIrq := by cases kind <;> rfl
@[simp] theorem endCycle_pads (kind : CycleKind) (s : State) : (endCycle kind s).pads = s.pads := by cases kind <;> rfl
@[simp] theorem endCycle_ram (kind : CycleKind) (s : State) : (endCycle kind s).ram = s.ram := by cases kind <;> rfl
@[simp] theorem endCycle_cpuBus (kind : CycleKind) (s : State) : (endCycle kind s).cpuBus = s.cpuBus := by cases kind <;> rfl
@[simp] theorem endCycle_cycle (kind : CycleKind) (s : State) : (endCycle kind s).cycle = s.cycle := by cases kind <;> rfl
@[simp] theorem endCycle_resetAt (kind : CycleKind) (s : State) : (endCycle kind s).resetAt = s.resetAt := by cases kind <;> rfl

end Sys2Proof.Machine
end

