-- ==== Sys2Proof/Laws/Keeps.lean ====
section
/-! SUPPORT. What a PPU dot and a port read leave alone, said once: the registers that only the CPU writes, the memories
behind the PPU, and the cartridge's contents and parameters. -/

namespace Sys2Proof.Machine

/-- The cartridge keeps its contents and parameters (an external mapper's record of calls may grow). -/
structure CartKeeps (c d : Cart) : Prop where
  kind : d.kind = c.kind
  prgSize : d.prgSize = c.prgSize
  chrIsRam : d.chrIsRam = c.chrIsRam
  mirroring : d.mirroring = c.mirroring
  prg : d.prg = c.prg
  chr : d.chr = c.chr
  nt : d.nt = c.nt
  log : c.kind = .nrom → d.log = c.log

/-- The cartridge keeps its interrupt output as well, as it does over anything but an interrupt sample. -/
structure CartSame (c d : Cart) : Prop extends CartKeeps c d where
  irq : d.irq = c.irq

/-- The PPU keeps what only a CPU write changes. -/
structure PpuKeeps (p q : Ppu) : Prop where
  ctrl : q.regs.ctrl = p.regs.ctrl
  mask : q.regs.mask = p.regs.mask
  t : q.regs.t = p.regs.t
  xFine : q.regs.xFine = p.regs.xFine
  oam : q.oam = p.oam
  palette : q.palette = p.palette

/-- The PPU also keeps what a CPU read may change. -/
structure PpuDotKeeps (p q : Ppu) : Prop extends PpuKeeps p q where
  w : q.regs.w = p.regs.w
  readBuffer : q.regs.readBuffer = p.regs.readBuffer
  bus : q.bus = p.bus

theorem CartKeeps.refl (c : Cart) : CartKeeps c c := ⟨rfl, rfl, rfl, rfl, rfl, rfl, rfl, fun _ => rfl⟩

theorem CartKeeps.trans {c d e : Cart} (h : CartKeeps c d) (k : CartKeeps d e) : CartKeeps c e :=
  ⟨k.kind.trans h.kind, k.prgSize.trans h.prgSize, k.chrIsRam.trans h.chrIsRam, k.mirroring.trans h.mirroring,
    k.prg.trans h.prg, k.chr.trans h.chr, k.nt.trans h.nt,
    fun e => (k.log (h.kind.trans e)).trans (h.log e)⟩

theorem CartSame.refl (c : Cart) : CartSame c c := ⟨.refl c, rfl⟩

theorem CartSame.trans {c d e : Cart} (h : CartSame c d) (k : CartSame d e) : CartSame c e :=
  ⟨h.toCartKeeps.trans k.toCartKeeps, k.irq.trans h.irq⟩

theorem PpuKeeps.refl (p : Ppu) : PpuKeeps p p := ⟨rfl, rfl, rfl, rfl, rfl, rfl⟩

theorem PpuKeeps.trans {p q r : Ppu} (h : PpuKeeps p q) (k : PpuKeeps q r) : PpuKeeps p r :=
  ⟨k.ctrl.trans h.ctrl, k.mask.trans h.mask, k.t.trans h.t, k.xFine.trans h.xFine, k.oam.trans h.oam,
    k.palette.trans h.palette⟩

theorem PpuDotKeeps.refl (p : Ppu) : PpuDotKeeps p p := ⟨.refl p, rfl, rfl, rfl⟩

theorem PpuDotKeeps.trans {p q r : Ppu} (h : PpuDotKeeps p q) (k : PpuDotKeeps q r) : PpuDotKeeps p r :=
  ⟨h.toPpuKeeps.trans k.toPpuKeeps, k.w.trans h.w, k.readBuffer.trans h.readBuffer, k.bus.trans h.bus⟩

/-- Two videos agree on what a dot keeps. -/
structure DotKeeps (v w : Video) : Prop where
  ppu : PpuDotKeeps v.ppu w.ppu
  cart : CartSame v.cart w.cart

theorem DotKeeps.refl (v : Video) : DotKeeps v v := ⟨.refl _, .refl _⟩

theorem DotKeeps.trans {v w x : Video} (h : DotKeeps v w) (k : DotKeeps w x) : DotKeeps v x :=
  ⟨h.ppu.trans k.ppu, h.cart.trans k.cart⟩

/-- Only the PPU side changed. -/
theorem DotKeeps.mapPpu {f : Ppu → Ppu} (h : ∀ p, PpuDotKeeps p (f p)) (v : Video) : DotKeeps v (v.mapPpu f) :=
  ⟨h _, .refl _⟩

/-- An update of registers that touches none of those kept. -/
theorem Ppu.mapRegs_keeps {f : PpuRegs → PpuRegs} (p : Ppu) (ctrl : (f p.regs).ctrl = p.regs.ctrl)
    (mask : (f p.regs).mask = p.regs.mask) (t : (f p.regs).t = p.regs.t) (xFine : (f p.regs).xFine = p.regs.xFine)
    (w : (f p.regs).w = p.regs.w) (readBuffer : (f p.regs).readBuffer = p.regs.readBuffer) :
    PpuDotKeeps p (p.mapRegs f) :=
  ⟨⟨ctrl, mask, t, xFine, rfl, rfl⟩, w, readBuffer, rfl⟩

/-! ### Cartridge -/

theorem Cart.note_keeps (c : Cart) (call : MapperCall) : CartSame c (c.note call) := by
  unfold Cart.note
  split <;> exact ⟨⟨rfl, rfl, rfl, rfl, rfl, rfl, rfl, by simp_all⟩, rfl⟩

theorem Cart.clockIrq_keeps (c : Cart) : CartSame c c.clockIrq :=
  (Cart.note_keeps c .clockIrq).trans ⟨⟨rfl, rfl, rfl, rfl, rfl, rfl, rfl, fun _ => rfl⟩, rfl⟩

theorem Cart.writePrg_keeps (c : Cart) (a : Word) (d : Byte) : CartSame c (c.writePrg a d) := Cart.note_keeps c _

/-! ### A12 and fetches -/

theorem Video.driveA12_keeps (c : Nat) (high : Bool) (v : Video) : DotKeeps v (v.driveA12 c high) := by
  unfold Video.driveA12
  split_ifs
  · exact .mapPpu (by intro p; exact ⟨⟨rfl, rfl, rfl, rfl, rfl, rfl⟩, rfl, rfl, rfl⟩) v
  · exact ⟨⟨⟨rfl, rfl, rfl, rfl, rfl, rfl⟩, rfl, rfl, rfl⟩, Cart.clockIrq_keeps _⟩
  · exact ⟨⟨⟨rfl, rfl, rfl, rfl, rfl, rfl⟩, rfl, rfl, rfl⟩, .refl _⟩
  · exact .refl v

theorem Video.drive_keeps (c : Nat) (a : PpuAddr) (v : Video) : DotKeeps v (v.drive c a) := v.driveA12_keeps c _

theorem Video.fetch_keeps (c : Nat) (a : PpuAddr) (store : Byte → Ppu → Ppu) (h : ∀ d p, PpuDotKeeps p (store d p))
    (v : Video) : DotKeeps v (v.fetch c a store) :=
  (v.drive_keeps c a).trans (.mapPpu (h _) _)

theorem Ppu.mapBg_keeps (f : BgPipe → BgPipe) (p : Ppu) : PpuDotKeeps p (p.mapBg f) :=
  ⟨⟨rfl, rfl, rfl, rfl, rfl, rfl⟩, rfl, rfl, rfl⟩

theorem Video.bgPhase_keeps (c ph : Nat) (v : Video) : DotKeeps v (v.bgPhase c ph) := by
  unfold Video.bgPhase
  split
  · exact v.drive_keeps _ _
  · exact v.fetch_keeps _ _ _ fun _ _ => Ppu.mapBg_keeps _ _
  · exact v.drive_keeps _ _
  · exact v.fetch_keeps _ _ _ fun _ _ => Ppu.mapBg_keeps _ _
  · exact v.drive_keeps _ _
  · exact v.fetch_keeps _ _ _ fun _ _ => Ppu.mapBg_keeps _ _
  · exact v.drive_keeps _ _
  · exact (v.fetch_keeps _ _ _ fun _ _ => Ppu.mapBg_keeps _ _).trans
      (.mapPpu (fun p => Ppu.mapRegs_keeps p rfl rfl rfl rfl rfl rfl) _)

theorem Video.dummyNt_keeps (c dot : Nat) (v : Video) : DotKeeps v (v.dummyNt c dot) := by
  unfold Video.dummyNt
  split_ifs
  · exact v.drive_keeps _ _
  · exact v.fetch_keeps _ _ _ fun _ p => .refl p

theorem Ppu.scrollDot_keeps (dot : Nat) (p : Ppu) : PpuDotKeeps p (p.scrollDot dot) := by
  unfold Ppu.scrollDot
  apply Ppu.mapRegs_keeps <;> (unfold PpuRegs.scrollDot; split_ifs <;> rfl)

theorem Video.backgroundStep_keeps (c dot : Nat) (v : Video) : DotKeeps v (v.backgroundStep c dot) := by
  unfold Video.backgroundStep
  refine DotKeeps.trans ?_ (.mapPpu (Ppu.scrollDot_keeps dot) _)
  split_ifs
  · exact v.bgPhase_keeps _ _
  · exact v.dummyNt_keeps _ _
  · exact .refl v

/-! ### Sprites -/

theorem Ppu.writeSecOam_keeps (i : Nat) (d : Byte) (p : Ppu) : PpuDotKeeps p (p.writeSecOam i d) := by
  unfold Ppu.writeSecOam
  split_ifs
  · exact ⟨⟨rfl, rfl, rfl, rfl, rfl, rfl⟩, rfl, rfl, rfl⟩
  · exact .refl p

theorem Ppu.evalAct_keeps (p : Ppu) : PpuDotKeeps p p.evalAct := by
  have h := Ppu.writeSecOam_keeps (4 * p.ev.found + p.ev.m.toNat) p.ev.latch p
  obtain ⟨⟨h1, h2, h3, h4, h5, h6⟩, h7, h8, h9⟩ := h
  unfold Ppu.evalAct
  dsimp only
  split
  · exact ⟨⟨h1, h2, h3, h4, h5, h6⟩, h7, h8, h9⟩
  · split_ifs <;> exact ⟨⟨rfl, rfl, rfl, rfl, rfl, rfl⟩, rfl, rfl, rfl⟩
  · exact .refl p

theorem Ppu.evalRead_keeps (p : Ppu) : PpuDotKeeps p p.evalRead := ⟨⟨rfl, rfl, rfl, rfl, rfl, rfl⟩, rfl, rfl, rfl⟩

theorem Ppu.spriteEvalStep_keeps (dot : Nat) (p : Ppu) : PpuDotKeeps p (p.spriteEvalStep dot) := by
  unfold Ppu.spriteEvalStep
  split_ifs
  · exact Ppu.writeSecOam_keeps _ _ _
  · exact .refl p
  · exact ⟨⟨rfl, rfl, rfl, rfl, rfl, rfl⟩, rfl, rfl, rfl⟩
  · exact PpuDotKeeps.trans (q := { p with ev := p.ev.restart }) ⟨⟨rfl, rfl, rfl, rfl, rfl, rfl⟩, rfl, rfl, rfl⟩
      (Ppu.evalAct_keeps _)
  · exact Ppu.evalRead_keeps _
  · exact Ppu.evalAct_keeps _
  · exact .refl p

theorem Video.spritePhase_keeps (c i q : Nat) (v : Video) : DotKeeps v (v.spritePhase c i q) := by
  unfold Video.spritePhase
  split
  · exact v.drive_keeps _ _
  · exact v.fetch_keeps _ _ _ fun _ p => .refl p
  · exact v.drive_keeps _ _
  · exact v.fetch_keeps _ _ _ fun _ p => .refl p
  · exact v.drive_keeps _ _
  · exact v.fetch_keeps _ _ _ (by intro d p; exact ⟨⟨rfl, rfl, rfl, rfl, rfl, rfl⟩, rfl, rfl, rfl⟩)
  · exact v.drive_keeps _ _
  · exact v.fetch_keeps _ _ _ (by intro d p; exact ⟨⟨rfl, rfl, rfl, rfl, rfl, rfl⟩, rfl, rfl, rfl⟩)

theorem Video.spriteFetchStep_keeps (c dot : Nat) (v : Video) : DotKeeps v (v.spriteFetchStep c dot) := by
  unfold Video.spriteFetchStep
  split
  · refine DotKeeps.trans ?_ ((Video.spritePhase_keeps _ _ _ _).trans
      (.mapPpu (fun p => Ppu.mapRegs_keeps p rfl rfl rfl rfl rfl rfl) _))
    split_ifs
    · exact .mapPpu (by intro p; exact ⟨⟨rfl, rfl, rfl, rfl, rfl, rfl⟩, rfl, rfl, rfl⟩) v
    · exact .refl v
  · exact .refl v

/-! ### The dot -/

theorem Ppu.flagEvents_keeps (cfg : Config) (p : Ppu) : PpuDotKeeps p (p.flagEvents cfg) := by
  unfold Ppu.flagEvents
  dsimp only
  split_ifs <;> first | exact .refl p | exact ⟨⟨rfl, rfl, rfl, rfl, rfl, rfl⟩, rfl, rfl, rfl⟩

theorem Ppu.pixelStep_keeps (dot : Nat) (p : Ppu) : PpuDotKeeps p (p.pixelStep dot) := by
  unfold Ppu.pixelStep
  dsimp only
  split_ifs <;> first | exact .refl p | exact ⟨⟨rfl, rfl, rfl, rfl, rfl, rfl⟩, rfl, rfl, rfl⟩

theorem Video.fetchStep_keeps (c dot : Nat) (v : Video) : DotKeeps v (v.fetchStep c dot) := by
  unfold Video.fetchStep
  refine (v.backgroundStep_keeps c dot).trans (DotKeeps.trans ?_ (Video.spriteFetchStep_keeps _ _ _))
  split_ifs
  · exact .mapPpu (Ppu.spriteEvalStep_keeps dot) _
  · exact .refl _

theorem Video.renderStep_keeps (c : Nat) (v : Video) : DotKeeps v (v.renderStep c) := by
  unfold Video.renderStep
  have h := DotKeeps.mapPpu (Ppu.pixelStep_keeps v.ppu.pos.dot) v
  dsimp only
  split_ifs
  · exact h.trans (Video.fetchStep_keeps _ _ _)
  · exact h

theorem Ppu.delayedHit_keeps (p : Ppu) : PpuDotKeeps p p.delayedHit := by
  unfold Ppu.delayedHit
  split_ifs
  · exact ⟨⟨rfl, rfl, rfl, rfl, rfl, rfl⟩, rfl, rfl, rfl⟩
  · exact .refl p

theorem Ppu.advance_keeps (cfg : Config) (p : Ppu) : PpuDotKeeps p (p.advance cfg) :=
  ⟨⟨rfl, rfl, rfl, rfl, rfl, rfl⟩, rfl, rfl, rfl⟩

/-- A dot keeps what only CPU accesses change. -/
theorem Video.dot_keeps (cfg : Config) (c : Nat) (v : Video) : DotKeeps v (v.dot cfg c) := by
  unfold Video.dot
  refine (DotKeeps.mapPpu (Ppu.flagEvents_keeps cfg) v).trans (DotKeeps.trans ?_
    ((DotKeeps.mapPpu Ppu.delayedHit_keeps _).trans
      (.mapPpu (Ppu.advance_keeps cfg) _)))
  split_ifs
  · exact Video.renderStep_keeps _ _
  · exact .refl _

/-! ### Port reads -/

theorem Ppu.refresh_keeps (mask value : Byte) (p : Ppu) : PpuKeeps p (p.refresh mask value) :=
  ⟨rfl, rfl, rfl, rfl, rfl, rfl⟩

theorem Video.afterData_keeps (cfg : Config) (c : Nat) (v : Video) :
    PpuKeeps v.ppu (v.afterData cfg c).ppu ∧ CartSame v.cart (v.afterData cfg c).cart := by
  unfold Video.afterData
  dsimp only
  split
  · exact ⟨⟨rfl, rfl, rfl, rfl, rfl, rfl⟩, .refl _⟩
  · have k : ∀ w : Video, PpuKeeps v.ppu w.ppu → CartSame v.cart w.cart →
        PpuKeeps v.ppu ((w.driveA12 c (v.ppu.regs.vramAddr.getLsbD 12)).mapPpu (.mapRegs .plainInc)).ppu ∧
        CartSame v.cart ((w.driveA12 c (v.ppu.regs.vramAddr.getLsbD 12)).mapPpu (.mapRegs .plainInc)).cart := by
      intro w hp hc
      have hd := Video.driveA12_keeps c (v.ppu.regs.vramAddr.getLsbD 12) w
      exact ⟨(hp.trans hd.ppu.toPpuKeeps).trans ⟨rfl, rfl, rfl, rfl, rfl, rfl⟩, hc.trans hd.cart⟩
    exact k _ ⟨rfl, rfl, rfl, rfl, rfl, rfl⟩ (.refl _)

/-- A port read keeps what only a CPU write changes. -/
theorem Video.afterPort_keeps (cfg : Config) (c : Nat) (port : BitVec 3) (v : Video) :
    PpuKeeps v.ppu (v.afterPort cfg c port).ppu ∧ CartSame v.cart (v.afterPort cfg c port).cart := by
  unfold Video.afterPort
  split_ifs
  · exact ⟨⟨rfl, rfl, rfl, rfl, rfl, rfl⟩, .refl _⟩
  · exact ⟨Ppu.refresh_keeps _ _ _, .refl _⟩
  · exact Video.afterData_keeps cfg c v
  · exact ⟨.refl _, .refl _⟩

end Sys2Proof.Machine
end

