-- ==== Sys2Proof/Laws/Cycle.lean ====
section
/-! SUPPORT. One CPU cycle, said once: what the cycle around an access leaves alone, what an access does, and what a cycle
of the CPU answers when no DMA runs and no reset is due. -/

namespace Sys2Proof.Machine

/-- What a cycle that stores nothing keeps. -/
structure Keeps (s t : State) : Prop where
  ram : t.ram = s.ram
  ppu : PpuKeeps s.ppu t.ppu
  cart : CartKeeps s.cart t.cart
  dma : t.dma = s.dma
  cfg : t.cfg = s.cfg
  resetAt : t.resetAt = s.resetAt

theorem Keeps.refl (s : State) : Keeps s s := ⟨rfl, .refl _, .refl _, rfl, rfl, rfl⟩

theorem Keeps.trans {s t u : State} (h : Keeps s t) (k : Keeps t u) : Keeps s u :=
  ⟨k.ram.trans h.ram, h.ppu.trans k.ppu, h.cart.trans k.cart, k.dma.trans h.dma, k.cfg.trans h.cfg,
    k.resetAt.trans h.resetAt⟩

theorem ppuDot_keeps (s : State) : Keeps s (ppuDot s) :=
  ⟨rfl, (Video.dot_keeps s.cfg s.cycle s.video).ppu.toPpuKeeps, (Video.dot_keeps s.cfg s.cycle s.video).cart.toCartKeeps, rfl, rfl,
    rfl⟩

theorem sampleInterrupts_keeps (s : State) : Keeps s (sampleInterrupts s) :=
  ⟨rfl, .refl _, ⟨rfl, rfl, rfl, rfl, rfl, rfl, rfl, fun _ => rfl⟩, rfl, rfl, rfl⟩

theorem tickDevices_keeps (s : State) : Keeps s (tickDevices s) := ⟨rfl, .refl _, .refl _, rfl, rfl, rfl⟩

theorem openBusDecay_keeps (n : Nat) (s : State) : Keeps s (openBusDecay n s) :=
  ⟨rfl, ⟨rfl, rfl, rfl, rfl, rfl, rfl⟩, .refl _, rfl, rfl, rfl⟩

/-! ### Before and after the access -/

theorem beforeAccess_keeps (s : State) : Keeps s (beforeAccess s) :=
  (((tickDevices_keeps s).trans (ppuDot_keeps _)).trans (ppuDot_keeps _)).trans (sampleInterrupts_keeps _)

@[simp] theorem beforeAccess_cpu (s : State) : (beforeAccess s).cpu = s.cpu := by simp [beforeAccess]
@[simp] theorem beforeAccess_cycle (s : State) : (beforeAccess s).cycle = s.cycle := by simp [beforeAccess]
@[simp] theorem beforeAccess_cpuBus (s : State) : (beforeAccess s).cpuBus = s.cpuBus := by simp [beforeAccess]
@[simp] theorem beforeAccess_dma (s : State) : (beforeAccess s).dma = s.dma := by simp [beforeAccess]
@[simp] theorem beforeAccess_ram (s : State) : (beforeAccess s).ram = s.ram := by simp [beforeAccess]
@[simp] theorem beforeAccess_cfg (s : State) : (beforeAccess s).cfg = s.cfg := by simp [beforeAccess]
@[simp] theorem beforeAccess_resetAt (s : State) : (beforeAccess s).resetAt = s.resetAt := by simp [beforeAccess]

theorem dotsAfter_keeps (s : State) : Keeps s (dotsAfter s) := by
  unfold dotsAfter
  split_ifs
  · exact (ppuDot_keeps s).trans (ppuDot_keeps _)
  · exact ppuDot_keeps s

theorem countCycle_keeps (s : State) : Keeps s (countCycle s) := ⟨rfl, .refl _, .refl _, rfl, rfl, rfl⟩

theorem afterAccess_keeps (s : State) : Keeps s (afterAccess s) :=
  ((dotsAfter_keeps s).trans (openBusDecay_keeps _ _)).trans (countCycle_keeps _)

@[simp] theorem dotsAfter_cpu (s : State) : (dotsAfter s).cpu = s.cpu := by unfold dotsAfter; split_ifs <;> simp
@[simp] theorem dotsAfter_cpuBus (s : State) : (dotsAfter s).cpuBus = s.cpuBus := by unfold dotsAfter; split_ifs <;> simp
@[simp] theorem dotsAfter_arb (s : State) : (dotsAfter s).arb = s.arb := by unfold dotsAfter; split_ifs <;> simp
@[simp] theorem dotsAfter_cycle (s : State) : (dotsAfter s).cycle = s.cycle := by unfold dotsAfter; split_ifs <;> simp

@[simp] theorem countCycle_cycle (s : State) : (countCycle s).cycle = s.cycle + 1 := rfl
@[simp] theorem countCycle_cpu (s : State) : (countCycle s).cpu = s.cpu := rfl
@[simp] theorem countCycle_cpuBus (s : State) : (countCycle s).cpuBus = s.cpuBus := rfl
@[simp] theorem countCycle_arb (s : State) : (countCycle s).arb = s.arb := rfl

@[simp] theorem afterAccess_cpu (s : State) : (afterAccess s).cpu = s.cpu := by simp [afterAccess]
@[simp] theorem afterAccess_cpuBus (s : State) : (afterAccess s).cpuBus = s.cpuBus := by simp [afterAccess]
@[simp] theorem afterAccess_arb (s : State) : (afterAccess s).arb = s.arb := by simp [afterAccess]
@[simp] theorem afterAccess_cycle (s : State) : (afterAccess s).cycle = s.cycle + 1 := by simp [afterAccess]

/-! ### The access -/

theorem readEffect_keeps (a : Word) (s : State) : Keeps s (readEffect a s) := by
  unfold readEffect
  split
  · exact .refl s
  · exact ⟨rfl, (Video.afterPort_keeps _ _ _ s.video).1, (Video.afterPort_keeps _ _ _ s.video).2.toCartKeeps, rfl, rfl, rfl⟩
  · exact ⟨rfl, .refl _, .refl _, rfl, rfl, rfl⟩
  · exact .refl s
  · exact ⟨rfl, .refl _, .refl _, rfl, rfl, rfl⟩
  · exact ⟨rfl, .refl _, .refl _, rfl, rfl, rfl⟩
  · exact .refl s
  · exact ⟨rfl, .refl _, (Cart.note_keeps _ _).toCartKeeps, rfl, rfl, rfl⟩

@[simp] theorem readEffect_cpu (a : Word) (s : State) : (readEffect a s).cpu = s.cpu := by
  unfold readEffect; split <;> rfl
@[simp] theorem readEffect_arb (a : Word) (s : State) : (readEffect a s).arb = s.arb := by
  unfold readEffect; split <;> rfl
@[simp] theorem readEffect_cycle (a : Word) (s : State) : (readEffect a s).cycle = s.cycle := by
  unfold readEffect; split <;> rfl

@[simp] theorem writeEffect_cpu (a : Word) (d : Byte) (s : State) : (writeEffect a d s).cpu = s.cpu := by
  unfold writeEffect; split <;> rfl
@[simp] theorem writeEffect_arb (a : Word) (d : Byte) (s : State) : (writeEffect a d s).arb = s.arb := by
  unfold writeEffect; split <;> rfl
@[simp] theorem writeEffect_cycle (a : Word) (d : Byte) (s : State) : (writeEffect a d s).cycle = s.cycle := by
  unfold writeEffect; split <;> rfl

@[simp] theorem perform_cpu (act : Act) (s : State) : (perform act s).cpu = s.cpu := by
  cases act <;> simp [perform]
@[simp] theorem perform_arb (act : Act) (s : State) : (perform act s).arb = s.arb := by
  cases act <;> simp [perform]
@[simp] theorem perform_cycle (act : Act) (s : State) : (perform act s).cycle = s.cycle := by
  cases act <;> simp [perform]
@[simp] theorem perform_cpuBus (act : Act) (s : State) : (perform act s).cpuBus = busValue act s := by
  cases act <;> rfl

/-- A primitive that stores nothing. -/
def Act.isWrite : Act → Bool
  | .write _ _ => true
  | _ => false

theorem perform_keeps (act : Act) (h : act.isWrite = false) (s : State) : Keeps s (perform act s) := by
  cases act with
  | read a =>
    obtain ⟨h1, h2, h3, h4, h5, h6⟩ := readEffect_keeps a s
    exact ⟨h1, h2, h3, h4, h5, h6⟩
  | write a d => simp [Act.isWrite] at h
  | idle => exact .refl s

/-! ### The whole cycle -/

@[simp] theorem busCycle_cpu (act : State → Act) (s : State) : (busCycle act s).cpu = s.cpu := by simp [busCycle]
@[simp] theorem busCycle_cycle (act : State → Act) (s : State) : (busCycle act s).cycle = s.cycle + 1 := by
  simp [busCycle]
@[simp] theorem busCycle_cpuBus (act : State → Act) (s : State) : (busCycle act s).cpuBus = busByte act s := by
  simp [busCycle, busByte]
@[simp] theorem busCycle_arb (act : State → Act) (s : State) : (busCycle act s).arb = (beforeAccess s).arb := by
  simp [busCycle]

theorem busCycle_keeps (act : State → Act) (s : State) (h : (act (beforeAccess s)).isWrite = false) :
    Keeps s (busCycle act s) :=
  ((beforeAccess_keeps s).trans (perform_keeps _ h _)).trans (afterAccess_keeps _)

/-- The byte a read of RAM or mapper-0 ROM delivers. -/
theorem delivers_readValue (a : Word) (s : State) : delivers a s (readValue a s) := by
  constructor
  · intro h; simp [readValue, h, ramAt]
  · intro hk ha
    have ht : target a = .mapper := by
      unfold target; dsimp only; split_ifs <;> first | omega | rfl
    simp [readValue, ht, Cart.readPrg, hk, ha]

theorem delivers_congr {a : Word} {s t : State} {d : Byte} (h : Keeps s t) : delivers a t d ↔ delivers a s d := by
  simp only [delivers, ramAt, h.ram, h.cart.kind, h.cart.prg, h.cart.prgSize]

/-- The byte on the bus of a read cycle. -/
theorem delivers_busByte (a : Word) (act : State → Act) (s : State) (h : act (beforeAccess s) = .read a) :
    delivers a s (busByte act s) := by
  rw [← delivers_congr (beforeAccess_keeps s), busByte, h]
  exact delivers_readValue _ _

end Sys2Proof.Machine
end

