-- ==== Sys2Proof/Laws/Cpu.lean ====
section
/-! SUPPORT. One cycle of the CPU when no DMA runs and no reset is due: a read, a write or an idle cycle, each said once. -/

namespace Sys2Proof.Machine

/-! ### `undisturbed` -/

theorem undisturbed.mono {k n : Nat} {s : State} (h : undisturbed n s) (hk : k ≤ n) : undisturbed k s :=
  ⟨h.1, fun m hm => by have := h.2 m hm; omega⟩

theorem undisturbed.resetDue {k : Nat} {s : State} (h : undisturbed (k + 1) s) : resetDue s = false := by
  unfold Machine.resetDue
  split
  · rfl
  · rename_i n rest e
    have := h.2 n (by simp [e])
    simp; omega

theorem undisturbed.next {k : Nat} {s t : State} (h : undisturbed (k + 1) s) (dma : t.dma.active = s.dma.active)
    (resetAt : t.resetAt = s.resetAt) (cycle : t.cycle = s.cycle + 1) : undisturbed k t :=
  ⟨dma ▸ h.1, fun n hn => by have := h.2 n (resetAt ▸ hn); omega⟩

theorem drainDma_of_inactive (fuel : Nat) {s : State} (h : s.dma.active = false) : drainDma fuel s = s := by
  cases fuel <;> simp [drainDma, h]

/-- A cycle of an undisturbed CPU is its bus cycle, its update and its end. -/
theorem cyc_eq {k : Nat} {s : State} (h : undisturbed (k + 1) s) (kind : CycleKind) (act : State → Act)
    (upd : Byte → State → State) : cyc kind act upd s = endCycle kind (upd (busByte act s) (busCycle act s)) := by
  simp [cyc, drainDma_of_inactive _ h.1, h.resetDue]

/-! ### The end of a cycle -/

/-- The CPU after the end of a cycle. -/
def endCpu (kind : CycleKind) (pending : Pending) (c : Cpu) : Cpu :=
  match kind with
  | .last => { c with t := 1, mode := nextMode c.mode pending }
  | _ => { c with t := c.t + 1 }

theorem endCycle_cpu (kind : CycleKind) (s : State) :
    (endCycle kind s).cpu = endCpu kind (endCycle kind s).arb.pending s.cpu := by
  cases kind <;> rfl

theorem endCycle_keeps (kind : CycleKind) (s : State) : Keeps s (endCycle kind s) := by
  cases kind <;> exact ⟨rfl, .refl _, .refl _, rfl, rfl, rfl⟩

@[simp] theorem endCpu_a (kind : CycleKind) (q : Pending) (c : Cpu) : (endCpu kind q c).a = c.a := by cases kind <;> rfl
@[simp] theorem endCpu_x (kind : CycleKind) (q : Pending) (c : Cpu) : (endCpu kind q c).x = c.x := by cases kind <;> rfl
@[simp] theorem endCpu_y (kind : CycleKind) (q : Pending) (c : Cpu) : (endCpu kind q c).y = c.y := by cases kind <;> rfl
@[simp] theorem endCpu_s (kind : CycleKind) (q : Pending) (c : Cpu) : (endCpu kind q c).s = c.s := by cases kind <;> rfl
@[simp] theorem endCpu_p (kind : CycleKind) (q : Pending) (c : Cpu) : (endCpu kind q c).p = c.p := by cases kind <;> rfl
@[simp] theorem endCpu_pc (kind : CycleKind) (q : Pending) (c : Cpu) : (endCpu kind q c).pc = c.pc := by
  cases kind <;> rfl
@[simp] theorem endCpu_adl (kind : CycleKind) (q : Pending) (c : Cpu) : (endCpu kind q c).adl = c.adl := by
  cases kind <;> rfl
@[simp] theorem endCpu_adh (kind : CycleKind) (q : Pending) (c : Cpu) : (endCpu kind q c).adh = c.adh := by
  cases kind <;> rfl
@[simp] theorem endCpu_base (kind : CycleKind) (q : Pending) (c : Cpu) : (endCpu kind q c).base = c.base := by
  cases kind <;> rfl
@[simp] theorem endCpu_data (kind : CycleKind) (q : Pending) (c : Cpu) : (endCpu kind q c).data = c.data := by
  cases kind <;> rfl
@[simp] theorem endCpu_carryFix (kind : CycleKind) (q : Pending) (c : Cpu) : (endCpu kind q c).carryFix = c.carryFix := by
  cases kind <;> rfl
@[simp] theorem endCpu_target (kind : CycleKind) (q : Pending) (c : Cpu) : (endCpu kind q c).target = c.target := by
  cases kind <;> rfl
@[simp] theorem endCpu_mode_mid (q : Pending) (c : Cpu) : (endCpu .mid q c).mode = c.mode := rfl
@[simp] theorem endCpu_mode_penult (q : Pending) (c : Cpu) : (endCpu .penult q c).mode = c.mode := rfl
@[simp] theorem endCpu_mode_last (q : Pending) (c : Cpu) : (endCpu .last q c).mode = nextMode c.mode q := rfl
@[simp] theorem endCpu_t_last (q : Pending) (c : Cpu) : (endCpu .last q c).t = 1 := rfl

/-! ### A read, an idle and a write cycle -/

/-- What a cycle that stores nothing answers: `d` was on the bus. -/
structure ReadCycle (kind : CycleKind) (upd : Byte → Cpu → Cpu) (d : Byte) (s t : State) : Prop where
  keeps : Keeps s t
  cpu : t.cpu = endCpu kind t.arb.pending (upd d s.cpu)
  bus : t.cpuBus = d
  cycle : t.cycle = s.cycle + 1

theorem cpuCyc_of_not_write {k : Nat} {s : State} (h : undisturbed (k + 1) s) (kind : CycleKind) (act : Cpu → Act)
    (upd : Byte → Cpu → Cpu) (hw : (act s.cpu).isWrite = false) :
    ReadCycle kind upd (busByte (fun s => act s.cpu) s) s (cpuCyc kind act upd s)
      ∧ undisturbed k (cpuCyc kind act upd s) := by
  have hk : Keeps s (cpuCyc kind act upd s) := by
    rw [cpuCyc, cyc_eq h]
    refine (busCycle_keeps (fun s => act s.cpu) s (by simpa using hw)).trans (Keeps.trans ?_ (endCycle_keeps _ _))
    exact ⟨rfl, .refl _, .refl _, rfl, rfl, rfl⟩
  have hc : (cpuCyc kind act upd s).cycle = s.cycle + 1 := by rw [cpuCyc, cyc_eq h]; simp
  refine ⟨⟨hk, ?_, ?_, hc⟩, h.next (by rw [hk.dma]) hk.resetAt hc⟩
  · rw [cpuCyc, cyc_eq h, endCycle_cpu]; simp
  · rw [cpuCyc, cyc_eq h]; simp

/-- A read cycle: the byte on the bus is the one RAM or mapper-0 ROM holds there. -/
theorem cpuCyc_read {k : Nat} {s : State} (h : undisturbed (k + 1) s) (kind : CycleKind) (a : Cpu → Word)
    (upd : Byte → Cpu → Cpu) :
    ∃ d, delivers (a s.cpu) s d ∧ ReadCycle kind upd d s (cpuCyc kind (fun c => .read (a c)) upd s)
      ∧ undisturbed k (cpuCyc kind (fun c => .read (a c)) upd s) := by
  have hc := cpuCyc_of_not_write h kind (fun c => .read (a c)) upd rfl
  exact ⟨_, delivers_busByte _ _ _ (by simp), hc.1, hc.2⟩

/-- What a write of `d` to a PPU port leaves alone. -/
structure PortKeeps (port : BitVec 3) (d : Byte) (p q : Ppu) (c e : Cart) : Prop where
  oam : port ≠ 4#3 → q.oam = p.oam
  palette : port ≠ 7#3 → q.palette = p.palette
  nt : port ≠ 7#3 → e.nt = c.nt
  chr : port ≠ 7#3 → e.chr = c.chr
  ctrl : q.regs.ctrl = if port = 0#3 then d else p.regs.ctrl
  mask : q.regs.mask = if port = 1#3 then d else p.regs.mask
  t : port ≠ 0#3 → port ≠ 5#3 → port ≠ 6#3 → q.regs.t = p.regs.t
  xFine : port ≠ 5#3 → q.regs.xFine = p.regs.xFine

/-- Nothing changed before or after the port write. -/
theorem PortKeeps.between {port : BitVec 3} {d : Byte} {p p' q' q : Ppu} {c c' e' e : Cart} (hp : PpuKeeps p p')
    (hc : CartKeeps c c') (h : PortKeeps port d p' q' c' e') (kp : PpuKeeps q' q) (kc : CartKeeps e' e) :
    PortKeeps port d p q c e where
  oam hn := kp.oam.trans ((h.oam hn).trans hp.oam)
  palette hn := kp.palette.trans ((h.palette hn).trans hp.palette)
  nt hn := kc.nt.trans ((h.nt hn).trans hc.nt)
  chr hn := kc.chr.trans ((h.chr hn).trans hc.chr)
  ctrl := by rw [kp.ctrl, h.ctrl, hp.ctrl]
  mask := by rw [kp.mask, h.mask, hp.mask]
  t h0 h5 h6 := kp.t.trans ((h.t h0 h5 h6).trans hp.t)
  xFine hn := kp.xFine.trans ((h.xFine hn).trans hp.xFine)

theorem Video.ppuWrite_regs (v : Video) (a : PpuAddr) (d : Byte) :
    (v.ppuWrite a d).ppu.oam = v.ppu.oam ∧ (v.ppuWrite a d).ppu.regs = v.ppu.regs := by
  unfold Video.ppuWrite
  split_ifs <;> exact ⟨rfl, rfl⟩

theorem Video.writePort_portKeeps (cfg : Config) (c : Nat) (port : BitVec 3) (d : Byte) (v : Video) :
    PortKeeps port d v.ppu (v.writePort cfg c port d).ppu v.cart (v.writePort cfg c port d).cart := by
  refine .between (Ppu.refresh_keeps 0xFF#8 d v.ppu) (.refl _) ?_ (.refl _) (.refl _)
  unfold Video.writePort
  dsimp only
  generalize hw : v.mapPpu (.refresh 0xFF#8 d) = w
  have hv : v.ppu.refresh 0xFF#8 d = w.ppu := by rw [← hw]; rfl
  have hc : v.cart = w.cart := by rw [← hw]; rfl
  rw [hv, hc]
  split_ifs with h0 h1 h2 h3 h4 h5 h6
  · subst h0; constructor <;> intros <;> first | rfl | simp_all [Video.mapPpu]
  · subst h1; constructor <;> intros <;> rfl
  · subst h2; constructor <;> intros <;> rfl
  · subst h3; constructor <;> intros <;> rfl
  · subst h4
    unfold Ppu.writeOamData
    constructor <;> intros <;> simp_all [Video.mapPpu] <;> split_ifs <;> rfl
  · subst h5
    unfold PpuRegs.writeScroll
    constructor <;> intros <;> simp_all [Video.mapPpu, Ppu.mapRegs] <;> split_ifs <;> rfl
  · subst h6
    unfold Video.writeAddr
    dsimp only
    split_ifs
    · have hd := (Video.driveA12_keeps c ((w.mapPpu (.mapRegs (.writeAddrLow d))).ppu.regs.v.getLsbD 12)
        (w.mapPpu (.mapRegs (.writeAddrLow d))))
      exact ⟨fun _ => hd.ppu.oam, fun _ => hd.ppu.palette, fun _ => hd.cart.nt, fun _ => hd.cart.chr,
        hd.ppu.ctrl, hd.ppu.mask, fun _ _ h => absurd rfl h, fun _ => hd.ppu.xFine⟩
    · constructor <;> intros <;> first | rfl | simp_all
  · have h7 : port = 7#3 := by
      have := port.isLt
      simp only [← BitVec.toNat_inj] at h0 h1 h2 h3 h4 h5 h6 ⊢
      simp at *
      omega
    subst h7
    unfold Video.writeData
    dsimp only
    split_ifs
    · exact ⟨fun _ => rfl, fun h => absurd rfl h, fun h => absurd rfl h, fun h => absurd rfl h, rfl, rfl, fun _ _ _ => rfl,
        fun _ => rfl⟩
    · exact ⟨fun _ => rfl, fun h => absurd rfl h, fun h => absurd rfl h, fun h => absurd rfl h, rfl, rfl, fun _ _ _ => rfl,
        fun _ => rfl⟩
    · obtain ⟨ho, hr⟩ := Video.ppuWrite_regs w w.ppu.regs.vramAddr d
      have hd := Video.driveA12_keeps c (w.ppu.regs.vramAddr.getLsbD 12) (w.ppuWrite w.ppu.regs.vramAddr d)
      exact ⟨fun _ => hd.ppu.oam.trans ho, fun h => absurd rfl h, fun h => absurd rfl h, fun h => absurd rfl h,
        hd.ppu.ctrl.trans (by rw [hr]; rfl), hd.ppu.mask.trans (by rw [hr]; rfl),
        fun _ _ _ => hd.ppu.t.trans (by rw [hr]), fun _ => hd.ppu.xFine.trans (by rw [hr])⟩

/-- What a cycle that writes `v` to `a` keeps. -/
structure WriteKeeps (a : Word) (v : Byte) (s t : State) : Prop where
  ram : t.ram = if target a = .ram then Memory.write s.ram (ramIndex a) v else s.ram
  prg : t.cart.prg = s.cart.prg
  kind : t.cart.kind = s.cart.kind
  prgSize : t.cart.prgSize = s.cart.prgSize
  other : target a ≠ .ppu → PpuKeeps s.ppu t.ppu ∧ CartKeeps s.cart t.cart
  port : target a = .ppu → PortKeeps (portOf a) v s.ppu t.ppu s.cart t.cart
  dma : t.dma = if target a = .oamDma then s.dma.start v else s.dma
  cfg : t.cfg = s.cfg
  resetAt : t.resetAt = s.resetAt

/-- A pattern-memory write changes pattern memory alone. -/
theorem Cart.writeChr_only (c : Cart) (a : PpuAddr) (d : Byte) : c.writeChr a d = { c with chr := (c.writeChr a d).chr } := by
  unfold Cart.writeChr
  split_ifs <;> rfl

/-- Pattern memory after a write: the byte at every address of the written cell of CHR-RAM, all else as before (20_memory.md
R120). -/
theorem Cart.readChr_writeChr (c : Cart) (a b : PpuAddr) (d : Byte) :
    (c.writeChr a d).readChr b = if c.chrIsRam = true ∧ c.chrCell b = c.chrCell a then d else c.readChr b := by
  have hc : (c.writeChr a d).chrCell b = c.chrCell b := by rw [Cart.writeChr_only]; rfl
  unfold Cart.readChr
  rw [hc]
  by_cases h : c.chrIsRam = true <;> simp [Cart.writeChr, h, Memory.read_write]

theorem Video.ppuWrite_fixed (v : Video) (a : PpuAddr) (d : Byte) :
    (v.ppuWrite a d).cart.prg = v.cart.prg ∧ (v.ppuWrite a d).cart.kind = v.cart.kind
      ∧ (v.ppuWrite a d).cart.prgSize = v.cart.prgSize := by
  unfold Video.ppuWrite
  split_ifs
  · rw [Cart.writeChr_only]; exact ⟨rfl, rfl, rfl⟩
  · exact ⟨rfl, rfl, rfl⟩
  · exact ⟨rfl, rfl, rfl⟩

theorem Video.writePort_fixed (cfg : Config) (c : Nat) (port : BitVec 3) (d : Byte) (v : Video) :
    (v.writePort cfg c port d).cart.prg = v.cart.prg ∧ (v.writePort cfg c port d).cart.kind = v.cart.kind
      ∧ (v.writePort cfg c port d).cart.prgSize = v.cart.prgSize := by
  unfold Video.writePort Video.writeAddr Video.writeData
  dsimp only
  split_ifs <;> try exact ⟨rfl, rfl, rfl⟩
  · exact ⟨(Video.driveA12_keeps _ _ _).cart.prg, (Video.driveA12_keeps _ _ _).cart.kind,
      (Video.driveA12_keeps _ _ _).cart.prgSize⟩
  · have h := Video.ppuWrite_fixed (v.mapPpu (.refresh 0xFF#8 d)) (v.mapPpu (.refresh 0xFF#8 d)).ppu.regs.vramAddr d
    exact ⟨(Video.driveA12_keeps _ _ _).cart.prg.trans h.1, (Video.driveA12_keeps _ _ _).cart.kind.trans h.2.1,
      (Video.driveA12_keeps _ _ _).cart.prgSize.trans h.2.2⟩

theorem writeEffect_keeps (a : Word) (v : Byte) (s : State) : WriteKeeps a v s (writeEffect a v s) := by
  unfold writeEffect
  split <;> rename_i h
  · exact ⟨by simp [h], rfl, rfl, rfl, fun _ => ⟨.refl _, .refl _⟩, fun e => by simp [h] at e, by simp [h], rfl, rfl⟩
  · have hp := Video.writePort_fixed s.cfg s.cycle (portOf a) v s.video
    exact ⟨by simp [h], hp.1, hp.2.1, hp.2.2, fun hn => absurd h hn,
      fun _ => Video.writePort_portKeeps s.cfg s.cycle _ v s.video, by simp [h], rfl, rfl⟩
  · exact ⟨by simp [h], rfl, rfl, rfl, fun _ => ⟨.refl _, .refl _⟩, fun e => by simp [h] at e, by simp [h], rfl, rfl⟩
  · exact ⟨by simp [h], rfl, rfl, rfl, fun _ => ⟨.refl _, .refl _⟩, fun e => by simp [h] at e, by simp [h], rfl, rfl⟩
  · exact ⟨by simp [h], rfl, rfl, rfl, fun _ => ⟨.refl _, .refl _⟩, fun e => by simp [h] at e, by simp [h], rfl, rfl⟩
  · exact ⟨by simp [h], rfl, rfl, rfl, fun _ => ⟨.refl _, .refl _⟩, fun e => by simp [h] at e, by simp [h], rfl, rfl⟩
  · exact ⟨by simp [h], rfl, rfl, rfl, fun _ => ⟨.refl _, .refl _⟩, fun e => by simp [h] at e, by simp [h], rfl, rfl⟩
  · have hw := Cart.writePrg_keeps s.cart a v
    exact ⟨by simp [h], hw.prg, hw.kind, hw.prgSize, fun _ => ⟨.refl _, hw.toCartKeeps⟩, fun e => by simp [h] at e, by simp [h], rfl, rfl⟩

/-- Nothing stored before or after a write. -/
theorem WriteKeeps.between {a : Word} {v : Byte} {s s' t' t : State} (h : Keeps s s') (k : WriteKeeps a v s' t')
    (l : Keeps t' t) : WriteKeeps a v s t :=
  ⟨by rw [l.ram, k.ram, h.ram], l.cart.prg.trans (k.prg.trans h.cart.prg), l.cart.kind.trans (k.kind.trans h.cart.kind),
    l.cart.prgSize.trans (k.prgSize.trans h.cart.prgSize),
    fun hn => ⟨h.ppu.trans ((k.other hn).1.trans l.ppu), h.cart.trans ((k.other hn).2.trans l.cart)⟩,
    fun e => .between h.ppu h.cart (k.port e) l.ppu l.cart,
    by rw [l.dma, k.dma, h.dma], l.cfg.trans (k.cfg.trans h.cfg), l.resetAt.trans (k.resetAt.trans h.resetAt)⟩

/-- What a cycle that writes answers. -/
structure WriteCycle (kind : CycleKind) (a : Word) (v : Byte) (upd : Byte → Cpu → Cpu) (s t : State) : Prop where
  keeps : WriteKeeps a v s t
  cpu : t.cpu = endCpu kind t.arb.pending (upd v s.cpu)
  bus : t.cpuBus = v
  cycle : t.cycle = s.cycle + 1

/-- A write cycle. -/
theorem cpuCyc_write {k : Nat} {s : State} (h : undisturbed (k + 1) s) (kind : CycleKind) (a : Cpu → Word)
    (v : Cpu → Byte) (upd : Byte → Cpu → Cpu) :
    WriteCycle kind (a s.cpu) (v s.cpu) upd s (cpuCyc kind (fun c => .write (a c) (v c)) upd s)
      ∧ (target (a s.cpu) ≠ .oamDma → undisturbed k (cpuCyc kind (fun c => .write (a c) (v c)) upd s)) := by
  have hk : WriteKeeps (a s.cpu) (v s.cpu) s (cpuCyc kind (fun c => .write (a c) (v c)) upd s) := by
    rw [cpuCyc, cyc_eq h]
    refine WriteKeeps.between (beforeAccess_keeps s) (writeEffect_keeps _ _ _) ?_
    have h1 : Keeps (writeEffect (a s.cpu) (v s.cpu) (beforeAccess s))
        (perform (.write (a s.cpu) (v s.cpu)) (beforeAccess s)) :=
      ⟨rfl, .refl _, .refl _, rfl, rfl, rfl⟩
    refine h1.trans ((afterAccess_keeps _).trans (Keeps.trans ?_ (endCycle_keeps _ _)))
    simp only [busCycle, beforeAccess_cpu]
    exact ⟨rfl, .refl _, .refl _, rfl, rfl, rfl⟩
  have hc : (cpuCyc kind (fun c => .write (a c) (v c)) upd s).cycle = s.cycle + 1 := by rw [cpuCyc, cyc_eq h]; simp
  refine ⟨⟨hk, ?_, ?_, hc⟩, fun hn => h.next (by rw [hk.dma]; simp [hn]) hk.resetAt hc⟩
  · rw [cpuCyc, cyc_eq h, endCycle_cpu]; simp [busByte, busValue]
  · rw [cpuCyc, cyc_eq h]; simp [busByte, busValue]

end Sys2Proof.Machine
end

