-- ==== Sys2Proof/Laws/Modes.lean ====
section
/-! SUPPORT. The addressing modes, each said once: what the cycles before the operand's access leave (`Opened`), and what a
Read, a Write and a read-modify-write of any mode answer when no DMA runs and no reset is due. -/

namespace Sys2Proof.Machine

/-- After `n` cycles of an instruction: nothing stored, registers as before, PC advanced by `len`. -/
structure Opened (n : Nat) (len : Word) (s u : State) : Prop where
  keeps : Keeps s u
  cycle : u.cycle = s.cycle + n
  a : u.cpu.a = s.cpu.a
  x : u.cpu.x = s.cpu.x
  y : u.cpu.y = s.cpu.y
  sp : u.cpu.s = s.cpu.s
  p : u.cpu.p = s.cpu.p
  mode : u.cpu.mode = s.cpu.mode
  pc : u.cpu.pc = s.cpu.pc + len

/-- A cycle whose update leaves the registers alone but for PC. -/
structure Quiet (len : Word) (upd : Byte → Cpu → Cpu) : Prop where
  a : ∀ d c, (upd d c).a = c.a
  x : ∀ d c, (upd d c).x = c.x
  y : ∀ d c, (upd d c).y = c.y
  sp : ∀ d c, (upd d c).s = c.s
  p : ∀ d c, (upd d c).p = c.p
  mode : ∀ d c, (upd d c).mode = c.mode
  pc : ∀ d c, (upd d c).pc = c.pc + len

theorem endCpu_mode {kind : CycleKind} (h : kind ≠ .last) (q : Pending) (c : Cpu) :
    (endCpu kind q c).mode = c.mode := by
  cases kind <;> first | rfl | exact absurd rfl h

theorem Opened.refl (s : State) : Opened 0 0 s s := ⟨.refl s, by simp, rfl, rfl, rfl, rfl, rfl, rfl, by simp⟩

/-- One more cycle. -/
theorem Opened.cyc {n : Nat} {len len' : Word} {s u v : State} {kind : CycleKind} {upd : Byte → Cpu → Cpu} {d : Byte}
    (h : Opened n len s u) (c : ReadCycle kind upd d u v) (hk : kind ≠ .last) (q : Quiet len' upd) :
    Opened (n + 1) (len + len') s v where
  keeps := h.keeps.trans c.keeps
  cycle := by rw [c.cycle, h.cycle]; omega
  a := by rw [c.cpu]; simp [q.a, h.a]
  x := by rw [c.cpu]; simp [q.x, h.x]
  y := by rw [c.cpu]; simp [q.y, h.y]
  sp := by rw [c.cpu]; simp [q.sp, h.sp]
  p := by rw [c.cpu]; simp [q.p, h.p]
  mode := by rw [c.cpu, endCpu_mode hk, q.mode, h.mode]
  pc := by rw [c.cpu]; simp [q.pc, h.pc, BitVec.add_assoc]

theorem quiet_fetchOp (op : Byte) : Quiet 1 fun _ c => { c with opcode := op, pc := c.pc + 1 } := by
  constructor <;> intros <;> rfl

theorem quiet_same : Quiet 0 fun _ c => c := by
  constructor <;> intros <;> simp

/-- The registers of an opened instruction. -/
theorem Opened.index {n : Nat} {len : Word} {s u : State} (h : Opened n len s u) (i : Index) : i.of u.cpu = i.of s.cpu := by
  cases i
  · exact h.x
  · exact h.y

/-- T1: the opcode fetch. -/
theorem fetchOp_spec {k : Nat} {s : State} (h : undisturbed (k + 1) s) (kind : CycleKind) (hk : kind ≠ .last) (op : Byte) :
    Opened 1 1 s (fetchOp kind op s) ∧ undisturbed k (fetchOp kind op s) := by
  obtain ⟨d, -, hc, hu⟩ := cpuCyc_read h kind (fun c => c.pc) fun _ c => { c with opcode := op, pc := c.pc + 1 }
  exact ⟨(Opened.refl s).cyc hc hk (quiet_fetchOp op), hu⟩

/-- An operand fetch. -/
theorem fetchOperand_spec {k n : Nat} {len : Word} {s u : State} (o : Opened n len s u) (h : undisturbed (k + 1) u)
    (kind : CycleKind) (hk : kind ≠ .last) (store : Cpu → Cpu) (q : Quiet 1 fun _ c => store { c with pc := c.pc + 1 }) :
    Opened (n + 1) (len + 1) s (fetchOperand kind store u) ∧ undisturbed k (fetchOperand kind store u)
      ∧ (fetchOperand kind store u).cpu
          = endCpu kind (fetchOperand kind store u).arb.pending (store { u.cpu with pc := u.cpu.pc + 1 }) := by
  obtain ⟨d, -, hc, hu⟩ := cpuCyc_read h kind (fun c => c.pc) fun _ c => store { c with pc := c.pc + 1 }
  exact ⟨o.cyc hc hk q, hu, hc.cpu⟩

/-- A read of an address that keeps the registers. -/
theorem read_spec {k n : Nat} {len : Word} {s u : State} (o : Opened n len s u) (h : undisturbed (k + 1) u)
    (kind : CycleKind) (hk : kind ≠ .last) (a : Cpu → Word) (upd : Byte → Cpu → Cpu) (q : Quiet 0 upd) :
    ∃ d, delivers (a u.cpu) s d ∧ Opened (n + 1) len s (cpuCyc kind (fun c => .read (a c)) upd u)
      ∧ undisturbed k (cpuCyc kind (fun c => .read (a c)) upd u)
      ∧ (cpuCyc kind (fun c => .read (a c)) upd u).cpu
          = endCpu kind (cpuCyc kind (fun c => .read (a c)) upd u).arb.pending (upd d u.cpu) := by
  obtain ⟨d, hd, hc, hu⟩ := cpuCyc_read h kind a upd
  exact ⟨d, (delivers_congr o.keeps).1 hd, by simpa using o.cyc hc hk q, hu, hc.cpu⟩

/-- A dummy read. -/
theorem dummyRead_spec {k n : Nat} {len : Word} {s u : State} (o : Opened n len s u) (h : undisturbed (k + 1) u)
    (kind : CycleKind) (hk : kind ≠ .last) (a : Cpu → Word) :
    Opened (n + 1) len s (dummyRead kind a u) ∧ undisturbed k (dummyRead kind a u)
      ∧ (dummyRead kind a u).cpu = endCpu kind (dummyRead kind a u).arb.pending u.cpu := by
  obtain ⟨d, -, ho, hu, hc⟩ := read_spec o h kind hk a (fun _ c => c) quiet_same
  exact ⟨ho, hu, hc⟩

/-! ### Addresses -/

theorem wordOf_toNat (hi lo : Byte) : (wordOf hi lo).toNat = hi.toNat * 256 + lo.toNat := by
  have := lo.isLt
  rw [wordOf, BitVec.toNat_append, Nat.shiftLeft_eq, Nat.mul_comm, ← Nat.two_pow_add_eq_or_of_lt (by omega)]

theorem target_of_lt {a : Word} (h : a.toNat < 0x2000) : target a = .ram := by simp [target, h]

theorem target_zeroPage (b : Byte) : target (zeroPage b) = .ram :=
  target_of_lt (by have := b.isLt; rw [zeroPage, wordOf_toNat]; simp; omega)

theorem target_stackAddr (b : Byte) : target (stackAddr b) = .ram :=
  target_of_lt (by have := b.isLt; rw [stackAddr, wordOf_toNat]; simp; omega)

/-- The byte read from page 0. -/
theorem delivers_zeroPage {b : Byte} {s : State} {d : Byte} (h : delivers (zeroPage b) s d) :
    d = ramAt s (zeroPage b) := h.1 (target_zeroPage b)

theorem loByte_toNat (w : Word) : (loByte w).toNat = w.toNat % 256 := by simp [loByte]
theorem hiByte_toNat (w : Word) : (hiByte w).toNat = w.toNat / 256 := by
  have := w.isLt
  simp [hiByte, Nat.shiftRight_eq_div_pow]; omega

@[simp] theorem wordOf_hiByte_loByte (w : Word) : wordOf (hiByte w) (loByte w) = w := by
  apply BitVec.eq_of_toNat_eq
  rw [wordOf_toNat, hiByte_toNat, loByte_toNat]; omega

@[simp] theorem hiByte_wordOf (hi lo : Byte) : hiByte (wordOf hi lo) = hi := by
  apply BitVec.eq_of_toNat_eq
  rw [hiByte_toNat, wordOf_toNat]; have := lo.isLt; omega

@[simp] theorem loByte_wordOf (hi lo : Byte) : loByte (wordOf hi lo) = lo := by
  apply BitVec.eq_of_toNat_eq
  rw [loByte_toNat, wordOf_toNat]; have := lo.isLt; omega

/-- The fixed-up indexed address is the 16-bit sum (40_addressing_modes.md R208). -/
theorem indexed_ea (hi lo i : Byte) :
    wordOf (hi + flagBit (pageCarry lo i) 1) (lo + i) = wordOf hi lo + i.setWidth 16 := by
  have := lo.isLt; have := i.isLt; have := hi.isLt
  apply BitVec.eq_of_toNat_eq
  simp only [wordOf_toNat, BitVec.toNat_add, BitVec.toNat_setWidth, pageCarry, flagBit]
  by_cases h : 255 < lo.toNat + i.toNat
  · simp [h]; omega
  · simp [h]; omega

/-- The page-cross test of an indexed address. -/
theorem indexed_cross (hi lo i : Byte) :
    pageCarry lo i = !samePage (wordOf hi lo + i.setWidth 16) (wordOf hi lo) := by
  have := lo.isLt; have := i.isLt; have := hi.isLt
  rw [← indexed_ea, samePage, hiByte_wordOf, hiByte_wordOf]
  by_cases h : 255 < lo.toNat + i.toNat
  · simp [pageCarry, h, flagBit]
  · simp [pageCarry, h, flagBit]

/-! ### Openings: the cycles before the operand's access -/

theorem openZp_spec {k : Nat} {s : State} (h : undisturbed (k + 2) s) (kind : CycleKind) (hk : kind ≠ .last) (op zp : Byte) :
    Opened 2 2 s (openZp op zp kind s) ∧ undisturbed k (openZp op zp kind s) ∧ (openZp op zp kind s).cpu.adl = zp := by
  obtain ⟨o1, h1⟩ := fetchOp_spec (k := k + 1) h .mid (by simp) op
  obtain ⟨o2, h2, hc⟩ := fetchOperand_spec o1 h1 kind hk (fun c => { c with adl := zp })
    (by constructor <;> intros <;> rfl)
  exact ⟨o2, h2, by rw [openZp, hc]; simp⟩

theorem openZpIndexed_spec {k : Nat} {s : State} (h : undisturbed (k + 3) s) (kind : CycleKind) (hk : kind ≠ .last)
    (op zp : Byte) :
    Opened 3 2 s (openZpIndexed op zp kind s) ∧ undisturbed k (openZpIndexed op zp kind s)
      ∧ (openZpIndexed op zp kind s).cpu.base = zp := by
  obtain ⟨o1, h1⟩ := fetchOp_spec (k := k + 2) h .mid (by simp) op
  obtain ⟨o2, h2, hc2⟩ := fetchOperand_spec (k := k + 1) o1 h1 .mid (by simp) (fun c => { c with base := zp })
    (by constructor <;> intros <;> rfl)
  obtain ⟨o3, h3, hc3⟩ := dummyRead_spec o2 h2 kind hk fun c => zeroPage c.base
  exact ⟨o3, h3, by rw [openZpIndexed, hc3, hc2]; simp⟩

theorem openAbs_spec {k : Nat} {s : State} (h : undisturbed (k + 3) s) (kind : CycleKind) (hk : kind ≠ .last) (op : Byte)
    (addr : Word) :
    Opened 3 3 s (openAbs op addr kind s) ∧ undisturbed k (openAbs op addr kind s)
      ∧ (openAbs op addr kind s).cpu.adl = loByte addr ∧ (openAbs op addr kind s).cpu.adh = hiByte addr := by
  obtain ⟨o1, h1⟩ := fetchOp_spec (k := k + 2) h .mid (by simp) op
  obtain ⟨o2, h2, hc2⟩ := fetchOperand_spec (k := k + 1) o1 h1 .mid (by simp) (fun c => { c with adl := loByte addr })
    (by constructor <;> intros <;> rfl)
  obtain ⟨o3, h3, hc3⟩ := fetchOperand_spec (k := k) o2 h2 kind hk (fun c => { c with adh := hiByte addr })
    (by constructor <;> intros <;> rfl)
  exact ⟨o3, h3, by rw [openAbs, hc3, hc2]; simp, by rw [openAbs, hc3]; simp⟩

theorem openAbsIndexed_spec {k : Nat} {s : State} (h : undisturbed (k + 3) s) (i : Index) (op : Byte) (addr : Word)
    (kind : Bool → CycleKind) (hk : ∀ b, kind b ≠ .last) :
    Opened 3 3 s (openAbsIndexed i op addr kind s) ∧ undisturbed k (openAbsIndexed i op addr kind s)
      ∧ (openAbsIndexed i op addr kind s).cpu.adl = loByte addr ∧ (openAbsIndexed i op addr kind s).cpu.adh = hiByte addr
      ∧ (openAbsIndexed i op addr kind s).cpu.carryFix = pageCarry (loByte addr) (i.of s.cpu) := by
  obtain ⟨o1, h1⟩ := fetchOp_spec (k := k + 2) h .mid (by simp) op
  obtain ⟨o2, h2, hc2⟩ := fetchOperand_spec (k := k + 1) o1 h1 .mid (by simp) (fun c => { c with adl := loByte addr })
    (by constructor <;> intros <;> rfl)
  obtain ⟨o3, h3, hc3⟩ := fetchOperand_spec (k := k) o2 h2 (kind _) (hk _)
    (fun c => { c with adh := hiByte addr, carryFix :=
      (pageCarry (fetchOperand .mid (fun c => { c with adl := loByte addr }) (fetchOp .mid op s)).cpu.adl
        (i.of (fetchOperand .mid (fun c => { c with adl := loByte addr }) (fetchOp .mid op s)).cpu)) })
    (by constructor <;> intros <;> rfl)
  refine ⟨o3, h3, by rw [openAbsIndexed, hc3, hc2]; simp, by rw [openAbsIndexed, hc3]; simp, ?_⟩
  rw [openAbsIndexed, hc3]
  simp only [endCpu_carryFix, o2.index]
  rw [hc2]; simp

theorem openIzx_spec {k : Nat} {s : State} (h : undisturbed (k + 5) s) (kind : CycleKind) (hk : kind ≠ .last) (op zp : Byte) :
    Opened 5 2 s (openIzx op zp kind s) ∧ undisturbed k (openIzx op zp kind s)
      ∧ (openIzx op zp kind s).cpu.adl = ramAt s (zeroPage (zp + s.cpu.x))
      ∧ (openIzx op zp kind s).cpu.adh = ramAt s (zeroPage (zp + s.cpu.x + 1)) := by
  obtain ⟨o1, h1⟩ := fetchOp_spec (k := k + 4) h .mid (by simp) op
  obtain ⟨o2, h2, hc2⟩ := fetchOperand_spec (k := k + 3) o1 h1 .mid (by simp) (fun c => { c with base := zp })
    (by constructor <;> intros <;> rfl)
  obtain ⟨o3, h3, hc3⟩ := dummyRead_spec (k := k + 2) o2 h2 .mid (by simp) fun c => zeroPage c.base
  obtain ⟨d4, hd4, o4, h4, hc4⟩ := read_spec (k := k + 1) o3 h3 .mid (by simp) (fun c => zeroPage (c.base + c.x))
    (fun d c => { c with adl := d }) (by constructor <;> intros <;> simp)
  obtain ⟨d5, hd5, o5, h5, hc5⟩ := read_spec (k := k) o4 h4 kind hk (fun c => zeroPage (c.base + c.x + 1))
    (fun d c => { c with adh := d }) (by constructor <;> intros <;> simp)
  have b3 : (dummyRead .mid (fun c => zeroPage c.base)
      (fetchOperand .mid (fun c => { c with base := zp }) (fetchOp .mid op s))).cpu.base = zp := by rw [hc3, hc2]; simp
  have e4 := delivers_zeroPage hd4
  have e5 := delivers_zeroPage hd5
  rw [o4.x, hc4] at e5
  rw [o3.x, b3] at e4
  simp only [endCpu_base, b3] at e5
  exact ⟨o5, h5, by rw [openIzx, hc5, hc4]; simpa using e4, by rw [openIzx, hc5]; simpa using e5⟩

theorem openIzy_spec {k : Nat} {s : State} (h : undisturbed (k + 4) s) (kind : Bool → CycleKind)
    (hk : ∀ b, kind b ≠ .last) (op zp : Byte) :
    Opened 4 2 s (openIzy op zp kind s) ∧ undisturbed k (openIzy op zp kind s)
      ∧ (openIzy op zp kind s).cpu.adl = ramAt s (zeroPage zp)
      ∧ (openIzy op zp kind s).cpu.adh = ramAt s (zeroPage (zp + 1))
      ∧ (openIzy op zp kind s).cpu.carryFix = pageCarry (ramAt s (zeroPage zp)) s.cpu.y := by
  obtain ⟨o1, h1⟩ := fetchOp_spec (k := k + 3) h .mid (by simp) op
  obtain ⟨o2, h2, hc2⟩ := fetchOperand_spec (k := k + 2) o1 h1 .mid (by simp) (fun c => { c with base := zp })
    (by constructor <;> intros <;> rfl)
  obtain ⟨d3, hd3, o3, h3, hc3⟩ := read_spec (k := k + 1) o2 h2 .mid (by simp) (fun c => zeroPage c.base)
    (fun d c => { c with adl := d }) (by constructor <;> intros <;> simp)
  have b2 : (fetchOperand .mid (fun c => { c with base := zp }) (fetchOp .mid op s)).cpu.base = zp := by rw [hc2]; simp
  have e3 := delivers_zeroPage hd3
  rw [b2] at e3
  obtain ⟨d4, hd4, o4, h4, hc4⟩ := read_spec (k := k) o3 h3 (kind _) (hk _) (fun c => zeroPage (c.base + 1))
    (fun d c => { c with adh := d, carryFix :=
      (pageCarry (cpuCyc .mid (fun c => .read (zeroPage c.base)) (fun d c => { c with adl := d })
          (fetchOperand .mid (fun c => { c with base := zp }) (fetchOp .mid op s))).cpu.adl
        (cpuCyc .mid (fun c => .read (zeroPage c.base)) (fun d c => { c with adl := d })
          (fetchOperand .mid (fun c => { c with base := zp }) (fetchOp .mid op s))).cpu.y) })
    (by constructor <;> intros <;> simp)
  have e4 := delivers_zeroPage hd4
  rw [hc3] at e4
  simp only [endCpu_base, b2] at e4
  refine ⟨o4, h4, by rw [openIzy, hc4, hc3]; simpa using e3, by rw [openIzy, hc4]; simpa using e4, ?_⟩
  rw [openIzy, hc4]
  simp only [endCpu_carryFix, o3.y]
  rw [hc3]; simp [e3]

end Sys2Proof.Machine
end

