-- ==== Sys2Proof/Laws/Tags.lean ====
section
/-! SUPPORT. The operation tags over every addressing mode: what a Read, a Write and a read-modify-write instruction answers
when no DMA runs and no reset is due. -/

namespace Sys2Proof.Machine

/-- A CPU whose registers are those of `s`, PC advanced by `len`. -/
structure SameRegs (len : Word) (s : State) (c : Cpu) : Prop where
  a : c.a = s.cpu.a
  x : c.x = s.cpu.x
  y : c.y = s.cpu.y
  sp : c.s = s.cpu.s
  p : c.p = s.cpu.p
  mode : c.mode = s.cpu.mode
  pc : c.pc = s.cpu.pc + len

theorem Opened.sameRegs {n : Nat} {len : Word} {s u : State} (o : Opened n len s u) (d : Byte) :
    SameRegs len s { u.cpu with data := d } :=
  ⟨o.a, o.x, o.y, o.sp, o.p, o.mode, o.pc⟩

theorem Opened.sameRegs' {n : Nat} {len : Word} {s u : State} (o : Opened n len s u) : SameRegs len s u.cpu :=
  ⟨o.a, o.x, o.y, o.sp, o.p, o.mode, o.pc⟩

/-! ### Stores, seen through reads -/

theorem Keeps.storage {s t : State} (h : Keeps s t) : storageKept s t := fun a =>
  ⟨by rw [h.ppu.oam], by rw [h.ppu.palette], by rw [h.cart.nt], by rw [h.cart.chr], by rw [h.cart.prg]⟩

theorem Keeps.storesNothing {s t : State} (h : Keeps s t) : storesNothing s t :=
  ⟨fun a => by rw [h.ram], h.storage, h.cfg, h.resetAt, h.dma, h.ppu.ctrl, h.ppu.mask, h.ppu.t, h.ppu.xFine⟩

theorem storageKept.trans {s t u : State} (h : storageKept s t) (k : storageKept t u) : storageKept s u := fun a =>
  ⟨(k a).1.trans (h a).1, (k a).2.1.trans (h a).2.1, (k a).2.2.1.trans (h a).2.2.1,
    (k a).2.2.2.1.trans (h a).2.2.2.1, (k a).2.2.2.2.trans (h a).2.2.2.2⟩

theorem storageKept.congr {s t s' : State} (h : Keeps s s') (k : storageKept s' t) : storageKept s t :=
  h.storage.trans k

theorem onPort_eq {a : Word} (h : target a = .ppu) (k : BitVec 3) : onPort a k = decide (portOf a = k) := by
  simp [onPort, h]

theorem WriteKeeps.stores {a : Word} {v : Byte} {s t : State} (h : WriteKeeps a v s t) : stores a v s t := by
  refine ⟨fun b => ?_, fun b => by rw [h.prg], h.cfg, h.resetAt, h.dma, ?_⟩
  · rw [h.ram]
    by_cases ht : target a = .ram <;> simp [ht, Memory.read_write]
  · by_cases hn : target a = .ppu
    · have k := h.port hn
      simp only [onPort_eq hn, decide_eq_false_iff_not, decide_eq_true_eq, Bool.or_eq_false_iff]
      exact ⟨fun e b => by rw [k.oam e], fun e b => ⟨by rw [k.palette e], by rw [k.nt e], by rw [k.chr e]⟩, k.ctrl, k.mask,
        fun e => k.t e.1.1 e.1.2 e.2, k.xFine⟩
    · obtain ⟨hp, hc⟩ := h.other hn
      simp only [onPort, hn, decide_false, Bool.false_and, Bool.false_eq_true, if_false]
      exact ⟨fun _ b => by rw [hp.oam], fun _ b => ⟨by rw [hp.palette], by rw [hc.nt], by rw [hc.chr]⟩, hp.ctrl, hp.mask,
        fun _ => hp.t, fun _ => hp.xFine⟩

/-- A store after cycles that store nothing. -/
theorem stores.after {a : Word} {v : Byte} {s u t : State} (h : Keeps s u) (k : stores a v u t) : stores a v s t := by
  obtain ⟨k1, k2, k3, k4, k5, k6, k7, k8, k9, k10, k11⟩ := k
  exact ⟨fun b => by rw [k1, h.ram], fun b => by rw [k2, h.cart.prg], k3.trans h.cfg, k4.trans h.resetAt,
    by rw [k5, h.dma], fun e b => by rw [k6 e, h.ppu.oam],
    fun e b => by rw [(k7 e b).1, (k7 e b).2.1, (k7 e b).2.2, h.ppu.palette, h.cart.nt, h.cart.chr]; exact ⟨rfl, rfl, rfl⟩,
    by rw [k8, h.ppu.ctrl], by rw [k9, h.ppu.mask], fun e => (k10 e).trans h.ppu.t, fun e => (k11 e).trans h.ppu.xFine⟩

/-- The second of two stores to one address. -/
theorem stores.again {a : Word} {v w : Byte} {s u t : State} (h : stores a v s u) (k : stores a w u t)
    (hd : target a ≠ .oamDma) : stores a w s t := by
  obtain ⟨h1, h2, h3, h4, h5, h6, h7, h8, h9, h10, h11⟩ := h
  obtain ⟨k1, k2, k3, k4, k5, k6, k7, k8, k9, k10, k11⟩ := k
  refine ⟨fun b => ?_, fun b => (k2 b).trans (h2 b), k3.trans h3, k4.trans h4, ?_, fun e b => (k6 e b).trans (h6 e b),
    fun e b => ⟨(k7 e b).1.trans (h7 e b).1, (k7 e b).2.1.trans (h7 e b).2.1, (k7 e b).2.2.trans (h7 e b).2.2⟩, ?_, ?_,
    fun e => (k10 e).trans (h10 e), fun e => (k11 e).trans (h11 e)⟩
  · rw [k1, h1]; split_ifs <;> rfl
  · rw [k5, h5]; simp [hd]
  · rw [k8, h8]; split_ifs <;> rfl
  · rw [k9, h9]; split_ifs <;> rfl

/-! ### Last cycles -/

theorem readTail_spec {n : Nat} {len : Word} {s u : State} (o : Opened n len s u) (h : undisturbed 1 u) (ea : Cpu → Word)
    (f : Byte → Cpu → Cpu) :
    ∃ d c, delivers (ea u.cpu) s d ∧ (readTail ea f u).cpuBus = d ∧ Keeps s (readTail ea f u)
      ∧ (readTail ea f u).cycle = s.cycle + (n + 1) ∧ SameRegs len s c
      ∧ (readTail ea f u).cpu = endCpu .last (readTail ea f u).arb.pending (f d c) := by
  obtain ⟨d, hd, hc, -⟩ := cpuCyc_read (k := 0) h .last ea fun d c => f d { c with data := d }
  exact ⟨d, _, (delivers_congr o.keeps).1 hd, hc.bus, o.keeps.trans hc.keeps, by rw [readTail, hc.cycle, o.cycle]; omega,
    o.sameRegs d, hc.cpu⟩

theorem writeTail_spec {n : Nat} {len : Word} {s u : State} (o : Opened n len s u) (h : undisturbed 1 u) (ea : Cpu → Word)
    (v : Cpu → Byte) :
    stores (ea u.cpu) (v u.cpu) s (writeTail ea v u) ∧ (writeTail ea v u).cycle = s.cycle + (n + 1)
      ∧ (writeTail ea v u).cpuBus = v u.cpu
      ∧ (writeTail ea v u).cpu = endCpu .last (writeTail ea v u).arb.pending u.cpu := by
  obtain ⟨hc, -⟩ := cpuCyc_write (k := 0) h .last ea v fun _ c => c
  exact ⟨hc.keeps.stores.after o.keeps, by rw [writeTail, hc.cycle, o.cycle]; omega, hc.bus, hc.cpu⟩

/-- An effective address does not depend on the data latch. -/
def IgnoresData (ea : Cpu → Word) : Prop := ∀ c t d, ea { c with t := t, data := d } = ea c

theorem rmwTail_spec {n : Nat} {len : Word} {s u : State} (o : Opened n len s u) (h : undisturbed 3 u) (ea : Cpu → Word)
    (hea : IgnoresData ea) (op : Byte → Cpu → Byte × Cpu) (hd : target (ea u.cpu) ≠ .oamDma) :
    ∃ m c c', delivers (ea u.cpu) s m ∧ stores (ea u.cpu) (op m c).1 s (rmwTail ea op u)
      ∧ (rmwTail ea op u).cycle = s.cycle + (n + 3) ∧ (rmwTail ea op u).cpuBus = (op m c).1
      ∧ SameRegs len s c ∧ SameRegs len s c'
      ∧ (rmwTail ea op u).cpu = endCpu .last (rmwTail ea op u).arb.pending (op m c').2
      ∧ (readData .mid ea u).cpu.data = m := by
  obtain ⟨m, hm, o1, h1, hc1⟩ := read_spec (k := 2) o h .mid (by simp) ea (fun d c => { c with data := d })
    (by constructor <;> intros <;> simp)
  have hdata : (readData .mid ea u).cpu.data = m := by rw [readData, hc1]; rfl
  have ea1 : ea (readData .mid ea u).cpu = ea u.cpu := by rw [readData, hc1]; exact hea u.cpu _ _
  obtain ⟨hw, h2⟩ := cpuCyc_write (k := 1) (s := readData .mid ea u) h1 .penult ea (fun c => c.data)
    fun _ c => { c with data := (op m c).1 }
  have h2' := h2 (by rw [ea1]; exact hd)
  have ea2 : ea (cpuCyc .penult (fun c => .write (ea c) c.data) (fun _ c => { c with data := (op m c).1 })
      (readData .mid ea u)).cpu = ea u.cpu := by
    rw [hw.cpu, ← ea1]; exact hea (readData .mid ea u).cpu _ _
  obtain ⟨hl, -⟩ := cpuCyc_write (k := 0) h2' .last ea (fun c => c.data) fun _ c => (op m c).2
  have hs1 := hw.keeps.stores.after o1.keeps
  rw [ea1] at hs1
  have hs2 := hl.keeps.stores
  have hdata2 : (cpuCyc .penult (fun c => .write (ea c) c.data) (fun _ c => { c with data := (op m c).1 })
      (readData .mid ea u)).cpu.data = (op m (readData .mid ea u).cpu).1 := by rw [hw.cpu]; rfl
  rw [ea2, hdata2] at hs2
  have e : rmwTail ea op u = cpuCyc .last (fun c => .write (ea c) c.data) (fun _ c => (op m c).2)
      (cpuCyc .penult (fun c => .write (ea c) c.data) (fun _ c => { c with data := (op m c).1 }) (readData .mid ea u)) := by
    rw [rmwTail, hdata]
  refine ⟨m, (readData .mid ea u).cpu, (cpuCyc .penult (fun c => .write (ea c) c.data)
    (fun _ c => { c with data := (op m c).1 }) (readData .mid ea u)).cpu, hm, ?_, ?_, ?_, o1.sameRegs', ?_, ?_, hdata⟩
  · rw [e]; exact hs1.again hs2 hd
  · rw [e, hl.cycle, hw.cycle, readData, o1.cycle]; omega
  · rw [e, hl.bus]; exact hdata2
  · rw [hw.cpu]
    exact ⟨o1.a, o1.x, o1.y, o1.sp, o1.p, o1.mode, o1.pc⟩
  · rw [e]; exact hl.cpu

end Sys2Proof.Machine
end

