-- ==== Sys2Proof/Laws/Control.lean ====
section
/-! SUPPORT. Operand-less instructions, branches, jumps, the stack, and the interrupt and reset sequences, each said once for
a machine whose DMA does not run and whose host asserts no reset meanwhile. -/

namespace Sys2Proof.Machine

/-! ### Operand-less instructions and branches -/

theorem implied_spec {s : State} (h : undisturbed 2 s) (op : Byte) (f : Cpu → Cpu) :
    ∃ c, Keeps s (implied op f s) ∧ (implied op f s).cycle = s.cycle + 2 ∧ SameRegs 1 s c
      ∧ (implied op f s).cpu = endCpu .last (implied op f s).arb.pending (f c) := by
  obtain ⟨o1, h1⟩ := fetchOp_spec (k := 1) h .penult (by simp) op
  obtain ⟨d, -, hc, -⟩ := cpuCyc_read (k := 0) h1 .last (fun c => c.pc) fun _ c => f c
  exact ⟨(fetchOp .penult op s).cpu, o1.keeps.trans hc.keeps, hc.cycle.trans (by rw [o1.cycle]), o1.sameRegs', hc.cpu⟩

/-- A last cycle that keeps the mode ends the instruction. -/
theorem ended_of_cpu {s t : State} {c : Cpu} (h : t.cpu = endCpu .last t.arb.pending c) (hm : c.mode = s.cpu.mode) :
    ended s t := by
  rw [ended, h]; simp [hm]

/-- What a branch answers: registers and memory as before, PC at `pc` after `n` cycles. -/
structure Jumped (pc : Word) (n : Nat) (s t : State) : Prop where
  keeps : Keeps s t
  cycle : t.cycle = s.cycle + n
  regs : regs t.cpu = regs { s.cpu with pc := pc }
  ended : ended s t

theorem jumped_of_last {n : Nat} {len pc : Word} {s u t : State} {d : Byte} {upd : Byte → Cpu → Cpu}
    (o : Opened n len s u) (c : ReadCycle .last upd d u t) (h : regs (upd d u.cpu) = regs { u.cpu with pc := pc })
    (hm : (upd d u.cpu).mode = u.cpu.mode) : Jumped pc (n + 1) s t := by
  simp only [regs, Prod.mk.injEq] at h
  refine ⟨o.keeps.trans c.keeps, by rw [c.cycle, o.cycle]; omega, ?_, ?_⟩
  · rw [c.cpu]; simp [regs, h, o.a, o.x, o.y, o.sp, o.p]
  · rw [ended, c.cpu]; simp [hm, o.mode]

theorem cpuCyc_idle {k : Nat} {s : State} (h : undisturbed (k + 1) s) (kind : CycleKind) (upd : Byte → Cpu → Cpu) :
    ∃ d, ReadCycle kind upd d s (cpuCyc kind (fun _ => .idle) upd s)
      ∧ undisturbed k (cpuCyc kind (fun _ => .idle) upd s) :=
  ⟨_, cpuCyc_of_not_write h kind (fun _ => .idle) upd rfl⟩

theorem relative_spec {s : State} (h : undisturbed 4 s) (op off : Byte) (taken : Flags → Bool) :
    Jumped (if taken s.cpu.p then s.cpu.pc + 2 + sext8 off else s.cpu.pc + 2)
      (2 + if taken s.cpu.p then (if samePage (s.cpu.pc + 2 + sext8 off) (s.cpu.pc + 2) then 1 else 2) else 0)
      s (relative op off taken s) := by
  by_cases hg : taken s.cpu.p = true
  · obtain ⟨o1, h1⟩ := fetchOp_spec (k := 3) h .mid (by simp) op
    have epc : (fetchOp .mid op s).cpu.pc + 1#16 = s.cpu.pc + 2#16 := by rw [o1.pc]; simp [BitVec.add_assoc]
    cases hx : samePage (s.cpu.pc + 2#16 + sext8 off) (s.cpu.pc + 2#16)
    · obtain ⟨o2, h2, hc2⟩ := fetchOperand_spec (k := 2) o1 h1 .mid (by simp) (fun c => { c with data := off })
        (by constructor <;> intros <;> rfl)
      obtain ⟨d3, hc3, h3⟩ := cpuCyc_idle (k := 1) h2 .penult fun _ c => { c with target := s.cpu.pc + 2 + sext8 off }
      obtain ⟨d, hc, -⟩ := cpuCyc_idle (k := 0) h3 .last fun _ c => { c with pc := c.target }
      have := jumped_of_last (pc := s.cpu.pc + 2 + sext8 off)
        (o2.cyc (len' := 0) hc3 (by simp) (by constructor <;> intros <;> simp)) hc (by rw [hc3.cpu]; rfl) rfl
      simpa [relative, hg, epc, branchTarget, hx, branchT1, branchT2] using this
    · obtain ⟨o2, h2, hc2⟩ := fetchOperand_spec (k := 2) o1 h1 .penult (by simp) (fun c => { c with data := off })
        (by constructor <;> intros <;> rfl)
      obtain ⟨d, hc, -⟩ := cpuCyc_idle (k := 1) h2 .last
        fun _ c => { c with target := s.cpu.pc + 2 + sext8 off, pc := s.cpu.pc + 2 + sext8 off }
      have := jumped_of_last (pc := s.cpu.pc + 2 + sext8 off) o2 hc rfl rfl
      simpa [relative, hg, epc, branchTarget, hx, branchT1, branchT2] using this
  · obtain ⟨o1, h1⟩ := fetchOp_spec (k := 3) h .penult (by simp) op
    obtain ⟨d, -, hc, -⟩ := cpuCyc_read (k := 2) h1 .last (fun c => c.pc)
      fun _ c => { { c with pc := c.pc + 1 } with data := off }
    have := jumped_of_last (pc := s.cpu.pc + 2) o1 hc (by simp [regs, o1.pc, BitVec.add_assoc]) rfl
    simpa [relative, hg, branchT1, branchT2, fetchOperand, show atPc = fun c => Act.read c.pc from rfl] using this

theorem jumpAbs_spec {s : State} (h : undisturbed 3 s) (op : Byte) (addr : Word) : Jumped addr 3 s (jumpAbs op addr s) := by
  obtain ⟨o1, h1⟩ := fetchOp_spec (k := 2) h .mid (by simp) op
  obtain ⟨o2, h2, hc2⟩ := fetchOperand_spec (k := 1) o1 h1 .penult (by simp) (fun c => { c with adl := loByte addr })
    (by constructor <;> intros <;> rfl)
  obtain ⟨d, -, hc, -⟩ := cpuCyc_read (k := 0) h2 .last (fun c => c.pc)
    fun _ c => { c with adh := hiByte addr, pc := wordOf (hiByte addr) c.adl }
  exact jumped_of_last (pc := addr) o2 hc (by rw [hc2]; simp [regs]) rfl

theorem jumpInd_spec {s : State} (h : undisturbed 5 s) (op : Byte) (ptr : Word) :
    ∃ lo hi, delivers ptr s lo ∧ delivers (wordOf (hiByte ptr) (loByte ptr + 1)) s hi
      ∧ Jumped (wordOf hi lo) 5 s (jumpInd op ptr s) := by
  obtain ⟨o1, h1, e1, e2⟩ := openAbs_spec (k := 2) h .mid (by simp) op ptr
  obtain ⟨lo, hlo, o2, h2, hc2⟩ := read_spec (k := 1) o1 h1 .penult (by simp) eaAbs (fun d c => { c with data := d })
    (by constructor <;> intros <;> simp)
  obtain ⟨hi, hhi, hc, -⟩ := cpuCyc_read (k := 0) h2 .last (fun c => wordOf c.adh (c.adl + 1))
    fun d c => { c with pc := wordOf d c.data }
  refine ⟨lo, hi, ?_, ?_, ?_⟩
  · rwa [eaAbs, e1, e2, wordOf_hiByte_loByte] at hlo
  · have := (delivers_congr o2.keeps).1 hhi
    rw [hc2] at this
    simpa [e1, e2] using this
  · exact jumped_of_last (pc := wordOf hi lo) o2 hc (by rw [hc2]; simp [regs]) rfl

/-! ### The stack -/

/-- What a cycle that writes only to internal RAM keeps. -/
structure KeepsButRam (s t : State) : Prop where
  ppu : PpuKeeps s.ppu t.ppu
  cart : CartKeeps s.cart t.cart
  dma : t.dma = s.dma
  cfg : t.cfg = s.cfg
  resetAt : t.resetAt = s.resetAt

theorem Keeps.butRam {s t : State} (h : Keeps s t) : KeepsButRam s t := ⟨h.ppu, h.cart, h.dma, h.cfg, h.resetAt⟩

theorem KeepsButRam.trans {s t u : State} (h : KeepsButRam s t) (k : KeepsButRam t u) : KeepsButRam s u :=
  ⟨h.ppu.trans k.ppu, h.cart.trans k.cart, k.dma.trans h.dma, k.cfg.trans h.cfg, k.resetAt.trans h.resetAt⟩

/-- After `n` cycles: `bytes` pushed and nothing else stored; the registers other than S and PC as before. -/
structure Pushed (n : Nat) (len : Word) (bytes : List Byte) (s u : State) : Prop where
  ram : u.ram = pushedOn s.cpu.s bytes s.ram
  keeps : KeepsButRam s u
  cycle : u.cycle = s.cycle + n
  a : u.cpu.a = s.cpu.a
  x : u.cpu.x = s.cpu.x
  y : u.cpu.y = s.cpu.y
  sp : u.cpu.s = s.cpu.s - BitVec.ofNat 8 bytes.length
  p : u.cpu.p = s.cpu.p
  mode : u.cpu.mode = s.cpu.mode
  pc : u.cpu.pc = s.cpu.pc + len

theorem Opened.pushed {n : Nat} {len : Word} {s u : State} (o : Opened n len s u) : Pushed n len [] s u :=
  ⟨o.keeps.ram, o.keeps.butRam, o.cycle, o.a, o.x, o.y, by simp [o.sp], o.p, o.mode, o.pc⟩

theorem pushedOn_append (bytes : List Byte) (d : Byte) (sp : Byte) (m : Memory) :
    pushedOn sp (bytes ++ [d]) m
      = Memory.write (pushedOn sp bytes m) (ramIndex (stackAddr (sp - BitVec.ofNat 8 bytes.length))) d := by
  induction bytes generalizing sp m with
  | nil => simp [pushedOn]
  | cons b rest ih =>
    simp only [List.cons_append, pushedOn, ih]
    congr 3
    simp only [List.length_cons, BitVec.ofNat_add]
    simp [BitVec.sub_sub, BitVec.add_comm]

theorem Pushed.pushes {n : Nat} {len : Word} {bytes : List Byte} {s u : State} (h : Pushed n len bytes s u) :
    pushes bytes s u :=
  ⟨fun a => by rw [h.ram], fun a => ⟨by rw [h.keeps.ppu.oam], by rw [h.keeps.ppu.palette], by rw [h.keeps.cart.nt],
    by rw [h.keeps.cart.chr], by rw [h.keeps.cart.prg]⟩, h.keeps.cfg, h.keeps.resetAt, h.keeps.dma, h.keeps.ppu.ctrl,
    h.keeps.ppu.mask, h.keeps.ppu.t, h.keeps.ppu.xFine⟩

theorem push_cycle {k : Nat} {u : State} (h : undisturbed (k + 1) u) (kind : CycleKind) (value : Cpu → Byte) :
    (push kind value u).ram = Memory.write u.ram (ramIndex (stackAddr u.cpu.s)) (value u.cpu)
      ∧ KeepsButRam u (push kind value u) ∧ (push kind value u).cycle = u.cycle + 1
      ∧ (push kind value u).cpu = endCpu kind (push kind value u).arb.pending { u.cpu with s := u.cpu.s - 1 }
      ∧ undisturbed k (push kind value u) := by
  obtain ⟨hc, hu⟩ := cpuCyc_write h kind (fun c => stackAddr c.s) value fun _ c => { c with s := c.s - 1 }
  have ht := target_stackAddr u.cpu.s
  obtain ⟨hp, hk⟩ := hc.keeps.other (by rw [ht]; simp)
  refine ⟨by rw [push, hc.keeps.ram]; simp [ht], ⟨hp, hk, by rw [push, hc.keeps.dma]; simp [ht], hc.keeps.cfg,
    hc.keeps.resetAt⟩, hc.cycle, hc.cpu, hu (by rw [ht]; simp)⟩

/-- One more push. -/
theorem Pushed.push {k n : Nat} {len : Word} {bytes : List Byte} {s u : State} (o : Pushed n len bytes s u)
    (h : undisturbed (k + 1) u) (kind : CycleKind) (hk : kind ≠ .last) (value : Cpu → Byte) :
    Pushed (n + 1) len (bytes ++ [value u.cpu]) s (push kind value u) ∧ undisturbed k (Machine.push kind value u)
      ∧ (Machine.push kind value u).cpu
          = endCpu kind (Machine.push kind value u).arb.pending { u.cpu with s := u.cpu.s - 1 } := by
  obtain ⟨h1, h2, h3, h4, h5⟩ := push_cycle h kind value
  refine ⟨⟨?_, o.keeps.trans h2, by rw [h3, o.cycle]; omega, ?_, ?_, ?_, ?_, ?_, ?_, ?_⟩, h5, h4⟩
  · rw [h1, o.ram, o.sp, pushedOn_append]
  · rw [h4]; simp [o.a]
  · rw [h4]; simp [o.x]
  · rw [h4]; simp [o.y]
  · rw [h4]; simp [o.sp, BitVec.sub_sub, BitVec.ofNat_add]
  · rw [h4]; simp [o.p]
  · rw [h4, endCpu_mode hk, o.mode]
  · rw [h4]; simp [o.pc]

/-- The byte a stack read delivers. -/
theorem delivers_stackAddr {b : Byte} {s : State} {d : Byte} (h : delivers (stackAddr b) s d) : d = ramAt s (stackAddr b) :=
  h.1 (target_stackAddr b)

theorem dummyPc_spec {k n : Nat} {len : Word} {s u : State} (o : Opened n len s u) (h : undisturbed (k + 1) u)
    (kind : CycleKind) (hk : kind ≠ .last) :
    Opened (n + 1) len s (dummyPc kind u) ∧ undisturbed k (dummyPc kind u) := by
  obtain ⟨h1, h2, -⟩ := dummyRead_spec o h kind hk fun c => c.pc
  exact ⟨h1, h2⟩

/-- PHA and PHP. -/
theorem pushReg_spec {s : State} (h : undisturbed 3 s) (op : Byte) (value : Cpu → Byte) :
    ∃ c, SameRegs 1 s c ∧ pushes [value c] s (pushReg op value s) ∧ (pushReg op value s).cycle = s.cycle + 3
      ∧ regs (pushReg op value s).cpu = regs { s.cpu with s := s.cpu.s - 1, pc := s.cpu.pc + 1 }
      ∧ ended s (pushReg op value s) := by
  obtain ⟨o1, h1⟩ := fetchOp_spec (k := 2) h .mid (by simp) op
  obtain ⟨o2, h2⟩ := dummyPc_spec (k := 1) o1 h1 .penult (by simp)
  obtain ⟨e1, e2, e3, e4, -⟩ := push_cycle (k := 0) h2 .last value
  refine ⟨(dummyPc .penult (fetchOp .mid op s)).cpu, o2.sameRegs', ?_, ?_, ?_, ?_⟩
  · have k := o2.keeps.butRam.trans e2
    refine ⟨fun a => ?_, fun a => ⟨by rw [pushReg, k.ppu.oam], by rw [pushReg, k.ppu.palette], by rw [pushReg, k.cart.nt],
      by rw [pushReg, k.cart.chr], by rw [pushReg, k.cart.prg]⟩, k.cfg, k.resetAt, k.dma, k.ppu.ctrl, k.ppu.mask, k.ppu.t,
      k.ppu.xFine⟩
    rw [pushReg, e1, o2.keeps.ram, o2.sp]; rfl
  · rw [pushReg, e3, o2.cycle]
  · rw [pushReg, e4]; simp [regs, o2.a, o2.x, o2.y, o2.sp, o2.p, o2.pc]
  · rw [pushReg, ended, e4]; simp [o2.mode]

/-- Cycles that move S up and pull: S is `up` above, nothing stored. -/
structure Pulled (n : Nat) (len : Word) (up : Nat) (s u : State) : Prop where
  keeps : Keeps s u
  cycle : u.cycle = s.cycle + n
  a : u.cpu.a = s.cpu.a
  x : u.cpu.x = s.cpu.x
  y : u.cpu.y = s.cpu.y
  sp : u.cpu.s = s.cpu.s + BitVec.ofNat 8 up
  mode : u.cpu.mode = s.cpu.mode
  pc : u.cpu.pc = s.cpu.pc + len

theorem Opened.pulled {n : Nat} {len : Word} {s u : State} (o : Opened n len s u) : Pulled n len 0 s u :=
  ⟨o.keeps, o.cycle, o.a, o.x, o.y, by simp [o.sp], o.mode, o.pc⟩

/-- A cycle that reads the stack slot and moves S up. -/
theorem Pulled.read {k n : Nat} {len : Word} {up : Nat} {s u : State} (o : Pulled n len up s u) (h : undisturbed (k + 1) u)
    (kind : CycleKind) (hk : kind ≠ .last) (upd : Byte → Cpu → Cpu) (a : ∀ d c, (upd d c).a = c.a)
    (x : ∀ d c, (upd d c).x = c.x) (y : ∀ d c, (upd d c).y = c.y) (sp : ∀ d c, (upd d c).s = c.s + 1)
    (mode : ∀ d c, (upd d c).mode = c.mode) (pc : ∀ d c, (upd d c).pc = c.pc) :
    Pulled (n + 1) len (up + 1) s (cpuCyc kind atStack upd u) ∧ undisturbed k (cpuCyc kind atStack upd u)
      ∧ (cpuCyc kind atStack upd u).cpu = endCpu kind (cpuCyc kind atStack upd u).arb.pending
          (upd (ramAt s (stackAddr (s.cpu.s + BitVec.ofNat 8 up))) u.cpu) := by
  obtain ⟨d, hd, hc, hu⟩ := cpuCyc_read h kind (fun c => stackAddr c.s) upd
  have e := delivers_stackAddr ((delivers_congr o.keeps).1 hd)
  rw [o.sp] at e
  subst e
  refine ⟨⟨o.keeps.trans hc.keeps, by rw [show atStack = fun c => Act.read (stackAddr c.s) from rfl, hc.cycle, o.cycle]; omega, ?_, ?_, ?_, ?_, ?_, ?_⟩, hu, hc.cpu⟩
  all_goals rw [show atStack = fun c => Act.read (stackAddr c.s) from rfl, hc.cpu]
  · simp [a, o.a]
  · simp [x, o.x]
  · simp [y, o.y]
  · simp [sp, o.sp, BitVec.add_assoc, BitVec.ofNat_add]
  · rw [endCpu_mode hk, mode, o.mode]
  · simp [pc, o.pc]

theorem stackUp_spec {k n : Nat} {len : Word} {up : Nat} {s u : State} (o : Pulled n len up s u) (h : undisturbed (k + 1) u)
    (kind : CycleKind) (hk : kind ≠ .last) :
    Pulled (n + 1) len (up + 1) s (stackUp kind u) ∧ undisturbed k (stackUp kind u)
      ∧ (stackUp kind u).cpu = endCpu kind (stackUp kind u).arb.pending { u.cpu with s := u.cpu.s + 1 } :=
  o.read h kind hk (fun _ c => { c with s := c.s + 1 }) (fun _ _ => rfl) (fun _ _ => rfl) (fun _ _ => rfl)
    (fun _ _ => rfl) (fun _ _ => rfl) (fun _ _ => rfl)

/-- The last cycle of a pull: the stack slot, S not moved. -/
theorem Pulled.last {n : Nat} {len : Word} {up : Nat} {s u : State} (o : Pulled n len up s u) (h : undisturbed 1 u)
    (upd : Byte → Cpu → Cpu) :
    Keeps s (cpuCyc .last atStack upd u) ∧ (cpuCyc .last atStack upd u).cycle = s.cycle + (n + 1)
      ∧ (cpuCyc .last atStack upd u).cpu
          = endCpu .last (cpuCyc .last atStack upd u).arb.pending (upd (pulled s up) u.cpu) := by
  obtain ⟨d, hd, hc, -⟩ := cpuCyc_read (k := 0) h .last (fun c => stackAddr c.s) upd
  have e := delivers_stackAddr ((delivers_congr o.keeps).1 hd)
  rw [o.sp] at e
  subst e
  exact ⟨o.keeps.trans hc.keeps, hc.cycle.trans (by rw [o.cycle]; omega), hc.cpu⟩

/-- PLA and PLP: `c` is the CPU before the update of the last cycle, S moved up. -/
theorem pullReg_spec {s : State} (h : undisturbed 4 s) (op : Byte) (f : Byte → Cpu → Cpu) :
    ∃ c, Keeps s (pullReg op f s) ∧ (pullReg op f s).cycle = s.cycle + 4
      ∧ regs c = regs { s.cpu with s := s.cpu.s + 1, pc := s.cpu.pc + 1 } ∧ c.mode = s.cpu.mode
      ∧ (pullReg op f s).cpu = endCpu .last (pullReg op f s).arb.pending (f (pulled s 1) c) := by
  obtain ⟨o1, h1⟩ := fetchOp_spec (k := 3) h .mid (by simp) op
  obtain ⟨o2, h2⟩ := dummyPc_spec (k := 2) o1 h1 .mid (by simp)
  obtain ⟨o3, h3, e3⟩ := stackUp_spec (k := 1) o2.pulled h2 .penult (by simp)
  obtain ⟨l1, l2, l3⟩ := o3.last h3 f
  exact ⟨_, l1, l2, by rw [e3]; simp [regs, o2.a, o2.x, o2.y, o2.sp, o2.p, o2.pc], by rw [e3]; simp [o2.mode], l3⟩

/-- RTS. -/
theorem returnSub_spec {s : State} (h : undisturbed 6 s) (op : Byte) :
    Keeps s (returnSub op s) ∧ (returnSub op s).cycle = s.cycle + 6 ∧ ended s (returnSub op s)
      ∧ regs (returnSub op s).cpu
          = regs { s.cpu with s := s.cpu.s + 2, pc := wordOf (pulled s 2) (pulled s 1) + 1 } := by
  obtain ⟨o1, h1⟩ := fetchOp_spec (k := 5) h .mid (by simp) op
  obtain ⟨o2, h2⟩ := dummyPc_spec (k := 4) o1 h1 .mid (by simp)
  obtain ⟨o3, h3, e3⟩ := stackUp_spec (k := 3) o2.pulled h2 .mid (by simp)
  obtain ⟨o4, h4, e4⟩ := o3.read (k := 2) h3 .mid (by simp) (fun d c => { c with adl := d, s := c.s + 1 })
    (fun _ _ => rfl) (fun _ _ => rfl) (fun _ _ => rfl) (fun _ _ => rfl) (fun _ _ => rfl) (fun _ _ => rfl)
  obtain ⟨d5, hd5, hc5, h5⟩ := cpuCyc_read (k := 1) h4 .penult (fun c => stackAddr c.s)
    fun d c => { c with adh := d, pc := wordOf d c.adl }
  have b5 := delivers_stackAddr ((delivers_congr o4.keeps).1 hd5)
  rw [o4.sp] at b5
  subst b5
  obtain ⟨d6, -, hc6, -⟩ := cpuCyc_read (k := 0) h5 .last (fun c => c.pc) fun _ c => { c with pc := c.pc + 1 }
  refine ⟨(o4.keeps.trans hc5.keeps).trans hc6.keeps, hc6.cycle.trans (by rw [hc5.cycle, o4.cycle]), ?_, ?_⟩
  · exact ended_of_cpu hc6.cpu (by rw [hc5.cpu, e4, e3]; simp [o2.mode])
  · rw [show (returnSub op s).cpu = _ from hc6.cpu, hc5.cpu, e4, e3]
    simp [regs, o2.a, o2.x, o2.y, o2.sp, o2.p, pulled, BitVec.add_assoc]

/-- T3-T6 of RTI. -/
theorem returnInt_spec {s : State} (h : undisturbed 6 s) (op : Byte) :
    Keeps s (returnInt op s) ∧ (returnInt op s).cycle = s.cycle + 6 ∧ ended s (returnInt op s)
      ∧ regs (returnInt op s).cpu
          = regs { s.cpu with
              s := s.cpu.s + 3, pc := wordOf (pulled s 3) (pulled s 2), p := .ofByte (pulled s 1) } := by
  obtain ⟨o1, h1⟩ := fetchOp_spec (k := 5) h .mid (by simp) op
  obtain ⟨o2, h2⟩ := dummyPc_spec (k := 4) o1 h1 .mid (by simp)
  obtain ⟨o3, h3, e3⟩ := stackUp_spec (k := 3) o2.pulled h2 .mid (by simp)
  obtain ⟨o4, h4, e4⟩ := o3.read (k := 2) h3 .mid (by simp) (fun d c => { c with p := .ofByte d, s := c.s + 1 })
    (fun _ _ => rfl) (fun _ _ => rfl) (fun _ _ => rfl) (fun _ _ => rfl) (fun _ _ => rfl) (fun _ _ => rfl)
  obtain ⟨o5, h5, e5⟩ := o4.read (k := 1) h4 .penult (by simp) (fun d c => { c with adl := d, s := c.s + 1 })
    (fun _ _ => rfl) (fun _ _ => rfl) (fun _ _ => rfl) (fun _ _ => rfl) (fun _ _ => rfl) (fun _ _ => rfl)
  obtain ⟨l1, l2, l3⟩ := o5.last h5 fun d c => { c with adh := d, pc := wordOf d c.adl }
  refine ⟨l1, l2, ?_, ?_⟩
  · exact ended_of_cpu l3 (by rw [e5, e4, e3]; simp [o2.mode])
  · rw [show (returnInt op s).cpu = _ from l3, e5, e4, e3]
    simp [regs, o2.a, o2.x, o2.y, o2.sp, pulled, BitVec.add_assoc]

/-- JSR. -/
theorem callAbs_spec {s : State} (h : undisturbed 6 s) (op : Byte) (addr : Word) :
    pushes [hiByte (s.cpu.pc + 2), loByte (s.cpu.pc + 2)] s (callAbs op addr s)
      ∧ (callAbs op addr s).cycle = s.cycle + 6 ∧ ended s (callAbs op addr s)
      ∧ regs (callAbs op addr s).cpu = regs { s.cpu with s := s.cpu.s - 2, pc := addr } := by
  obtain ⟨o1, h1⟩ := fetchOp_spec (k := 5) h .mid (by simp) op
  obtain ⟨o2, h2, e2⟩ := fetchOperand_spec (k := 4) o1 h1 .mid (by simp) (fun c => { c with adl := loByte addr })
    (by constructor <;> intros <;> rfl)
  obtain ⟨o3, h3, e3⟩ := dummyRead_spec (k := 3) o2 h2 .mid (by simp) fun c => stackAddr c.s
  obtain ⟨o4, h4, e4⟩ := o3.pushed.push (k := 2) h3 .mid (by simp) fun c => hiByte c.pc
  obtain ⟨o5, h5, e5⟩ := o4.push (k := 1) h4 .penult (by simp) fun c => loByte c.pc
  obtain ⟨d6, -, hc6, -⟩ := cpuCyc_read (k := 0) h5 .last (fun c => c.pc)
    fun _ c => { c with adh := hiByte addr, pc := wordOf (hiByte addr) c.adl }
  have e3' : (push .mid (fun c => hiByte c.pc) (dummyRead .mid (fun c => stackAddr c.s)
      (fetchOperand .mid (fun c => { c with adl := loByte addr }) (fetchOp .mid op s)))).cpu.pc = s.cpu.pc + 2 := by
    rw [o4.pc]; simp
  have e3'' : (dummyRead .mid (fun c => stackAddr c.s)
      (fetchOperand .mid (fun c => { c with adl := loByte addr }) (fetchOp .mid op s))).cpu.pc = s.cpu.pc + 2 := by
    rw [o3.pc]; simp
  have o5' := o5.pushes
  simp only [List.nil_append, List.cons_append, e3', e3''] at o5'
  refine ⟨?_, hc6.cycle.trans (by rw [o5.cycle]), ?_, ?_⟩
  · obtain ⟨q1, q2, q3, q4, q5, q6, q7, q8, q9⟩ := o5'
    have k := hc6.keeps
    exact ⟨fun a => by rw [show (callAbs op addr s).ram = _ from k.ram]; exact q1 a, q2.trans k.storage, k.cfg.trans q3,
      k.resetAt.trans q4, k.dma.trans q5, k.ppu.ctrl.trans q6, k.ppu.mask.trans q7, k.ppu.t.trans q8, k.ppu.xFine.trans q9⟩
  · exact ended_of_cpu hc6.cpu o5.mode
  · rw [show (callAbs op addr s).cpu = _ from hc6.cpu]
    simp only [regs, endCpu_a, endCpu_x, endCpu_y, endCpu_s, endCpu_p, endCpu_pc, o5.a, o5.x, o5.y, o5.sp, o5.p]
    rw [e5, e4, e3, e2]; simp

end Sys2Proof.Machine
end

