-- ==== Sys2Proof/Laws/Dot.lean ====
section
/-! SUPPORT. What one PPU dot does to the position, the VBL and SOV flags, v and OAMADDR: each step of the dot once, then the
dot. -/

namespace Sys2Proof.Machine

/-- What most steps of a dot leave alone. -/
structure DotFixed (p q : Ppu) : Prop where
  line : q.pos.line = p.pos.line
  dot : q.pos.dot = p.pos.dot
  odd : q.pos.oddFrame = p.pos.oddFrame
  suppress : q.pos.vblSuppress = p.pos.vblSuppress
  vbl : q.regs.vbl = p.regs.vbl
  mask : q.regs.mask = p.regs.mask
  ctrl : q.regs.ctrl = p.regs.ctrl
  t : q.regs.t = p.regs.t

theorem DotFixed.refl (p : Ppu) : DotFixed p p := ⟨rfl, rfl, rfl, rfl, rfl, rfl, rfl, rfl⟩

theorem DotFixed.trans {p q r : Ppu} (h : DotFixed p q) (k : DotFixed q r) : DotFixed p r :=
  ⟨k.line.trans h.line, k.dot.trans h.dot, k.odd.trans h.odd, k.suppress.trans h.suppress, k.vbl.trans h.vbl,
    k.mask.trans h.mask, k.ctrl.trans h.ctrl, k.t.trans h.t⟩

/-- A step that also leaves v, OAMADDR and SOV alone. -/
structure DotQuiet (p q : Ppu) : Prop extends DotFixed p q where
  v : q.regs.v = p.regs.v
  oamAddr : q.regs.oamAddr = p.regs.oamAddr
  sov : q.regs.sov = p.regs.sov
  ev : q.ev = p.ev

theorem DotQuiet.refl (p : Ppu) : DotQuiet p p := ⟨.refl p, rfl, rfl, rfl, rfl⟩

theorem DotQuiet.trans {p q r : Ppu} (h : DotQuiet p q) (k : DotQuiet q r) : DotQuiet p r :=
  ⟨h.toDotFixed.trans k.toDotFixed, k.v.trans h.v, k.oamAddr.trans h.oamAddr, k.sov.trans h.sov, k.ev.trans h.ev⟩

theorem Video.driveA12_quiet (c : Nat) (high : Bool) (v : Video) : DotQuiet v.ppu (v.driveA12 c high).ppu := by
  unfold Video.driveA12
  split_ifs <;> exact ⟨⟨rfl, rfl, rfl, rfl, rfl, rfl, rfl, rfl⟩, rfl, rfl, rfl, rfl⟩

theorem Video.fetch_quiet (c : Nat) (a : PpuAddr) (store : Byte → Ppu → Ppu) (h : ∀ d p, DotQuiet p (store d p))
    (v : Video) : DotQuiet v.ppu (v.fetch c a store).ppu :=
  (Video.driveA12_quiet c (a.getLsbD 12) v).trans (h _ _)

theorem Ppu.mapBg_quiet (f : BgPipe → BgPipe) (p : Ppu) : DotQuiet p (p.mapBg f) :=
  ⟨⟨rfl, rfl, rfl, rfl, rfl, rfl, rfl, rfl⟩, rfl, rfl, rfl, rfl⟩

/-- The fetch phases leave all of it alone but for the coarse-X increment of phase 7. -/
theorem Video.bgPhase_effect (c ph : Nat) (h : ph < 8) (v : Video) :
    ∃ q, DotQuiet v.ppu q ∧ (v.bgPhase c ph).ppu
      = if ph = 7 then q.mapRegs fun r => { r with v := incCoarseX r.v } else q := by
  match ph, h with
  | 0, _ => exact ⟨_, Video.driveA12_quiet _ _ v, rfl⟩
  | 1, _ => exact ⟨_, v.fetch_quiet _ _ _ (fun _ _ => Ppu.mapBg_quiet _ _), rfl⟩
  | 2, _ => exact ⟨_, Video.driveA12_quiet _ _ v, rfl⟩
  | 3, _ => exact ⟨_, v.fetch_quiet _ _ _ (fun _ _ => Ppu.mapBg_quiet _ _), rfl⟩
  | 4, _ => exact ⟨_, Video.driveA12_quiet _ _ v, rfl⟩
  | 5, _ => exact ⟨_, v.fetch_quiet _ _ _ (fun _ _ => Ppu.mapBg_quiet _ _), rfl⟩
  | 6, _ => exact ⟨_, Video.driveA12_quiet _ _ v, rfl⟩
  | 7, _ => exact ⟨_, v.fetch_quiet _ _ (fun d => Ppu.mapBg fun b => { b with ptHi := d })
      (fun _ _ => Ppu.mapBg_quiet _ _), rfl⟩

theorem Video.dummyNt_quiet (c dot : Nat) (v : Video) : DotQuiet v.ppu (v.dummyNt c dot).ppu := by
  unfold Video.dummyNt
  split_ifs
  · exact Video.driveA12_quiet _ _ v
  · exact v.fetch_quiet _ _ _ fun _ p => .refl p

/-- v after `BackgroundStep()` at dot `dot` (48_ppu_pipeline.md R450-R453). -/
def scrolled (line : Int) (dot : Nat) (v t : Scroll) : Scroll :=
  let v := if (1 ≤ dot ∧ dot ≤ 256 ∨ 321 ≤ dot ∧ dot ≤ 336) ∧ dot % 8 = 0 then incCoarseX v else v
  if dot = 256 then incFineY v
  else if dot = 257 then copyX v t
  else if line = -1 ∧ 280 ≤ dot ∧ dot ≤ 304 then copyY v t
  else v

theorem Video.backgroundStep_effect (c dot : Nat) (v : Video) :
    ∃ q, DotQuiet v.ppu q ∧ (v.backgroundStep c dot).ppu
      = q.mapRegs fun r => { r with v := scrolled q.pos.line dot r.v r.t } := by
  unfold Video.backgroundStep
  by_cases h1 : (1 ≤ dot ∧ dot ≤ 256) ∨ (321 ≤ dot ∧ dot ≤ 336)
  · obtain ⟨q, hq, e⟩ := Video.bgPhase_effect c ((dot - 1) % 8) (Nat.mod_lt _ (by omega)) v
    refine ⟨q, hq, ?_⟩
    rw [if_pos (by simpa using h1)]
    show (v.bgPhase c ((dot - 1) % 8)).ppu.scrollDot dot = _
    rw [e]
    by_cases h7 : (dot - 1) % 8 = 7
    · have h8 : dot % 8 = 0 := by omega
      simp only [h7, if_true, Ppu.scrollDot, Ppu.mapRegs, PpuRegs.scrollDot, scrolled, h1, h8, and_self]
      split_ifs <;> first | rfl | simp_all
    · have h8 : ¬ dot % 8 = 0 := by omega
      simp only [h7, if_false, Ppu.scrollDot, Ppu.mapRegs, PpuRegs.scrollDot, scrolled, h1, h8, and_false]
      split_ifs <;> first | rfl | simp_all
  · have hn : ¬ ((1 ≤ dot ∧ dot ≤ 256 ∨ 321 ≤ dot ∧ dot ≤ 336) ∧ dot % 8 = 0) := fun h => h1 h.1
    rw [if_neg (by simpa using h1)]
    refine ⟨(if 337 ≤ dot then v.dummyNt c dot else v).ppu, ?_, ?_⟩
    · split_ifs
      · exact Video.dummyNt_quiet c dot v
      · exact .refl _
    · show (if 337 ≤ dot then v.dummyNt c dot else v).ppu.scrollDot dot = _
      generalize (if 337 ≤ dot then v.dummyNt c dot else v).ppu = q
      simp only [Ppu.scrollDot, Ppu.mapRegs, PpuRegs.scrollDot, scrolled, hn, if_false]
      split_ifs <;> first | rfl | simp_all

/-- `SpriteEvalStep()` touches, of all this, only SOV and the evaluator. -/
theorem Ppu.spriteEvalStep_effect (dot : Nat) (p : Ppu) :
    DotFixed p (p.spriteEvalStep dot) ∧ (p.spriteEvalStep dot).regs.v = p.regs.v
      ∧ (p.spriteEvalStep dot).regs.oamAddr = p.regs.oamAddr
      ∧ (p.spriteEvalStep dot).regs.sov = (p.regs.sov
        || (decide (66 ≤ dot ∧ dot ≤ 256 ∧ dot % 2 = 0 ∧ p.ev.phase = .overflow) && p.inRange p.ev.latch)) := by
  have hw : ∀ i d, DotQuiet p (p.writeSecOam i d) := by
    intro i d
    unfold Ppu.writeSecOam
    split_ifs <;> exact ⟨⟨rfl, rfl, rfl, rfl, rfl, rfl, rfl, rfl⟩, rfl, rfl, rfl, rfl⟩
  have fixed : ∀ q : Ppu, DotQuiet p q → ∀ e, DotFixed p { q with ev := e } :=
    fun q h e => ⟨h.line, h.dot, h.odd, h.suppress, h.vbl, h.mask, h.ctrl, h.t⟩
  unfold Ppu.spriteEvalStep
  by_cases h1 : 2 ≤ dot ∧ dot ≤ 64
  · have hn : ¬ 66 ≤ dot := by omega
    rw [if_pos (by simpa using h1)]
    split_ifs
    · have h := hw (dot / 2 - 1) 0xFF#8
      exact ⟨h.toDotFixed, h.v, h.oamAddr, by simp [h.sov, hn]⟩
    · exact ⟨.refl p, rfl, rfl, by simp [hn]⟩
  · rw [if_neg (by simpa using h1)]
    by_cases h2 : 65 ≤ dot ∧ dot ≤ 256
    · rw [if_pos (by simpa using h2)]
      by_cases h65 : dot = 65
      · subst h65
        exact ⟨fixed p (.refl p) _, rfl, rfl, by simp; rfl⟩
      · rw [if_neg h65]
        by_cases ho : dot % 2 = 1
        · rw [if_pos ho]
          exact ⟨fixed p (.refl p) _, rfl, rfl, by simp [ho]; rfl⟩
        · rw [if_neg ho]
          have hb : 66 ≤ dot ∧ dot ≤ 256 ∧ dot % 2 = 0 := ⟨by omega, h2.2, by omega⟩
          unfold Ppu.evalAct
          dsimp only
          split
          · rename_i hp
            have h := hw (4 * p.ev.found + p.ev.m.toNat) p.ev.latch
            exact ⟨fixed _ h _, h.v, h.oamAddr, by simp [h.sov, hp]⟩
          · rename_i hp
            split_ifs with hi
            · exact ⟨⟨rfl, rfl, rfl, rfl, rfl, rfl, rfl, rfl⟩, rfl, rfl, by simp [hb, hp, hi]⟩
            · exact ⟨fixed p (.refl p) _, rfl, rfl, by simp [hi]⟩
          · rename_i hp
            exact ⟨.refl p, rfl, rfl, by simp [hp]⟩
    · rw [if_neg (by simpa using h2)]
      have hn : ¬ (66 ≤ dot ∧ dot ≤ 256) := by omega
      refine ⟨.refl p, rfl, rfl, ?_⟩
      have : ¬ (66 ≤ dot ∧ dot ≤ 256 ∧ dot % 2 = 0 ∧ p.ev.phase = .overflow) := fun h => hn ⟨h.1, h.2.1⟩
      simp [this]

theorem Video.spritePhase_quiet (c i q : Nat) (v : Video) : DotQuiet v.ppu (v.spritePhase c i q).ppu := by
  unfold Video.spritePhase
  split
  · exact Video.driveA12_quiet _ _ v
  · exact v.fetch_quiet _ _ _ fun _ p => .refl p
  · exact Video.driveA12_quiet _ _ v
  · exact v.fetch_quiet _ _ _ fun _ p => .refl p
  · exact Video.driveA12_quiet _ _ v
  · exact v.fetch_quiet _ _ _ (by intro d p; exact ⟨⟨rfl, rfl, rfl, rfl, rfl, rfl, rfl, rfl⟩, rfl, rfl, rfl, rfl⟩)
  · exact Video.driveA12_quiet _ _ v
  · exact v.fetch_quiet _ _ _ (by intro d p; exact ⟨⟨rfl, rfl, rfl, rfl, rfl, rfl, rfl, rfl⟩, rfl, rfl, rfl, rfl⟩)

/-- `SpriteFetchStep()` touches, of all this, only OAMADDR. -/
theorem Video.spriteFetchStep_effect (c dot : Nat) (v : Video) :
    ∃ q, DotQuiet v.ppu q ∧ (v.spriteFetchStep c dot).ppu
      = if 257 ≤ dot ∧ dot ≤ 320 then q.mapRegs fun r => { r with oamAddr := 0 } else q := by
  unfold Video.spriteFetchStep
  by_cases h : 257 ≤ dot ∧ dot ≤ 320
  · rw [if_pos (by simpa using h)]
    refine ⟨((if dot = 257 then v.mapPpu .startSprites else v).spritePhase c ((dot - 257) / 8) ((dot - 257) % 8)).ppu,
      DotQuiet.trans ?_ (Video.spritePhase_quiet _ _ _ _), by rw [if_pos h]; rfl⟩
    split_ifs
    · exact ⟨⟨rfl, rfl, rfl, rfl, rfl, rfl, rfl, rfl⟩, rfl, rfl, rfl, rfl⟩
    · exact .refl _
  · rw [if_neg (by simpa using h)]
    exact ⟨v.ppu, .refl _, by rw [if_neg h]⟩

theorem Ppu.pixelStep_quiet (dot : Nat) (p : Ppu) : DotQuiet p (p.pixelStep dot) := by
  unfold Ppu.pixelStep
  dsimp only
  split_ifs <;> exact ⟨⟨rfl, rfl, rfl, rfl, rfl, rfl, rfl, rfl⟩, rfl, rfl, rfl, rfl⟩

/-- The fetch steps of a dot, together. -/
theorem Video.fetchStep_effect (c dot : Nat) (v : Video) :
    DotFixed v.ppu (v.fetchStep c dot).ppu
      ∧ (v.fetchStep c dot).ppu.regs.v = scrolled v.ppu.pos.line dot v.ppu.regs.v v.ppu.regs.t
      ∧ (v.fetchStep c dot).ppu.regs.oamAddr = (if 257 ≤ dot ∧ dot ≤ 320 then 0 else v.ppu.regs.oamAddr)
      ∧ (v.fetchStep c dot).ppu.regs.sov = (v.ppu.regs.sov
        || (decide (0 ≤ v.ppu.pos.line ∧ 66 ≤ dot ∧ dot ≤ 256 ∧ dot % 2 = 0 ∧ v.ppu.ev.phase = .overflow)
          && v.ppu.inRange v.ppu.ev.latch)) := by
  obtain ⟨q, hq, e⟩ := Video.backgroundStep_effect c dot v
  have hf : DotFixed v.ppu (v.backgroundStep c dot).ppu := by
    rw [e]; exact ⟨hq.line, hq.dot, hq.odd, hq.suppress, hq.vbl, hq.mask, hq.ctrl, hq.t⟩
  have hv : (v.backgroundStep c dot).ppu.regs.v = scrolled v.ppu.pos.line dot v.ppu.regs.v v.ppu.regs.t := by
    rw [e]; simp [Ppu.mapRegs, hq.v, hq.line, hq.t]
  have ho : (v.backgroundStep c dot).ppu.regs.oamAddr = v.ppu.regs.oamAddr := by rw [e]; simp [Ppu.mapRegs, hq.oamAddr]
  have hs : (v.backgroundStep c dot).ppu.regs.sov = v.ppu.regs.sov := by rw [e]; simp [Ppu.mapRegs, hq.sov]
  have he : (v.backgroundStep c dot).ppu.ev = v.ppu.ev := by rw [e]; simp [Ppu.mapRegs, hq.ev]
  have hi : (v.backgroundStep c dot).ppu.inRange = v.ppu.inRange := by
    funext y; unfold Ppu.inRange PpuRegs.spriteHeight PpuRegs.sprH; rw [hf.line, hf.ctrl]
  unfold Video.fetchStep
  generalize v.backgroundStep c dot = w at hf hv ho hs he hi
  dsimp only
  have key : ∀ x : Video, DotFixed w.ppu x.ppu → x.ppu.regs.v = w.ppu.regs.v → x.ppu.regs.oamAddr = w.ppu.regs.oamAddr →
      x.ppu.regs.sov = (v.ppu.regs.sov
        || (decide (0 ≤ v.ppu.pos.line ∧ 66 ≤ dot ∧ dot ≤ 256 ∧ dot % 2 = 0 ∧ v.ppu.ev.phase = .overflow)
          && v.ppu.inRange v.ppu.ev.latch)) →
      DotFixed v.ppu (x.spriteFetchStep c dot).ppu
      ∧ (x.spriteFetchStep c dot).ppu.regs.v = scrolled v.ppu.pos.line dot v.ppu.regs.v v.ppu.regs.t
      ∧ (x.spriteFetchStep c dot).ppu.regs.oamAddr = (if 257 ≤ dot ∧ dot ≤ 320 then 0 else v.ppu.regs.oamAddr)
      ∧ (x.spriteFetchStep c dot).ppu.regs.sov = (v.ppu.regs.sov
        || (decide (0 ≤ v.ppu.pos.line ∧ 66 ≤ dot ∧ dot ≤ 256 ∧ dot % 2 = 0 ∧ v.ppu.ev.phase = .overflow)
          && v.ppu.inRange v.ppu.ev.latch)) := by
    intro x h1 h2 h3 h4
    obtain ⟨r, hr, e'⟩ := Video.spriteFetchStep_effect c dot x
    have h := hf.trans (h1.trans hr.toDotFixed)
    rw [e']
    split_ifs
    · exact ⟨⟨h.line, h.dot, h.odd, h.suppress, h.vbl, h.mask, h.ctrl, h.t⟩, hr.v.trans (h2.trans hv), rfl, hr.sov.trans h4⟩
    · exact ⟨h, hr.v.trans (h2.trans hv), hr.oamAddr.trans (h3.trans ho), hr.sov.trans h4⟩
  by_cases hl : 0 ≤ w.ppu.pos.line
  · rw [if_pos hl]
    obtain ⟨a1, a2, a3, a4⟩ := Ppu.spriteEvalStep_effect dot w.ppu
    refine key (w.mapPpu (.spriteEvalStep dot)) a1 a2 a3 (a4.trans ?_)
    rw [hs, he, hi]
    rw [hf.line] at hl
    simp [hl]
  · rw [if_neg hl]
    rw [hf.line] at hl
    exact key w (.refl _) rfl rfl (by rw [hs]; simp [hl])

/-- The flag events of a dot. -/
theorem Ppu.flagEvents_effect (cfg : Config) (p : Ppu) :
    (p.flagEvents cfg).pos.place = p.pos.place
      ∧ (p.flagEvents cfg).regs.vbl
        = (if p.pos.line = -1 ∧ p.pos.dot = 1 then false
          else p.regs.vbl || (p.pos.atVblankStart cfg && !p.pos.vblSuppress))
      ∧ (p.flagEvents cfg).pos.vblSuppress = (p.pos.vblSuppress && !p.pos.atVblankStart cfg)
      ∧ (p.flagEvents cfg).regs.sov = (if p.pos.line = -1 ∧ p.pos.dot = 1 then false else p.regs.sov)
      ∧ (p.flagEvents cfg).regs.v = p.regs.v ∧ (p.flagEvents cfg).regs.oamAddr = p.regs.oamAddr
      ∧ (p.flagEvents cfg).regs.mask = p.regs.mask ∧ (p.flagEvents cfg).regs.ctrl = p.regs.ctrl
      ∧ (p.flagEvents cfg).regs.t = p.regs.t ∧ (p.flagEvents cfg).ev = p.ev := by
  have hn : ∀ r : Region, r.nmiLine ≠ -1 := by intro r; cases r <;> decide
  unfold Ppu.flagEvents
  dsimp only
  by_cases h1 : p.pos.atVblankStart cfg = true
  · have hl : p.pos.line = cfg.region.nmiLine := by
      unfold Position.atVblankStart at h1; simp at h1; exact h1.1
    have : ¬ p.pos.line = -1 := by rw [hl]; exact hn _
    simp [h1, Ppu.vblankStart, this, Position.place]
  · by_cases h2 : p.pos.line = -1 ∧ p.pos.dot = 1
    · simp [h1, h2, Ppu.prerenderClear, Position.place]
    · have h1' : p.pos.atVblankStart cfg = false := by simpa using h1
      have h2' : ¬ ((decide (p.pos.line = -1) && decide (p.pos.dot = 1)) = true) := by simpa using h2
      simp only [h1', h2', if_neg h2, Bool.false_eq_true, if_false]
      simp

/-- What a rendering line does in a dot. -/
theorem Video.renderStep_effect (c : Nat) (v : Video) :
    DotFixed v.ppu (v.renderStep c).ppu
      ∧ (v.renderStep c).ppu.regs.v = (if v.ppu.regs.renderingEnabled then
          scrolled v.ppu.pos.line v.ppu.pos.dot v.ppu.regs.v v.ppu.regs.t else v.ppu.regs.v)
      ∧ (v.renderStep c).ppu.regs.oamAddr
        = (if v.ppu.regs.renderingEnabled ∧ 257 ≤ v.ppu.pos.dot ∧ v.ppu.pos.dot ≤ 320 then 0 else v.ppu.regs.oamAddr)
      ∧ (v.renderStep c).ppu.regs.sov = (v.ppu.regs.sov
        || (decide (v.ppu.regs.renderingEnabled ∧ 0 ≤ v.ppu.pos.line ∧ 66 ≤ v.ppu.pos.dot ∧ v.ppu.pos.dot ≤ 256
          ∧ v.ppu.pos.dot % 2 = 0 ∧ v.ppu.ev.phase = .overflow) && v.ppu.inRange v.ppu.ev.latch)) := by
  have hq := Ppu.pixelStep_quiet v.ppu.pos.dot v.ppu
  have he : (v.ppu.pixelStep v.ppu.pos.dot).regs.renderingEnabled = v.ppu.regs.renderingEnabled := by
    unfold PpuRegs.renderingEnabled PpuRegs.bgEn PpuRegs.sprEn; rw [hq.mask]
  have hi : (v.ppu.pixelStep v.ppu.pos.dot).inRange = v.ppu.inRange := by
    funext y; unfold Ppu.inRange PpuRegs.spriteHeight PpuRegs.sprH; rw [hq.line, hq.ctrl]
  unfold Video.renderStep
  dsimp only
  have hw : (v.mapPpu (.pixelStep v.ppu.pos.dot)).ppu = v.ppu.pixelStep v.ppu.pos.dot := rfl
  generalize v.mapPpu (.pixelStep v.ppu.pos.dot) = w at hw
  rw [hw, he]
  by_cases hen : v.ppu.regs.renderingEnabled = true
  · obtain ⟨a1, a2, a3, a4⟩ := Video.fetchStep_effect c v.ppu.pos.dot w
    rw [hw] at a1 a2 a3 a4
    rw [hq.line, hq.v, hq.t] at a2
    rw [hq.oamAddr] at a3
    rw [hq.sov, hq.line, hq.ev, hi] at a4
    simp only [hen, if_true, true_and]
    exact ⟨hq.toDotFixed.trans a1, a2, a3, a4⟩
  · have hen' : v.ppu.regs.renderingEnabled = false := by simpa using hen
    simp only [hen', Bool.false_eq_true, if_false, false_and, decide_false, Bool.false_and, Bool.or_false]
    rw [hw]
    exact ⟨hq.toDotFixed, hq.v, hq.oamAddr, hq.sov⟩

theorem Position.advance_place {cfg : Config} {b : Bool} {p q : Position} (h : p.place = q.place) :
    (p.advance cfg b).place = (q.advance cfg b).place := by
  simp only [Position.place, Prod.mk.injEq] at h
  obtain ⟨h1, h2, h3⟩ := h
  unfold Position.advance
  rw [h1, h2, h3]
  split_ifs <;> simp [Position.place]

/-- A dot's position, flags, v and OAMADDR (48_ppu_pipeline.md R440). -/
theorem Video.dot_effect (cfg : Config) (c : Nat) (v : Video) :
    (v.dot cfg c).ppu.pos.place = (v.ppu.pos.advance cfg v.ppu.regs.renderingEnabled).place
      ∧ (v.dot cfg c).ppu.regs.vbl
        = (if v.ppu.pos.line = -1 ∧ v.ppu.pos.dot = 1 then false
          else v.ppu.regs.vbl || (v.ppu.pos.atVblankStart cfg && !v.ppu.pos.vblSuppress))
      ∧ (v.dot cfg c).ppu.pos.vblSuppress = (v.ppu.pos.vblSuppress && !v.ppu.pos.atVblankStart cfg)
      ∧ (v.dot cfg c).ppu.regs.v
        = (if v.ppu.renderingActive cfg then scrolled v.ppu.pos.line v.ppu.pos.dot v.ppu.regs.v v.ppu.regs.t
          else v.ppu.regs.v)
      ∧ (v.dot cfg c).ppu.regs.oamAddr
        = (if v.ppu.renderingActive cfg ∧ 257 ≤ v.ppu.pos.dot ∧ v.ppu.pos.dot ≤ 320 then 0 else v.ppu.regs.oamAddr)
      ∧ (v.dot cfg c).ppu.regs.sov
        = (if v.ppu.pos.line = -1 ∧ v.ppu.pos.dot = 1 then false
          else v.ppu.regs.sov
            || (decide (v.ppu.renderingActive cfg = true ∧ 0 ≤ v.ppu.pos.line ∧ 66 ≤ v.ppu.pos.dot ∧ v.ppu.pos.dot ≤ 256
                ∧ v.ppu.pos.dot % 2 = 0 ∧ v.ppu.ev.phase = .overflow) && v.ppu.inRange v.ppu.ev.latch)) := by
  obtain ⟨f1, f2, f3, f4, f5, f6, f7, f8, f9, f10⟩ := Ppu.flagEvents_effect cfg v.ppu
  have fe : (v.ppu.flagEvents cfg).regs.renderingEnabled = v.ppu.regs.renderingEnabled := by
    unfold PpuRegs.renderingEnabled PpuRegs.bgEn PpuRegs.sprEn; rw [f7]
  have fl : (v.ppu.flagEvents cfg).pos.line = v.ppu.pos.line := congrArg (fun p : Int × Nat × Bool => p.1) f1
  have fd : (v.ppu.flagEvents cfg).pos.dot = v.ppu.pos.dot := congrArg (fun p : Int × Nat × Bool => p.2.1) f1
  have fr : (v.ppu.flagEvents cfg).pos.renderingLine cfg = v.ppu.pos.renderingLine cfg := by
    unfold Position.renderingLine Position.visible; rw [fl]
  have fi : (v.ppu.flagEvents cfg).inRange = v.ppu.inRange := by
    funext y; unfold Ppu.inRange PpuRegs.spriteHeight PpuRegs.sprH; rw [fl, f8]
  have hd : ∀ p : Ppu, DotQuiet p p.delayedHit := by
    intro p; unfold Ppu.delayedHit
    split_ifs
    · exact ⟨⟨rfl, rfl, rfl, rfl, rfl, rfl, rfl, rfl⟩, rfl, rfl, rfl, rfl⟩
    · exact .refl p
  have fin : ∀ w : Video, DotFixed (v.ppu.flagEvents cfg) w.ppu →
      ((w.mapPpu .delayedHit).mapPpu (.advance cfg)).ppu.pos.place
          = (v.ppu.pos.advance cfg v.ppu.regs.renderingEnabled).place
        ∧ ((w.mapPpu .delayedHit).mapPpu (.advance cfg)).ppu.pos.vblSuppress = (v.ppu.flagEvents cfg).pos.vblSuppress
        ∧ ((w.mapPpu .delayedHit).mapPpu (.advance cfg)).ppu.regs.vbl = (v.ppu.flagEvents cfg).regs.vbl := by
    intro w h
    have k := h.trans (hd w.ppu).toDotFixed
    have he : w.ppu.delayedHit.regs.renderingEnabled = v.ppu.regs.renderingEnabled := by
      rw [← fe]; unfold PpuRegs.renderingEnabled PpuRegs.bgEn PpuRegs.sprEn; rw [k.mask]
    have hp : w.ppu.delayedHit.pos.place = v.ppu.pos.place := by
      rw [← f1]; simp only [Position.place, k.line, k.dot, k.odd]
    refine ⟨?_, ?_, k.vbl⟩
    · show (w.ppu.delayedHit.pos.advance cfg w.ppu.delayedHit.regs.renderingEnabled).place = _
      rw [he]; exact Position.advance_place hp
    · show (w.ppu.delayedHit.pos.advance cfg w.ppu.delayedHit.regs.renderingEnabled).vblSuppress = _
      rw [← k.suppress]
      unfold Position.advance; split_ifs <;> rfl
  unfold Video.dot
  dsimp only
  have hw : (v.mapPpu (.flagEvents cfg)).ppu = v.ppu.flagEvents cfg := rfl
  generalize v.mapPpu (.flagEvents cfg) = w at hw
  rw [hw, fr]
  by_cases hr : v.ppu.pos.renderingLine cfg = true
  · obtain ⟨a1, a2, a3, a4⟩ := Video.renderStep_effect c w
    rw [hw] at a1 a2 a3 a4
    rw [fe, fl, fd, f5, f9] at a2
    rw [fe, fd, f6] at a3
    rw [fe, fl, fd, f4, f10, fi] at a4
    rw [if_pos hr]
    obtain ⟨b1, b2, b3⟩ := fin (w.renderStep c) a1
    have hact : v.ppu.renderingActive cfg = v.ppu.regs.renderingEnabled := by simp [Ppu.renderingActive, hr]
    refine ⟨b1, b3.trans f2, b2.trans f3, ?_, ?_, ?_⟩
    · rw [hact]; exact (hd _).v.trans a2
    · rw [hact]; exact (hd _).oamAddr.trans a3
    · rw [hact]
      refine (hd _).sov.trans (a4.trans ?_)
      by_cases h2 : v.ppu.pos.line = -1 ∧ v.ppu.pos.dot = 1
      · simp [h2]
      · simp [h2]
  · have hr' : v.ppu.pos.renderingLine cfg = false := by simpa using hr
    rw [if_neg hr]
    obtain ⟨b1, b2, b3⟩ := fin w (by rw [hw]; exact .refl _)
    have hact : v.ppu.renderingActive cfg = false := by simp [Ppu.renderingActive, hr']
    refine ⟨b1, b3.trans f2, b2.trans f3, ?_, ?_, ?_⟩
    · rw [hact]; exact (hd _).v.trans (by rw [hw, f5]; rfl)
    · rw [hact]; exact (hd _).oamAddr.trans (by rw [hw, f6]; simp)
    · rw [hact]
      refine (hd _).sov.trans ?_
      rw [hw, f4]; simp

end Sys2Proof.Machine
end

