-- ==== Sys2Proof/Laws/Invariant.lean ====
section
/-! SUPPORT. The invariant over each shared operation: dots, port accesses, cycles, DMA cycles, resets. -/

namespace Sys2Proof.Machine

theorem Memory.fits.write {m : Memory} {size a : Nat} (h : m.fits size) (ha : a < size) (d : Byte) :
    (Memory.write m a d).fits size :=
  ⟨Memory.wf_write m a d h.1, Memory.within_write m a size d h.2 ha⟩

/-- The parts of the PPU the invariant speaks of, unchanged. -/
structure SameShape (p q : Ppu) : Prop where
  oam : q.oam = p.oam
  secOam : q.secOam = p.secOam
  palette : q.palette = p.palette
  fb : q.fb = p.fb
  line : q.pos.line = p.pos.line
  dot : q.pos.dot = p.pos.dot
  decay : q.bus.decay.length = p.bus.decay.length
  slots : q.spr.slots.length = p.spr.slots.length
  count : q.spr.count = p.spr.count
  found : q.ev.found = p.ev.found
  phase : q.ev.phase = p.ev.phase

theorem SameShape.refl (p : Ppu) : SameShape p p := ⟨rfl, rfl, rfl, rfl, rfl, rfl, rfl, rfl, rfl, rfl, rfl⟩

theorem SameShape.inv {cfg : Config} {p q : Ppu} (h : SameShape p q) (k : PpuInv cfg p) : PpuInv cfg q where
  oam := by rw [h.oam]; exact k.oam
  secOam := by rw [h.secOam]; exact k.secOam
  palette := by rw [h.palette]; exact k.palette
  frame := by rw [h.fb]; exact k.frame
  line := by rw [h.line]; exact k.line
  dot := by rw [h.dot]; exact k.dot
  decay := by rw [h.decay]; exact k.decay
  slots := by rw [h.slots]; exact k.slots
  count := by rw [h.count]; exact k.count
  found := by rw [h.found]; exact k.found
  copying := by rw [h.phase, h.found]; exact k.copying

theorem chrIndex_lt (a : PpuAddr) : (a &&& 0x1FFF#14).toNat < 8192 := by
  have := Nat.and_le_right (n := a.toNat) (m := 8191)
  simp only [BitVec.toNat_and]; simp; omega

theorem CartKeeps.chrFits {c d : Cart} (h : CartKeeps c d) (k : c.chrFits) : d.chrFits := by
  unfold Cart.chrFits
  rw [h.chr, h.kind]
  exact k

/-- A write to pattern memory stays in it. -/
theorem Cart.chrFits.writeChr {c : Cart} (h : c.chrFits) (a : PpuAddr) (d : Byte) : (c.writeChr a d).chrFits := by
  unfold Cart.writeChr
  split_ifs
  · refine ⟨Memory.wf_write _ _ _ h.1, fun hk => Memory.within_write _ _ _ _ (h.2 hk) ?_⟩
    have hk : c.kind = .nrom := hk
    unfold Cart.chrCell
    rw [hk]
    exact chrIndex_lt a
  · exact h

/-- The video's part: the PPU, and the cartridge's memories. -/
structure VideoInv (cfg : Config) (v : Video) : Prop where
  ppu : PpuInv cfg v.ppu
  nt : v.cart.nt.fits 4096
  chr : v.cart.chrFits
  prg : v.cart.prg.fits v.cart.prgSize.bytes

theorem VideoInv.keep {cfg : Config} {v w : Video} (h : VideoInv cfg v) (hp : PpuInv cfg w.ppu)
    (hc : CartKeeps v.cart w.cart) : VideoInv cfg w :=
  ⟨hp, by rw [hc.nt]; exact h.nt, hc.chrFits h.chr, by rw [hc.prg, hc.prgSize]; exact h.prg⟩

theorem VideoInv.mapPpu {cfg : Config} {v : Video} (h : VideoInv cfg v) {f : Ppu → Ppu}
    (hf : PpuInv cfg v.ppu → PpuInv cfg (f v.ppu)) : VideoInv cfg (v.mapPpu f) := ⟨hf h.ppu, h.nt, h.chr, h.prg⟩

/-- A fetch whose byte is only latched. -/
theorem Video.driveA12_shape (c : Nat) (high : Bool) (v : Video) : SameShape v.ppu (v.driveA12 c high).ppu := by
  unfold Video.driveA12
  split_ifs <;> exact ⟨rfl, rfl, rfl, rfl, rfl, rfl, rfl, rfl, rfl, rfl, rfl⟩

theorem Video.driveA12_inv {cfg : Config} (c : Nat) (high : Bool) {v : Video} (h : VideoInv cfg v) :
    VideoInv cfg (v.driveA12 c high) :=
  h.keep ((v.driveA12_shape c high).inv h.ppu) (v.driveA12_keeps c high).cart.toCartKeeps

theorem Video.fetch_inv {cfg : Config} (c : Nat) (a : PpuAddr) (store : Byte → Ppu → Ppu)
    (hs : ∀ d p, PpuInv cfg p → PpuInv cfg (store d p)) {v : Video} (h : VideoInv cfg v) :
    VideoInv cfg (v.fetch c a store) :=
  (Video.driveA12_inv c _ h).mapPpu (hs _ _)

theorem Ppu.mapBg_shape (f : BgPipe → BgPipe) (p : Ppu) : SameShape p (p.mapBg f) :=
  ⟨rfl, rfl, rfl, rfl, rfl, rfl, rfl, rfl, rfl, rfl, rfl⟩

theorem Ppu.mapRegs_shape (f : PpuRegs → PpuRegs) (p : Ppu) : SameShape p (p.mapRegs f) :=
  ⟨rfl, rfl, rfl, rfl, rfl, rfl, rfl, rfl, rfl, rfl, rfl⟩

theorem Video.bgPhase_inv {cfg : Config} (c ph : Nat) {v : Video} (h : VideoInv cfg v) : VideoInv cfg (v.bgPhase c ph) := by
  unfold Video.bgPhase
  split
  · exact Video.driveA12_inv c _ h
  · exact Video.fetch_inv _ _ _ (fun d p => (Ppu.mapBg_shape _ p).inv) h
  · exact Video.driveA12_inv c _ h
  · exact Video.fetch_inv _ _ _ (fun d p => (Ppu.mapBg_shape _ p).inv) h
  · exact Video.driveA12_inv c _ h
  · exact Video.fetch_inv _ _ _ (fun d p => (Ppu.mapBg_shape _ p).inv) h
  · exact Video.driveA12_inv c _ h
  · exact (Video.fetch_inv _ _ _ (fun d p => (Ppu.mapBg_shape _ p).inv) h).mapPpu (Ppu.mapRegs_shape _ _).inv

theorem Video.dummyNt_inv {cfg : Config} (c dot : Nat) {v : Video} (h : VideoInv cfg v) : VideoInv cfg (v.dummyNt c dot) := by
  unfold Video.dummyNt
  split_ifs
  · exact Video.driveA12_inv c _ h
  · exact Video.fetch_inv _ _ _ (fun _ _ k => k) h

theorem Video.backgroundStep_inv {cfg : Config} (c dot : Nat) {v : Video} (h : VideoInv cfg v) :
    VideoInv cfg (v.backgroundStep c dot) := by
  unfold Video.backgroundStep
  refine VideoInv.mapPpu ?_ (Ppu.mapRegs_shape _ _).inv
  split_ifs
  · exact Video.bgPhase_inv _ _ h
  · exact Video.dummyNt_inv _ _ h
  · exact h

/-! ### Sprites -/

theorem Ppu.writeSecOam_inv {cfg : Config} (i : Nat) (d : Byte) {p : Ppu} (h : PpuInv cfg p) :
    PpuInv cfg (p.writeSecOam i d) := by
  unfold Ppu.writeSecOam
  split_ifs with hi
  · exact { h with secOam := h.secOam.write hi d }
  · exact h

/-- The evaluator's part. -/
def EvalInv (e : Evaluator) : Prop := e.found ≤ 8 ∧ (e.phase = .copy → e.found < 8)

theorem PpuInv.withEv {cfg : Config} {p : Ppu} (h : PpuInv cfg p) {e : Evaluator} (he : EvalInv e) :
    PpuInv cfg { p with ev := e } := { h with found := he.1, copying := he.2 }

theorem Evaluator.nextSprite_inv {e : Evaluator} (h : EvalInv e) : EvalInv e.nextSprite := by
  refine ⟨h.1, fun hp => ?_⟩
  simp only [Evaluator.nextSprite] at hp ⊢
  split_ifs at hp
  exact h.2 hp

theorem Evaluator.copied_inv {e : Evaluator} (hf : e.found < 8) : EvalInv e.copied := by
  refine ⟨?_, fun hp => ?_⟩
  · simp only [Evaluator.copied, Evaluator.nextSprite]
    omega
  · simp only [Evaluator.copied, Evaluator.nextSprite] at hp ⊢
    split_ifs at hp
    all_goals simp_all
    all_goals omega

theorem Evaluator.copyStep_inv (b : Bool) {e : Evaluator} (h : EvalInv e) (hp : e.phase = .copy) :
    EvalInv (e.copyStep b) := by
  unfold Evaluator.copyStep
  split_ifs
  · exact h
  · exact Evaluator.nextSprite_inv h
  · exact Evaluator.copied_inv (h.2 hp)
  · exact h

theorem Ppu.evalAct_inv {cfg : Config} {p : Ppu} (h : PpuInv cfg p) : PpuInv cfg p.evalAct := by
  have he : EvalInv p.ev := ⟨h.found, h.copying⟩
  unfold Ppu.evalAct
  dsimp only
  split
  · rename_i hp
    exact (Ppu.writeSecOam_inv _ _ h).withEv (Evaluator.copyStep_inv _ he hp)
  · split_ifs
    · exact { h with copying := fun e => by simp at e }
    · exact h.withEv (Evaluator.nextSprite_inv (e := { p.ev with m := p.ev.m + 1 }) he)
  · exact h

theorem PpuInv.evalRead {cfg : Config} {p : Ppu} (h : PpuInv cfg p) : PpuInv cfg p.evalRead := { h with }

theorem Ppu.spriteEvalStep_inv {cfg : Config} (dot : Nat) {p : Ppu} (h : PpuInv cfg p) :
    PpuInv cfg (p.spriteEvalStep dot) := by
  have hr : PpuInv cfg { p with ev := p.ev.restart } :=
    h.withEv ⟨by simp [Evaluator.restart], by simp [Evaluator.restart]⟩
  unfold Ppu.spriteEvalStep
  dsimp only
  split_ifs
  · exact Ppu.writeSecOam_inv _ _ h
  · exact h
  · exact hr.evalRead
  · exact h.evalRead
  · exact Ppu.evalAct_inv hr
  · exact Ppu.evalAct_inv h
  · exact h

theorem Ppu.loadSlot_inv {cfg : Config} (i : Nat) (d : Byte) {p : Ppu} (h : PpuInv cfg p) : PpuInv cfg (p.loadSlot i d) :=
  { h with slots := by simp [Ppu.loadSlot, h.slots] }

theorem Video.spritePhase_inv {cfg : Config} (c i q : Nat) {v : Video} (h : VideoInv cfg v) :
    VideoInv cfg (v.spritePhase c i q) := by
  unfold Video.spritePhase
  split
  · exact Video.driveA12_inv c _ h
  · exact Video.fetch_inv _ _ _ (fun _ _ k => k) h
  · exact Video.driveA12_inv c _ h
  · exact Video.fetch_inv _ _ _ (fun _ _ k => k) h
  · exact Video.driveA12_inv c _ h
  · exact Video.fetch_inv _ _ _ (by intro d p k; exact { k with }) h
  · exact Video.driveA12_inv c _ h
  · exact Video.fetch_inv _ _ _ (fun d p k => Ppu.loadSlot_inv i d k) h

theorem Ppu.startSprites_inv {cfg : Config} {p : Ppu} (h : PpuInv cfg p) : PpuInv cfg p.startSprites := by
  refine { h with count := ?_ }
  have := h.found
  simp only [Ppu.startSprites, Ppu.fetchCount]
  split_ifs <;> omega

theorem Video.spriteFetchStep_inv {cfg : Config} (c dot : Nat) {v : Video} (h : VideoInv cfg v) :
    VideoInv cfg (v.spriteFetchStep c dot) := by
  unfold Video.spriteFetchStep
  split
  · refine (Video.spritePhase_inv _ _ _ ?_).mapPpu (Ppu.mapRegs_shape _ _).inv
    split_ifs
    · exact h.mapPpu Ppu.startSprites_inv
    · exact h
  · exact h

/-! ### The dot -/

theorem Ppu.flagEvents_shape (cfg : Config) (p : Ppu) : SameShape p (p.flagEvents cfg) := by
  unfold Ppu.flagEvents
  dsimp only
  split_ifs <;> exact ⟨rfl, rfl, rfl, rfl, rfl, rfl, rfl, rfl, rfl, rfl, rfl⟩

theorem frameFits.put {cfg : Config} {fb : FrameBuffer} (h : frameFits cfg fb) {y x : Nat}
    (hy : (y : Int) < cfg.region.visibleLines) (hx : x < 256) (c : Rgb) : frameFits cfg (putPixel fb y x c) := by
  obtain ⟨h1, h2⟩ := h
  have hl : ∀ line, lookupKey fb y = some line → sorted line = true ∧ ∀ p ∈ line, p.1 < 256 := by
    intro line he
    have : ∀ (l : FrameBuffer), lookupKey l y = some line → (y, line) ∈ l := by
      intro l
      induction l with
      | nil => simp [lookupKey]
      | cons q rest ih =>
        obtain ⟨k, v⟩ := q
        simp only [lookupKey]
        split_ifs with hk
        · rintro e; cases e; subst hk; simp
        · intro e; exact List.mem_cons_of_mem _ (ih e)
    exact (h2 _ (this fb he)).2
  have hold : sorted ((lookupKey fb y).getD []) = true ∧ ∀ p ∈ (lookupKey fb y).getD [], p.1 < 256 := by
    cases he : lookupKey fb y with
    | none => exact ⟨rfl, by simp⟩
    | some line => exact hl line he
  refine ⟨sorted_putKey _ _ _ h1, fun line hm => ?_⟩
  rcases mem_putKey _ _ _ _ hm with rfl | hm
  · refine ⟨hy, sorted_putKey _ _ _ hold.1, fun p hp => ?_⟩
    rcases mem_putKey _ _ _ _ hp with rfl | hp
    · exact hx
    · exact hold.2 p hp
  · exact h2 line hm

theorem Ppu.composePixel_inv {cfg : Config} (x : Nat) (hx : x < 256) {p : Ppu} (h : PpuInv cfg p)
    (hv : 0 ≤ p.pos.line ∧ p.pos.line < cfg.region.visibleLines) : PpuInv cfg (p.composePixel x) :=
  { h with frame := h.frame.put (by have := hv.1; have := hv.2; omega) hx _ }

theorem Ppu.pixelStep_inv {cfg : Config} {p : Ppu} (h : PpuInv cfg p) (hr : p.pos.renderingLine cfg = true) (dot : Nat) :
    PpuInv cfg (p.pixelStep dot) := by
  have hv : 0 ≤ p.pos.line → 0 ≤ p.pos.line ∧ p.pos.line < cfg.region.visibleLines := by
    intro h0
    simp only [Position.renderingLine, Position.visible, Bool.or_eq_true, decide_eq_true_eq, Bool.and_eq_true] at hr
    omega
  have hmap : PpuInv cfg (p.mapBg (.shiftAndReload dot)) := (Ppu.mapBg_shape _ p).inv h
  unfold Ppu.pixelStep
  dsimp only
  cases p.regs.renderingEnabled with
  | true =>
    simp only [if_true]
    split
    · rename_i hc
      simp only [Bool.and_eq_true, decide_eq_true_eq] at hc
      have h2 := Ppu.composePixel_inv (dot - 1) (by omega) hmap (hv hc.2)
      exact { h2 with slots := by simpa [Sprites.decrement] using h2.slots }
    · exact hmap
  | false =>
    simp only [Bool.false_eq_true, if_false]
    split
    · rename_i hc
      simp only [Bool.and_eq_true, decide_eq_true_eq] at hc
      exact Ppu.composePixel_inv (dot - 1) (by omega) h (hv hc.2)
    · exact h

theorem Video.fetchStep_inv {cfg : Config} (c dot : Nat) {v : Video} (h : VideoInv cfg v) :
    VideoInv cfg (v.fetchStep c dot) := by
  unfold Video.fetchStep
  refine Video.spriteFetchStep_inv _ _ ?_
  split_ifs
  · exact (Video.backgroundStep_inv c dot h).mapPpu (Ppu.spriteEvalStep_inv dot)
  · exact Video.backgroundStep_inv c dot h

theorem Video.renderStep_inv {cfg : Config} (c : Nat) {v : Video} (h : VideoInv cfg v)
    (hr : v.ppu.pos.renderingLine cfg = true) : VideoInv cfg (v.renderStep c) := by
  unfold Video.renderStep
  dsimp only
  have h1 := h.mapPpu (f := .pixelStep v.ppu.pos.dot) (fun k => Ppu.pixelStep_inv k hr _)
  split_ifs
  · exact Video.fetchStep_inv _ _ h1
  · exact h1

theorem Ppu.delayedHit_shape (p : Ppu) : SameShape p p.delayedHit := by
  unfold Ppu.delayedHit
  split_ifs <;> exact ⟨rfl, rfl, rfl, rfl, rfl, rfl, rfl, rfl, rfl, rfl, rfl⟩

theorem Ppu.advance_inv {cfg : Config} {p : Ppu} (h : PpuInv cfg p) : PpuInv cfg (p.advance cfg) := by
  have hl := h.line
  have hd := h.dot
  have hn : 3 ≤ cfg.region.numLines := by cases cfg.region <;> simp [Region.numLines]
  refine { h with line := ?_, dot := ?_ }
  · simp only [Ppu.advance, Position.advance]
    split_ifs
    all_goals simp
    all_goals omega
  · simp only [Ppu.advance, Position.advance]
    split_ifs
    all_goals simp
    all_goals omega

/-- A dot keeps the invariant. -/
theorem Video.dot_inv {cfg : Config} (c : Nat) {v : Video} (h : VideoInv cfg v) : VideoInv cfg (v.dot cfg c) := by
  have h1 := h.mapPpu (f := .flagEvents cfg) (Ppu.flagEvents_shape cfg _).inv
  have h2 : VideoInv cfg (if (v.mapPpu (.flagEvents cfg)).ppu.pos.renderingLine cfg = true then
      (v.mapPpu (.flagEvents cfg)).renderStep c else v.mapPpu (.flagEvents cfg)) := by
    split_ifs with hr
    · exact Video.renderStep_inv c h1 hr
    · exact h1
  exact (h2.mapPpu (Ppu.delayedHit_shape _).inv).mapPpu Ppu.advance_inv

/-! ### Ports -/

theorem resetDecay_length (mask : Byte) (l : List Nat) (i : Nat) : (resetDecay mask i l).length = l.length := by
  induction l generalizing i with
  | nil => rfl
  | cons n rest ih => simp [resetDecay, ih]

theorem Ppu.refresh_shape (mask value : Byte) (p : Ppu) : SameShape p (p.refresh mask value) :=
  ⟨rfl, rfl, rfl, rfl, rfl, rfl, resetDecay_length _ _ _, rfl, rfl, rfl, rfl⟩

theorem palIndex_lt (a : PpuAddr) : palIndex a < 32 := by
  have h : (a &&& 0x1F#14).toNat < 32 := by
    have := Nat.and_le_right (n := a.toNat) (m := 31)
    simp only [BitVec.toNat_and]; simp; omega
  unfold palIndex
  dsimp only
  split_ifs
  · have := Nat.and_le_right (n := (a &&& 0x1F#14).toNat) (m := 15)
    simp only [BitVec.toNat_and] at this ⊢; simp at this ⊢; omega
  · exact h

theorem Ppu.setPalette_inv {cfg : Config} (a : PpuAddr) (d : Byte) {p : Ppu} (h : PpuInv cfg p) :
    PpuInv cfg (p.setPalette (palIndex a) d) := by
  refine { h with palette := ⟨h.palette.1.write (palIndex_lt a) _, fun i => ?_⟩ }
  simp only [Ppu.setPalette, Memory.read_write]
  split_ifs
  · have := Nat.and_le_right (n := d.toNat) (m := 63)
    simp only [BitVec.toNat_and]; simp; omega
  · exact h.palette.2 i

theorem ntIndex_lt (m : Mirroring) (a : PpuAddr) : ntIndex m a < 4096 := by
  have := Nat.and_le_right (n := (mirror m a).toNat) (m := 4095)
  unfold ntIndex
  simp only [BitVec.toNat_and]; simp; omega

theorem Video.ppuWrite_inv {cfg : Config} (a : PpuAddr) (d : Byte) {v : Video} (h : VideoInv cfg v) :
    VideoInv cfg (v.ppuWrite a d) := by
  unfold Video.ppuWrite
  split_ifs
  · have e := Cart.writeChr_only v.cart a d
    exact ⟨h.ppu, by dsimp only; rw [e]; exact h.nt, h.chr.writeChr a d, by dsimp only; rw [e]; exact h.prg⟩
  · exact { h with nt := h.nt.write (ntIndex_lt _ _) d }
  · exact h.mapPpu (Ppu.setPalette_inv a d)

theorem Ppu.writeOamData_inv {cfg : Config} (d : Byte) {p : Ppu} (h : PpuInv cfg p) : PpuInv cfg (p.writeOamData cfg d) := by
  unfold Ppu.writeOamData
  split_ifs
  · exact { h with }
  · exact { h with oam := h.oam.write p.regs.oamAddr.isLt d }

theorem Video.writePort_inv {cfg : Config} (c : Nat) (port : BitVec 3) (d : Byte) {v : Video} (h : VideoInv cfg v) :
    VideoInv cfg (v.writePort cfg c port d) := by
  have h1 := h.mapPpu (f := .refresh 0xFF#8 d) (Ppu.refresh_shape _ _ _).inv
  unfold Video.writePort
  dsimp only
  generalize v.mapPpu (.refresh 0xFF#8 d) = w at h1
  split_ifs
  · exact h1.mapPpu (Ppu.mapRegs_shape _ _).inv
  · exact h1.mapPpu (Ppu.mapRegs_shape _ _).inv
  · exact h1
  · exact h1.mapPpu (Ppu.mapRegs_shape _ _).inv
  · exact h1.mapPpu (Ppu.writeOamData_inv d)
  · exact h1.mapPpu (Ppu.mapRegs_shape _ _).inv
  · unfold Video.writeAddr
    dsimp only
    split_ifs
    · exact Video.driveA12_inv _ _ (h1.mapPpu (Ppu.mapRegs_shape _ _).inv)
    · exact h1.mapPpu (Ppu.mapRegs_shape _ _).inv
  · unfold Video.writeData
    dsimp only
    split_ifs
    · exact (h1.mapPpu (Ppu.setPalette_inv _ d)).mapPpu (Ppu.mapRegs_shape _ _).inv
    · exact h1.mapPpu (Ppu.mapRegs_shape _ _).inv
    · exact (Video.driveA12_inv _ _ (Video.ppuWrite_inv _ d h1)).mapPpu (Ppu.mapRegs_shape _ _).inv

theorem Video.afterPort_inv {cfg : Config} (c : Nat) (port : BitVec 3) {v : Video} (h : VideoInv cfg v) :
    VideoInv cfg (v.afterPort cfg c port) := by
  unfold Video.afterPort
  split_ifs
  · refine h.mapPpu fun k => ?_
    have := (Ppu.refresh_shape 0xE0#8 (v.ppu.statusValue cfg) v.ppu).inv k
    exact { this with }
  · exact h.mapPpu (Ppu.refresh_shape _ _ _).inv
  · unfold Video.afterData
    dsimp only
    split
    · exact h.mapPpu (Ppu.mapRegs_shape _ _).inv
    · refine VideoInv.mapPpu ?_ (Ppu.mapRegs_shape _ _).inv
      refine Video.driveA12_inv _ _ (h.mapPpu fun k => ?_)
      exact (Ppu.refresh_shape _ _ _).inv ((Ppu.mapRegs_shape _ _).inv k)
  · exact h

/-! ### Cycles -/

theorem Inv.video {s : State} (h : Inv s) : VideoInv s.cfg s.video := ⟨h.ppu, h.nt, h.chr, h.prg⟩

theorem Inv.withVideo {s : State} (h : Inv s) {v : Video} (hv : VideoInv s.cfg v) : Inv (s.withVideo v) :=
  ⟨h.ram, hv.ppu, hv.nt, hv.chr, hv.prg, h.dma⟩

theorem ppuDot_inv {s : State} (h : Inv s) : Inv (ppuDot s) := h.withVideo (Video.dot_inv _ h.video)

theorem sampleInterrupts_inv {s : State} (h : Inv s) : Inv (sampleInterrupts s) :=
  ⟨h.ram, h.ppu, h.nt, h.chr, h.prg, h.dma⟩

theorem tickDevices_inv {s : State} (h : Inv s) : Inv (tickDevices s) := ⟨h.ram, h.ppu, h.nt, h.chr, h.prg, h.dma⟩

theorem openBusDecay_inv {s : State} (h : Inv s) (n : Nat) : Inv (openBusDecay n s) :=
  ⟨h.ram, { h.ppu with decay := by simpa [OpenBus.tick] using h.ppu.decay }, h.nt, h.chr, h.prg, h.dma⟩

theorem beforeAccess_inv {s : State} (h : Inv s) : Inv (beforeAccess s) :=
  sampleInterrupts_inv (ppuDot_inv (ppuDot_inv (tickDevices_inv h)))

theorem afterAccess_inv {s : State} (h : Inv s) : Inv (afterAccess s) := by
  have h1 : Inv (dotsAfter s) := by
    unfold dotsAfter
    split_ifs
    · exact ppuDot_inv (ppuDot_inv h)
    · exact ppuDot_inv h
  have h2 := openBusDecay_inv h1 (cycleDots s)
  exact ⟨h2.ram, h2.ppu, h2.nt, h2.chr, h2.prg, h2.dma⟩

theorem ramIndex_lt (a : Word) : ramIndex a < 2048 := by
  have := Nat.and_le_right (n := a.toNat) (m := 2047)
  unfold ramIndex
  simp only [BitVec.toNat_and]; simp; omega

theorem Inv.ofKeeps {s t : State} (h : Inv s) (hp : PpuInv t.cfg t.ppu) (hr : t.ram = s.ram)
    (hc : CartKeeps s.cart t.cart) (hd : t.dma = s.dma) : Inv t :=
  ⟨by rw [hr]; exact h.ram, hp, by rw [hc.nt]; exact h.nt, hc.chrFits h.chr,
    by rw [hc.prg, hc.prgSize]; exact h.prg, by rw [hd]; exact h.dma⟩

theorem readEffect_inv (a : Word) {s : State} (h : Inv s) : Inv (readEffect a s) := by
  unfold readEffect
  split
  · exact h
  · exact h.withVideo (Video.afterPort_inv _ _ h.video)
  · exact ⟨h.ram, h.ppu, h.nt, h.chr, h.prg, h.dma⟩
  · exact h
  · exact ⟨h.ram, h.ppu, h.nt, h.chr, h.prg, h.dma⟩
  · exact ⟨h.ram, h.ppu, h.nt, h.chr, h.prg, h.dma⟩
  · exact h
  · exact h.ofKeeps h.ppu rfl (Cart.note_keeps _ _).toCartKeeps rfl

theorem writeEffect_inv (a : Word) (d : Byte) {s : State} (h : Inv s) : Inv (writeEffect a d s) := by
  unfold writeEffect
  split
  · exact ⟨h.ram.write (ramIndex_lt a) d, h.ppu, h.nt, h.chr, h.prg, h.dma⟩
  · exact h.withVideo (Video.writePort_inv _ _ _ h.video)
  · exact ⟨h.ram, h.ppu, h.nt, h.chr, h.prg, h.dma⟩
  · exact ⟨h.ram, h.ppu, h.nt, h.chr, h.prg, by simp⟩
  · exact ⟨h.ram, h.ppu, h.nt, h.chr, h.prg, h.dma⟩
  · exact ⟨h.ram, h.ppu, h.nt, h.chr, h.prg, h.dma⟩
  · exact h
  · exact h.ofKeeps h.ppu rfl (Cart.writePrg_keeps _ _ _).toCartKeeps rfl

theorem perform_inv (act : Act) {s : State} (h : Inv s) : Inv (perform act s) := by
  cases act with
  | read a => have := readEffect_inv a h; exact ⟨this.ram, this.ppu, this.nt, this.chr, this.prg, this.dma⟩
  | write a d => have := writeEffect_inv a d h; exact ⟨this.ram, this.ppu, this.nt, this.chr, this.prg, this.dma⟩
  | idle => exact h

/-- A CPU cycle keeps the invariant. -/
theorem busCycle_inv (act : State → Act) {s : State} (h : Inv s) : Inv (busCycle act s) :=
  afterAccess_inv (perform_inv _ (beforeAccess_inv h))

theorem Dma.advance_inv (cycle : Nat) (d : Byte) (m : Dma) (h : m.index ≤ 256 ∧ (m.active = true → m.index < 256))
    (ha : m.active = true) :
    (m.advance cycle d).index ≤ 256 ∧ ((m.advance cycle d).active = true → (m.advance cycle d).index < 256) := by
  have h2 := h.2 ha
  unfold Dma.advance
  split
  · exact h
  · exact h
  · exact h
  · split_ifs <;> simp <;> omega

/-! ### DMA cycles, CPU cycles, reset -/

/-- The DMA controller over a cycle of its own: what it writes is $2004. -/
theorem busCycle_dma (act : State → Act) (s : State) (h : ∀ d, act (beforeAccess s) ≠ .write 0x4014#16 d) :
    (busCycle act s).dma = s.dma := by
  have ha : (perform (act (beforeAccess s)) (beforeAccess s)).dma = s.dma := by
    cases e : act (beforeAccess s) with
    | read a => exact (readEffect_keeps a _).dma.trans (by simp)
    | idle => simp [perform]
    | write a d =>
      have hn : target a ≠ .oamDma := by
        intro ht
        refine h d ?_
        have : a = 0x4014#16 := by
          unfold target at ht
          dsimp only at ht
          apply BitVec.eq_of_toNat_eq
          split_ifs at ht
          assumption
        rw [e, this]
      exact (writeEffect_keeps a d _).dma.trans (by simp [hn])
  exact (afterAccess_keeps _).dma.trans ha

theorem dmaAct_ne (s : State) (d : Byte) : dmaAct s ≠ .write 0x4014#16 d := by
  unfold dmaAct
  split <;> simp [oamDataPort]

theorem dmaCycle_inv {s : State} (h : Inv s) (ha : s.dma.active = true) : Inv (dmaCycle s) := by
  have h1 := busCycle_inv dmaAct h
  have hd : (busCycle dmaAct s).dma = s.dma := busCycle_dma _ _ fun d => dmaAct_ne _ d
  exact ⟨h1.ram, h1.ppu, h1.nt, h1.chr, h1.prg, Dma.advance_inv _ _ _ (by rw [hd]; exact h.dma) (by rw [hd]; exact ha)⟩

theorem drainDma_inv (fuel : Nat) {s : State} (h : Inv s) : Inv (drainDma fuel s) := by
  induction fuel generalizing s with
  | zero => exact h
  | succ n ih =>
    rw [drainDma]
    split_ifs with hc
    · simp only [Bool.and_eq_true] at hc
      exact ih (dmaCycle_inv h hc.1)
    · exact h

theorem endCycle_inv (kind : CycleKind) {s : State} (h : Inv s) : Inv (endCycle kind s) := by
  cases kind <;> exact ⟨h.ram, h.ppu, h.nt, h.chr, h.prg, h.dma⟩

/-- A cycle of the CPU keeps the invariant, whatever its primitive, if its update does. -/
theorem cyc_inv (kind : CycleKind) (act : State → Act) (upd : Byte → State → State)
    (hu : ∀ d s, Inv s → Inv (upd d s)) {s : State} (h : Inv s) : Inv (cyc kind act upd s) := by
  have hd := drainDma_inv dmaFuel h
  unfold cyc
  dsimp only
  split_ifs
  · exact hd
  · exact endCycle_inv _ (hu _ _ (busCycle_inv _ hd))

/-- An update of the CPU alone keeps the invariant. -/
theorem cpuCyc_inv (kind : CycleKind) (act : Cpu → Act) (upd : Byte → Cpu → Cpu) {s : State} (h : Inv s) :
    Inv (cpuCyc kind act upd s) :=
  cyc_inv kind _ _ (by intro _ _ k; exact ⟨k.ram, k.ppu, k.nt, k.chr, k.prg, k.dma⟩) h

theorem warmReset_inv {s : State} (h : Inv s) : Inv (warmReset s) where
  ram := h.ram
  ppu :=
    { oam := h.ppu.oam, secOam := h.ppu.secOam, palette := h.ppu.palette, frame := h.ppu.frame
      line := by
        show -1 ≤ (-1 : Int) ∧ (-1 : Int) ≤ s.cfg.region.numLines - 2
        cases s.cfg.region <;> simp [Region.numLines]
      dot := by simp [warmReset, Ppu.warmReset, Position.reset]
      decay := rfl, slots := rfl
      count := by simp [warmReset, Ppu.warmReset, Sprites.reset]
      found := by simp [warmReset, Ppu.warmReset, Evaluator.reset]
      copying := by simp [warmReset, Ppu.warmReset, Evaluator.reset] }
  nt := h.nt
  chr := h.chr
  prg := h.prg
  dma := ⟨h.dma.1, by simp [warmReset]⟩

theorem vectorLow_inv (kind : IntKind) {s : State} (h : Inv s) : Inv (vectorLow kind s) := by
  unfold vectorLow
  exact cyc_inv _ _ _ (by intro _ _ k; exact ⟨k.ram, k.ppu, k.nt, k.chr, k.prg, k.dma⟩) h

theorem vectorHigh_inv {s : State} (h : Inv s) : Inv (vectorHigh s) := by
  unfold vectorHigh
  exact cyc_inv _ _ _ (by intro _ _ k; exact ⟨k.ram, k.ppu, k.nt, k.chr, k.prg, k.dma⟩) h

theorem takeInterrupt_inv (kind : IntKind) {s : State} (h : Inv s) : Inv (takeInterrupt kind s) := by
  unfold takeInterrupt push
  dsimp only
  exact vectorHigh_inv (vectorLow_inv _ (cpuCyc_inv _ _ _ (cpuCyc_inv _ _ _ (cpuCyc_inv _ _ _ h))))

theorem interruptSequence_inv (kind : IntKind) {s : State} (h : Inv s) : Inv (interruptSequence kind s) := by
  have he : Inv (interruptEntry s) := by
    unfold interruptEntry dummyPc
    exact cpuCyc_inv _ _ _ (cpuCyc_inv _ _ _ h)
  cases kind with
  | brk =>
    refine takeInterrupt_inv .brk ?_
    unfold brkEntry
    exact cpuCyc_inv _ _ _ (cpuCyc_inv _ _ _ h)
  | irq => exact takeInterrupt_inv _ he
  | nmi => exact takeInterrupt_inv _ he

theorem resetSequence_inv {s : State} (h : Inv s) : Inv (resetSequence s) := by
  unfold resetSequence dummyPush dummyPc
  dsimp only
  exact cyc_inv _ _ _ (by intro _ _ k; exact ⟨k.ram, k.ppu, k.nt, k.chr, k.prg, k.dma⟩) (cpuCyc_inv _ _ _
    (cpuCyc_inv _ _ _ (cpuCyc_inv _ _ _ (cpuCyc_inv _ _ _ (cpuCyc_inv _ _ _ (cpuCyc_inv _ _ _ h))))))

end Sys2Proof.Machine
end

