-- ==== Sys2Proof/Laws/Dma.lean ====
section
/-! SUPPORT. OAM DMA: what one of its cycles does, the state after k of them, and that a run of the machine is those cycles. -/

namespace Sys2Proof.Machine

/-! ### One cycle -/

/-- What a DMA cycle leaves alone. -/
structure DmaKeeps (s t : State) : Prop where
  cpu : t.cpu = s.cpu
  pending : t.arb.pending = s.arb.pending
  ram : t.ram = s.ram
  resetAt : t.resetAt = s.resetAt
  cfg : t.cfg = s.cfg
  kind : t.cart.kind = s.cart.kind
  prg : t.cart.prg = s.cart.prg
  prgSize : t.cart.prgSize = s.cart.prgSize
  mask : t.ppu.regs.mask = s.ppu.regs.mask

theorem DmaKeeps.refl (s : State) : DmaKeeps s s := ⟨rfl, rfl, rfl, rfl, rfl, rfl, rfl, rfl, rfl⟩

theorem DmaKeeps.trans {s t u : State} (h : DmaKeeps s t) (k : DmaKeeps t u) : DmaKeeps s u :=
  ⟨k.cpu.trans h.cpu, k.pending.trans h.pending, k.ram.trans h.ram, k.resetAt.trans h.resetAt, k.cfg.trans h.cfg,
    k.kind.trans h.kind, k.prg.trans h.prg, k.prgSize.trans h.prgSize, k.mask.trans h.mask⟩

theorem target_oamDataPort : target oamDataPort = .ppu ∧ portOf oamDataPort = 4#3 := by decide

theorem dmaCycle_keeps (s : State) : DmaKeeps s (dmaCycle s) := by
  have hb : (busCycle dmaAct s).arb.pending = s.arb.pending := by
    rw [busCycle_arb]; simp [beforeAccess, sampleInterrupts]
  by_cases hw : (dmaAct (beforeAccess s)).isWrite = true
  · have ha : dmaAct (beforeAccess s) = .write oamDataPort (beforeAccess s).dma.data := by
      unfold dmaAct at hw ⊢
      revert hw
      cases (beforeAccess s).dma.step <;> simp [Act.isWrite]
    have h1 := beforeAccess_keeps s
    have h2 := writeEffect_keeps oamDataPort (beforeAccess s).dma.data (beforeAccess s)
    have h3 := afterAccess_keeps (perform (dmaAct (beforeAccess s)) (beforeAccess s))
    rw [ha] at h3
    have hp := h2.port target_oamDataPort.1
    rw [target_oamDataPort.2] at hp
    refine ⟨busCycle_cpu _ _, hb, ?_, ?_, ?_, ?_, ?_, ?_, ?_⟩ <;> (simp only [dmaCycle, busCycle]; rw [ha])
    · rw [h3.ram]
      show (writeEffect _ _ _).ram = _
      rw [h2.ram, target_oamDataPort.1]; simp
    · rw [h3.resetAt]
      exact h2.resetAt.trans h1.resetAt
    · rw [h3.cfg]
      exact h2.cfg.trans h1.cfg
    · rw [h3.cart.kind]
      exact h2.kind.trans h1.cart.kind
    · rw [h3.cart.prg]
      exact h2.prg.trans h1.cart.prg
    · rw [h3.cart.prgSize]
      exact h2.prgSize.trans h1.cart.prgSize
    · rw [h3.ppu.mask]
      exact (hp.mask.trans (by simp)).trans h1.ppu.mask
  · have k := busCycle_keeps dmaAct s (by simpa using hw)
    exact ⟨busCycle_cpu _ _, hb, k.ram, k.resetAt, k.cfg, k.cart.kind, k.cart.prg, k.cart.prgSize, k.ppu.mask⟩

theorem dmaCycle_cycle (s : State) : (dmaCycle s).cycle = s.cycle + 1 := busCycle_cycle _ _

theorem dmaCycle_dma (s : State) : (dmaCycle s).dma = s.dma.advance s.cycle (busByte dmaAct s) := by
  show (busCycle dmaAct s).dma.advance _ _ = _
  rw [busCycle_dma dmaAct s (fun d => dmaAct_ne (beforeAccess s) d)]

/-! ### The state after k cycles -/

/-- `k` DMA cycles. -/
def dmaCycles : Nat → State → State
  | 0, s => s
  | k + 1, s => dmaCycle (dmaCycles k s)

theorem dmaCycles_keeps (k : Nat) (s : State) : DmaKeeps s (dmaCycles k s) := by
  induction k with
  | zero => exact .refl s
  | succ k ih => exact ih.trans (dmaCycle_keeps _)

theorem dmaCycles_cycle (k : Nat) (s : State) : (dmaCycles k s).cycle = s.cycle + k := by
  induction k with
  | zero => rfl
  | succ k ih => rw [dmaCycles, dmaCycle_cycle, ih]; omega

theorem dmaCycles_shift (k : Nat) (s : State) : dmaCycles k (dmaCycle s) = dmaCycles (k + 1) s := by
  induction k with
  | zero => rfl
  | succ k ih => rw [dmaCycles, ih]; rfl

/-- Cycles before the first transfer: the halt, and the alignment if the halt falls on an even cycle (49_oam_dma.md
R502). -/
def dmaLead (s : State) : Nat := if s.cycle % 2 = 0 then 2 else 1

/-- A DMA about to start: its first cycle is the halt. -/
structure DmaStarts (s : State) : Prop where
  active : s.dma.active = true
  step : s.dma.step = .halt
  index : s.dma.index = 0

/-- The controller after the lead. -/
theorem dma_lead {s : State} (h : DmaStarts s) :
    (dmaCycles (dmaLead s) s).dma = { s.dma with step := .read } := by
  unfold dmaLead
  by_cases he : s.cycle % 2 = 0
  · simp [he, dmaCycles, dmaCycle_dma, Dma.advance, h.step]
  · simp [he, dmaCycles, dmaCycle_dma, Dma.advance, h.step]

theorem dma_lead_active {s : State} (h : DmaStarts s) {k : Nat} (hk : k < dmaLead s) :
    (dmaCycles k s).dma.active = true := by
  have : k = 0 ∨ k = 1 ∧ s.cycle % 2 = 0 := by
    unfold dmaLead at hk; split_ifs at hk with he
    · by_cases k = 0
      · exact .inl ‹_›
      · exact .inr ⟨by omega, he⟩
    · exact .inl (by omega)
  rcases this with rfl | ⟨rfl, he⟩
  · exact h.active
  · simp [dmaCycles, dmaCycle_dma, Dma.advance, h.step, he, h.active]

/-- The controller after the lead and `j` transfer cycles: `j / 2` bytes done, a read or a write to come. -/
theorem dma_transfer {s : State} (h : DmaStarts s) (j : Nat) (hj : j < 512) :
    (dmaCycles (dmaLead s + j) s).dma.active = true ∧ (dmaCycles (dmaLead s + j) s).dma.page = s.dma.page
      ∧ (dmaCycles (dmaLead s + j) s).dma.index = j / 2
      ∧ (dmaCycles (dmaLead s + j) s).dma.step = if j % 2 = 0 then .read else .write := by
  induction j with
  | zero => rw [Nat.add_zero, dma_lead h]; exact ⟨h.active, rfl, h.index, rfl⟩
  | succ j ih =>
    obtain ⟨a, b, c, d⟩ := ih (by omega)
    rw [← Nat.add_assoc, dmaCycles, dmaCycle_dma]
    by_cases he : j % 2 = 0
    · rw [if_pos he] at d
      have h1 : (j + 1) % 2 = 1 := by omega
      have h2 : (j + 1) / 2 = j / 2 := by omega
      simp [Dma.advance, d, a, b, c, h1, h2]
    · rw [if_neg he] at d
      have h1 : (j + 1) % 2 = 0 := by omega
      have h2 : (j + 1) / 2 = j / 2 + 1 := by omega
      have h3 : ¬ 256 ≤ j / 2 + 1 := by omega
      simp [Dma.advance, d, a, b, c, h1, h2, h3]

theorem dma_last {s : State} (h : DmaStarts s) (j : Nat) (hj : j = 511) :
    (dmaCycles (dmaLead s + j + 1) s).dma.active = false := by
  obtain ⟨a, b, c, d⟩ := dma_transfer h j (by omega)
  have h1 : ¬ j % 2 = 0 := by omega
  have h2 : 256 ≤ j / 2 + 1 := by omega
  rw [if_neg h1] at d
  rw [dmaCycles, dmaCycle_dma]
  simp only [Dma.advance, d, c, h2, if_true]

/-- The cycles of a DMA (49_oam_dma.md R504). -/
def dmaLength (s : State) : Nat := dmaLead s + 512

theorem dma_active_before {s : State} (h : DmaStarts s) {k : Nat} (hk : k < dmaLength s) :
    (dmaCycles k s).dma.active = true := by
  by_cases hl : k < dmaLead s
  · exact dma_lead_active h hl
  · have := (dma_transfer h (k - dmaLead s) (by unfold dmaLength at hk; omega)).1
    rwa [show dmaLead s + (k - dmaLead s) = k by omega] at this

theorem dma_done {s : State} (h : DmaStarts s) : (dmaCycles (dmaLength s) s).dma.active = false := by
  have e : dmaLength s = dmaLead s + 511 + 1 := by unfold dmaLength; omega
  rw [e]
  exact dma_last h 511 rfl

/-! ### The run -/

/-- The host asserts no reset at the next `n` boundaries. -/
def noReset (n : Nat) (s : State) : Prop := ∀ m ∈ s.resetAt.head?, s.cycle + n ≤ m

theorem resetDue_of_noReset {n k : Nat} {s t : State} (h : noReset n s) (hr : t.resetAt = s.resetAt)
    (hc : t.cycle = s.cycle + k) (hk : k < n) : resetDue t = false := by
  unfold resetDue
  split
  · rfl
  · rename_i m l e
    have := h m (by rw [← hr, e]; simp)
    simp; omega

theorem step_of_dma {s : State} (hm : s.cpu.mode ≠ .refused) (hr : resetDue s = false) (ha : s.dma.active = true) :
    step s = .next (dmaCycle s) := by
  simp [step, stepAs, hm, hr, ha]

theorem run_succ {M : Host.Core} (k : Nat) {s t : M.State} (h : M.step s = .next t) : M.run (k + 1) s = M.run k t := by
  rw [Host.Core.run, h]

theorem core_run_succ (k : Nat) {s t : State} (h : step s = .next t) : Sys2Proof.core.run (k + 1) s = Sys2Proof.core.run k t :=
  run_succ (M := Sys2Proof.core) k h

theorem run_dma {s : State} (h : DmaStarts s) (hm : s.cpu.mode ≠ .refused) (hr : noReset 514 s) {k : Nat}
    (hk : k ≤ dmaLength s) : Sys2Proof.core.run k s = .next (dmaCycles k s) := by
  have hl : dmaLength s ≤ 514 := by unfold dmaLength dmaLead; split_ifs <;> omega
  have key : ∀ n j, j + n ≤ dmaLength s → Sys2Proof.core.run n (dmaCycles j s) = .next (dmaCycles (j + n) s) := by
    intro n
    induction n with
    | zero => intro j _; rfl
    | succ n ih =>
      intro j hj
      have k0 := dmaCycles_keeps j s
      rw [core_run_succ n (step_of_dma (by rw [k0.cpu]; exact hm)
        (resetDue_of_noReset hr k0.resetAt (dmaCycles_cycle j s) (by omega)) (dma_active_before h (by omega)))]
      have := ih (j + 1) (by omega)
      rw [show j + (n + 1) = j + 1 + n by omega]
      exact this
  have := key k 0 (by omega)
  rw [Nat.zero_add] at this
  exact this

theorem drainDma_start {s : State} (h : DmaStarts s) (hr : noReset 514 s) :
    drainDma dmaFuel s = dmaCycles (dmaLength s) s := by
  have hl : dmaLength s ≤ 514 := by unfold dmaLength dmaLead; split_ifs <;> omega
  have key : ∀ n j fuel, j + n = dmaLength s → n ≤ fuel →
      drainDma fuel (dmaCycles j s) = dmaCycles (dmaLength s) s := by
    intro n
    induction n with
    | zero =>
      intro j fuel hj _
      have : j = dmaLength s := by omega
      subst this
      exact drainDma_of_inactive _ (dma_done h)
    | succ n ih =>
      intro j fuel hj hf
      obtain ⟨fuel, rfl⟩ : ∃ g, fuel = g + 1 := ⟨fuel - 1, by omega⟩
      have k0 := dmaCycles_keeps j s
      rw [drainDma, dma_active_before h (by omega),
        resetDue_of_noReset hr k0.resetAt (dmaCycles_cycle j s) (by omega)]
      simp only [Bool.not_false, Bool.and_self, if_true]
      exact ih (j + 1) fuel (by omega) (by omega)
  exact key (dmaLength s) 0 dmaFuel (by omega) hl

/-! ### What lasts through the dots of a DMA -/

/-- What holds for the next `n` dots, whatever they do but move the position. -/
structure Lasts (P : Nat → State → Prop) : Prop where
  same : ∀ {n : Nat} {s t : State}, t.ppu.pos.place = s.ppu.pos.place → t.ppu.regs.mask = s.ppu.regs.mask →
    t.cfg = s.cfg → P n s → P n t
  dot : ∀ {n : Nat} {s : State}, P (n + 1) s → P n (ppuDot s)
  mono : ∀ {n : Nat} {s : State}, P (n + 1) s → P n s

/-- No dot of the next `n` is one of rendering (48_ppu_pipeline.md R442). -/
def Blank (n : Nat) (s : State) : Prop :=
  s.ppu.regs.renderingEnabled = false
    ∨ (s.cfg.region.visibleLines ≤ s.ppu.pos.line
      ∧ 341 * s.ppu.pos.line + min s.ppu.pos.dot 340 + n < 341 * (s.cfg.region.numLines - 1))

/-- Every dot of the next `n` is one of rendering. -/
def Drawing (n : Nat) (s : State) : Prop :=
  s.ppu.regs.renderingEnabled = true ∧ -1 ≤ s.ppu.pos.line
    ∧ 341 * s.ppu.pos.line + min s.ppu.pos.dot 340 + (if s.ppu.pos.line = -1 then 1 else 0) + n
      < 341 * s.cfg.region.visibleLines

theorem visibleLines_bounds (r : Region) : 0 < r.visibleLines ∧ r.visibleLines < r.numLines - 1 := by cases r <;> decide

theorem Blank.inactive {n : Nat} {s : State} (h : Blank n s) : s.ppu.renderingActive s.cfg = false := by
  unfold Ppu.renderingActive Position.renderingLine Position.visible
  have := visibleLines_bounds s.cfg.region
  rcases h with h | ⟨h1, -⟩
  · rw [h]; rfl
  · have e1 : ¬ s.ppu.pos.line = -1 := by omega
    have e2 : ¬ s.ppu.pos.line < s.cfg.region.visibleLines := by omega
    simp [e1, e2]

theorem Drawing.active {n : Nat} {s : State} (h : Drawing n s) : s.ppu.renderingActive s.cfg = true := by
  obtain ⟨h1, h2, h3⟩ := h
  unfold Ppu.renderingActive Position.renderingLine Position.visible
  rw [h1]
  by_cases e : s.ppu.pos.line = -1
  · simp [e]
  · have e2 : s.ppu.pos.line < s.cfg.region.visibleLines := by omega
    have e1 : 0 ≤ s.ppu.pos.line := by omega
    simp [e1, e2]

theorem ppuDot_line_dot (s : State) :
    ((ppuDot s).ppu.pos.line = (s.ppu.pos.advance s.cfg s.ppu.regs.renderingEnabled).line)
      ∧ (ppuDot s).ppu.pos.dot = (s.ppu.pos.advance s.cfg s.ppu.regs.renderingEnabled).dot
      ∧ (ppuDot s).ppu.regs.mask = s.ppu.regs.mask ∧ (ppuDot s).cfg = s.cfg := by
  have h := (Video.dot_effect s.cfg s.cycle s.video).1
  exact ⟨congrArg (·.1) h, congrArg (·.2.1) h, (ppuDot_keeps s).ppu.mask, rfl⟩

theorem renderingEnabled_of_mask {s t : State} (h : t.ppu.regs.mask = s.ppu.regs.mask) :
    t.ppu.regs.renderingEnabled = s.ppu.regs.renderingEnabled := by
  unfold PpuRegs.renderingEnabled PpuRegs.bgEn PpuRegs.sprEn; rw [h]

/-- `Advance()` by cases (48_ppu_pipeline.md R443). -/
theorem advance_cases (cfg : Config) (on : Bool) (p : Position) :
    (p.line = -1 ∧ p.dot = 339 ∧ (p.advance cfg on).line = 0 ∧ (p.advance cfg on).dot = 0)
      ∨ (p.dot < 340 ∧ (p.advance cfg on).line = p.line ∧ (p.advance cfg on).dot = p.dot + 1)
      ∨ (340 ≤ p.dot ∧ p.line < cfg.region.numLines - 2 ∧ (p.advance cfg on).line = p.line + 1 ∧ (p.advance cfg on).dot = 0)
      ∨ (340 ≤ p.dot ∧ cfg.region.numLines - 2 ≤ p.line ∧ (p.advance cfg on).line = -1 ∧ (p.advance cfg on).dot = 0) := by
  unfold Position.advance
  split_ifs with c1 c2 c3
  · simp only [Bool.and_eq_true, decide_eq_true_eq] at c1
    exact .inl ⟨c1.1.1.1.1, c1.1.1.1.2, rfl, rfl⟩
  · exact .inr (.inl ⟨c2, rfl, rfl⟩)
  · exact .inr (.inr (.inl ⟨by omega, c3, rfl, rfl⟩))
  · exact .inr (.inr (.inr ⟨by omega, by omega, rfl, rfl⟩))

theorem lasts_blank : Lasts Blank where
  same := by
    intro n s t hp hm hc h
    simp only [Position.place, Prod.mk.injEq] at hp
    unfold Blank
    rw [renderingEnabled_of_mask hm, hc, hp.1, hp.2.1]; exact h
  dot := by
    intro n s h
    obtain ⟨h1, h2, h3, h4⟩ := ppuDot_line_dot s
    unfold Blank
    rw [renderingEnabled_of_mask h3, h1, h2, h4]
    refine h.imp id fun h => ?_
    obtain ⟨k1, k2⟩ := h
    have := visibleLines_bounds s.cfg.region
    rcases advance_cases s.cfg s.ppu.regs.renderingEnabled s.ppu.pos with h | h | h | h <;> omega
  mono := by
    intro n s h
    exact h.imp id fun ⟨h1, h2⟩ => ⟨h1, by omega⟩

theorem lasts_drawing : Lasts Drawing where
  same := by
    intro n s t hp hm hc h
    simp only [Position.place, Prod.mk.injEq] at hp
    unfold Drawing
    rw [renderingEnabled_of_mask hm, hc, hp.1, hp.2.1]; exact h
  dot := by
    intro n s ⟨k0, k1, k2⟩
    obtain ⟨h1, h2, h3, h4⟩ := ppuDot_line_dot s
    unfold Drawing
    rw [renderingEnabled_of_mask h3, h1, h2, h4]
    refine ⟨k0, ?_⟩
    have := visibleLines_bounds s.cfg.region
    rcases advance_cases s.cfg s.ppu.regs.renderingEnabled s.ppu.pos with h | h | h | h <;>
      (refine ⟨by omega, ?_⟩; split_ifs at k2 ⊢ <;> omega)
  mono := by
    rintro n s ⟨h1, h2, h3⟩
    exact ⟨h1, h2, by omega⟩

theorem Ppu.afterStatus_place (cfg : Config) (p : Ppu) : (p.afterStatus cfg).pos.place = p.pos.place := rfl

theorem Video.driveA12_place (c : Nat) (high : Bool) (v : Video) : (v.driveA12 c high).ppu.pos = v.ppu.pos := by
  unfold Video.driveA12; split_ifs <;> rfl

/-- No access of a DMA moves the position or changes PPUMASK. -/
theorem perform_place (act : Act) (h : act.isWrite = false ∨ ∃ d, act = .write oamDataPort d) (s : State) :
    (perform act s).ppu.pos.place = s.ppu.pos.place ∧ (perform act s).ppu.regs.mask = s.ppu.regs.mask
      ∧ (perform act s).cfg = s.cfg := by
  rcases h with h | ⟨d, rfl⟩
  · have k := perform_keeps act h s
    refine ⟨?_, k.ppu.mask, k.cfg⟩
    cases act with
    | write a d => simp [Act.isWrite] at h
    | idle => rfl
    | read a =>
      show (readEffect a s).ppu.pos.place = _
      unfold readEffect
      split <;> try rfl
      show (Video.afterPort _ _ _ _).ppu.pos.place = _
      unfold Video.afterPort Video.afterData
      dsimp only
      split_ifs <;> first
        | rfl
        | (show (Video.driveA12 _ _ _).ppu.pos.place = _
           rw [Video.driveA12_place]
           rfl)
  · show (writeEffect _ _ _).ppu.pos.place = _ ∧ (writeEffect _ _ _).ppu.regs.mask = _ ∧ _
    unfold writeEffect
    rw [target_oamDataPort.1, target_oamDataPort.2]
    show (Ppu.writeOamData _ _ _).pos.place = _ ∧ (Ppu.writeOamData _ _ _).regs.mask = _ ∧ _
    unfold Ppu.writeOamData
    split_ifs <;> exact ⟨rfl, rfl, rfl⟩

theorem dmaAct_kind (s : State) : (dmaAct s).isWrite = false ∨ ∃ d, dmaAct s = .write oamDataPort d := by
  unfold dmaAct
  cases s.dma.step
  · exact .inl rfl
  · exact .inl rfl
  · exact .inl rfl
  · exact .inr ⟨_, rfl⟩

theorem Lasts.before {P : Nat → State → Prop} (l : Lasts P) {n : Nat} {s : State} (h : P (n + 2) s) :
    P (n + 1) (ppuDot (tickDevices s)) ∧ P n (beforeAccess s) := by
  have h0 : P (n + 2) (tickDevices s) := l.same (s := s) (t := tickDevices s) rfl rfl rfl h
  have h2 := l.dot (l.dot h0)
  exact ⟨l.dot h0, l.same (s := ppuDot (ppuDot (tickDevices s))) (t := beforeAccess s) rfl rfl rfl h2⟩

theorem Lasts.access {P : Nat → State → Prop} (l : Lasts P) {n : Nat} {s : State} (h : P n s) {act : Act}
    (ha : act.isWrite = false ∨ ∃ d, act = .write oamDataPort d) : P n (perform act s) := by
  obtain ⟨h1, h2, h3⟩ := perform_place act ha s
  exact l.same h1 h2 h3 h

theorem Lasts.after {P : Nat → State → Prop} (l : Lasts P) {n : Nat} {s : State} (h : P (n + 2) s) :
    P (n + 1) (ppuDot s) ∧ P n (afterAccess s) := by
  have h1 := l.dot h
  refine ⟨h1, l.same (s := dotsAfter s) rfl rfl rfl ?_⟩
  unfold dotsAfter
  split_ifs
  · exact l.dot h1
  · exact l.mono h1

theorem Lasts.dmaCycle {P : Nat → State → Prop} (l : Lasts P) {n : Nat} {s : State} (h : P (n + 4) s) :
    P n (dmaCycle s) :=
  l.same (s := busCycle dmaAct s) rfl rfl rfl (l.after (l.access (l.before h).2 (dmaAct_kind _))).2

theorem Lasts.dmaCycles {P : Nat → State → Prop} (l : Lasts P) (k : Nat) {n : Nat} {s : State} (h : P (n + 4 * k) s) :
    P n (dmaCycles k s) := by
  induction k generalizing n with
  | zero => exact h
  | succ k ih => exact l.dmaCycle (ih (by rw [show n + 4 + 4 * k = n + 4 * (k + 1) by omega]; exact h))

/-! ### What reaches OAM -/

theorem ppuDot_oamAddr {s : State} (h : s.ppu.renderingActive s.cfg = false) :
    (ppuDot s).ppu.regs.oamAddr = s.ppu.regs.oamAddr := by
  have := (Video.dot_effect s.cfg s.cycle s.video).2.2.2.2.1
  have hr : s.video.ppu.renderingActive s.cfg = false := h
  rw [hr] at this
  simpa using this

theorem beforeAccess_oamAddr {s : State} (h : Blank 2 s) : (beforeAccess s).ppu.regs.oamAddr = s.ppu.regs.oamAddr := by
  have h0 : Blank 2 (tickDevices s) := lasts_blank.same rfl rfl rfl h
  exact (ppuDot_oamAddr (lasts_blank.dot h0).inactive).trans (ppuDot_oamAddr h0.inactive)

theorem afterAccess_oamAddr {s : State} (h : Blank 2 s) : (afterAccess s).ppu.regs.oamAddr = s.ppu.regs.oamAddr := by
  show (dotsAfter s).ppu.regs.oamAddr = _
  unfold dotsAfter
  split_ifs
  · exact (ppuDot_oamAddr (lasts_blank.dot h).inactive).trans (ppuDot_oamAddr h.inactive)
  · exact ppuDot_oamAddr h.inactive

theorem Video.driveA12_oamAddr (c : Nat) (high : Bool) (v : Video) :
    (v.driveA12 c high).ppu.regs.oamAddr = v.ppu.regs.oamAddr := (Video.driveA12_quiet c high v).oamAddr

theorem Video.afterPort_oamAddr (cfg : Config) (c : Nat) (port : BitVec 3) (v : Video) :
    (v.afterPort cfg c port).ppu.regs.oamAddr = v.ppu.regs.oamAddr := by
  unfold Video.afterPort Video.afterData
  dsimp only
  split_ifs
  · rfl
  · rfl
  · rfl
  · show ((Video.driveA12 c _ _).mapPpu _).ppu.regs.oamAddr = _
    exact (Video.driveA12_oamAddr _ _ _).trans rfl
  · show ((Video.driveA12 c _ _).mapPpu _).ppu.regs.oamAddr = _
    exact (Video.driveA12_oamAddr _ _ _).trans rfl
  · rfl

theorem perform_oamAddr (act : Act) (h : act.isWrite = false) (s : State) :
    (perform act s).ppu.regs.oamAddr = s.ppu.regs.oamAddr := by
  cases act with
  | write a d => simp [Act.isWrite] at h
  | idle => rfl
  | read a =>
    show (readEffect a s).ppu.regs.oamAddr = _
    unfold readEffect
    split <;> first | rfl | exact Video.afterPort_oamAddr _ _ _ _

/-- A DMA cycle that reads or idles leaves OAM and OAMADDR alone. -/
theorem dmaCycle_oam_other {s : State} (hs : s.dma.step ≠ .write) :
    (dmaCycle s).ppu.oam = s.ppu.oam ∧ (Blank 4 s → (dmaCycle s).ppu.regs.oamAddr = s.ppu.regs.oamAddr) := by
  have hw : (dmaAct (beforeAccess s)).isWrite = false := by
    unfold dmaAct; rw [beforeAccess_dma]
    revert hs
    cases s.dma.step <;> simp [Act.isWrite]
  refine ⟨(busCycle_keeps dmaAct s hw).ppu.oam, fun h => ?_⟩
  have h1 := (lasts_blank.before h).2
  refine (afterAccess_oamAddr (lasts_blank.access h1 (.inl hw))).trans ?_
  rw [perform_oamAddr _ hw, beforeAccess_oamAddr (lasts_blank.mono (lasts_blank.mono h))]

/-- The PPU after the access of a DMA's write cycle. -/
theorem perform_oamData (d : Byte) (s : State) :
    (perform (.write oamDataPort d) s).ppu = Ppu.writeOamData s.cfg d (s.ppu.refresh 0xFF#8 d) := by
  show (writeEffect _ _ _).ppu = _
  unfold writeEffect
  rw [target_oamDataPort.1, target_oamDataPort.2]
  rfl

theorem dmaAct_write {s : State} (hs : s.dma.step = .write) :
    dmaAct (beforeAccess s) = .write oamDataPort s.dma.data := by
  unfold dmaAct; rw [beforeAccess_dma, hs]

/-- A DMA write cycle outside rendering stores the byte read at OAMADDR, which goes up by one. -/
theorem dmaCycle_oam_write {s : State} (h : Blank 4 s) (hs : s.dma.step = .write) :
    (dmaCycle s).ppu.oam = Memory.write s.ppu.oam s.ppu.regs.oamAddr.toNat s.dma.data
      ∧ (dmaCycle s).ppu.regs.oamAddr = s.ppu.regs.oamAddr + 1 := by
  have ha := dmaAct_write hs
  have h1 := (lasts_blank.before h).2
  have hr : ((beforeAccess s).ppu.refresh 0xFF#8 s.dma.data).renderingActive (beforeAccess s).cfg = false := h1.inactive
  have hb := beforeAccess_oamAddr (lasts_blank.mono (lasts_blank.mono h))
  have hp := perform_oamData s.dma.data (beforeAccess s)
  unfold Ppu.writeOamData at hp
  rw [hr] at hp
  have h2 : Blank 2 (perform (.write oamDataPort s.dma.data) (beforeAccess s)) := lasts_blank.access h1 (.inr ⟨_, rfl⟩)
  constructor
  · show (busCycle dmaAct s).ppu.oam = _
    unfold busCycle
    rw [ha, (afterAccess_keeps _).ppu.oam, hp]
    show Memory.write (beforeAccess s).ppu.oam (beforeAccess s).ppu.regs.oamAddr.toNat s.dma.data = _
    rw [hb, (beforeAccess_keeps s).ppu.oam]
  · show (busCycle dmaAct s).ppu.regs.oamAddr = _
    unfold busCycle
    rw [ha, afterAccess_oamAddr h2, hp]
    show (beforeAccess s).ppu.regs.oamAddr + 1 = _
    rw [hb]

/-- A DMA cycle in rendering stores nothing in OAM (47_ppu_registers.md R410). -/
theorem dmaCycle_oam_drawing {s : State} (h : Drawing 4 s) : (dmaCycle s).ppu.oam = s.ppu.oam := by
  by_cases hs : s.dma.step = .write
  · have h1 := (lasts_drawing.before h).2
    have hr : ((beforeAccess s).ppu.refresh 0xFF#8 s.dma.data).renderingActive (beforeAccess s).cfg = true := h1.active
    have hp := perform_oamData s.dma.data (beforeAccess s)
    unfold Ppu.writeOamData at hp
    rw [hr] at hp
    show (busCycle dmaAct s).ppu.oam = _
    unfold busCycle
    rw [dmaAct_write hs, (afterAccess_keeps _).ppu.oam, hp]
    exact (beforeAccess_keeps s).ppu.oam
  · exact (dmaCycle_oam_other hs).1

theorem dmaCycles_oam_drawing (k : Nat) {s : State} (h : Drawing (4 * k) s) : (dmaCycles k s).ppu.oam = s.ppu.oam := by
  induction k with
  | zero => rfl
  | succ k ih =>
    have h4 : Drawing (4 + 4 * k) s := by rw [show 4 + 4 * k = 4 * (k + 1) by omega]; exact h
    rw [dmaCycles, dmaCycle_oam_drawing (lasts_drawing.dmaCycles k h4)]
    exact ih (lasts_drawing.mono (lasts_drawing.mono (lasts_drawing.mono (lasts_drawing.mono (by
      rw [show 4 * k + 1 + 1 + 1 + 1 = 4 * (k + 1) by omega]; exact h)))))

/-- A DMA read cycle latches the byte at the page's next address. -/
theorem dmaCycle_data {s : State} (hs : s.dma.step = .read) :
    delivers (wordOf s.dma.page 0 + BitVec.ofNat 16 s.dma.index) s (dmaCycle s).dma.data := by
  rw [dmaCycle_dma]
  simp only [Dma.advance, hs]
  exact delivers_busByte _ _ _ (by unfold dmaAct; rw [beforeAccess_dma, hs])

theorem delivers_of_dmaKeeps {a : Word} {s t : State} {d : Byte} (h : DmaKeeps s t) : delivers a t d ↔ delivers a s d := by
  simp only [delivers, ramAt, h.ram, h.kind, h.prg, h.prgSize]

/-- OAM after `i` bytes, at the boundary before the next read. -/
theorem dma_oam {s : State} (h : DmaStarts s) (hoff : Blank (4 * dmaFuel) s) (i : Nat) (hi : i ≤ 256) :
    (dmaCycles (dmaLead s + 2 * i) s).ppu.regs.oamAddr = s.ppu.regs.oamAddr + BitVec.ofNat 8 i
      ∧ ∀ j < i, delivers (wordOf s.dma.page 0 + BitVec.ofNat 16 j) s
          (Memory.read (dmaCycles (dmaLead s + 2 * i) s).ppu.oam (s.ppu.regs.oamAddr + BitVec.ofNat 8 j).toNat) := by
  have off : ∀ k, k < dmaFuel → Blank 4 (dmaCycles k s) := fun k hk => lasts_blank.dmaCycles k (by
    have e : 4 * dmaFuel = 4 + 4 * k + (4 * dmaFuel - 4 - 4 * k) := by omega
    rw [e] at hoff
    generalize 4 * dmaFuel - 4 - 4 * k = j at hoff
    induction j with
    | zero => exact hoff
    | succ j ih => exact ih (lasts_blank.mono hoff))
  have lead : dmaLead s ≤ 2 := by unfold dmaLead; split_ifs <;> omega
  have fuel : dmaFuel = 514 := rfl
  induction i with
  | zero =>
    refine ⟨?_, fun j hj => absurd hj (by omega)⟩
    rw [Nat.mul_zero, Nat.add_zero]
    unfold dmaLead
    have h1 := (dmaCycle_oam_other (s := s) (by rw [h.step]; simp)).2 (off 0 (by omega))
    by_cases he : s.cycle % 2 = 0
    · have h2 := (dmaCycle_oam_other (s := dmaCycle s) (by
        rw [dmaCycle_dma]; simp [Dma.advance, h.step, he])).2 (off 1 (by omega))
      simp only [he, if_true, dmaCycles]
      rw [h2, h1]; simp
    · simp only [he, if_false, dmaCycles]
      rw [h1]; simp
  | succ i ih =>
    obtain ⟨ih1, ih2⟩ := ih (by omega)
    obtain ⟨a1, b1, c1, d1⟩ := dma_transfer h (2 * i) (by omega)
    obtain ⟨a2, b2, c2, d2⟩ := dma_transfer h (2 * i + 1) (by omega)
    have e1 : dmaLead s + 2 * (i + 1) = (dmaLead s + (2 * i + 1)) + 1 := by omega
    have e2 : dmaLead s + (2 * i + 1) = (dmaLead s + 2 * i) + 1 := by omega
    rw [if_pos (by omega)] at d1
    rw [if_neg (by omega)] at d2
    have o1 := dmaCycle_oam_other (s := dmaCycles (dmaLead s + 2 * i) s) (by rw [d1]; simp)
    have o1' := o1.2 (off _ (by omega))
    have o2 := dmaCycle_oam_write (off (dmaLead s + (2 * i + 1)) (by omega)) d2
    have hd := dmaCycle_data d1
    rw [b1, c1, delivers_of_dmaKeeps (dmaCycles_keeps _ s), show 2 * i / 2 = i by omega] at hd
    have hd' : delivers (wordOf s.dma.page 0 + BitVec.ofNat 16 i) s (dmaCycles (dmaLead s + (2 * i + 1)) s).dma.data := by
      rw [e2]; exact hd
    have p1 : (dmaCycles (dmaLead s + (2 * i + 1)) s).ppu.regs.oamAddr = s.ppu.regs.oamAddr + BitVec.ofNat 8 i := by
      rw [e2]; exact o1'.trans ih1
    have q1 : (dmaCycles (dmaLead s + (2 * i + 1)) s).ppu.oam = (dmaCycles (dmaLead s + 2 * i) s).ppu.oam := by
      rw [e2]; exact o1.1
    rw [e1]
    show (dmaCycle _).ppu.regs.oamAddr = _ ∧ ∀ j < i + 1, delivers _ s (Memory.read (dmaCycle _).ppu.oam _)
    rw [o2.1, o2.2, p1, q1]
    refine ⟨by rw [BitVec.add_assoc, BitVec.ofNat_add]; rfl, fun j hj => ?_⟩
    by_cases hji : j = i
    · subst hji
      rw [Memory.read_write, if_pos rfl]
      exact hd'
    · have hne : (s.ppu.regs.oamAddr + BitVec.ofNat 8 j).toNat ≠ (s.ppu.regs.oamAddr + BitVec.ofNat 8 i).toNat := by
        have h1 := s.ppu.regs.oamAddr.isLt
        intro he
        simp only [BitVec.toNat_add, BitVec.toNat_ofNat] at he
        omega
      rw [Memory.read_write, if_neg hne]
      exact ih2 j (by omega)

/-- What a whole DMA leaves in OAM. -/
theorem dma_copiesPage {s : State} (h : DmaStarts s) : copiesPage s.dma.page s (dmaCycles (dmaLength s) s) := by
  refine ⟨fun hb => ?_, fun hr h1 h2 a => ?_⟩
  · have hblank : Blank (4 * dmaFuel) s := by
      have := visibleLines_bounds s.cfg.region
      refine hb.imp (fun k => ?_) fun ⟨k1, k2⟩ => ⟨k1, by unfold dmaFuel; omega⟩
      simpa [PpuRegs.renderingEnabled, PpuRegs.bgEn, PpuRegs.sprEn, renderingOn] using k
    obtain ⟨k1, k2⟩ := dma_oam h hblank 256 (Nat.le_refl _)
    have e : dmaLead s + 2 * 256 = dmaLength s := rfl
    rw [e] at k1 k2
    refine ⟨by rw [k1]; simp, fun i hi => ?_⟩
    have := k2 i hi
    have e2 : (s.ppu.regs.oamAddr + BitVec.ofNat 8 i).toNat = (s.ppu.regs.oamAddr.toNat + i) % 256 := by
      simp [BitVec.toNat_add]
    rwa [e2] at this
  · have hl : dmaLength s ≤ 514 := by unfold dmaLength dmaLead; split_ifs <;> omega
    rw [dmaCycles_oam_drawing]
    refine ⟨?_, h1, ?_⟩
    · simpa [PpuRegs.renderingEnabled, PpuRegs.bgEn, PpuRegs.sprEn, renderingOn] using hr
    · split_ifs <;> omega

end Sys2Proof.Machine
end

