-- ==== Sys2Proof/Laws/Exec.lean ====
section
/-! SUPPORT. Every Read, Write and read-modify-write opcode through its mode: the mode's cycles, and the operation of its
mnemonic. -/

namespace Sys2Proof.Machine

/-! ### Modes -/

/-- The cycle sequence of a Read in a mode. -/
def readMode (m : Mode) (op : Byte) (f : Byte → Cpu → Cpu) (s : State) : State :=
  match m with
  | .immediate imm => immediate op imm f s
  | .zeroPage zp => zpRead op zp f s
  | .zeroPageX zp => zpIndexedRead .x op zp f s
  | .zeroPageY zp => zpIndexedRead .y op zp f s
  | .absolute addr => absRead op addr f s
  | .absoluteX addr => absIndexedRead .x op addr f s
  | .absoluteY addr => absIndexedRead .y op addr f s
  | .indirectX zp => izxRead op zp f s
  | .indirectY zp => izyRead op zp f s
  | .implicit | .accumulator | .indirect _ | .relative _ => s

/-- The cycle sequence of a Write in a mode. -/
def writeMode (m : Mode) (op : Byte) (v : Cpu → Byte) (s : State) : State :=
  match m with
  | .zeroPage zp => zpWrite op zp v s
  | .zeroPageX zp => zpIndexedWrite .x op zp v s
  | .zeroPageY zp => zpIndexedWrite .y op zp v s
  | .absolute addr => absWrite op addr v s
  | .absoluteX addr => absIndexedWrite .x op addr v s
  | .absoluteY addr => absIndexedWrite .y op addr v s
  | .indirectX zp => izxWrite op zp v s
  | .indirectY zp => izyWrite op zp v s
  | .immediate _ | .implicit | .accumulator | .indirect _ | .relative _ => s

/-- The cycle sequence of a read-modify-write in a mode. -/
def rmwMode (m : Mode) (op : Byte) (f : Byte → Cpu → Byte × Cpu) (s : State) : State :=
  match m with
  | .zeroPage zp => zpRmw op zp f s
  | .zeroPageX zp => zpIndexedRmw .x op zp f s
  | .zeroPageY zp => zpIndexedRmw .y op zp f s
  | .absolute addr => absRmw op addr f s
  | .absoluteX addr => absIndexedRmw .x op addr f s
  | .absoluteY addr => absIndexedRmw .y op addr f s
  | .indirectX zp => izxRmw op zp f s
  | .indirectY zp => izyRmw op zp f s
  | .immediate _ | .implicit | .accumulator | .indirect _ | .relative _ => s

/-- The cycles of a Read, without a page cross (40_addressing_modes.md R220). -/
def readCycles : Mode → Nat
  | .immediate _ => 2
  | .zeroPage _ => 3
  | .zeroPageX _ | .zeroPageY _ | .absolute _ | .absoluteX _ | .absoluteY _ => 4
  | .indirectX _ => 6
  | .indirectY _ => 5
  | .implicit | .accumulator | .indirect _ | .relative _ => 0

/-- The cycles of a Write (40_addressing_modes.md R220). -/
def writeCycles : Mode → Nat
  | .zeroPage _ => 3
  | .zeroPageX _ | .zeroPageY _ | .absolute _ => 4
  | .absoluteX _ | .absoluteY _ => 5
  | .indirectX _ | .indirectY _ => 6
  | .immediate _ | .implicit | .accumulator | .indirect _ | .relative _ => 0

/-- The cycles of a read-modify-write (40_addressing_modes.md R220). -/
def rmwCycles : Mode → Nat
  | .zeroPage _ => 5
  | .zeroPageX _ | .zeroPageY _ | .absolute _ => 6
  | .absoluteX _ | .absoluteY _ => 7
  | .indirectX _ | .indirectY _ => 8
  | .immediate _ | .implicit | .accumulator | .indirect _ | .relative _ => 0

/-- A Read whose access is at `a`. -/
structure ReadAt (a : Word) (n : Nat) (len : Word) (f : Byte → Cpu → Cpu) (d : Byte) (c : Cpu) (s t : State) : Prop where
  operand : delivers a s d
  bus : t.cpuBus = d
  keeps : Keeps s t
  cycle : t.cycle = s.cycle + n
  sameRegs : SameRegs len s c
  cpu : t.cpu = endCpu .last t.arb.pending (f d c)

theorem readAt_tail {n : Nat} {len : Word} {s u : State} (o : Opened n len s u) (h : undisturbed 1 u) {ea : Cpu → Word}
    {a : Word} (hea : ea u.cpu = a) (f : Byte → Cpu → Cpu) : ∃ d c, ReadAt a (n + 1) len f d c s (readTail ea f u) := by
  obtain ⟨d, c, h1, h2, h3, h4, h5, h6⟩ := readTail_spec o h ea f
  exact ⟨d, c, hea ▸ h1, h2, h3, h4, h5, h6⟩

theorem eaIndexed_eq {i : Index} {u : State} {hi lo x : Byte} (h1 : u.cpu.adh = hi) (h2 : u.cpu.adl = lo)
    (h3 : i.of u.cpu = x) (h4 : u.cpu.carryFix = pageCarry lo x) :
    eaIndexed i u.cpu = wordOf hi lo + x.setWidth 16 := by
  rw [eaIndexed, h1, h2, h3, h4, indexed_ea]

theorem eaPartial_eq {i : Index} {u : State} {hi lo x : Byte} (h1 : u.cpu.adh = hi) (h2 : u.cpu.adl = lo)
    (h3 : i.of u.cpu = x) (h4 : pageCarry lo x = false) : eaPartial i u.cpu = wordOf hi lo + x.setWidth 16 := by
  rw [eaPartial, h1, h2, h3, ← indexed_ea, h4]; simp [flagBit]

theorem readAt_indexed {n : Nat} {len : Word} {s u : State} (o : Opened n len s u) (h : undisturbed 2 u) (i : Index)
    {hi lo : Byte} (h1 : u.cpu.adh = hi) (h2 : u.cpu.adl = lo) (h4 : u.cpu.carryFix = pageCarry lo (i.of s.cpu))
    (f : Byte → Cpu → Cpu) :
    ∃ d c, ReadAt (wordOf hi lo + (i.of s.cpu).setWidth 16) (n + 1 + if pageCarry lo (i.of s.cpu) then 1 else 0) len f d c s
      (indexedReadTail i f u) := by
  rw [indexedReadTail, h4]
  by_cases hx : pageCarry lo (i.of s.cpu) = true
  · rw [if_pos hx]
    obtain ⟨m, hm, o1, hu1, hc1⟩ := read_spec (k := 1) o h .penult (by simp) (eaPartial i) (fun d c => { c with data := d })
      (by constructor <;> intros <;> simp)
    have e : eaIndexed i (readData .penult (eaPartial i) u).cpu = wordOf hi lo + (i.of s.cpu).setWidth 16 := by
      refine eaIndexed_eq ?_ ?_ (o1.index i) ?_
      · rw [readData, hc1]; simpa using h1
      · rw [readData, hc1]; simpa using h2
      · rw [readData, hc1]; simpa using h4
    obtain ⟨d, c, hr⟩ := readAt_tail o1 hu1 e f
    exact ⟨d, c, by simp only [hx, if_true]; exact hr⟩
  · rw [if_neg hx]
    have hf : pageCarry lo (i.of s.cpu) = false := by simpa using hx
    obtain ⟨d, c, hr⟩ := readAt_tail o (h.mono (by omega)) (eaPartial_eq h1 h2 (o.index i) hf) f
    exact ⟨d, c, by simpa [hf] using hr⟩

/-- A Read in any mode with an effective address. -/
theorem readMode_at {s : State} (h : undisturbed 8 s) (m : Mode) (op : Byte) (f : Byte → Cpu → Cpu) {a : Word}
    (ha : m.ea s = some a) :
    ∃ d c, ReadAt a (readCycles m + if m.crosses s then 1 else 0) m.bytes f d c s (readMode m op f s) := by
  cases m <;> simp only [Mode.ea, Option.some.injEq, reduceCtorEq] at ha <;> subst ha <;>
    simp only [readMode, readCycles, Mode.crosses, Mode.bytes, Bool.false_eq_true, if_false, Nat.add_zero]
  case zeroPage zp =>
    obtain ⟨o, hu, e⟩ := openZp_spec (k := 6) h .penult (by simp) op zp
    exact readAt_tail o (hu.mono (by omega)) (by rw [eaZp, e]) f
  case zeroPageX zp =>
    obtain ⟨o, hu, e⟩ := openZpIndexed_spec (k := 5) h .penult (by simp) op zp
    exact readAt_tail o (hu.mono (by omega)) (by rw [eaZpIndexed, e, o.index]; rfl) f
  case zeroPageY zp =>
    obtain ⟨o, hu, e⟩ := openZpIndexed_spec (k := 5) h .penult (by simp) op zp
    exact readAt_tail o (hu.mono (by omega)) (by rw [eaZpIndexed, e, o.index]; rfl) f
  case absolute addr =>
    obtain ⟨o, hu, e1, e2⟩ := openAbs_spec (k := 5) h .penult (by simp) op addr
    exact readAt_tail o (hu.mono (by omega)) (by rw [eaAbs, e1, e2, wordOf_hiByte_loByte]) f
  case absoluteX addr =>
    obtain ⟨o, hu, e1, e2, e3⟩ := openAbsIndexed_spec (k := 5) h .x op addr beforePartial
      (by intro b; cases b <;> simp [beforePartial])
    have := readAt_indexed o (hu.mono (by omega)) .x e2 e1 e3 f
    rw [indexed_cross (hiByte addr), wordOf_hiByte_loByte] at this
    exact this
  case absoluteY addr =>
    obtain ⟨o, hu, e1, e2, e3⟩ := openAbsIndexed_spec (k := 5) h .y op addr beforePartial
      (by intro b; cases b <;> simp [beforePartial])
    have := readAt_indexed o (hu.mono (by omega)) .y e2 e1 e3 f
    rw [indexed_cross (hiByte addr), wordOf_hiByte_loByte] at this
    exact this
  case indirectX zp =>
    obtain ⟨o, hu, e1, e2⟩ := openIzx_spec (k := 3) h .penult (by simp) op zp
    exact readAt_tail o (hu.mono (by omega)) (by rw [eaAbs, e1, e2]) f
  case indirectY zp =>
    obtain ⟨o, hu, e1, e2, e3⟩ := openIzy_spec (k := 4) h beforePartial
      (by intro b; cases b <;> simp [beforePartial]) op zp
    have := readAt_indexed o (hu.mono (by omega)) .y e2 e1 e3 f
    rw [indexed_cross (ramAt s (zeroPage (zp + 1)))] at this
    exact this

/-- Immediate. -/
theorem immediate_spec {s : State} (h : undisturbed 2 s) (op imm : Byte) (f : Byte → Cpu → Cpu) :
    ∃ c, Keeps s (immediate op imm f s) ∧ (immediate op imm f s).cycle = s.cycle + 2 ∧ SameRegs 2 s c
      ∧ (immediate op imm f s).cpu = endCpu .last (immediate op imm f s).arb.pending (f imm c) := by
  obtain ⟨o1, h1⟩ := fetchOp_spec (k := 1) h .penult (by simp) op
  obtain ⟨d, -, hc, -⟩ := cpuCyc_read (k := 0) h1 .last (fun c => c.pc)
    fun _ c => f imm { { c with pc := c.pc + 1 } with data := imm }
  refine ⟨{ (fetchOp .penult op s).cpu with pc := (fetchOp .penult op s).cpu.pc + 1, data := imm }, o1.keeps.trans hc.keeps,
    by rw [immediate, fetchOperand]; exact hc.cycle.trans (by rw [o1.cycle]), ?_, hc.cpu⟩
  exact ⟨o1.a, o1.x, o1.y, o1.sp, o1.p, o1.mode, by simp [o1.pc, BitVec.add_assoc]⟩

/-- A Write whose store is at `a`. -/
structure WriteAt (a : Word) (n : Nat) (len : Word) (v : Cpu → Byte) (c : Cpu) (s t : State) : Prop where
  stores : stores a (v c) s t
  bus : t.cpuBus = v c
  cycle : t.cycle = s.cycle + n
  sameRegs : SameRegs len s c
  cpu : t.cpu = endCpu .last t.arb.pending c

theorem writeAt_tail {n : Nat} {len : Word} {s u : State} (o : Opened n len s u) (h : undisturbed 1 u) {ea : Cpu → Word}
    {a : Word} (hea : ea u.cpu = a) (v : Cpu → Byte) : ∃ c, WriteAt a (n + 1) len v c s (writeTail ea v u) := by
  obtain ⟨h1, h2, h3, h4⟩ := writeTail_spec o h ea v
  exact ⟨u.cpu, hea ▸ h1, h3, h2, o.sameRegs', h4⟩

theorem writeAt_indexed {n : Nat} {len : Word} {s u : State} (o : Opened n len s u) (h : undisturbed 2 u) (i : Index)
    {hi lo : Byte} (h1 : u.cpu.adh = hi) (h2 : u.cpu.adl = lo) (h4 : u.cpu.carryFix = pageCarry lo (i.of s.cpu))
    (v : Cpu → Byte) :
    ∃ c, WriteAt (wordOf hi lo + (i.of s.cpu).setWidth 16) (n + 2) len v c s (indexedWriteTail i v u) := by
  obtain ⟨o1, hu1, hc1⟩ := dummyRead_spec (k := 1) o h .penult (by simp) (eaPartial i)
  refine writeAt_tail o1 hu1 (eaIndexed_eq ?_ ?_ (o1.index i) ?_) v
  · rw [hc1]; simpa using h1
  · rw [hc1]; simpa using h2
  · rw [hc1]; simpa using h4

/-- A Write in any mode with an effective address. -/
theorem writeMode_at {s : State} (h : undisturbed 8 s) (m : Mode) (op : Byte) (v : Cpu → Byte) {a : Word}
    (ha : m.ea s = some a) : ∃ c, WriteAt a (writeCycles m) m.bytes v c s (writeMode m op v s) := by
  cases m <;> simp only [Mode.ea, Option.some.injEq, reduceCtorEq] at ha <;> subst ha <;>
    simp only [writeMode, writeCycles, Mode.bytes]
  case zeroPage zp =>
    obtain ⟨o, hu, e⟩ := openZp_spec (k := 6) h .penult (by simp) op zp
    exact writeAt_tail o (hu.mono (by omega)) (by rw [eaZp, e]) v
  case zeroPageX zp =>
    obtain ⟨o, hu, e⟩ := openZpIndexed_spec (k := 5) h .penult (by simp) op zp
    exact writeAt_tail o (hu.mono (by omega)) (by rw [eaZpIndexed, e, o.index]; rfl) v
  case zeroPageY zp =>
    obtain ⟨o, hu, e⟩ := openZpIndexed_spec (k := 5) h .penult (by simp) op zp
    exact writeAt_tail o (hu.mono (by omega)) (by rw [eaZpIndexed, e, o.index]; rfl) v
  case absolute addr =>
    obtain ⟨o, hu, e1, e2⟩ := openAbs_spec (k := 5) h .penult (by simp) op addr
    exact writeAt_tail o (hu.mono (by omega)) (by rw [eaAbs, e1, e2, wordOf_hiByte_loByte]) v
  case absoluteX addr =>
    obtain ⟨o, hu, e1, e2, e3⟩ := openAbsIndexed_spec (k := 5) h .x op addr (fun _ => .mid) (by simp)
    have := writeAt_indexed o (hu.mono (by omega)) .x e2 e1 e3 v
    rwa [wordOf_hiByte_loByte] at this
  case absoluteY addr =>
    obtain ⟨o, hu, e1, e2, e3⟩ := openAbsIndexed_spec (k := 5) h .y op addr (fun _ => .mid) (by simp)
    have := writeAt_indexed o (hu.mono (by omega)) .y e2 e1 e3 v
    rwa [wordOf_hiByte_loByte] at this
  case indirectX zp =>
    obtain ⟨o, hu, e1, e2⟩ := openIzx_spec (k := 3) h .penult (by simp) op zp
    exact writeAt_tail o (hu.mono (by omega)) (by rw [eaAbs, e1, e2]) v
  case indirectY zp =>
    obtain ⟨o, hu, e1, e2, e3⟩ := openIzy_spec (k := 4) h (fun _ => .mid) (by simp) op zp
    exact writeAt_indexed o (hu.mono (by omega)) .y e2 e1 e3 v

/-- A read-modify-write at `a`: `m` is the original byte, `c` and `c'` the CPU at the two writes. -/
structure RmwAt (a : Word) (n : Nat) (len : Word) (op : Byte → Cpu → Byte × Cpu) (m : Byte) (c c' : Cpu) (s t : State) :
    Prop where
  operand : delivers a s m
  stores : stores a (op m c).1 s t
  bus : t.cpuBus = (op m c).1
  cycle : t.cycle = s.cycle + n
  sameRegs : SameRegs len s c
  sameRegs' : SameRegs len s c'
  cpu : t.cpu = endCpu .last t.arb.pending (op m c').2

theorem rmwAt_tail {n : Nat} {len : Word} {s u : State} (o : Opened n len s u) (h : undisturbed 3 u) {ea : Cpu → Word}
    {a : Word} (hea : ea u.cpu = a) (hi : IgnoresData ea) (op : Byte → Cpu → Byte × Cpu) (hd : target a ≠ .oamDma) :
    ∃ m c c', RmwAt a (n + 3) len op m c c' s (rmwTail ea op u) := by
  subst hea
  obtain ⟨m, c, c', h1, h2, h3, h4, h5, h6, h7, -⟩ := rmwTail_spec o h ea hi op hd
  exact ⟨m, c, c', h1, h2, h4, h3, h5, h6, h7⟩

theorem ignoresData_indexed (i : Index) : IgnoresData (eaIndexed i) := by intro c t d; cases i <;> rfl
theorem ignoresData_zpIndexed (i : Index) : IgnoresData (eaZpIndexed i) := by intro c t d; cases i <;> rfl
theorem ignoresData_zp : IgnoresData eaZp := fun _ _ _ => rfl
theorem ignoresData_abs : IgnoresData eaAbs := fun _ _ _ => rfl

theorem rmwAt_indexed {n : Nat} {len : Word} {s u : State} (o : Opened n len s u) (h : undisturbed 4 u) (i : Index)
    {hi lo : Byte} (h1 : u.cpu.adh = hi) (h2 : u.cpu.adl = lo) (h4 : u.cpu.carryFix = pageCarry lo (i.of s.cpu))
    (op : Byte → Cpu → Byte × Cpu) (hd : target (wordOf hi lo + (i.of s.cpu).setWidth 16) ≠ .oamDma) :
    ∃ m c c', RmwAt (wordOf hi lo + (i.of s.cpu).setWidth 16) (n + 4) len op m c c' s (indexedRmwTail i op u) := by
  obtain ⟨o1, hu1, hc1⟩ := dummyRead_spec (k := 3) o h .mid (by simp) (eaPartial i)
  refine rmwAt_tail o1 hu1 (eaIndexed_eq ?_ ?_ (o1.index i) ?_) (ignoresData_indexed i) op hd
  · rw [hc1]; simpa using h1
  · rw [hc1]; simpa using h2
  · rw [hc1]; simpa using h4

/-- A read-modify-write in any mode with an effective address other than $4014. -/
theorem rmwMode_at {s : State} (h : undisturbed 8 s) (m : Mode) (op : Byte) (f : Byte → Cpu → Byte × Cpu) {a : Word}
    (ha : m.ea s = some a) (hd : target a ≠ .oamDma) :
    ∃ d c c', RmwAt a (rmwCycles m) m.bytes f d c c' s (rmwMode m op f s) := by
  cases m <;> simp only [Mode.ea, Option.some.injEq, reduceCtorEq] at ha <;> subst ha <;>
    simp only [rmwMode, rmwCycles, Mode.bytes]
  case zeroPage zp =>
    obtain ⟨o, hu, e⟩ := openZp_spec (k := 6) h .mid (by simp) op zp
    exact rmwAt_tail o (hu.mono (by omega)) (by rw [eaZp, e]) ignoresData_zp f hd
  case zeroPageX zp =>
    obtain ⟨o, hu, e⟩ := openZpIndexed_spec (k := 5) h .mid (by simp) op zp
    exact rmwAt_tail o (hu.mono (by omega)) (by rw [eaZpIndexed, e, o.index]; rfl) (ignoresData_zpIndexed .x) f hd
  case zeroPageY zp =>
    obtain ⟨o, hu, e⟩ := openZpIndexed_spec (k := 5) h .mid (by simp) op zp
    exact rmwAt_tail o (hu.mono (by omega)) (by rw [eaZpIndexed, e, o.index]; rfl) (ignoresData_zpIndexed .y) f hd
  case absolute addr =>
    obtain ⟨o, hu, e1, e2⟩ := openAbs_spec (k := 5) h .mid (by simp) op addr
    exact rmwAt_tail o (hu.mono (by omega)) (by rw [eaAbs, e1, e2, wordOf_hiByte_loByte]) ignoresData_abs f hd
  case absoluteX addr =>
    obtain ⟨o, hu, e1, e2, e3⟩ := openAbsIndexed_spec (k := 5) h .x op addr (fun _ => .mid) (by simp)
    have := rmwAt_indexed o (hu.mono (by omega)) .x e2 e1 e3 f
    rw [wordOf_hiByte_loByte] at this
    exact this hd
  case absoluteY addr =>
    obtain ⟨o, hu, e1, e2, e3⟩ := openAbsIndexed_spec (k := 5) h .y op addr (fun _ => .mid) (by simp)
    have := rmwAt_indexed o (hu.mono (by omega)) .y e2 e1 e3 f
    rw [wordOf_hiByte_loByte] at this
    exact this hd
  case indirectX zp =>
    obtain ⟨o, hu, e1, e2⟩ := openIzx_spec (k := 3) h .mid (by simp) op zp
    exact rmwAt_tail o (hu.mono (by omega)) (by rw [eaAbs, e1, e2]) ignoresData_abs f hd
  case indirectY zp =>
    obtain ⟨o, hu, e1, e2, e3⟩ := openIzy_spec (k := 4) h (fun _ => .mid) (by simp) op zp
    exact rmwAt_indexed o (hu.mono (by omega)) .y e2 e1 e3 f hd

/-! ### Instructions by tag -/

/-- The operation of a Read mnemonic. -/
def readOp : Mnemonic → Byte → Cpu → Cpu
  | .lda => Alu.lda
  | .ldx => Alu.ldx
  | .ldy => Alu.ldy
  | .adc => Alu.adc
  | .sbc => Alu.sbc
  | .usbc => Alu.sbc
  | .and => Alu.and
  | .ora => Alu.ora
  | .eor => Alu.eor
  | .cmp => Alu.cmp
  | .cpx => Alu.cpx
  | .cpy => Alu.cpy
  | .bit => Alu.bit
  | .lax => Alu.lax
  | .anc => Alu.anc
  | .alr => Alu.alr
  | .arr => Alu.arr
  | .axs => Alu.axs
  | _ => Alu.nop

/-- The byte a Write mnemonic stores. -/
def storeOp : Mnemonic → Cpu → Byte
  | .stx => Cpu.x
  | .sty => Cpu.y
  | .sax => Alu.sax
  | _ => Cpu.a

/-- The operation of a read-modify-write mnemonic. -/
def rmwOp : Mnemonic → Byte → Cpu → Byte × Cpu
  | .inc => Alu.inc
  | .dec => Alu.dec
  | .asl => Alu.asl
  | .lsr => Alu.lsr
  | .rol => Alu.rol
  | .ror => Alu.ror
  | .dcp => Alu.dcp
  | .isb => Alu.isb
  | .slo => Alu.slo
  | .rla => Alu.rla
  | .sre => Alu.sre
  | _ => Alu.rra

theorem exec_read (i : Instr) (s : State) (h : i.tag = .read) :
    exec i s = .next (readMode i.mode i.opcode (readOp i.mnemonic) s) := by
  cases i <;> simp only [Instr.tag, Instr.row, reduceCtorEq] at h <;> rfl

theorem exec_write (i : Instr) (s : State) (h : i.tag = .write) :
    exec i s = .next (writeMode i.mode i.opcode (storeOp i.mnemonic) s) := by
  cases i <;> simp only [Instr.tag, Instr.row, reduceCtorEq] at h <;> rfl

theorem exec_rmw (i : Instr) (s : State) (h : i.tag = .rmw) :
    exec i s = .next (rmwMode i.mode i.opcode (rmwOp i.mnemonic) s) := by
  cases i <;> simp only [Instr.tag, Instr.row, reduceCtorEq] at h <;> rfl

end Sys2Proof.Machine
end

