-- ==== Sys2Proof/Laws/Interrupts.lean ====
section
/-! SUPPORT. The interrupt inputs over a cycle, taking an interrupt (BRK, IRQ, NMI), the reset sequence, and the jam, each
said once for a machine whose DMA does not run and whose host asserts no reset meanwhile. -/

namespace Sys2Proof.Machine

/-! ### The interrupt inputs over a cycle -/

theorem cpuCyc_arb {k : Nat} {s : State} (h : undisturbed (k + 1) s) (kind : CycleKind) (act : Cpu → Act)
    (upd : Byte → Cpu → Cpu) (hk : kind ≠ .penult) : (cpuCyc kind act upd s).arb = (beforeAccess s).arb := by
  rw [cpuCyc, cyc_eq h]
  cases kind
  · simp [endCycle]
  · exact absurd rfl hk
  · simp [endCycle]

/-- Whether an NMI can be raised by the PPU at all: the enable bit. -/
def nmiOff (s : State) : Prop := s.ppu.regs.ctrl.getLsbD 7 = false

theorem nmiOut_of_off {p : Ppu} (h : p.regs.ctrl.getLsbD 7 = false) : p.nmiOut = false := by
  rw [Ppu.nmiOut, PpuRegs.nmiEn, h]; rfl

/-- The NMI latch over the part of a cycle before the access: once set it stays set, and with the enable bit clear it does
not change. -/
theorem beforeAccess_latch (s : State) :
    (s.arb.nmiLatch = true → (beforeAccess s).arb.nmiLatch = true)
      ∧ (nmiOff s → (beforeAccess s).arb.nmiLatch = s.arb.nmiLatch) := by
  have hc : (ppuDot (ppuDot (tickDevices s))).ppu.regs.ctrl = s.ppu.regs.ctrl :=
    (((tickDevices_keeps s).trans (ppuDot_keeps _)).trans (ppuDot_keeps _)).ppu.ctrl
  constructor
  · intro h
    simp [beforeAccess, sampleInterrupts, h]
  · intro h
    have := nmiOut_of_off (p := (ppuDot (ppuDot (tickDevices s))).ppu) (by rw [hc]; exact h)
    simp only [beforeAccess, sampleInterrupts, this]
    simp

/-- The latch over one or more cycles. -/
structure LatchStep (s t : State) : Prop where
  set : s.arb.nmiLatch = true → t.arb.nmiLatch = true
  off : nmiOff s → t.arb.nmiLatch = s.arb.nmiLatch
  ctrl : t.ppu.regs.ctrl = s.ppu.regs.ctrl

theorem LatchStep.trans {s t u : State} (h : LatchStep s t) (k : LatchStep t u) : LatchStep s u :=
  ⟨fun e => k.set (h.set e), fun e => (k.off (by unfold nmiOff at *; rw [h.ctrl]; exact e)).trans (h.off e),
    k.ctrl.trans h.ctrl⟩

theorem cpuCyc_latch {k : Nat} {s : State} (h : undisturbed (k + 1) s) (kind : CycleKind) (act : Cpu → Act)
    (upd : Byte → Cpu → Cpu) (hk : kind ≠ .penult)
    (hc : (cpuCyc kind act upd s).ppu.regs.ctrl = s.ppu.regs.ctrl) : LatchStep s (cpuCyc kind act upd s) := by
  obtain ⟨h1, h2⟩ := beforeAccess_latch s
  exact ⟨fun e => by rw [cpuCyc_arb h _ _ _ hk]; exact h1 e, fun e => by rw [cpuCyc_arb h _ _ _ hk]; exact h2 e, hc⟩

/-! ### The poll -/

@[simp] theorem beforeAccess_pending (s : State) : (beforeAccess s).arb.pending = s.arb.pending := by
  simp [beforeAccess, sampleInterrupts]

/-- The APU's interrupt output, held high, is seen by every sample. -/
theorem beforeAccess_irqHeld {s : State} (h : irqHeld s) :
    (beforeAccess s).arb.irqSample = true ∧ irqHeld (beforeAccess s) := by
  unfold irqHeld at h
  constructor
  · simp [beforeAccess, sampleInterrupts, h, IrqLine.advance, settle]
  · simp [irqHeld, beforeAccess, sampleInterrupts, h, IrqLine.advance, settle]

theorem cpuCyc_irqHeld {k : Nat} {s : State} (h : undisturbed (k + 1) s) (kind : CycleKind) (act : Cpu → Act)
    (upd : Byte → Cpu → Cpu) (hi : irqHeld s) : irqHeld (cpuCyc kind act upd s) := by
  have e1 : ∀ (a : Act) (t : State), (perform a t).apuIrq = t.apuIrq := by
    intro a t
    cases a <;> simp only [perform]
    · unfold readEffect; split <;> rfl
    · unfold writeEffect; split <;> rfl
  have e2 : ∀ t : State, (afterAccess t).apuIrq = t.apuIrq := by
    intro t
    unfold afterAccess dotsAfter
    split_ifs <;> rfl
  have e : (cpuCyc kind act upd s).apuIrq = (beforeAccess s).apuIrq := by
    rw [cpuCyc, cyc_eq h]
    have : ∀ t : State, (endCycle kind t).apuIrq = t.apuIrq := by intro t; cases kind <;> rfl
    rw [this]
    exact (e2 _).trans (e1 _ _)
  rw [irqHeld, e]
  exact (beforeAccess_irqHeld hi).2

/-- What the penultimate cycle leaves pending: the poll with I at the end of the cycle. -/
theorem cpuCyc_pending {k : Nat} {s : State} (h : undisturbed (k + 1) s) (act : Cpu → Act) (upd : Byte → Cpu → Cpu) :
    ∃ d, (cpuCyc .penult act upd s).arb.pending = polled (beforeAccess s).arb (upd d s.cpu).p.i := by
  refine ⟨busByte (fun s => act s.cpu) s, ?_⟩
  rw [cpuCyc, cyc_eq h]
  simp [endCycle, poll, State.mapCpu]

/-- A last cycle leaves the poll's result. -/
theorem cpuCyc_last_pending {k : Nat} {s : State} (h : undisturbed (k + 1) s) (act : Cpu → Act) (upd : Byte → Cpu → Cpu) :
    (cpuCyc .last act upd s).arb.pending = s.arb.pending := by
  rw [cpuCyc_arb h _ _ _ (by simp), beforeAccess_pending]

/-- The outcome of a poll with I set, and with I clear and the IRQ line high. -/
theorem polled_masked (a : Arbiter) : polled a true ≠ .irq := by
  unfold polled; split_ifs <;> simp_all

theorem polled_irq {a : Arbiter} (h : a.irqSample = true) : polled a false ≠ .none := by
  unfold polled; split_ifs <;> simp_all

/-- The poll of a two-cycle instruction sees I as it was before it (40_addressing_modes.md R232). -/
theorem implied_pending {s : State} (h : undisturbed 2 s) (op : Byte) (f : Cpu → Cpu) :
    (implied op f s).arb.pending = polled (beforeAccess s).arb s.cpu.p.i := by
  obtain ⟨o1, h1⟩ := fetchOp_spec (k := 1) h .penult (by simp) op
  rw [implied, cpuCyc_last_pending (k := 0) h1]
  obtain ⟨d, hd⟩ := cpuCyc_pending (k := 1) h atPc fun _ c => { c with opcode := op, pc := c.pc + 1 }
  exact hd

/-- PLP's poll sees I as it was before it; the IRQ line, held high, is sampled in that cycle. -/
theorem pullReg_pending {s : State} (h : undisturbed 4 s) (op : Byte) (f : Byte → Cpu → Cpu) :
    ∃ a, (pullReg op f s).arb.pending = polled a s.cpu.p.i ∧ (irqHeld s → a.irqSample = true) := by
  obtain ⟨o1, h1⟩ := fetchOp_spec (k := 3) h .mid (by simp) op
  obtain ⟨o2, h2⟩ := dummyPc_spec (k := 2) o1 h1 .mid (by simp)
  obtain ⟨o3, h3, e3⟩ := stackUp_spec (k := 1) o2.pulled h2 .penult (by simp)
  rw [pullReg, cpuCyc_last_pending (k := 0) h3]
  obtain ⟨d, hd⟩ := cpuCyc_pending (k := 1) h2 atStack fun _ c => { c with s := c.s + 1 }
  exact ⟨(beforeAccess (dummyPc .mid (fetchOp .mid op s))).arb, hd.trans (by simp [o2.p]),
    fun hi => (beforeAccess_irqHeld (cpuCyc_irqHeld (k := 2) h1 _ _ _ (cpuCyc_irqHeld (k := 3) h _ _ _ hi))).1⟩

/-- RTI's poll sees the I it restored; the IRQ line, held high, is sampled in that cycle. -/
theorem returnInt_pending {s : State} (h : undisturbed 6 s) (op : Byte) :
    ∃ a, (returnInt op s).arb.pending = polled a ((pulled s 1).getLsbD 2) ∧ (irqHeld s → a.irqSample = true) := by
  obtain ⟨o1, h1⟩ := fetchOp_spec (k := 5) h .mid (by simp) op
  obtain ⟨o2, h2⟩ := dummyPc_spec (k := 4) o1 h1 .mid (by simp)
  obtain ⟨o3, h3, e3⟩ := stackUp_spec (k := 3) o2.pulled h2 .mid (by simp)
  obtain ⟨o4, h4, e4⟩ := o3.read (k := 2) h3 .mid (by simp) (fun d c => { c with p := .ofByte d, s := c.s + 1 })
    (fun _ _ => rfl) (fun _ _ => rfl) (fun _ _ => rfl) (fun _ _ => rfl) (fun _ _ => rfl) (fun _ _ => rfl)
  obtain ⟨o5, h5, e5⟩ := o4.read (k := 1) h4 .penult (by simp) (fun d c => { c with adl := d, s := c.s + 1 })
    (fun _ _ => rfl) (fun _ _ => rfl) (fun _ _ => rfl) (fun _ _ => rfl) (fun _ _ => rfl) (fun _ _ => rfl)
  obtain ⟨d, hd⟩ := cpuCyc_pending (k := 1) h4 atStack fun d c => { c with adl := d, s := c.s + 1 }
  refine ⟨(beforeAccess (cpuCyc .mid atStack (fun d c => { c with p := .ofByte d, s := c.s + 1 })
    (stackUp .mid (dummyPc .mid (fetchOp .mid op s))))).arb, ?_, fun hi => ?_⟩
  · rw [returnInt, returnFromInterrupt, cpuCyc_last_pending (k := 0) h5, hd, e4]
    rfl
  · exact (beforeAccess_irqHeld (cpuCyc_irqHeld (k := 2) h3 _ _ _ (cpuCyc_irqHeld (k := 3) h2 _ _ _
      (cpuCyc_irqHeld (k := 4) h1 _ _ _ (cpuCyc_irqHeld (k := 5) h _ _ _ hi))))).1

/-! ### The vector -/

theorem target_vector {kind : IntKind} {b : Bool} :
    target (vectorFor kind b) = .mapper ∧ target (vectorFor kind b + 1) = .mapper := by
  unfold vectorFor; split_ifs <;> decide

/-- A byte of ROM is the same whatever RAM holds. -/
theorem delivers_rom {a : Word} {s t : State} {d : Byte} (ha : target a = .mapper) (h : CartKeeps s.cart t.cart) :
    delivers a t d ↔ delivers a s d := by
  simp [delivers, ha, h.kind, h.prg, h.prgSize]

/-- T6: the vector's low byte. -/
theorem vectorLow_spec {k : Nat} {u : State} (h : undisturbed (k + 1) u) (kind : IntKind) :
    ∃ d, delivers (vectorFor kind (beforeAccess u).arb.nmiLatch) u d ∧ Keeps u (vectorLow kind u)
      ∧ (vectorLow kind u).cycle = u.cycle + 1 ∧ (vectorLow kind u).arb.nmiLatch = false
      ∧ (vectorLow kind u).cpu = endCpu .mid .none
          { u.cpu with adl := d, target := vectorFor kind (beforeAccess u).arb.nmiLatch, p := { u.cpu.p with i := true } }
      ∧ undisturbed k (vectorLow kind u) := by
  have hc : (vectorLow kind u).cycle = u.cycle + 1 := by rw [vectorLow, cyc_eq h]; simp
  have hk : Keeps u (vectorLow kind u) := by
    rw [vectorLow, cyc_eq h]
    refine (busCycle_keeps (fun s => .read (vectorFor kind s.arb.nmiLatch)) u rfl).trans
      (Keeps.trans ?_ (endCycle_keeps _ _))
    exact ⟨rfl, .refl _, .refl _, rfl, rfl, rfl⟩
  refine ⟨busByte (fun s => .read (vectorFor kind s.arb.nmiLatch)) u, delivers_busByte _ _ _ rfl, hk, hc, ?_, ?_,
    h.next (by rw [hk.dma]) hk.resetAt hc⟩
  · rw [vectorLow, cyc_eq h]; rfl
  · rw [vectorLow, cyc_eq h]; simp [endCycle, endCpu]

/-- T7: the vector's high byte. -/
theorem vectorHigh_spec {u : State} (h : undisturbed 1 u) :
    ∃ d, delivers (u.cpu.target + 1) u d ∧ Keeps u (vectorHigh u) ∧ (vectorHigh u).cycle = u.cycle + 1
      ∧ (vectorHigh u).arb.pending = .none
      ∧ (nmiOff u → (vectorHigh u).arb.nmiLatch = u.arb.nmiLatch)
      ∧ (vectorHigh u).cpu = endCpu .last .none { u.cpu with adh := d, pc := wordOf d u.cpu.adl } := by
  have hk : Keeps u (vectorHigh u) := by
    rw [vectorHigh, cyc_eq (k := 0) h]
    refine (busCycle_keeps (fun s => .read (s.cpu.target + 1)) u rfl).trans (Keeps.trans ?_ (endCycle_keeps _ _))
    exact ⟨rfl, .refl _, .refl _, rfl, rfl, rfl⟩
  refine ⟨busByte (fun s => .read (s.cpu.target + 1)) u, ?_, hk, ?_, ?_, ?_, ?_⟩
  · exact delivers_busByte _ _ _ (by simp)
  · rw [vectorHigh, cyc_eq (k := 0) h]; simp
  · rw [vectorHigh, cyc_eq (k := 0) h]; rfl
  · intro e
    rw [vectorHigh, cyc_eq (k := 0) h]
    simpa [endCycle] using (beforeAccess_latch u).2 e
  · rw [vectorHigh, cyc_eq (k := 0) h]; simp [endCycle, endCpu]

/-- What taking an interrupt answers: PC (advanced by `len`) and P pushed, I set, PC from the vector, nothing pending. -/
structure Taken (kind : IntKind) (n : Nat) (len : Word) (vec : Word) (lo hi : Byte) (s t : State) : Prop where
  which : vec = 0xFFFA#16 ∨ vec = 0xFFFE#16
  nmi : kind = .nmi ∨ s.arb.nmiLatch = true → vec = 0xFFFA#16
  plain : kind ≠ .nmi → s.arb.nmiLatch = false → nmiOff s → vec = 0xFFFE#16
  low : delivers vec s lo
  high : delivers (vec + 1) s hi
  pushes : pushes [hiByte (s.cpu.pc + len), loByte (s.cpu.pc + len), s.cpu.p.toByte (pushedB kind)] s t
  regs : regs t.cpu = regs { s.cpu with s := s.cpu.s - 3, p := { s.cpu.p with i := true }, pc := wordOf hi lo }
  cycle : t.cycle = s.cycle + n
  index : t.cpu.t = 1
  mode : t.cpu.mode = nextMode s.cpu.mode .none
  pending : t.arb.pending = .none
  latch : nmiOff s → t.arb.nmiLatch = false

theorem takeInterrupt_spec {n : Nat} {len : Word} {s u : State} (o : Opened n len s u) (hl : LatchStep s u)
    (h : undisturbed 5 u) (kind : IntKind) : ∃ vec lo hi, Taken kind (n + 5) len vec lo hi s (takeInterrupt kind u) := by
  obtain ⟨o3, h3, e3⟩ := o.pushed.push (k := 4) h .mid (by simp) fun c => hiByte c.pc
  obtain ⟨o4, h4, e4⟩ := o3.push (k := 3) h3 .mid (by simp) fun c => loByte c.pc
  obtain ⟨o5, h5, e5⟩ := o4.push (k := 2) h4 .mid (by simp) fun c => c.p.toByte (pushedB kind)
  have l3 : LatchStep u (push .mid (fun c => hiByte c.pc) u) :=
    cpuCyc_latch h _ _ _ (by simp) (o3.keeps.ppu.ctrl.trans o.keeps.ppu.ctrl.symm)
  have l4 : LatchStep (push .mid (fun c => hiByte c.pc) u) (push .mid (fun c => loByte c.pc) (push .mid (fun c => hiByte c.pc) u)) :=
    cpuCyc_latch h3 _ _ _ (by simp) (o4.keeps.ppu.ctrl.trans o3.keeps.ppu.ctrl.symm)
  have l5 := cpuCyc_latch h4 .mid (fun c => .write (stackAddr c.s) (c.p.toByte (pushedB kind)))
    (fun _ c => { c with s := c.s - 1 }) (by simp)
    (o5.keeps.ppu.ctrl.trans o4.keeps.ppu.ctrl.symm)
  have l : LatchStep s (push .mid (fun c => c.p.toByte (pushedB kind))
      (push .mid (fun c => loByte c.pc) (push .mid (fun c => hiByte c.pc) u))) := ((hl.trans l3).trans l4).trans l5
  have e : takeInterrupt kind u = vectorHigh (vectorLow kind (push .mid (fun c => c.p.toByte (pushedB kind))
      (push .mid (fun c => loByte c.pc) (push .mid (fun c => hiByte c.pc) u)))) := rfl
  have hb := o5.pushes
  simp only [List.nil_append, List.cons_append] at hb
  rw [o.pc, show (push .mid (fun c => hiByte c.pc) u).cpu.pc = _ from o3.pc,
    show (push .mid (fun c => loByte c.pc) (push .mid (fun c => hiByte c.pc) u)).cpu.p = _ from o4.p] at hb
  rw [e]
  generalize push .mid (fun c => c.p.toByte (pushedB kind))
      (push .mid (fun c => loByte c.pc) (push .mid (fun c => hiByte c.pc) u)) = w at o5 h5 l hb
  obtain ⟨lo, hlo, k6, c6, q6, p6, h6⟩ := vectorLow_spec h5 kind
  obtain ⟨hi, hhi, k7, c7, q7, r7, p7⟩ := vectorHigh_spec h6
  obtain ⟨b1, b2⟩ := beforeAccess_latch w
  refine ⟨_, lo, hi, ?_, ?_, ?_, (delivers_rom target_vector.1 o5.keeps.cart).1 hlo, ?_, ?_, ?_, ?_, ?_, ?_, q7, ?_⟩
  · unfold vectorFor; split_ifs <;> simp
  · rintro (rfl | hx)
    · simp [vectorFor]
    · simp [vectorFor, b1 (l.set hx)]
  · intro hn hx hoff
    have : (beforeAccess w).arb.nmiLatch = false := by
      rw [b2 (by unfold nmiOff at *; rw [l.ctrl]; exact hoff), l.off hoff, hx]
    simp [vectorFor, hn, this]
  · rw [p6] at hhi
    exact (delivers_rom target_vector.2 o5.keeps.cart).1
      ((delivers_rom target_vector.2 k6.cart).1 hhi)
  · obtain ⟨a1, a2, a3, a4, a5, a6, a7, a8, a9⟩ := hb
    have k := k6.trans k7
    exact ⟨fun a => by rw [k.ram]; exact a1 a, a2.trans k.storage, k.cfg.trans a3, k.resetAt.trans a4, k.dma.trans a5,
      k.ppu.ctrl.trans a6, k.ppu.mask.trans a7, k.ppu.t.trans a8, k.ppu.xFine.trans a9⟩
  · rw [p7, p6]; simp [regs, o5.a, o5.x, o5.y, o5.sp, o5.p]
  · rw [c7, c6, o5.cycle]; omega
  · rw [p7]; simp
  · rw [p7, p6]; simp [o5.mode]
  · intro hoff
    rw [r7 (by unfold nmiOff at *; rw [k6.ppu.ctrl, l.ctrl]; exact hoff), q6]

/-- The whole sequence, BRK's two fetches or an interrupt's two dummy reads included. -/
theorem interruptSequence_spec {s : State} (h : undisturbed 7 s) (kind : IntKind) :
    ∃ vec lo hi, Taken kind 7 (if kind = .brk then 2 else 0) vec lo hi s (interruptSequence kind s) := by
  have hint : ∃ u, interruptEntry s = u ∧ Opened 2 0 s u ∧ LatchStep s u ∧ undisturbed 5 u := by
    obtain ⟨o1, h1⟩ := dummyPc_spec (k := 6) (Opened.refl s) h .mid (by simp)
    obtain ⟨o2, h2⟩ := dummyPc_spec (k := 5) o1 h1 .mid (by simp)
    refine ⟨_, rfl, o2, LatchStep.trans (t := dummyPc .mid s) ?_ ?_, h2⟩
    · exact cpuCyc_latch (k := 6) h _ _ _ (by simp) o1.keeps.ppu.ctrl
    · exact cpuCyc_latch (k := 5) h1 _ _ _ (by simp) (o2.keeps.ppu.ctrl.trans o1.keeps.ppu.ctrl.symm)
  cases kind with
  | brk =>
    obtain ⟨o1, h1⟩ := fetchOp_spec (k := 6) h .mid (by simp) 0x00#8
    obtain ⟨o2, h2, -⟩ := fetchOperand_spec (k := 5) o1 h1 .mid (by simp) (fun c => c)
      (by constructor <;> intros <;> rfl)
    have l : LatchStep s (brkEntry s) := by
      refine LatchStep.trans (t := fetchOp .mid 0x00#8 s) ?_ ?_
      · exact cpuCyc_latch (k := 6) h _ _ _ (by simp) o1.keeps.ppu.ctrl
      · exact cpuCyc_latch (k := 5) h1 _ _ _ (by simp) (o2.keeps.ppu.ctrl.trans o1.keeps.ppu.ctrl.symm)
    exact takeInterrupt_spec (u := brkEntry s) o2 l h2 .brk
  | irq =>
    obtain ⟨u, hu, o, l, hu5⟩ := hint
    simpa [interruptSequence, hu] using takeInterrupt_spec o l hu5 .irq
  | nmi =>
    obtain ⟨u, hu, o, l, hu5⟩ := hint
    simpa [interruptSequence, hu] using takeInterrupt_spec o l hu5 .nmi

/-! ### The reset sequence -/

theorem resetSequence_spec {s : State} (h : undisturbed 7 s) :
    ∃ lo hi, delivers 0xFFFC#16 s lo ∧ delivers 0xFFFD#16 s hi ∧ Keeps s (resetSequence s)
      ∧ (resetSequence s).cycle = s.cycle + 7 ∧ ended s (resetSequence s)
      ∧ regs (resetSequence s).cpu = regs { s.cpu with
          s := resetS s.cfg.resetS (s.cpu.s - 3), p := { s.cpu.p with i := true }, pc := wordOf hi lo } := by
  obtain ⟨o1, h1⟩ := dummyPc_spec (k := 6) (Opened.refl s) h .mid (by simp)
  obtain ⟨o2, h2⟩ := dummyPc_spec (k := 5) o1 h1 .mid (by simp)
  obtain ⟨d3, -, c3, h3⟩ := cpuCyc_read (k := 4) h2 .mid (fun c => stackAddr c.s) fun _ c => { c with s := c.s - 1 }
  obtain ⟨d4, -, c4, h4⟩ := cpuCyc_read (k := 3) h3 .mid (fun c => stackAddr c.s) fun _ c => { c with s := c.s - 1 }
  obtain ⟨d5, -, c5, h5⟩ := cpuCyc_read (k := 2) h4 .mid (fun c => stackAddr c.s) fun _ c => { c with s := c.s - 1 }
  obtain ⟨lo, hlo, c6, h6⟩ := cpuCyc_read (k := 1) h5 .mid (fun _ => 0xFFFC#16)
    fun d c => { c with adl := d, p := { c.p with i := true } }
  have k5 := ((o2.keeps.trans c3.keeps).trans c4.keeps).trans c5.keeps
  have k6 := k5.trans c6.keeps
  have hf := c6.cpu
  rw [c5.cpu, c4.cpu, c3.cpu] at hf
  have hcyc : (cpuCyc .mid (fun _ => .read 0xFFFC#16) (fun d c => { c with adl := d, p := { c.p with i := true } })
      (dummyPush (dummyPush (dummyPush (dummyPc .mid (dummyPc .mid s)))))).cycle = s.cycle + 6 :=
    c6.cycle.trans (by rw [c5.cycle, c4.cycle, c3.cycle, o2.cycle])
  have e : resetSequence s = cyc .last (fun _ => .read 0xFFFD#16)
    (fun d s => s.mapCpu fun c => { c with adh := d, pc := wordOf d c.adl, s := resetS s.cfg.resetS c.s })
    (cpuCyc .mid (fun _ => .read 0xFFFC#16) (fun d c => { c with adl := d, p := { c.p with i := true } })
      (dummyPush (dummyPush (dummyPush (dummyPc .mid (dummyPc .mid s)))))) := rfl
  rw [e]
  change undisturbed 1 (cpuCyc .mid (fun _ => .read 0xFFFC#16) (fun d c => { c with adl := d, p := { c.p with i := true } })
      (dummyPush (dummyPush (dummyPush (dummyPc .mid (dummyPc .mid s)))))) at h6
  change (cpuCyc .mid (fun _ => .read 0xFFFC#16) (fun d c => { c with adl := d, p := { c.p with i := true } })
      (dummyPush (dummyPush (dummyPush (dummyPc .mid (dummyPc .mid s)))))).cpu = _ at hf
  change Keeps s (cpuCyc .mid (fun _ => .read 0xFFFC#16) (fun d c => { c with adl := d, p := { c.p with i := true } })
      (dummyPush (dummyPush (dummyPush (dummyPc .mid (dummyPc .mid s)))))) at k6
  generalize cpuCyc .mid (fun _ => .read 0xFFFC#16) (fun d c => { c with adl := d, p := { c.p with i := true } })
      (dummyPush (dummyPush (dummyPush (dummyPc .mid (dummyPc .mid s))))) = w at h6 hf k6 hcyc
  rw [cyc_eq (k := 0) h6]
  refine ⟨lo, busByte (fun _ => .read 0xFFFD#16) w, (delivers_congr k5).1 hlo, ?_, ?_, ?_, ?_, ?_⟩
  · exact (delivers_congr k6).1 (delivers_busByte _ _ _ rfl)
  · refine k6.trans ((busCycle_keeps (fun _ => .read 0xFFFD#16) w rfl).trans (Keeps.trans ?_ (endCycle_keeps _ _)))
    exact ⟨rfl, .refl _, .refl _, rfl, rfl, rfl⟩
  · simp [hcyc]
  · refine ended_of_cpu (endCycle_cpu _ _) ?_
    simp [hf, o2.mode]
  · have hcfg : (busCycle (fun _ => .read 0xFFFD#16) w).cfg = s.cfg :=
      (busCycle_keeps (fun _ => .read 0xFFFD#16) w rfl).cfg.trans k6.cfg
    rw [endCycle_cpu]
    simp [regs, hf, o2.a, o2.x, o2.y, o2.p, o2.sp, hcfg, BitVec.sub_sub]

/-! ### The jam -/

/-- STP and the unstable opcodes: the opcode fetch, then mode `mode`. -/
theorem stop_spec {s : State} (h : undisturbed 1 s) (op : Byte) (mode : CpuMode) :
    Keeps s (cpuCyc .last atPc (fun _ c => { c with opcode := op, pc := c.pc + 1, mode := mode }) s)
      ∧ (cpuCyc .last atPc (fun _ c => { c with opcode := op, pc := c.pc + 1, mode := mode }) s).cycle = s.cycle + 1
      ∧ (cpuCyc .last atPc (fun _ c => { c with opcode := op, pc := c.pc + 1, mode := mode }) s).cpu
          = endCpu .last (cpuCyc .last atPc (fun _ c => { c with opcode := op, pc := c.pc + 1, mode := mode }) s).arb.pending
              { s.cpu with opcode := op, pc := s.cpu.pc + 1, mode := mode } := by
  obtain ⟨d, -, hc, -⟩ := cpuCyc_read (k := 0) h .last (fun c => c.pc)
    fun _ c => { c with opcode := op, pc := c.pc + 1, mode := mode }
  exact ⟨hc.keeps, hc.cycle, hc.cpu⟩

/-- A jammed cycle. -/
theorem jamCycle_spec {s : State} (h : undisturbed 1 s) (hm : s.cpu.mode = .jammed) (ht : s.cpu.t = 1) :
    Keeps s (jamCycle s) ∧ (jamCycle s).cycle = s.cycle + 1 ∧ (jamCycle s).cpu = s.cpu := by
  obtain ⟨d, hc, -⟩ := cpuCyc_idle (k := 0) h .last fun _ c => c
  refine ⟨hc.keeps, hc.cycle, hc.cpu.trans ?_⟩
  rw [endCpu, hm, ← ht]
  simp only [nextMode, ← hm]

end Sys2Proof.Machine
end

