-- ==== Sys2Proof/Laws/Families.lean ====
section
/-! SUPPORT. What `exec` answers for every Read, Write and read-modify-write instruction, from the specifications of their
modes: the operation of the mnemonic on CPU registers that are those before, PC advanced. -/

namespace Sys2Proof.Machine

/-- A row without its operand: mnemonic, mode name and tag agree as the table has them (30_encoding.md R161). -/
theorem tag_read {i : Instr}
    (h : i.mnemonic ∈ [.lda, .ldx, .ldy, .adc, .sbc, .usbc, .and, .ora, .eor, .cmp, .cpx, .cpy, .bit, .lax, .anc, .alr, .arr,
      .axs]) : i.tag = .read := by
  rw [← List.contains_iff_mem] at h
  revert h
  cases i <;> first | (intro; rfl) | (intro h; exact Bool.noConfusion (show false = true from h))

theorem tag_write {i : Instr} (h : i.mnemonic ∈ [.sta, .stx, .sty, .sax]) : i.tag = .write := by
  rw [← List.contains_iff_mem] at h
  revert h
  cases i <;> first | (intro; rfl) | (intro h; exact Bool.noConfusion (show false = true from h))

theorem tag_rmw {i : Instr} (h : i.mnemonic ∈ [.inc, .dec, .dcp, .isb, .slo, .rla, .sre, .rra]) : i.tag = .rmw := by
  rw [← List.contains_iff_mem] at h
  revert h
  cases i <;> first | (intro; rfl) | (intro h; exact Bool.noConfusion (show false = true from h))

/-- The cycles of a Read are its mode's, one more across a page. -/
theorem cyclesOf_read {i : Instr} (h : i.tag = .read) (s : State) :
    cyclesOf i s = readCycles i.mode + if i.mode.crosses s then 1 else 0 := by
  revert h
  cases i <;> first | (intro h; exact Tag.noConfusion h) | (intro; rfl)

theorem cyclesOf_write {i : Instr} (h : i.tag = .write) (s : State) : cyclesOf i s = writeCycles i.mode := by
  revert h
  cases i <;> first | (intro h; exact Tag.noConfusion h) | (intro; rfl)

theorem cyclesOf_rmw {i : Instr} (h : i.tag = .rmw) (s : State) : cyclesOf i s = rmwCycles i.mode := by
  revert h
  cases i <;> first | (intro h; exact Tag.noConfusion h) | (intro; rfl)

/-- A Read's mode is immediate or has an effective address. -/
theorem ea_read {i : Instr} (h : i.tag = .read) (s : State) : (∃ imm, i.mode = .immediate imm) ∨ ∃ a, i.mode.ea s = some a := by
  revert h
  cases i <;> first
    | (intro h; exact Tag.noConfusion h) | (intro; exact .inl ⟨_, rfl⟩) | (intro; exact .inr ⟨_, rfl⟩)

theorem ea_write {i : Instr} (h : i.tag = .write) (s : State) : ∃ a, i.mode.ea s = some a := by
  revert h
  cases i <;> first | (intro h; exact Tag.noConfusion h) | (intro; exact ⟨_, rfl⟩)

theorem ea_rmw {i : Instr} (h : i.tag = .rmw) (s : State) : ∃ a, i.mode.ea s = some a := by
  revert h
  cases i <;> first | (intro h; exact Tag.noConfusion h) | (intro; exact ⟨_, rfl⟩)

theorem target_oamDma {a : Word} (h : a ≠ 0x4014#16) : target a ≠ .oamDma := by
  intro ht
  refine h ?_
  unfold target at ht
  dsimp only at ht
  apply BitVec.eq_of_toNat_eq
  split_ifs at ht
  assumption

/-- The operations keep the mode. -/
theorem readOp_mode (k : Mnemonic) (m : Byte) (c : Cpu) : (readOp k m c).mode = c.mode := by
  cases k <;> rfl

theorem rmwOp_mode (k : Mnemonic) (m : Byte) (c : Cpu) : (rmwOp k m c).2.mode = c.mode := by
  cases k <;> rfl

/-- What a Read instruction answers. -/
structure ReadDone (i : Instr) (m : Byte) (c : Cpu) (s t : State) : Prop where
  exec : exec i s = .next t
  operand : operandIs i.mode s t m
  same : SameRegs i.mode.bytes s c
  cpu : t.cpu = endCpu .last t.arb.pending (readOp i.mnemonic m c)
  kept : storesNothing s t
  cycle : t.cycle = s.cycle + cyclesOf i s
  ended : ended s t
  bus : ∀ a, i.mode.ea s = some a → delivers a s t.cpuBus
  keeps : Keeps s t

/-- A Read of an immediate byte. -/
theorem immediate_done {i : Instr} {s : State} {imm : Byte} (h : undisturbed 2 s) (ht : i.tag = .read)
    (hm : i.mode = .immediate imm) : ∃ t c, ReadDone i imm c s t := by
  obtain ⟨c, k, hc, hs, hcpu⟩ := immediate_spec h i.opcode imm (readOp i.mnemonic)
  have e : readMode i.mode i.opcode (readOp i.mnemonic) s = immediate i.opcode imm (readOp i.mnemonic) s := by rw [hm]; rfl
  refine ⟨immediate i.opcode imm (readOp i.mnemonic) s, c, (exec_read i s ht).trans (by rw [e]), by rw [hm]; rfl,
    by rw [hm]; exact hs, hcpu, k.storesNothing, by rw [hc, cyclesOf_read ht, hm]; rfl, ?_, by rw [hm]; simp [Mode.ea], k⟩
  exact ended_of_cpu hcpu (by rw [readOp_mode, hs.mode])

theorem read_done {i : Instr} {s : State} (h : undisturbed 8 s) (ht : i.tag = .read) : ∃ t m c, ReadDone i m c s t := by
  rcases ea_read ht s with ⟨imm, hm⟩ | ⟨a, ha⟩
  · obtain ⟨t, c, d⟩ := immediate_done (h.mono (by omega)) ht hm
    exact ⟨t, imm, c, d⟩
  · obtain ⟨d, c, hr⟩ := readMode_at h i.mode i.opcode (readOp i.mnemonic) ha
    have hbus : ∀ b, i.mode.ea s = some b → delivers b s d := by
      intro b hb; rw [ha] at hb; cases hb; exact hr.operand
    refine ⟨_, d, c, exec_read i s ht, ?_, hr.sameRegs, hr.cpu, hr.keeps.storesNothing,
      by rw [hr.cycle, cyclesOf_read ht], ended_of_cpu hr.cpu (by rw [readOp_mode, hr.sameRegs.mode]),
      fun b hb => hr.bus ▸ hbus b hb, hr.keeps⟩
    cases hm : i.mode <;> simp only [operandIs] <;> rw [hm] at ha hbus <;> first
      | exact ⟨hm ▸ hr.bus.symm, hbus⟩ | exact absurd ha (by simp [Mode.ea])

/-- What a Write instruction answers. -/
structure WriteDone (i : Instr) (a : Word) (c : Cpu) (s t : State) : Prop where
  exec : exec i s = .next t
  ea : i.mode.ea s = some a
  same : SameRegs i.mode.bytes s c
  stores : stores a (storeOp i.mnemonic c) s t
  cpu : t.cpu = endCpu .last t.arb.pending c
  cycle : t.cycle = s.cycle + cyclesOf i s
  ended : ended s t

theorem write_done {i : Instr} {s : State} (h : undisturbed 8 s) (ht : i.tag = .write) : ∃ t a c, WriteDone i a c s t := by
  obtain ⟨a, ha⟩ := ea_write ht s
  obtain ⟨c, hw⟩ := writeMode_at h i.mode i.opcode (storeOp i.mnemonic) ha
  exact ⟨_, a, c, exec_write i s ht, ha, hw.sameRegs, hw.stores, hw.cpu, by rw [hw.cycle, cyclesOf_write ht],
    ended_of_cpu hw.cpu hw.sameRegs.mode⟩

/-- What a read-modify-write instruction answers at an address other than $4014. -/
structure RmwDone (i : Instr) (a : Word) (m : Byte) (c c' : Cpu) (s t : State) : Prop where
  exec : exec i s = .next t
  operand : delivers a s m
  stores : stores a (rmwOp i.mnemonic m c).1 s t
  same : SameRegs i.mode.bytes s c
  same' : SameRegs i.mode.bytes s c'
  cpu : t.cpu = endCpu .last t.arb.pending (rmwOp i.mnemonic m c').2
  cycle : t.cycle = s.cycle + cyclesOf i s
  ended : ended s t

theorem rmw_done {i : Instr} {s : State} {a : Word} (h : undisturbed 8 s) (ht : i.tag = .rmw) (ha : i.mode.ea s = some a)
    (hd : a ≠ 0x4014#16) : ∃ t m c c', RmwDone i a m c c' s t := by
  obtain ⟨m, c, c', hw⟩ := rmwMode_at h i.mode i.opcode (rmwOp i.mnemonic) ha (target_oamDma hd)
  exact ⟨_, m, c, c', exec_rmw i s ht, hw.operand, hw.stores, hw.sameRegs, hw.sameRegs', hw.cpu,
    by rw [hw.cycle, cyclesOf_rmw ht], ended_of_cpu hw.cpu (by rw [rmwOp_mode, hw.sameRegs'.mode])⟩

/-! ### Two-cycle instructions, and the arithmetic as the statements write it -/

@[simp] theorem regs_endCpu (k : CycleKind) (q : Pending) (c : Cpu) : regs (endCpu k q c) = regs c := by simp [regs]

theorem setZN_eq (r : Byte) (p : Flags) : p.setZN r = zn r p := by
  have h : (r == 0#8) = decide (r.toNat = 0) := by
    rw [Bool.eq_iff_iff]; simp [← BitVec.toNat_inj]
  simp [Flags.setZN, zn, BitVec.msb_eq_decide, h]

/-- `Flags.add` is `Add8`. -/
theorem add_eq (a b : Byte) (p : Flags) : addResult a b p.c = (add8 a b p.c p).1 ∧ p.add a b = (add8 a b p.c p).2 := by
  have h1 : addResult a b p.c = BitVec.ofNat 8 ((a.toNat + b.toNat + p.c.toNat) % 256) := by
    apply BitVec.eq_of_toNat_eq
    cases p.c <;> simp [addResult, flagBit, Nat.add_mod]
  refine ⟨h1, ?_⟩
  simp only [Flags.add, add8, setZN_eq, h1, addCarry]
  congr 1
  simp only [addOverflow, h1]
  generalize BitVec.ofNat 8 ((a.toNat + b.toNat + p.c.toNat) % 256) = r
  rw [BitVec.msb_eq_getLsbD_last]
  have key : ∀ x : Byte, x.getLsbD 7 = decide (x &&& 0x80#8 ≠ 0#8) := by decide
  exact key _

/-- `Flags.compare` is `Compare`. -/
theorem compare_eq (r m : Byte) (p : Flags) : p.compare r m = compared r m p := by
  have : r - m = BitVec.ofNat 8 ((256 + r.toNat - m.toNat) % 256) := by
    apply BitVec.eq_of_toNat_eq
    simp [BitVec.toNat_sub]; omega
  simp [Flags.compare, compared, setZN_eq, this]

/-- The subtraction of SBC: its result, C and V as facts of the numbers. -/
theorem sbc_arith (a m : Byte) (p : Flags) :
    ((add8 a (m ^^^ 0xFF#8) p.c p).1.toNat : Int) = ((a.toNat : Int) - m.toNat - (1 - p.c.toNat)) % 256
    ∧ ((add8 a (m ^^^ 0xFF#8) p.c p).2.c = true ↔ m.toNat + 1 ≤ a.toNat + p.c.toNat)
    ∧ ((add8 a (m ^^^ 0xFF#8) p.c p).2.v = true ↔ a.toInt - m.toInt - (1 - p.c.toNat) < -128
            ∨ 127 < a.toInt - m.toInt - (1 - p.c.toNat)) := by
  have hx : (m ^^^ 0xFF#8).toNat = 255 - m.toNat := by revert m; decide
  have ha := a.isLt; have hm := m.isLt
  refine ⟨?_, ?_, ?_⟩
  · simp only [add8, hx]
    cases p.c <;> simp <;> omega
  · simp only [add8, hx]
    cases p.c <;> simp <;> omega
  · have := (add_eq a (m ^^^ 0xFF#8) p).2
    rw [← this]
    have key : ∀ a b : Byte, ∀ c : Bool, (addOverflow a b c = true ↔ a.toInt + b.toInt + c.toNat < -128 ∨ 127 < a.toInt + b.toInt + c.toNat) := by
      intro a b c
      unfold addOverflow
      rw [BitVec.msb_and, BitVec.msb_xor, BitVec.msb_xor]
      have hr : (addResult a b c).toNat = (a.toNat + b.toNat + c.toNat) % 256 := by
        cases c <;> simp [addResult, flagBit, Nat.add_mod]
      have ha := a.isLt; have hb := b.isLt
      rw [BitVec.msb_eq_decide, BitVec.msb_eq_decide, BitVec.msb_eq_decide, hr, BitVec.toInt_eq_toNat_cond, BitVec.toInt_eq_toNat_cond]
      generalize a.toNat = x at *
      generalize b.toNat = y at *
      cases c <;> simp <;> split_ifs <;> (try constructor) <;> (try intro h) <;> omega
    show addOverflow _ _ _ = true ↔ _
    rw [key]
    have : (m ^^^ 0xFF#8).toInt = -m.toInt - 1 := by clear this hx hm; revert m; decide
    rw [this]
    constructor <;> intro h <;> omega

/-- The four shifts, result and carry out. -/
theorem shift_eqs (m : Byte) (c : Bool) :
    (shiftLeft m, carryLeft m) = shiftOf .asl m c ∧ (shiftRight m, carryRight m) = shiftOf .lsr m c
      ∧ (rotateLeft c m, carryLeft m) = shiftOf .rol m c ∧ (rotateRight c m, carryRight m) = shiftOf .ror m c := by
  revert m c; decide

/-- The operation of a two-cycle instruction without an operand byte. -/
def impliedOp : Mnemonic → Cpu → Cpu
  | .tax => Alu.tax
  | .tay => Alu.tay
  | .txa => Alu.txa
  | .tya => Alu.tya
  | .tsx => Alu.tsx
  | .txs => Alu.txs
  | .inx => Alu.inx
  | .iny => Alu.iny
  | .dex => Alu.dex
  | .dey => Alu.dey
  | .asl => Alu.onA Alu.asl
  | .lsr => Alu.onA Alu.lsr
  | .rol => Alu.onA Alu.rol
  | .ror => Alu.onA Alu.ror
  | .clc => fun c => { c with p := { c.p with c := false } }
  | .sec => fun c => { c with p := { c.p with c := true } }
  | .cli => fun c => { c with p := { c.p with i := false } }
  | .sei => fun c => { c with p := { c.p with i := true } }
  | .cld => fun c => { c with p := { c.p with d := false } }
  | .sed => fun c => { c with p := { c.p with d := true } }
  | .clv => fun c => { c with p := { c.p with v := false } }
  | _ => fun c => c

/-- Implicit or Accumulator, in two cycles. -/
def twoCycle (i : Instr) : Bool := i.row.cycles = 2 && (i.mode = .implicit || i.mode = .accumulator)

theorem exec_implied (i : Instr) (s : State) (h : twoCycle i = true) :
    exec i s = .next (implied i.opcode (impliedOp i.mnemonic) s) := by
  revert h
  cases i <;> first | (intro h; exact Bool.noConfusion h) | (intro; rfl)

theorem twoCycle_of_mnemonic {i : Instr}
    (h : i.mnemonic ∈ [.tax, .tay, .txa, .tya, .tsx, .txs, .inx, .iny, .dex, .dey, .clc, .sec, .cli, .sei, .cld, .sed, .clv]) :
    twoCycle i = true := by
  rw [← List.contains_iff_mem] at h
  revert h
  cases i <;> first | (intro; rfl) | (intro h; exact Bool.noConfusion (show false = true from h))

theorem twoCycle_of_accumulator {i : Instr} (h : i.mode = .accumulator) :
    twoCycle i = true ∧ i.mnemonic ∈ [.asl, .lsr, .rol, .ror] := by
  revert h
  cases i <;> first | (intro h; exact Mode.noConfusion h) | (intro; exact ⟨rfl, by decide⟩)

theorem impliedOp_mode (k : Mnemonic) (c : Cpu) : (impliedOp k c).mode = c.mode := by
  cases k <;> rfl

/-- The operation reads only the registers. -/
theorem impliedOp_regs (k : Mnemonic) {s : State} {c : Cpu} (h : SameRegs 1 s c) :
    regs (impliedOp k c) = regs (impliedOp k { s.cpu with pc := s.cpu.pc + 1 }) := by
  obtain ⟨a, x, y, sp, p, -, pc⟩ := h
  cases k <;>
    simp [impliedOp, regs, Alu.tax, Alu.tay, Alu.txa, Alu.tya, Alu.tsx, Alu.txs, Alu.inx, Alu.iny, Alu.dex, Alu.dey,
      Alu.onA, Alu.asl, Alu.lsr, Alu.rol, Alu.ror, Flags.shifted, a, x, y, sp, p, pc]

/-- What a two-cycle instruction answers. -/
structure ImpliedDone (i : Instr) (s t : State) : Prop where
  exec : exec i s = .next t
  regs : regs t.cpu = regs (impliedOp i.mnemonic { s.cpu with pc := s.cpu.pc + 1 })
  kept : storesNothing s t
  cycle : t.cycle = s.cycle + 2
  ended : ended s t
  pending : t.arb.pending = polled (beforeAccess s).arb s.cpu.p.i

theorem implied_done {i : Instr} {s : State} (h : undisturbed 2 s) (ht : twoCycle i = true) : ∃ t, ImpliedDone i s t := by
  obtain ⟨c, k, cy, hs, e⟩ := implied_spec h i.opcode (impliedOp i.mnemonic)
  exact ⟨_, exec_implied i s ht, by rw [e, regs_endCpu]; exact impliedOp_regs _ hs, k.storesNothing, cy,
    ended_of_cpu e (by rw [impliedOp_mode, hs.mode]), implied_pending h _ _⟩

theorem exec_branch (i : Instr) (s : State) (off : Byte) (h : i.mode = .relative off) :
    exec i s = .next (relative i.opcode off i.mnemonic.taken s) := by
  revert h
  cases i <;> first | (intro h; exact Mode.noConfusion h) | (intro h; injection h with h; subst h; rfl)

/-- The target of a branch, as a number. -/
theorem branch_target (pc : Word) (off : Byte) :
    ((pc + 2 + sext8 off).toNat : Int) = ((pc.toNat : Int) + 2 + off.toInt) % 0x10000 := by
  have := pc.isLt
  simp [sext8, BitVec.toNat_signExtend, BitVec.toNat_add]
  have := off.isLt
  rw [BitVec.toInt_eq_msb_cond]
  by_cases hb : off.msb = true
  · simp [hb]; omega
  · simp [hb]

theorem samePage_iff (a b : Word) : samePage a b = decide (a.toNat / 256 = b.toNat / 256) := by
  rw [samePage, Bool.eq_iff_iff]
  simp [← BitVec.toNat_inj, hiByte_toNat]

/-- The byte PHP pushes, as a number. -/
theorem toByte_true (p : Flags) : (p.toByte true).toNat = 128 * p.n.toNat + 64 * p.v.toNat + 32 + 16 + 8 * p.d.toNat
    + 4 * p.i.toNat + 2 * p.z.toNat + p.c.toNat := by
  rcases p with ⟨n, v, d, i, z, c⟩
  revert n v d i z c; decide

/-- Two mnemonics in a list, decided by evaluation. -/
theorem mnemonic_mem {i : Instr} {l : List Mnemonic} {P : Prop} (h : i.mnemonic ∈ l)
    (k : l.contains i.mnemonic = true → P) : P := k (List.contains_iff_mem.2 h)

/-! ### Opcodes that stop the CPU -/

/-- The unstable opcodes all run the one operation. -/
theorem exec_unstable (i : Instr) (s : State) (h : i.mnemonic ∈ [.xaa, .ahx, .tas, .shy, .shx, .lxa, .las]) :
    exec i s = .next (refuse i.opcode s) := by
  refine mnemonic_mem h ?_
  cases i <;> first | (intro h; exact Bool.noConfusion (show false = true from h)) | (intro; rfl)

theorem undisturbed_of_idle {s : State} (hd : s.dma.active = false) (h : resetDue s = false) : undisturbed 1 s := by
  refine ⟨hd, fun n hn => ?_⟩
  unfold resetDue at h
  cases hr : s.resetAt with
  | nil => rw [hr] at hn; simp at hn
  | cons m l =>
    rw [hr] at hn h
    simp at hn h
    omega

/-! ### What `exec` can answer -/

/-- Every instruction, by the operation that carries it out. -/
inductive Runs (i : Instr) (s : State) : Prop
  | read (tag : i.tag = .read) (eq : exec i s = .next (readMode i.mode i.opcode (readOp i.mnemonic) s))
  | write (tag : i.tag = .write) (eq : exec i s = .next (writeMode i.mode i.opcode (storeOp i.mnemonic) s))
  | rmw (tag : i.tag = .rmw) (eq : exec i s = .next (rmwMode i.mode i.opcode (rmwOp i.mnemonic) s))
  | implied (two : twoCycle i = true) (tag : i.tag = .implicit)
      (eq : exec i s = .next (implied i.opcode (impliedOp i.mnemonic) s))
  | branch (off : Byte) (mode : i.mode = .relative off) (tag : i.tag = .implicit)
      (eq : exec i s = .next (relative i.opcode off i.mnemonic.taken s))
  | unstable (tag : i.tag = .untagged) (eq : exec i s = .next (refuse i.opcode s))
  | stp (row : StpRow) (is : i = .stp row) (eq : exec i s = .next (jam i.opcode s))
  | brk (is : i = .brk) (eq : exec i s = .next (interruptSequence .brk s))
  | php (is : i = .php) (eq : exec i s = .next (pushReg 0x08#8 (fun c => c.p.toByte true) s))
  | pha (is : i = .pha) (eq : exec i s = .next (pushReg 0x48#8 Cpu.a s))
  | plp (is : i = .plp) (eq : exec i s = .next (pullReg 0x28#8 (fun d c => { c with p := .ofByte d }) s))
  | pla (is : i = .pla) (eq : exec i s = .next (pullReg 0x68#8 (fun d c => { c with a := d, p := c.p.setZN d }) s))
  | rti (is : i = .rti) (eq : exec i s = .next (returnInt 0x40#8 s))
  | rts (is : i = .rts) (eq : exec i s = .next (returnSub 0x60#8 s))
  | jsr (addr : Word) (is : i = .jsr addr) (eq : exec i s = .next (callAbs 0x20#8 addr s))
  | jmpAbs (addr : Word) (is : i = .jmpAbs addr) (eq : exec i s = .next (jumpAbs 0x4C#8 addr s))
  | jmpInd (ptr : Word) (is : i = .jmpInd ptr) (eq : exec i s = .next (jumpInd 0x6C#8 ptr s))

theorem exec_stp (row : StpRow) (s : State) : exec (.stp row) s = .next (jam (Instr.stp row).opcode s) := by
  cases row <;> rfl

theorem implicit_cases {i : Instr} (ht : i.tag = .implicit) : twoCycle i = true ∨ (∃ off, i.mode = .relative off)
    ∨ i = .brk ∨ i = .php ∨ i = .pha ∨ i = .plp ∨ i = .pla ∨ i = .rti ∨ i = .rts ∨ (∃ a, i = .jsr a) ∨ (∃ a, i = .jmpAbs a)
    ∨ (∃ a, i = .jmpInd a) ∨ ∃ r, i = .stp r := by
  revert ht
  cases i <;> first
    | (intro h; exact Tag.noConfusion h) | (intro; exact .inl rfl) | (intro; exact .inr (.inl ⟨_, rfl⟩)) | simp

theorem exec_runs (i : Instr) (s : State) : Runs i s := by
  cases ht : i.tag with
  | read => exact .read ht (exec_read i s ht)
  | write => exact .write ht (exec_write i s ht)
  | rmw => exact .rmw ht (exec_rmw i s ht)
  | untagged =>
    refine .unstable ht (exec_unstable i s ?_)
    revert ht
    cases i <;> first | (intro h; exact Tag.noConfusion h) | (intro; exact List.contains_iff_mem.1 rfl)
  | implicit =>
    rcases implicit_cases ht with h | ⟨off, h⟩ | rfl | rfl | rfl | rfl | rfl | rfl | rfl | ⟨a, rfl⟩ | ⟨a, rfl⟩ | ⟨a, rfl⟩ | ⟨r, rfl⟩
    · exact .implied h ht (exec_implied i s h)
    · exact .branch off h ht (exec_branch i s off h)
    · exact .brk rfl rfl
    · exact .php rfl rfl
    · exact .pha rfl rfl
    · exact .plp rfl rfl
    · exact .pla rfl rfl
    · exact .rti rfl rfl
    · exact .rts rfl rfl
    · exact .jsr a rfl rfl
    · exact .jmpAbs a rfl rfl
    · exact .jmpInd a rfl rfl
    · exact .stp r rfl (exec_stp r s)

end Sys2Proof.Machine
end

