-- ==== Sys2Proof/Laws/Table.lean ====
section
/-! SUPPORT. The decode table read the other way: what `decodeOp` makes of three bytes encodes back to them. -/

namespace Sys2Proof.Machine

theorem decodeOp_map_encode (op b1 b2 : Byte) :
    (decodeOp op b1 b2).map encode = some (op :: [b1, b2].take (opcodeLength op - 1)) := by
  have word : ∀ a : Byte, some [a, loByte (wordOf b2 b1), hiByte (wordOf b2 b1)] = some [a, b1, b2] := by
    intro a; rw [loByte_wordOf, hiByte_wordOf]
  obtain ⟨n, h, rfl⟩ : ∃ n, n < 256 ∧ op = BitVec.ofNat 8 n := ⟨op.toNat, op.isLt, by simp⟩
  interval_cases n <;> first | rfl | exact word _

/-- Every opcode byte makes an instruction of the bytes after it, which encodes back to them. -/
theorem decodeOp_encode (op b1 b2 : Byte) :
    ∃ i, decodeOp op b1 b2 = some i ∧ encode i = op :: [b1, b2].take (opcodeLength op - 1) :=
  Option.map_eq_some_iff.mp (decodeOp_map_encode op b1 b2)

end Sys2Proof.Machine
end

