-- ==== Sys2Proof/Laws/PerCycle.lean ====
section
/-! SUPPORT. The step relation per CPU cycle, said once: everything a step can do is a sequence of CPU cycles that stops at
a cycle boundary when a reset falls there, so the states between its cycles are one cycle apart. -/

namespace Sys2Proof.Machine

/-! ### The host's coming resets are read at a cycle boundary only -/

/-- The machine with other coming resets. -/
def setResets (r : List Nat) (s : State) : State := { s with resetAt := r }

@[simp] theorem setResets_resetAt (r : List Nat) (s : State) : (setResets r s).resetAt = r := rfl
@[simp] theorem setResets_cpu (r : List Nat) (s : State) : (setResets r s).cpu = s.cpu := rfl
@[simp] theorem setResets_dma (r : List Nat) (s : State) : (setResets r s).dma = s.dma := rfl
@[simp] theorem setResets_arb (r : List Nat) (s : State) : (setResets r s).arb = s.arb := rfl
@[simp] theorem setResets_cycle (r : List Nat) (s : State) : (setResets r s).cycle = s.cycle := rfl
@[simp] theorem setResets_setResets (r q : List Nat) (s : State) : setResets r (setResets q s) = setResets r s := rfl
@[simp] theorem setResets_self (s : State) : setResets s.resetAt s = s := rfl

theorem setResets_ppuDot (r : List Nat) (s : State) : ppuDot (setResets r s) = setResets r (ppuDot s) := by
  unfold ppuDot; rfl

theorem setResets_sampleInterrupts (r : List Nat) (s : State) :
    sampleInterrupts (setResets r s) = setResets r (sampleInterrupts s) := by
  unfold sampleInterrupts; rfl

theorem setResets_beforeAccess (r : List Nat) (s : State) : beforeAccess (setResets r s) = setResets r (beforeAccess s) := by
  have : tickDevices (setResets r s) = setResets r (tickDevices s) := rfl
  rw [beforeAccess, this, setResets_ppuDot, setResets_ppuDot, setResets_sampleInterrupts, ← beforeAccess]

theorem setResets_readValue (r : List Nat) (a : Word) (s : State) : readValue a (setResets r s) = readValue a s := by
  unfold readValue; split <;> rfl

theorem setResets_readEffect (r : List Nat) (a : Word) (s : State) :
    readEffect a (setResets r s) = setResets r (readEffect a s) := by
  unfold readEffect; split <;> rfl

theorem setResets_writeEffect (r : List Nat) (a : Word) (d : Byte) (s : State) :
    writeEffect a d (setResets r s) = setResets r (writeEffect a d s) := by
  unfold writeEffect; split <;> rfl

theorem setResets_perform (r : List Nat) (act : Act) (s : State) :
    perform act (setResets r s) = setResets r (perform act s) := by
  cases act with
  | read a => rw [perform, setResets_readEffect, setResets_readValue]; rfl
  | write a d => rw [perform, setResets_writeEffect]; rfl
  | idle => rfl

theorem setResets_afterAccess (r : List Nat) (s : State) : afterAccess (setResets r s) = setResets r (afterAccess s) := by
  have h : dotsAfter (setResets r s) = setResets r (dotsAfter s) := by
    unfold dotsAfter
    have : longCycle (setResets r s) = longCycle s := rfl
    rw [this]
    split_ifs <;> simp only [setResets_ppuDot]
  rw [afterAccess, h]
  rfl

theorem setResets_busCycle (r : List Nat) (act : Act) (s : State) :
    busCycle (fun _ => act) (setResets r s) = setResets r (busCycle (fun _ => act) s) := by
  rw [busCycle, setResets_beforeAccess, setResets_perform, setResets_afterAccess]
  rfl

theorem setResets_busByte (r : List Nat) (act : Act) (s : State) :
    busByte (fun _ => act) (setResets r s) = busByte (fun _ => act) s := by
  cases act with
  | read a => exact setResets_readValue r a (beforeAccess s)
  | write a d => rfl
  | idle => rfl

/-- The primitive of a cycle is chosen at its access. -/
theorem busCycle_chosen (act : State → Act) (s : State) :
    busCycle act s = busCycle (fun _ => act (beforeAccess s)) s ∧ busByte act s = busByte (fun _ => act (beforeAccess s)) s :=
  ⟨rfl, rfl⟩

theorem dmaAct_beforeAccess (s : State) : dmaAct (beforeAccess s) = dmaAct s := by
  unfold dmaAct; rw [beforeAccess_dma]

/-! ### One cycle -/

/-- `v` is `u` one CPU cycle later. -/
def Ticked (u v : State) : Prop := ∃ act, oneCycle act u v

theorem Ticked.cycle {u v : State} (h : Ticked u v) : v.cycle = u.cycle + 1 := by
  obtain ⟨act, h, -⟩ := h
  rw [h]; exact busCycle_cycle (fun _ => act) u

theorem Ticked.setResets {u v : State} (r : List Nat) (h : Ticked u v) : Ticked (setResets r u) (setResets r v) := by
  obtain ⟨act, h1, h2, h3, h4, h5, h6⟩ := h
  refine ⟨act, ?_, ?_, ?_, ?_, ?_, ?_⟩
  · rw [setResets_busCycle]; exact congrArg (Machine.setResets r) h1
  · rw [setResets_busCycle]; exact h2
  · rw [setResets_busCycle]; exact h3
  · rw [setResets_busCycle]; exact h4
  · rw [setResets_busCycle, setResets_busByte]; exact h5
  · rw [setResets_busCycle]; exact h6

/-! ### What stops at every cycle boundary -/

/-- `f` with the next reset at `o`, if any, the rest left out of the answer. -/
def lim (o : Option Nat) (f : State → State) (s : State) : State := setResets [] (f (setResets o.toList s))

/-- `f` is a sequence of CPU cycles: of the coming resets it reads the next one only, and changes none; it does nothing
where one is due; made to stop at boundary `n` it is either over by then, and does the same whatever comes later, or stands
there, one cycle before where it stands when it is made to stop at `n + 1`, and goes further wherever it may. -/
structure Paced (f : State → State) : Prop where
  frame : ∀ s, f s = setResets s.resetAt (lim s.resetAt.head? f s)
  due : ∀ s n, n ≤ s.cycle → lim (some n) f s = setResets [] s
  mono : ∀ s, s.cycle ≤ (f s).cycle
  later : ∀ s n, s.cycle ≤ n →
    ((lim (some n) f s).cycle ≤ n ∧ ∀ o : Option Nat, (∀ m ∈ o, n ≤ m) → lim o f s = lim (some n) f s)
      ∨ ((lim (some n) f s).cycle = n ∧ Ticked (lim (some n) f s) (lim (some (n + 1)) f s)
        ∧ ∀ o : Option Nat, (∀ m ∈ o, n < m) → n < (lim o f s).cycle)

/-- It takes at least one cycle. -/
structure Moves (f : State → State) : Prop extends Paced f where
  moves : ∀ s, resetDue s = false → s.cycle < (f s).cycle

theorem lim_setResets (o : Option Nat) (f : State → State) (r : List Nat) (s : State) : lim o f (setResets r s) = lim o f s := rfl

theorem head_toList (o : Option Nat) : o.toList.head? = o := by cases o <;> rfl

theorem resetDue_iff (s : State) : resetDue s = true ↔ ∃ n, s.resetAt.head? = some n ∧ n ≤ s.cycle := by
  unfold resetDue
  split <;> rename_i h <;> simp [h]

theorem Paced.at_due {f : State → State} (h : Paced f) {s : State} (hs : resetDue s = true) : f s = s := by
  obtain ⟨n, e, hn⟩ := (resetDue_iff s).1 hs
  rw [h.frame, e, h.due s n hn]
  rfl

theorem Paced.at_lim {f : State → State} (h : Paced f) (o : Option Nat) (s : State) :
    f (Machine.setResets o.toList s) = Machine.setResets o.toList (lim o f s) := by
  have := h.frame (setResets o.toList s)
  rwa [setResets_resetAt, head_toList, lim_setResets] at this

theorem Paced.lim_mono {f : State → State} (h : Paced f) (o : Option Nat) (s : State) : s.cycle ≤ (lim o f s).cycle :=
  h.mono (Machine.setResets o.toList s)

theorem Paced.resetAt {f : State → State} (h : Paced f) (s : State) : (f s).resetAt = s.resetAt := by
  rw [h.frame]; rfl

/-- Nothing at all is a sequence of no cycles. -/
theorem paced_id : Paced fun s => s :=
  ⟨fun _ => rfl, fun _ _ _ => rfl, fun _ => Nat.le_refl _, fun _ _ h => .inl ⟨h, fun _ _ => rfl⟩⟩

/-- One sequence after another. -/
theorem Paced.comp {f h : State → State} (hf : Paced f) (hh : Paced h) : Paced fun s => h (f s) := by
  have key : ∀ o s, lim o (fun s => h (f s)) s = lim o h (lim o f s) := by
    intro o s
    show setResets [] (h (f (setResets o.toList s))) = _
    rw [hf.at_lim]; rfl
  refine ⟨?_, ?_, fun s => (hf.mono s).trans (hh.mono _), ?_⟩
  · intro s
    show h (f s) = _
    rw [key, hh.frame (f s), hf.resetAt]
    conv => lhs; rw [hf.frame s, lim_setResets]
  · intro s n hn
    rw [key, hf.due s n hn, lim_setResets, hh.due s n hn]
  · intro s n hn
    rcases hf.later s n hn with ⟨h1, h2⟩ | ⟨h1, h2, h3⟩
    · rcases hh.later (lim (some n) f s) n h1 with ⟨k1, k2⟩ | ⟨k1, k2, k3⟩
      · refine .inl ⟨by rw [key]; exact k1, fun o ho => ?_⟩
        rw [key, key, h2 o ho, k2 o ho]
      · refine .inr ⟨by rw [key]; exact k1, ?_, fun o ho => ?_⟩
        · rw [key, key, h2 (some (n + 1)) (by intro m hm; cases hm; omega)]
          exact k2
        · rw [key, h2 o fun m hm => Nat.le_of_lt (ho m hm)]
          exact k3 o ho
    · have e1 : lim (some n) h (lim (some n) f s) = lim (some n) f s := hh.due _ n (by omega)
      have e2 : lim (some (n + 1)) h (lim (some (n + 1)) f s) = lim (some (n + 1)) f s := hh.due _ _ (by rw [h2.cycle, h1])
      refine .inr ⟨by rw [key, e1]; exact h1, by rw [key, key, e1, e2]; exact h2, fun o ho => ?_⟩
      rw [key]
      exact (h3 o ho).trans_le (hh.lim_mono o _)

theorem Moves.comp {f h : State → State} (hf : Moves f) (hh : Paced h) : Moves fun s => h (f s) :=
  ⟨hf.toPaced.comp hh, fun s hs => (hf.moves s hs).trans_le (hh.mono _)⟩

/-- A sequence chosen by something that is not the coming resets. -/
theorem Paced.choose {α : Type} (key : State → α) (hk : ∀ r s, key (Machine.setResets r s) = key s) {h : α → State → State}
    (hh : ∀ a, Paced (h a)) : Paced fun s => h (key s) s := by
  have e : ∀ o s, lim o (fun s => h (key s) s) s = lim o (h (key s)) s := by
    intro o s
    show setResets [] (h (key (setResets o.toList s)) (setResets o.toList s)) = _
    rw [hk]; rfl
  refine ⟨fun s => ?_, fun s n hn => ?_, fun s => (hh _).mono s, fun s n hn => ?_⟩
  · rw [e]; exact (hh _).frame s
  · rw [e]; exact (hh _).due s n hn
  · simp only [e]; exact (hh _).later s n hn

theorem Moves.choose {α : Type} (key : State → α) (hk : ∀ r s, key (Machine.setResets r s) = key s) {h : α → State → State}
    (hh : ∀ a, Moves (h a)) : Moves fun s => h (key s) s :=
  ⟨.choose key hk fun a => (hh a).toPaced, fun s hs => (hh _).moves s hs⟩

/-- One guarded cycle. -/
theorem paced_one (guard : State → Bool) (g : State → State) (hg : ∀ r s, guard (setResets r s) = guard s)
    (hr : ∀ r s, g (setResets r s) = setResets r (g s)) (ht : ∀ s, guard s = true → Ticked s (g s)) :
    Paced fun s => if resetDue s then s else if guard s then g s else s := by
  have hres : ∀ s, (g s).resetAt = s.resetAt := by
    intro s
    have : g s = setResets s.resetAt (g s) := hr s.resetAt s
    rw [this]; rfl
  have hd : ∀ (o : Option Nat) s, resetDue (setResets o.toList s) = o.any (fun n => decide (n ≤ s.cycle)) := by
    intro o s; cases o <;> rfl
  have key : ∀ o s, lim o (fun s => if resetDue s then s else if guard s then g s else s) s
      = if o.any (fun n => decide (n ≤ s.cycle)) then setResets [] s else if guard s then setResets [] (g s) else setResets [] s := by
    intro o s
    show setResets [] (if resetDue (setResets o.toList s) then _ else _) = _
    rw [hd, hg, hr]
    split_ifs <;> rfl
  have hany : ∀ s : State, resetDue s = s.resetAt.head?.any (fun n => decide (n ≤ s.cycle)) := by
    intro s; unfold resetDue; cases s.resetAt <;> rfl
  refine ⟨fun s => ?_, fun s n hn => ?_, fun s => ?_, fun s n hn => ?_⟩
  · rw [key, ← hany]
    split_ifs
    · rfl
    · have := hres s
      show g s = setResets s.resetAt (g s)
      rw [← this]; rfl
    · rfl
  · rw [key]; simp [hn]
  · split_ifs with h1 h2
    · exact Nat.le_refl _
    · rw [(ht s h2).cycle]; omega
    · exact Nat.le_refl _
  · simp only [key]
    by_cases h1 : guard s = true
    · have hc := (ht s h1).cycle
      rcases Nat.eq_or_lt_of_le hn with rfl | h2
      · refine .inr ?_
        simp only [Option.any_some, le_refl, decide_true, if_true, h1]
        rw [if_neg (by simp)]
        refine ⟨rfl, (ht s h1).setResets [], fun o ho => ?_⟩
        have : o.any (fun n => decide (n ≤ s.cycle)) = false := by
          cases o with
          | none => rfl
          | some m => have := ho m rfl; simp; omega
        rw [this]
        show s.cycle < (g s).cycle
        omega
      · refine .inl ?_
        have e : ∀ o : Option Nat, (∀ m ∈ o, n ≤ m) → o.any (fun n => decide (n ≤ s.cycle)) = false := by
          intro o ho; cases o with
          | none => rfl
          | some m => have := ho m rfl; simp; omega
        rw [e (some n) (by intro m hm; cases hm; omega)]
        refine ⟨?_, fun o ho => by rw [e o ho]⟩
        simp [h1, hc]; omega
    · refine .inl ⟨?_, fun o _ => ?_⟩ <;> simp [h1, hn]

/-! ### The DMA and the cycle of the CPU -/

theorem ticked_dmaCycle {s : State} (h : s.dma.active = true) : Ticked s (dmaCycle s) := by
  refine ⟨dmaAct s, ?_⟩
  have e : busCycle dmaAct s = busCycle (fun _ => dmaAct s) s := by rw [(busCycle_chosen dmaAct s).1, dmaAct_beforeAccess]
  have e' : busByte dmaAct s = busByte (fun _ => dmaAct s) s := by rw [(busCycle_chosen dmaAct s).2, dmaAct_beforeAccess]
  have hs : dmaCycle s = { busCycle (fun _ => dmaAct s) s with dma := (dmaCycle s).dma } := by rw [dmaCycle, e]
  have harb : (dmaCycle s).arb = (busCycle (fun _ => dmaAct s) s).arb := by rw [hs]
  have hcpu : (dmaCycle s).cpu = (busCycle (fun _ => dmaAct s) s).cpu := by rw [hs]
  refine ⟨?_, by rw [harb], by rw [harb], fun k => by rwa [harb] at k, fun _ => ⟨rfl, ?_, harb, ?_⟩, fun k => ?_⟩
  · rw [harb, hcpu]; exact hs
  · rw [hcpu]; exact busCycle_cpu _ _
  · rw [dmaCycle_dma, e']
  · rw [h] at k; cases k

theorem setResets_dmaCycle (r : List Nat) (s : State) : dmaCycle (setResets r s) = setResets r (dmaCycle s) := by
  have e : ∀ s, dmaCycle s = { busCycle (fun _ => dmaAct s) s with
      dma := (busCycle (fun _ => dmaAct s) s).dma.advance s.cycle (busByte (fun _ => dmaAct s) s) } := by
    intro s
    rw [dmaCycle, (busCycle_chosen dmaAct s).1, (busCycle_chosen dmaAct s).2, dmaAct_beforeAccess]
  rw [e, e]
  have : dmaAct (setResets r s) = dmaAct s := rfl
  rw [this, setResets_busCycle, setResets_busByte]
  rfl

theorem paced_dma : Paced fun s => if resetDue s then s else if s.dma.active then dmaCycle s else s :=
  paced_one (fun s => s.dma.active) dmaCycle (fun _ _ => rfl) setResets_dmaCycle fun _ => ticked_dmaCycle

theorem drainDma_of_due (fuel : Nat) {s : State} (h : resetDue s = true) : drainDma fuel s = s := by
  cases fuel <;> simp [drainDma, h]

theorem drainDma_eq (fuel : Nat) : drainDma (fuel + 1)
    = fun s => drainDma fuel (if resetDue s then s else if s.dma.active then dmaCycle s else s) := by
  funext s
  rw [drainDma]
  by_cases h : resetDue s = true
  · simp [h, drainDma_of_due]
  · by_cases k : s.dma.active = true
    · simp [h, k]
    · have k' : s.dma.active = false := by simpa using k
      simp [h, k', drainDma_of_inactive]

theorem paced_drain (fuel : Nat) : Paced (drainDma fuel) := by
  induction fuel with
  | zero => exact paced_id
  | succ fuel ih => rw [drainDma_eq]; exact paced_dma.comp ih

/-- The cycles an active DMA has left, at most. -/
def dmaLeft (m : Dma) : Nat :=
  if m.active then
    (match m.step with | .halt => 4 | .align => 3 | .read => 2 | .write => 1) + 2 * (255 - m.index)
  else 0

theorem dmaLeft_dmaCycle {s : State} (h : s.dma.active = true) : dmaLeft (dmaCycle s).dma < dmaLeft s.dma := by
  rw [dmaCycle_dma]
  unfold dmaLeft Dma.advance
  cases e : s.dma.step <;> simp only [h] <;> (try split_ifs) <;> simp_all; omega

theorem drainDma_done (fuel : Nat) {s : State} (h : dmaLeft s.dma ≤ fuel) :
    (drainDma fuel s).dma.active = false ∨ resetDue (drainDma fuel s) = true := by
  induction fuel generalizing s with
  | zero =>
    left
    by_contra k
    have : s.dma.active = true := by simpa [drainDma] using k
    simp only [dmaLeft, this, if_true] at h
    split at h <;> omega
  | succ fuel ih =>
    rw [drainDma]
    split_ifs with k
    · simp only [Bool.and_eq_true] at k
      exact ih (by have := dmaLeft_dmaCycle k.1; omega)
    · by_cases ha : s.dma.active = true
      · right; simpa [ha] using k
      · left; simpa using ha

theorem dmaLeft_le (m : Dma) : dmaLeft m ≤ dmaFuel := by
  unfold dmaLeft dmaFuel
  split_ifs <;> [split <;> omega; omega]

/-- The update of a cycle's end: the CPU and the arbitrator, which keeps what the cycle sampled; the NMI latch may be
cleared. -/
structure Updates (upd : Byte → State → State) : Prop where
  resets : ∀ r d s, upd d (setResets r s) = setResets r (upd d s)
  rest : ∀ d s, upd d s = { s with cpu := (upd d s).cpu, arb := (upd d s).arb }
  nmiPrev : ∀ d s, (upd d s).arb.nmiPrev = s.arb.nmiPrev
  irqSample : ∀ d s, (upd d s).arb.irqSample = s.arb.irqSample
  nmiLatch : ∀ d s, (upd d s).arb.nmiLatch = true → s.arb.nmiLatch = true

theorem setResets_endCycle (r : List Nat) (kind : CycleKind) (s : State) :
    endCycle kind (setResets r s) = setResets r (endCycle kind s) := by cases kind <;> rfl

theorem endCycle_rest (kind : CycleKind) (s : State) :
    endCycle kind s = { s with cpu := (endCycle kind s).cpu, arb := (endCycle kind s).arb }
      ∧ (endCycle kind s).arb.nmiPrev = s.arb.nmiPrev ∧ (endCycle kind s).arb.irqSample = s.arb.irqSample
      ∧ (endCycle kind s).arb.nmiLatch = s.arb.nmiLatch := by cases kind <;> exact ⟨rfl, rfl, rfl, rfl⟩

/-- The cycle itself, the DMA over. -/
def ownCycle (kind : CycleKind) (act : State → Act) (upd : Byte → State → State) (s : State) : State :=
  endCycle kind (upd (busByte act s) (busCycle act s))

theorem ticked_ownCycle (kind : CycleKind) (act : State → Act) {upd : Byte → State → State} (hu : Updates upd) {s : State}
    (h : s.dma.active = false) : Ticked s (ownCycle kind act upd s) := by
  obtain ⟨e1, e2, e3, e4⟩ := endCycle_rest kind (upd (busByte act s) (busCycle act s))
  have t : ownCycle kind act upd s = { busCycle act s with
      cpu := (ownCycle kind act upd s).cpu, arb := (ownCycle kind act upd s).arb } :=
    e1.trans (congrArg (fun w : State => { w with
      cpu := (ownCycle kind act upd s).cpu, arb := (ownCycle kind act upd s).arb }) (hu.rest _ _))
  have hd : (ownCycle kind act upd s).dma = (busCycle act s).dma := by
    have := congrArg State.dma t
    exact this
  refine ⟨act (beforeAccess s), t.trans ?_, e2.trans (hu.nmiPrev _ _), e3.trans (hu.irqSample _ _),
    fun k => hu.nmiLatch _ _ (e4 ▸ k), fun k => ?_, fun _ => hd⟩
  · exact congrArg (fun d => { busCycle act s with
      cpu := (ownCycle kind act upd s).cpu, arb := (ownCycle kind act upd s).arb, dma := d }) hd.symm
  · rw [h] at k; cases k

theorem setResets_ownCycle (r : List Nat) (kind : CycleKind) {act : State → Act} {upd : Byte → State → State}
    (ha : ∀ r s, act (setResets r s) = act s) (hu : Updates upd) (s : State) :
    ownCycle kind act upd (setResets r s) = setResets r (ownCycle kind act upd s) := by
  unfold ownCycle
  rw [(busCycle_chosen act _).1, (busCycle_chosen act _).2, setResets_beforeAccess, ha, setResets_busCycle, setResets_busByte,
    hu.resets, setResets_endCycle]
  rfl

theorem cyc_eq_comp (kind : CycleKind) (act : State → Act) (upd : Byte → State → State) : cyc kind act upd
    = fun s => (fun u => if resetDue u then u else if !u.dma.active then ownCycle kind act upd u else u) (drainDma dmaFuel s) := by
  funext s
  unfold cyc ownCycle
  dsimp only
  by_cases h : resetDue (drainDma dmaFuel s) = true
  · simp [h]
  · have := (drainDma_done dmaFuel (dmaLeft_le s.dma)).resolve_right h
    simp [h, this]

theorem moves_cyc (kind : CycleKind) {act : State → Act} {upd : Byte → State → State}
    (ha : ∀ r s, act (setResets r s) = act s) (hu : Updates upd) : Moves (cyc kind act upd) := by
  have own : Paced fun u => if resetDue u then u else if !u.dma.active then ownCycle kind act upd u else u :=
    paced_one (fun u => !u.dma.active) (ownCycle kind act upd) (fun _ _ => rfl) (fun r s => setResets_ownCycle r kind ha hu s)
      fun s h => ticked_ownCycle kind act hu (by simpa using h)
  have p : Paced (cyc kind act upd) := by
    rw [cyc_eq_comp]; exact (paced_drain dmaFuel).comp own
  refine ⟨p, fun s hs => ?_⟩
  rw [cyc_eq_comp]
  by_cases h : s.dma.active = true
  · have e : drainDma dmaFuel s = drainDma 513 (dmaCycle s) := by
      show drainDma (513 + 1) s = _
      rw [drainDma]; simp [h, hs]
    refine Nat.lt_of_lt_of_le ?_ (own.mono _)
    rw [e]
    refine Nat.lt_of_lt_of_le ?_ ((paced_drain 513).mono _)
    rw [dmaCycle_cycle]; omega
  · have h' : s.dma.active = false := by simpa using h
    simp only [drainDma_of_inactive _ h', hs, h', Bool.false_eq_true, if_false, Bool.not_false, if_true]
    rw [(ticked_ownCycle kind act hu h').cycle]; omega

theorem moves_cpuCyc (kind : CycleKind) (act : Cpu → Act) (upd : Byte → Cpu → Cpu) : Moves (cpuCyc kind act upd) :=
  moves_cyc (act := fun s => act s.cpu) (upd := fun d => State.mapCpu (upd d)) kind (fun _ _ => rfl) ⟨fun _ _ _ => rfl, fun _ _ => rfl, fun _ _ => rfl, fun _ _ => rfl, fun _ _ h => h⟩

/-! ### The operations of the meanings -/

theorem Moves.then {f h : State → State} (hf : Moves f) (hh : Moves h) : Moves fun s => h (f s) := hf.comp hh.toPaced

theorem moves_fetchOp (kind : CycleKind) (op : Byte) : Moves (fetchOp kind op) := moves_cpuCyc kind _ _
theorem moves_fetchOperand (kind : CycleKind) (store : Cpu → Cpu) : Moves (fetchOperand kind store) :=
  moves_cpuCyc kind _ _
theorem moves_readData (kind : CycleKind) (ea : Cpu → Word) : Moves (readData kind ea) := moves_cpuCyc kind _ _
theorem moves_dummyRead (kind : CycleKind) (ea : Cpu → Word) : Moves (dummyRead kind ea) := moves_cpuCyc kind _ _
theorem moves_readTail (ea : Cpu → Word) (f : Byte → Cpu → Cpu) : Moves (readTail ea f) := moves_cpuCyc .last _ _
theorem moves_writeTail (ea : Cpu → Word) (v : Cpu → Byte) : Moves (writeTail ea v) := moves_cpuCyc .last _ _
theorem moves_push (kind : CycleKind) (v : Cpu → Byte) : Moves (push kind v) := moves_cpuCyc kind _ _
theorem moves_dummyPc (kind : CycleKind) : Moves (dummyPc kind) := moves_cpuCyc kind _ _
theorem moves_stackUp (kind : CycleKind) : Moves (stackUp kind) := moves_cpuCyc kind _ _
theorem moves_dummyPush : Moves dummyPush := moves_cpuCyc .mid _ _

theorem moves_rmwTail (ea : Cpu → Word) (op : Byte → Cpu → Byte × Cpu) : Moves (rmwTail ea op) :=
  ((moves_readData .mid ea).comp (Paced.choose (fun s => s.cpu.data) (fun _ _ => rfl)
    fun m => ((moves_cpuCyc .penult (fun c => .write (ea c) c.data) fun _ c => { c with data := (op m c).1 }).then
      (moves_cpuCyc .last (fun c => .write (ea c) c.data) fun _ c => (op m c).2)).toPaced) :)

theorem moves_fetchTwo (k1 k2 : CycleKind) (op : Byte) (store : Cpu → Cpu) :
    Moves fun s => fetchOperand k2 store (fetchOp k1 op s) := (moves_fetchOp k1 op).then (moves_fetchOperand k2 store)

theorem moves_openZp (op zp : Byte) (kind : CycleKind) : Moves (openZp op zp kind) := (moves_fetchTwo .mid kind op _ :)

theorem moves_openZpIndexed (op zp : Byte) (kind : CycleKind) : Moves (openZpIndexed op zp kind) :=
  ((moves_fetchTwo .mid .mid op _).then (moves_dummyRead kind _) :)

theorem moves_openAbs (op : Byte) (addr : Word) (kind : CycleKind) : Moves (openAbs op addr kind) :=
  ((moves_fetchTwo .mid .mid op fun c => { c with adl := loByte addr }).then
    (moves_fetchOperand kind fun c => { c with adh := hiByte addr }) :)

theorem moves_openAbsIndexed (i : Index) (op : Byte) (addr : Word) (kind : Bool → CycleKind) :
    Moves (openAbsIndexed i op addr kind) :=
  ((moves_fetchTwo .mid .mid op fun c => { c with adl := loByte addr }).then
    (Moves.choose (fun s => pageCarry s.cpu.adl (i.of s.cpu)) (fun _ _ => rfl)
      fun cross => moves_fetchOperand (kind cross) fun c => { c with adh := hiByte addr, carryFix := cross }) :)

theorem moves_openIzx (op zp : Byte) (kind : CycleKind) : Moves (openIzx op zp kind) :=
  ((((moves_fetchTwo .mid .mid op fun c => { c with base := zp }).then (moves_dummyRead .mid fun c => zeroPage c.base)).then
    (moves_cpuCyc .mid (fun c => .read (zeroPage (c.base + c.x))) fun d c => { c with adl := d })).then
    (moves_cpuCyc kind (fun c => .read (zeroPage (c.base + c.x + 1))) fun d c => { c with adh := d }) :)

theorem moves_openIzy (op zp : Byte) (kind : Bool → CycleKind) : Moves (openIzy op zp kind) :=
  (((moves_fetchTwo .mid .mid op fun c => { c with base := zp }).then
    (moves_cpuCyc .mid (fun c => .read (zeroPage c.base)) fun d c => { c with adl := d })).then
    (Moves.choose (fun s => pageCarry s.cpu.adl s.cpu.y) (fun _ _ => rfl)
      fun cross => moves_cpuCyc (kind cross) (fun c => .read (zeroPage (c.base + 1)))
        fun d c => { c with adh := d, carryFix := cross }) :)

theorem moves_indexedReadTail (i : Index) (f : Byte → Cpu → Cpu) : Moves (indexedReadTail i f) :=
  (Moves.choose (fun s => s.cpu.carryFix) (fun _ _ => rfl)
    (h := fun fix s =>
      if fix then readTail (eaIndexed i) f (readData .penult (eaPartial i) s) else readTail (eaPartial i) f s)
    (by
      intro fix
      cases fix
      · exact (moves_readTail (eaPartial i) f :)
      · exact ((moves_readData .penult (eaPartial i)).then (moves_readTail (eaIndexed i) f) :)) :)

theorem moves_indexedWriteTail (i : Index) (v : Cpu → Byte) : Moves (indexedWriteTail i v) :=
  ((moves_dummyRead .penult (eaPartial i)).then (moves_writeTail (eaIndexed i) v) :)

theorem moves_indexedRmwTail (i : Index) (op : Byte → Cpu → Byte × Cpu) : Moves (indexedRmwTail i op) :=
  ((moves_dummyRead .mid (eaPartial i)).then (moves_rmwTail (eaIndexed i) op) :)

theorem moves_readMode (m : Mode) (h : ∀ s : State, (∃ imm, m = .immediate imm) ∨ ∃ a, m.ea s = some a) (op : Byte)
    (f : Byte → Cpu → Cpu) : Moves (readMode m op f) := by
  have no : (∀ s : State, m.ea s = none) → (∀ imm, m ≠ .immediate imm) → False := fun h1 h2 => by
    rcases h .reset with ⟨imm, e⟩ | ⟨a, e⟩
    · exact h2 imm e
    · rw [h1] at e; cases e
  cases m with
  | immediate imm => exact (moves_fetchTwo .penult .last op fun c => f imm { c with data := imm } :)
  | zeroPage zp => exact ((moves_openZp op zp .penult).then (moves_readTail eaZp f) :)
  | zeroPageX zp => exact ((moves_openZpIndexed op zp .penult).then (moves_readTail (eaZpIndexed .x) f) :)
  | zeroPageY zp => exact ((moves_openZpIndexed op zp .penult).then (moves_readTail (eaZpIndexed .y) f) :)
  | absolute addr => exact ((moves_openAbs op addr .penult).then (moves_readTail eaAbs f) :)
  | absoluteX addr => exact ((moves_openAbsIndexed .x op addr beforePartial).then (moves_indexedReadTail .x f) :)
  | absoluteY addr => exact ((moves_openAbsIndexed .y op addr beforePartial).then (moves_indexedReadTail .y f) :)
  | indirectX zp => exact ((moves_openIzx op zp .penult).then (moves_readTail eaAbs f) :)
  | indirectY zp => exact ((moves_openIzy op zp beforePartial).then (moves_indexedReadTail .y f) :)
  | implicit => exact (no (fun _ => rfl) nofun).elim
  | accumulator => exact (no (fun _ => rfl) nofun).elim
  | indirect ptr => exact (no (fun _ => rfl) nofun).elim
  | relative off => exact (no (fun _ => rfl) nofun).elim

theorem moves_writeMode (m : Mode) (h : ∀ s : State, ∃ a, m.ea s = some a) (op : Byte) (v : Cpu → Byte) :
    Moves (writeMode m op v) := by
  have no : (∀ s : State, m.ea s = none) → False := fun h1 => by
    obtain ⟨a, e⟩ := h .reset
    rw [h1] at e; cases e
  cases m with
  | zeroPage zp => exact ((moves_openZp op zp .penult).then (moves_writeTail eaZp v) :)
  | zeroPageX zp => exact ((moves_openZpIndexed op zp .penult).then (moves_writeTail (eaZpIndexed .x) v) :)
  | zeroPageY zp => exact ((moves_openZpIndexed op zp .penult).then (moves_writeTail (eaZpIndexed .y) v) :)
  | absolute addr => exact ((moves_openAbs op addr .penult).then (moves_writeTail eaAbs v) :)
  | absoluteX addr => exact ((moves_openAbsIndexed .x op addr fun _ => .mid).then (moves_indexedWriteTail .x v) :)
  | absoluteY addr => exact ((moves_openAbsIndexed .y op addr fun _ => .mid).then (moves_indexedWriteTail .y v) :)
  | indirectX zp => exact ((moves_openIzx op zp .penult).then (moves_writeTail eaAbs v) :)
  | indirectY zp => exact ((moves_openIzy op zp fun _ => .mid).then (moves_indexedWriteTail .y v) :)
  | immediate imm => exact (no fun _ => rfl).elim
  | implicit => exact (no fun _ => rfl).elim
  | accumulator => exact (no fun _ => rfl).elim
  | indirect ptr => exact (no fun _ => rfl).elim
  | relative off => exact (no fun _ => rfl).elim

theorem moves_rmwMode (m : Mode) (h : ∀ s : State, ∃ a, m.ea s = some a) (op : Byte) (f : Byte → Cpu → Byte × Cpu) :
    Moves (rmwMode m op f) := by
  have no : (∀ s : State, m.ea s = none) → False := fun h1 => by
    obtain ⟨a, e⟩ := h .reset
    rw [h1] at e; cases e
  cases m with
  | zeroPage zp => exact ((moves_openZp op zp .mid).then (moves_rmwTail eaZp f) :)
  | zeroPageX zp => exact ((moves_openZpIndexed op zp .mid).then (moves_rmwTail (eaZpIndexed .x) f) :)
  | zeroPageY zp => exact ((moves_openZpIndexed op zp .mid).then (moves_rmwTail (eaZpIndexed .y) f) :)
  | absolute addr => exact ((moves_openAbs op addr .mid).then (moves_rmwTail eaAbs f) :)
  | absoluteX addr => exact ((moves_openAbsIndexed .x op addr fun _ => .mid).then (moves_indexedRmwTail .x f) :)
  | absoluteY addr => exact ((moves_openAbsIndexed .y op addr fun _ => .mid).then (moves_indexedRmwTail .y f) :)
  | indirectX zp => exact ((moves_openIzx op zp .mid).then (moves_rmwTail eaAbs f) :)
  | indirectY zp => exact ((moves_openIzy op zp fun _ => .mid).then (moves_indexedRmwTail .y f) :)
  | immediate imm => exact (no fun _ => rfl).elim
  | implicit => exact (no fun _ => rfl).elim
  | accumulator => exact (no fun _ => rfl).elim
  | indirect ptr => exact (no fun _ => rfl).elim
  | relative off => exact (no fun _ => rfl).elim

/-- The cycles of a branch after its second. -/
def branchEnd (off : Byte) (go : Bool) (pc : Word) (s : State) : State :=
  if go then
    if !samePage (branchTarget (pc + 1) off) (pc + 1) then
      cpuCyc .last (fun _ => .idle) (fun _ c => { c with pc := c.target })
        (cpuCyc .penult (fun _ => .idle) (fun _ c => { c with target := branchTarget (pc + 1) off }) s)
    else cpuCyc .last (fun _ => .idle)
      (fun _ c => { c with target := branchTarget (pc + 1) off, pc := branchTarget (pc + 1) off }) s
  else s

theorem paced_branchEnd (off : Byte) (go : Bool) (pc : Word) : Paced (branchEnd off go pc) := by
  cases go
  · exact (paced_id :)
  · have e : branchEnd off true pc = fun s => if !samePage (branchTarget (pc + 1) off) (pc + 1) then
        cpuCyc .last (fun _ => .idle) (fun _ c => { c with pc := c.target })
          (cpuCyc .penult (fun _ => .idle) (fun _ c => { c with target := branchTarget (pc + 1) off }) s)
      else cpuCyc .last (fun _ => .idle)
        (fun _ c => { c with target := branchTarget (pc + 1) off, pc := branchTarget (pc + 1) off }) s := rfl
    rw [e]
    cases !samePage (branchTarget (pc + 1) off) (pc + 1)
    · exact (moves_cpuCyc .last (fun _ => .idle) fun _ c => { c with
        target := branchTarget (pc + 1) off, pc := branchTarget (pc + 1) off }).toPaced
    · exact ((moves_cpuCyc .penult (fun _ => .idle) fun _ c => { c with target := branchTarget (pc + 1) off }).then
        (moves_cpuCyc .last (fun _ => .idle) fun _ c => { c with pc := c.target })).toPaced

theorem moves_relative (op off : Byte) (taken : Flags → Bool) : Moves (relative op off taken) :=
  (Moves.choose (fun s => taken s.cpu.p) (fun _ _ => rfl) fun go =>
    (moves_fetchOp (branchT1 go) op).then
      (Moves.choose (fun s => s.cpu.pc) (fun _ _ => rfl) fun pc =>
        (moves_fetchOperand (branchT2 go (!samePage (branchTarget (pc + 1) off) (pc + 1))) fun c => { c with data := off }).comp
          (paced_branchEnd off go pc)) :)

theorem moves_vectorLow (kind : IntKind) : Moves (vectorLow kind) :=
  moves_cyc (act := fun s => .read (vectorFor kind s.arb.nmiLatch)) (upd := fun d s =>
    { s with
      cpu := { s.cpu with adl := d, target := vectorFor kind s.arb.nmiLatch, p := { s.cpu.p with i := true } }
      arb := { s.arb with nmiLatch := false } }) .mid (fun _ _ => rfl)
    ⟨fun _ _ _ => rfl, fun _ _ => rfl, fun _ _ => rfl, fun _ _ => rfl, fun _ _ h => Bool.noConfusion h⟩

theorem moves_vectorHigh : Moves vectorHigh :=
  moves_cyc (act := fun s => .read (s.cpu.target + 1)) (upd := fun d s =>
    { s with
      cpu := { s.cpu with adh := d, pc := wordOf d s.cpu.adl }
      arb := { s.arb with pending := .none } }) .last (fun _ _ => rfl)
    ⟨fun _ _ _ => rfl, fun _ _ => rfl, fun _ _ => rfl, fun _ _ => rfl, fun _ _ h => h⟩

theorem moves_takeInterrupt (kind : IntKind) : Moves (takeInterrupt kind) :=
  (((((moves_push .mid fun c => hiByte c.pc).then (moves_push .mid fun c => loByte c.pc)).then
    (moves_push .mid fun c => c.p.toByte (pushedB kind))).then (moves_vectorLow kind)).then moves_vectorHigh :)

theorem moves_interruptSequence (kind : IntKind) : Moves (interruptSequence kind) := by
  have entry : Moves interruptEntry := ((moves_dummyPc .mid).then (moves_dummyPc .mid) :)
  have brk : Moves brkEntry := ((moves_cpuCyc .mid atPc fun _ c => { c with opcode := 0x00#8, pc := c.pc + 1 }).then
    (moves_cpuCyc .mid atPc fun _ c => { c with pc := c.pc + 1 }) :)
  cases kind
  · exact (brk.then (moves_takeInterrupt .brk) :)
  · exact (entry.then (moves_takeInterrupt .irq) :)
  · exact (entry.then (moves_takeInterrupt .nmi) :)

theorem moves_resetSequence : Moves resetSequence :=
  (((((((moves_dummyPc .mid).then (moves_dummyPc .mid)).then moves_dummyPush).then moves_dummyPush).then
    moves_dummyPush).then
    (moves_cpuCyc .mid (fun _ => .read 0xFFFC#16) fun d c => { c with adl := d, p := { c.p with i := true } })).then
    (moves_cyc (act := fun _ => .read 0xFFFD#16)
      (upd := fun d s => s.mapCpu fun c => { c with adh := d, pc := wordOf d c.adl, s := resetS s.cfg.resetS c.s })
      .last (fun _ _ => rfl) ⟨fun _ _ _ => rfl, fun _ _ => rfl, fun _ _ => rfl, fun _ _ => rfl, fun _ _ h => h⟩) :)

theorem moves_pushReg (op : Byte) (v : Cpu → Byte) : Moves (pushReg op v) :=
  (((moves_fetchOp .mid op).then (moves_dummyPc .penult)).then (moves_push .last v) :)

theorem moves_pullReg (op : Byte) (f : Byte → Cpu → Cpu) : Moves (pullReg op f) :=
  ((((moves_fetchOp .mid op).then (moves_dummyPc .mid)).then (moves_stackUp .penult)).then (moves_cpuCyc .last atStack f) :)

theorem moves_returnInt (op : Byte) : Moves (returnInt op) :=
  ((((((moves_fetchOp .mid op).then (moves_dummyPc .mid)).then (moves_stackUp .mid)).then
    (moves_cpuCyc .mid atStack fun d c => { c with p := .ofByte d, s := c.s + 1 })).then
    (moves_cpuCyc .penult atStack fun d c => { c with adl := d, s := c.s + 1 })).then
    (moves_cpuCyc .last atStack fun d c => { c with adh := d, pc := wordOf d c.adl }) :)

theorem moves_returnSub (op : Byte) : Moves (returnSub op) :=
  ((((((moves_fetchOp .mid op).then (moves_dummyPc .mid)).then (moves_stackUp .mid)).then
    (moves_cpuCyc .mid atStack fun d c => { c with adl := d, s := c.s + 1 })).then
    (moves_cpuCyc .penult atStack fun d c => { c with adh := d, pc := wordOf d c.adl })).then
    (moves_cpuCyc .last atPc fun _ c => { c with pc := c.pc + 1 }) :)

theorem moves_callAbs (op : Byte) (addr : Word) : Moves (callAbs op addr) :=
  (((((moves_fetchTwo .mid .mid op fun c => { c with adl := loByte addr }).then (moves_cpuCyc .mid atStack fun _ c => c)).then
    (moves_push .mid fun c => hiByte c.pc)).then (moves_push .penult fun c => loByte c.pc)).then
    (moves_cpuCyc .last atPc fun _ c => { c with adh := hiByte addr, pc := wordOf (hiByte addr) c.adl }) :)

theorem moves_jumpAbs (op : Byte) (addr : Word) : Moves (jumpAbs op addr) :=
  ((moves_fetchTwo .mid .penult op fun c => { c with adl := loByte addr }).then
    (moves_cpuCyc .last atPc fun _ c => { c with adh := hiByte addr, pc := wordOf (hiByte addr) c.adl }) :)

theorem moves_jumpInd (op : Byte) (ptr : Word) : Moves (jumpInd op ptr) :=
  (((moves_openAbs op ptr .mid).then (moves_readData .penult eaAbs)).then
    (moves_cpuCyc .last (fun c => .read (wordOf c.adh (c.adl + 1))) fun d c => { c with pc := wordOf d c.data }) :)

theorem moves_implied (op : Byte) (f : Cpu → Cpu) : Moves (implied op f) :=
  ((moves_fetchOp .penult op).then (moves_cpuCyc .last atPc fun _ c => f c) :)

/-- The sequence of cycles of an instruction. -/
def body (i : Instr) (s : State) : State :=
  match exec i s with
  | .next t => t
  | .fault _ => s
  | .refused _ => s

theorem exec_body (i : Instr) (s : State) : exec i s = .next (body i s) := by
  obtain ⟨t, h⟩ : ∃ t, exec i s = .next t := by cases exec_runs i s <;> exact ⟨_, ‹_›⟩
  rw [body, h]

/-- Every instruction is a sequence of at least one cycle. -/
theorem moves_body (i : Instr) : Moves (body i) := by
  have of : ∀ f : State → State, (∀ s, exec i s = .next (f s)) → Moves f → Moves (body i) := by
    intro f h hf
    have : body i = f := by funext s; rw [body, h]
    rw [this]; exact hf
  cases exec_runs i .reset with
  | read ht e => exact of _ (fun s => exec_read i s ht) (moves_readMode _ (ea_read ht) _ _)
  | write ht e => exact of _ (fun s => exec_write i s ht) (moves_writeMode _ (ea_write ht) _ _)
  | rmw ht e => exact of _ (fun s => exec_rmw i s ht) (moves_rmwMode _ (ea_rmw ht) _ _)
  | implied h ht e => exact of _ (fun s => exec_implied i s h) (moves_implied _ _)
  | branch off h ht e => exact of _ (fun s => exec_branch i s off h) (moves_relative _ _ _)
  | unstable ht e =>
    refine of _ (fun s => exec_unstable i s ?_) (moves_cpuCyc .last atPc _)
    revert ht
    cases i <;> first | (intro h; exact Tag.noConfusion h) | (intro; exact List.contains_iff_mem.1 rfl)
  | stp row h e => subst h; exact of _ (fun s => exec_stp row s) (moves_cpuCyc .last atPc _)
  | brk h e => subst h; exact of _ (fun s => rfl) (moves_interruptSequence _)
  | php h e => subst h; exact of _ (fun s => rfl) (moves_pushReg _ _)
  | pha h e => subst h; exact of _ (fun s => rfl) (moves_pushReg _ _)
  | plp h e => subst h; exact of _ (fun s => rfl) (moves_pullReg _ _)
  | pla h e => subst h; exact of _ (fun s => rfl) (moves_pullReg _ _)
  | rti h e => subst h; exact of _ (fun s => rfl) (moves_returnInt _)
  | rts h e => subst h; exact of _ (fun s => rfl) (moves_returnSub _)
  | jsr a h e => subst h; exact of _ (fun s => rfl) (moves_callAbs _ _)
  | jmpAbs a h e => subst h; exact of _ (fun s => rfl) (moves_jumpAbs _ _)
  | jmpInd a h e => subst h; exact of _ (fun s => rfl) (moves_jumpInd _ _)

/-! ### The step -/

theorem fetchInstr_isSome (s : State) : ∃ i, fetchInstr s = some i := by
  obtain ⟨i, h, -⟩ := Option.map_eq_some_iff.1 (decodeOp_map_encode (fetchByte s)
    (fetchByte (fetchOp .mid (fetchByte s) s))
    (fetchByte (beforeThird (fetchByte s) (fetchByte (fetchOp .mid (fetchByte s) s)) (fetchOp .mid (fetchByte s) s))))
  exact ⟨i, h⟩

/-- A step from a state in which no reset is due is a sequence of at least one cycle, whatever resets come later. -/
theorem stepAs_paced {s : State} (hm : s.cpu.mode ≠ .refused) : ∃ f, Paced f ∧ ∀ r, resetDue (setResets r s) = false →
    stepAs (fetchInstr s) (setResets r s) = .next (f (setResets r s)) ∧ s.cycle < (f (setResets r s)).cycle := by
  obtain ⟨i, hi⟩ := fetchInstr_isSome s
  have of : ∀ f, Moves f → (∀ r, resetDue (setResets r s) = false →
      stepAs (fetchInstr s) (setResets r s) = .next (f (setResets r s))) → ∃ f, Paced f ∧ ∀ r, resetDue (setResets r s) = false →
      stepAs (fetchInstr s) (setResets r s) = .next (f (setResets r s)) ∧ s.cycle < (f (setResets r s)).cycle :=
    fun f hf h => ⟨f, hf.toPaced, fun r hr => ⟨h r hr, hf.moves _ hr⟩⟩
  by_cases ha : s.dma.active = true
  · refine ⟨_, paced_dma, fun r hr => ?_⟩
    simp only [stepAs, hm, hr, ha, setResets_cpu, setResets_dma, if_true, if_false, Bool.false_eq_true, true_and]
    rw [dmaCycle_cycle]
    exact Nat.lt_succ_self _
  · cases hmode : s.cpu.mode with
    | run => exact of _ (moves_body i) fun r hr => by simp [stepAs, hmode, hr, ha, hi, exec_body]
    | intSeq kind => exact of _ (moves_interruptSequence kind) fun r hr => by simp [stepAs, hmode, hr, ha]
    | resetSeq => exact of _ moves_resetSequence fun r hr => by simp [stepAs, hmode, hr, ha]
    | jammed =>
      exact of jamCycle (moves_cpuCyc .last (fun _ => .idle) fun _ c => c) fun r hr => by simp [stepAs, hmode, hr, ha]
    | refused => exact absurd hmode hm

theorem stepAs_next {s : State} (hm : s.cpu.mode ≠ .refused) : ∃ t, step s = .next t := by
  by_cases hr : resetDue s = true
  · exact ⟨warmReset s, by simp [step, stepAs, hm, hr]⟩
  · obtain ⟨f, -, h⟩ := stepAs_paced hm
    exact ⟨f s, (h s.resetAt (by simpa using hr)).1⟩

/-- The boundary a step made to stop at `n` stops at: `n`, or the host's next reset if that comes first. -/
def stopAt (s : State) (n : Nat) : Nat := s.resetAt.head?.elim n (min · n)

theorem stoppingAt_eq (n : Nat) (s : State) :
    ∃ r, s.stoppingAt n = setResets r s ∧ r.head? = some (stopAt s n) := by
  unfold State.stoppingAt stopAt
  cases h : s.resetAt with
  | nil => exact ⟨[n], rfl, rfl⟩
  | cons m l =>
    by_cases hm : m ≤ n
    · exact ⟨m :: l, by simp [hm, setResets], by simp [hm]⟩
    · exact ⟨n :: m :: l, by simp [hm, setResets], by simp; omega⟩

/-- Where a sequence of cycles stands after `k` of them, and where it ends. -/
structure Stands (f : State → State) (s t : State) (g : Nat → State) : Prop where
  paced : Paced f
  moves : s.cycle < t.cycle
  due : resetDue s = false
  all : t = setResets s.resetAt (lim s.resetAt.head? f s)
  at' : ∀ k, g k = setResets s.resetAt (lim (some (stopAt s (s.cycle + k))) f s)

/-- After `k` cycles it is over, or it runs one more. -/
theorem Stands.next {f : State → State} {s t : State} {g : Nat → State} (h : Stands f s t g) (k : Nat) :
    (g k = t ∧ g (k + 1) = t ∧ t.cycle ≤ s.cycle + k)
      ∨ ((g k).cycle = s.cycle + k ∧ s.cycle + k < t.cycle ∧ resetDue (g k) = false ∧ Ticked (g k) (g (k + 1))) := by
  have e0 := h.at' k
  have e1 := h.at' (k + 1)
  have et := h.all
  by_cases hn : ∀ m ∈ s.resetAt.head?, s.cycle + k < m
  · have a0 : stopAt s (s.cycle + k) = s.cycle + k := by
      unfold stopAt; cases hh : s.resetAt.head? with
      | none => rfl
      | some m => have := hn m hh; simp; omega
    have a1 : stopAt s (s.cycle + (k + 1)) = s.cycle + k + 1 := by
      unfold stopAt; cases hh : s.resetAt.head? with
      | none => rfl
      | some m => have := hn m hh; simp; omega
    rw [a0] at e0
    rw [a1] at e1
    rcases h.paced.later s (s.cycle + k) (by omega) with ⟨h1, h2⟩ | ⟨h1, h2, h3⟩
    · rw [h2 _ fun m hm => Nat.le_of_lt (hn m hm)] at et
      rw [h2 (some (s.cycle + k + 1)) (by intro m hm; cases hm; omega)] at e1
      exact .inl ⟨e0.trans et.symm, e1.trans et.symm, by rw [et]; exact h1⟩
    · refine .inr ⟨by rw [e0]; exact h1, by rw [et]; exact h3 _ hn, ?_, by rw [e0, e1]; exact h2.setResets _⟩
      rw [← Bool.not_eq_true, resetDue_iff]
      rintro ⟨m, hm, hle⟩
      rw [e0] at hm hle
      have := hn m hm
      have : m ≤ s.cycle + k := by rw [← h1]; exact hle
      omega
  · push Not at hn
    obtain ⟨m, hm, hle⟩ := hn
    have hm' : s.resetAt.head? = some m := hm
    have a0 : stopAt s (s.cycle + k) = m := by unfold stopAt; rw [hm']; simp; omega
    have a1 : stopAt s (s.cycle + (k + 1)) = m := by unfold stopAt; rw [hm']; simp; omega
    rw [a0] at e0
    rw [a1] at e1
    rw [hm'] at et
    refine .inl ⟨e0.trans et.symm, e1.trans et.symm, ?_⟩
    have hs : s.cycle ≤ m := by
      by_contra hc
      have := (resetDue_iff s).2 ⟨m, hm', by omega⟩
      rw [h.due] at this; cases this
    have : t.cycle = (lim (some m) f s).cycle := by rw [et]; rfl
    rcases h.paced.later s m hs with ⟨h1, -⟩ | ⟨h1, -⟩ <;> omega

/-- Up to its end it stands one cycle further with each cycle, and there it is over. -/
theorem Stands.upTo {f : State → State} {s t : State} {g : Nat → State} (h : Stands f s t g) :
    (∀ k, s.cycle + k ≤ t.cycle → (g k).cycle = s.cycle + k) ∧ g (t.cycle - s.cycle) = t
      ∧ g (t.cycle - s.cycle + 1) = t := by
  have last : g (t.cycle - s.cycle) = t ∧ g (t.cycle - s.cycle + 1) = t := by
    rcases h.next (t.cycle - s.cycle) with ⟨h1, h2, -⟩ | ⟨h1, h2, -⟩
    · exact ⟨h1, h2⟩
    · have := h.moves; omega
  refine ⟨fun k hk => ?_, last.1, last.2⟩
  rcases h.next k with ⟨h1, -, h3⟩ | ⟨h1, -⟩
  · rw [h1]; omega
  · exact h1

theorem partway_zero (f : State → Host.Outcome State Fault Refusal) (s : State) : partway 0 f s = s := rfl

/-- What `partway` says of a sequence of cycles. -/
theorem partway_stands {F : State → Host.Outcome State Fault Refusal} {f : State → State} (hf : Paced f) {s t : State}
    (hd : resetDue s = false) (hF : ∀ r, resetDue (setResets r s) = false → F (setResets r s) = .next (f (setResets r s)))
    (ht : F s = .next t) (hm : s.cycle < t.cycle) : Stands f s t fun k => partway k F s := by
  have ht' : t = f s := by
    have := hF s.resetAt (by simpa using hd)
    rw [setResets_self, ht] at this
    cases this; rfl
  refine ⟨hf, hm, hd, ht'.trans (hf.frame s), fun k => ?_⟩
  cases k with
  | zero =>
    rw [partway_zero]
    have : stopAt s (s.cycle + 0) = s.cycle := by
      unfold stopAt; cases hh : s.resetAt.head? with
      | none => rfl
      | some m =>
        have : ¬ m ≤ s.cycle := fun hc => by have := (resetDue_iff s).2 ⟨m, hh, hc⟩; rw [hd] at this; cases this
        simp; omega
    rw [this, hf.due s _ (Nat.le_refl _)]
    rfl
  | succ k =>
    obtain ⟨r, e, hr⟩ := stoppingAt_eq (s.cycle + (k + 1)) s
    have hlt : s.cycle < stopAt s (s.cycle + (k + 1)) := by
      unfold stopAt; cases hh : s.resetAt.head? with
      | none => simp
      | some m =>
        have : ¬ m ≤ s.cycle := fun hc => by have := (resetDue_iff s).2 ⟨m, hh, hc⟩; rw [hd] at this; cases this
        simp; omega
    have hdr : resetDue (setResets r s) = false := by
      rw [← Bool.not_eq_true, resetDue_iff]
      rintro ⟨m, h1, h2⟩
      rw [setResets_resetAt, hr] at h1
      cases h1
      exact absurd h2 (by simpa using hlt)
    rw [partway, if_neg (by omega), e, hF r hdr]
    have := hf.frame (setResets r s)
    rw [setResets_resetAt, hr, lim_setResets] at this
    rw [this]
    rfl

/-- A step, cycle by cycle. -/
theorem stepCycles_stands {s t : State} (hd : resetDue s = false) (ht : step s = .next t) :
    ∃ f, Stands f s t fun k => stepCycles k s := by
  have hm : s.cpu.mode ≠ .refused := by
    intro hc; simp [step, stepAs, hc] at ht
  obtain ⟨f, hf, h⟩ := stepAs_paced hm
  refine ⟨f, partway_stands hf hd (fun r hr => (h r hr).1) ht ?_⟩
  have := h s.resetAt (by simpa using hd)
  rw [setResets_self, show stepAs (fetchInstr s) s = .next t from ht] at this
  obtain ⟨e, k⟩ := this
  cases e
  exact k

/-- An instruction, cycle by cycle. -/
theorem afterCycles_stands (i : Instr) {s t : State} (hd : resetDue s = false) (ht : exec i s = .next t) :
    Stands (body i) s t fun k => afterCycles k i s := by
  refine partway_stands (moves_body i).toPaced hd (fun r _ => exec_body i _) ht ?_
  rw [exec_body] at ht
  cases ht
  exact (moves_body i).moves s hd

/-! ### The cycle -/

/-- A state from which a cycle can run. -/
def Ready (s : State) : Prop := s.cpu.mode ≠ .refused ∧ resetDue s = false

theorem warmReset_resetAt (s : State) : (warmReset s).resetAt = s.resetAt.tail := rfl

/-- After the resets due at a boundary none is due, or no step follows. -/
theorem honourResets_done (fuel : Nat) (s : State) (h : s.resetAt.length ≤ fuel) :
    (honourResets fuel s).cpu.mode = .refused ∨ resetDue (honourResets fuel s) = false := by
  induction fuel generalizing s with
  | zero => right; simp [honourResets, resetDue, List.length_eq_zero_iff.1 (Nat.le_zero.1 h)]
  | succ fuel ih =>
    rw [honourResets]
    split_ifs with hc
    · exact ih _ (by rw [warmReset_resetAt, List.length_tail]; omega)
    · by_cases hm : s.cpu.mode = .refused
      · exact .inl hm
      · exact .inr (by simpa [hm] using hc)

theorem honourResets_of_ready {s : State} (h : resetDue s = false) (fuel : Nat) : honourResets fuel s = s := by
  cases fuel <;> simp [honourResets, h]

/-- No cycle runs from a state that is not ready. -/
theorem stepCycles_of_not_ready {s : State} (h : ¬ Ready s) (k : Nat) : (stepCycles k s).cycle = s.cycle := by
  unfold stepCycles partway
  split_ifs with hk
  · rfl
  · obtain ⟨r, e, hr⟩ := stoppingAt_eq (s.cycle + k) s
    rw [e]
    by_cases hm : s.cpu.mode = .refused
    · simp [stepAs, hm]
    · have hd : resetDue s = true := by by_contra hc; exact h ⟨hm, by simpa using hc⟩
      obtain ⟨m, hm', hle⟩ := (resetDue_iff s).1 hd
      have : resetDue (setResets r s) = true := by
        rw [resetDue_iff]
        refine ⟨_, hr, ?_⟩
        unfold stopAt; rw [hm']; simp; omega
      simp [stepAs, hm, this, warmReset]

theorem over_of_not_ready {c : PerCycle} (h : ¬ Ready c.start) : c.over = true := by
  rw [PerCycle.over, PerCycle.now, stepCycles_of_not_ready h, stepCycles_of_not_ready h]
  simp

theorem Ready.stands {s : State} (h : Ready s) : ∃ t f, step s = .next t ∧ Stands f s t fun k => stepCycles k s := by
  obtain ⟨t, ht⟩ := stepAs_next h.1
  obtain ⟨f, k⟩ := stepCycles_stands h.2 ht
  exact ⟨t, f, ht, k⟩

theorem step_ready {s t : State} (h : step s = .next t) (hd : resetDue s = false) : Ready s :=
  ⟨fun hc => by simp [step, stepAs, hc] at h, hd⟩

/-- Where a step is not over, its next cycle runs from the state at the boundary. -/
theorem PerCycle.not_over {c : PerCycle} (h : c.over = false) :
    c.ready = c.now ∧ Ticked c.now (stepCycles (c.cycles + 1) c.start) := by
  have hr : Ready c.start := by
    by_contra hc
    rw [over_of_not_ready hc] at h; cases h
  obtain ⟨t, f, -, hs⟩ := hr.stands
  rcases hs.next c.cycles with ⟨h1, h2, -⟩ | ⟨-, -, h3, h4⟩
  · have : c.over = true := by
      simp only [PerCycle.over, PerCycle.now, h1, h2, Nat.le_refl, decide_true]
    rw [this] at h; cases h
  · exact ⟨honourResets_of_ready h3 _, h4⟩

/-- A tick is one CPU cycle from the state of the boundary, after the resets due at it (00_scope.md R13). -/
theorem PerCycle.tick_ticked {c d : PerCycle} (h : c.tick = .next d) : Ticked c.ready d.now := by
  cases ho : c.over with
  | false =>
    simp only [PerCycle.tick, ho, Bool.false_eq_true, if_false, Host.Outcome.next.injEq] at h
    subst h
    obtain ⟨e, k⟩ := PerCycle.not_over ho
    rw [e]; exact k
  | true =>
    simp only [PerCycle.tick, ho, if_true] at h
    split at h
    · rename_i t ht
      cases h
      have hd : resetDue c.ready = false := by
        refine (honourResets_done _ c.now (Nat.le_refl _)).resolve_left fun hm => ?_
        have : (PerCycle.ready c).cpu.mode = .refused := hm
        simp [step, stepAs, this] at ht
      obtain ⟨f, hs⟩ := stepCycles_stands hd ht
      rcases hs.next 0 with ⟨-, -, h3⟩ | ⟨-, -, -, h4⟩
      · exact absurd h3 (by have := hs.moves; omega)
      · exact h4
    · cases h
    · cases h

theorem cycleCore_run_succ (k : Nat) {c d : PerCycle} (h : c.tick = .next d) : cycleCore.run (k + 1) c = cycleCore.run k d :=
  run_succ (M := cycleCore) k h

/-- A step is its cycles: each tick runs one, the boundaries lie between them, and where it ends the next begins. -/
theorem step_ticks {s t : State} (hd : resetDue s = false) (ht : step s = .next t) :
    s.cycle < t.cycle
      ∧ (∀ k, s.cycle + k ≤ t.cycle → cycleCore.run k { start := s, cycles := 0 } = .next { start := s, cycles := k }
        ∧ (PerCycle.now { start := s, cycles := k }).cycle = s.cycle + k)
      ∧ PerCycle.now { start := s, cycles := t.cycle - s.cycle } = t
      ∧ PerCycle.tick { start := s, cycles := t.cycle - s.cycle } = PerCycle.tick { start := t, cycles := 0 } := by
  obtain ⟨f, hs⟩ := stepCycles_stands hd ht
  obtain ⟨h1, h2, h3⟩ := hs.upTo
  have run : ∀ k j, s.cycle + (j + k) ≤ t.cycle →
      cycleCore.run k { start := s, cycles := j } = .next { start := s, cycles := j + k } := by
    intro k
    induction k with
    | zero => intro j _; rfl
    | succ k ih =>
      intro j hj
      have ho : PerCycle.over { start := s, cycles := j } = false := by
        have a := h1 (j + 1) (by omega)
        have b := h1 j (by omega)
        refine decide_eq_false (Nat.not_le.2 ?_)
        show (stepCycles j s).cycle < (stepCycles (j + 1) s).cycle
        omega
      have : PerCycle.tick { start := s, cycles := j } = .next { start := s, cycles := j + 1 } := by
        simp [PerCycle.tick, ho]
      rw [cycleCore_run_succ k this, ih (j + 1) (by omega), Nat.add_assoc, Nat.add_comm 1]
  refine ⟨hs.moves, fun k hk => ⟨by simpa using run k 0 (by omega), h1 k hk⟩, h2, ?_⟩
  have e1 : PerCycle.now { start := s, cycles := t.cycle - s.cycle } = t := h2
  have e2 : PerCycle.now { start := t, cycles := 0 } = t := rfl
  have o1 : PerCycle.over { start := s, cycles := t.cycle - s.cycle } = true := by
    simp only [PerCycle.over, PerCycle.now, h2, h3, Nat.le_refl, decide_true]
  have r : PerCycle.ready { start := s, cycles := t.cycle - s.cycle } = PerCycle.ready { start := t, cycles := 0 } := by
    rw [PerCycle.ready, PerCycle.ready, e1, e2]
  cases o2 : PerCycle.over { start := t, cycles := 0 } with
  | true => simp only [PerCycle.tick, o1, o2, if_true, r]
  | false =>
    obtain ⟨k, -⟩ := PerCycle.not_over o2
    have hr : Ready t := by
      by_contra hc
      rw [over_of_not_ready (c := { start := t, cycles := 0 }) hc] at o2; cases o2
    obtain ⟨u, hu⟩ := stepAs_next hr.1
    have kt : PerCycle.ready { start := t, cycles := 0 } = t := k.trans e2
    simp [PerCycle.tick, o1, o2, r, kt, hu]

end Sys2Proof.Machine
end

