-- ==== Sys2Proof/Laws/LastCycle.lean ====
section
/-! SUPPORT. Where an instruction stands before its accesses to its effective address, and what those accesses are: the last
cycle of a Read and of a Write, the last three of a read-modify-write. -/

namespace Sys2Proof.Machine

/-- `f` from `s`, made to stop at boundary `n`, stands at `u`. -/
def StandsAt (n : Nat) (f : State → State) (s u : State) : Prop := lim (some n) f s = setResets [] u

/-- It is over by then. -/
theorem StandsAt.done {f : State → State} (hf : Paced f) {n : Nat} {s : State} (hn : (f s).cycle ≤ n)
    (hr : ∀ m ∈ s.resetAt.head?, n < m) : StandsAt n f s (f s) := by
  have hs := (hf.mono s).trans hn
  have e : setResets [] (f s) = lim s.resetAt.head? f s := by rw [hf.frame s]; rfl
  rw [StandsAt, e]
  rcases hf.later s n hs with ⟨-, h⟩ | ⟨-, -, h⟩
  · exact (h _ fun m hm => Nat.le_of_lt (hr m hm)).symm
  · have h1 := h _ hr
    rw [← e] at h1
    exact absurd h1 (Nat.not_lt.2 hn)

/-- It has not begun by then. -/
theorem StandsAt.start {f : State → State} (hf : Paced f) {n : Nat} {s : State} (hn : n ≤ s.cycle) : StandsAt n f s s :=
  hf.due s n hn

theorem StandsAt.comp {f h : State → State} (hf : Paced f) {n : Nat} {s u w : State} (h1 : StandsAt n f s u)
    (h2 : StandsAt n h u w) : StandsAt n (fun s => h (f s)) s w := by
  show setResets [] (h (f (setResets (some n).toList s))) = _
  rw [hf.at_lim, h1]
  exact h2

theorem afterCycles_of_standsAt {i : Instr} {s u : State} {k : Nat} (hd : resetDue s = false)
    (hr : ∀ m ∈ s.resetAt.head?, s.cycle + k < m) (h : StandsAt (s.cycle + k) (body i) s u) (hu : u.resetAt = s.resetAt) :
    afterCycles k i s = u := by
  rw [(afterCycles_stands i hd (exec_body i s)).at' k]
  have : stopAt s (s.cycle + k) = s.cycle + k := by
    unfold stopAt
    cases e : s.resetAt.head? with
    | none => rfl
    | some m => have := hr m e; simp; omega
  rw [this, h, ← hu]
  rfl

/-! ### One cycle of the CPU's own -/

/-- A cycle of the CPU is one CPU cycle with the primitive its registers choose. -/
theorem cpuCyc_oneCycle {k : Nat} {u : State} (h : undisturbed (k + 1) u) (kind : CycleKind) (act : Cpu → Act)
    (upd : Byte → Cpu → Cpu) :
    oneCycle (act u.cpu) u (cpuCyc kind act upd u)
      ∧ (cpuCyc kind act upd u).cpuBus = busByte (fun _ => act u.cpu) u
      ∧ (cpuCyc kind act upd u).cpu
        = endCpu kind (cpuCyc kind act upd u).arb.pending (upd (busByte (fun _ => act u.cpu) u) u.cpu) := by
  have e : cpuCyc kind act upd u = endCycle kind (State.mapCpu (upd (busByte (fun _ => act u.cpu) u))
      (busCycle (fun _ => act u.cpu) u)) := by
    rw [cpuCyc, cyc_eq h, (busCycle_chosen (fun s => act s.cpu) u).1, (busCycle_chosen (fun s => act s.cpu) u).2]
    simp only [beforeAccess_cpu]
  have hn : u.dma.active ≠ true := by rw [h.1]; decide
  refine ⟨?_, ?_, ?_⟩
  · rw [e]
    refine ⟨?_, ?_, ?_, ?_, fun k => absurd k hn, fun _ => ?_⟩ <;> cases kind <;> first | rfl | exact fun k => k
  · rw [e]
    have : (busCycle (fun _ => act u.cpu) u).cpuBus = busByte (fun _ => act u.cpu) u := busCycle_cpuBus _ _
    cases kind <;> exact this
  · rw [e, endCycle_cpu]
    simp [State.mapCpu]

/-! ### A Read -/

/-- Where a Read stands before its last cycle. -/
structure BeforeRead (n : Nat) (a : Word) (F : State → State) (f : Byte → Cpu → Cpu) (s u : State) : Prop where
  at' : StandsAt (s.cycle + n) F s u
  free : undisturbed 1 u
  tail : ∃ ea, ea u.cpu = a ∧ F s = readTail ea f u
  resetAt : u.resetAt = s.resetAt

theorem undisturbed.before {k n : Nat} {s : State} (h : undisturbed k s) (hn : n < k) :
    ∀ m ∈ s.resetAt.head?, s.cycle + n < m := fun m hm => by have := h.2 m hm; omega

theorem BeforeRead.of {k n : Nat} {len : Word} {a : Word} {g : State → State} (hg : Moves g) {s : State}
    (o : Opened n len s (g s)) (h : undisturbed 1 (g s)) (hs : undisturbed k s) (hk : n < k) {ea : Cpu → Word}
    (hea : ea (g s).cpu = a) (f : Byte → Cpu → Cpu) : BeforeRead n a (fun s => readTail ea f (g s)) f s (g s) where
  at' := (StandsAt.done hg.toPaced (Nat.le_of_eq o.cycle) (hs.before hk)).comp hg.toPaced
    (.start (moves_readTail ea f).toPaced (Nat.le_of_eq o.cycle.symm))
  free := h
  tail := ⟨ea, hea, rfl⟩
  resetAt := o.keeps.resetAt

theorem BeforeRead.indexed {k n : Nat} {len : Word} {g : State → State} (hg : Moves g) {s : State}
    (o : Opened n len s (g s)) (h : undisturbed 2 (g s)) (hs : undisturbed k s) (hk : n + 1 < k) (i : Index) {hi lo : Byte}
    (h1 : (g s).cpu.adh = hi) (h2 : (g s).cpu.adl = lo) (h4 : (g s).cpu.carryFix = pageCarry lo (i.of s.cpu))
    (f : Byte → Cpu → Cpu) :
    ∃ u, BeforeRead (n + if pageCarry lo (i.of s.cpu) then 1 else 0) (wordOf hi lo + (i.of s.cpu).setWidth 16)
      (fun s => indexedReadTail i f (g s)) f s u := by
  by_cases hx : pageCarry lo (i.of s.cpu) = true
  · obtain ⟨m, hm, o1, hu1, hc1⟩ := read_spec (k := 1) o h .penult (by simp) (eaPartial i) (fun d c => { c with data := d })
      (by constructor <;> intros <;> simp)
    have e : eaIndexed i (readData .penult (eaPartial i) (g s)).cpu = wordOf hi lo + (i.of s.cpu).setWidth 16 := by
      refine eaIndexed_eq ?_ ?_ (o1.index i) ?_
      · rw [readData, hc1]; simpa using h1
      · rw [readData, hc1]; simpa using h2
      · rw [readData, hc1]; simpa using h4
    have htail : ∀ w : State, w.cpu.carryFix = true →
        indexedReadTail i f w = readTail (eaIndexed i) f (readData .penult (eaPartial i) w) := by
      intro w hw; rw [indexedReadTail, if_pos hw]
    have hfix : (g s).cpu.carryFix = true := h4.trans hx
    refine ⟨readData .penult (eaPartial i) (g s), ?_, hu1, ⟨eaIndexed i, e, htail _ hfix⟩, o1.keeps.resetAt⟩
    rw [if_pos hx]
    have d1 : StandsAt (s.cycle + (n + 1)) g s (g s) :=
      .done hg.toPaced (by rw [o.cycle]; omega) (hs.before (by omega))
    refine d1.comp hg.toPaced (u := g s) (h := indexedReadTail i f) ?_
    have d2 : StandsAt (s.cycle + (n + 1)) (readData .penult (eaPartial i)) (g s) (readData .penult (eaPartial i) (g s)) :=
      .done (moves_readData .penult (eaPartial i)).toPaced (Nat.le_of_eq o1.cycle)
        (by rw [o.keeps.resetAt]; exact hs.before (by omega))
    have d3 := d2.comp (moves_readData .penult (eaPartial i)).toPaced
      (.start (moves_readTail (eaIndexed i) f).toPaced (Nat.le_of_eq o1.cycle.symm))
    rw [StandsAt] at d3 ⊢
    rw [← d3]
    exact congrArg (setResets []) (htail _ hfix)
  · have hf : pageCarry lo (i.of s.cpu) = false := by simpa using hx
    have hfix : (g s).cpu.carryFix = false := h4.trans hf
    have htail : ∀ w : State, w.cpu.carryFix = false → indexedReadTail i f w = readTail (eaPartial i) f w := by
      intro w hw; rw [indexedReadTail, hw]; rfl
    refine ⟨g s, ?_, h.mono (by omega), ⟨eaPartial i, eaPartial_eq h1 h2 (o.index i) hf, htail _ hfix⟩, o.keeps.resetAt⟩
    rw [if_neg hx]
    exact (StandsAt.done hg.toPaced (Nat.le_of_eq o.cycle) (hs.before (by omega))).comp hg.toPaced
      (.start (moves_indexedReadTail i f).toPaced (Nat.le_of_eq o.cycle.symm))

/-- The cycles of a Read before its last. -/
theorem readMode_before {s : State} (h : undisturbed 8 s) (m : Mode) (op : Byte) (f : Byte → Cpu → Cpu) {a : Word}
    (ha : m.ea s = some a) :
    ∃ u, BeforeRead (readCycles m - 1 + if m.crosses s then 1 else 0) a (readMode m op f) f s u := by
  cases m <;> simp only [Mode.ea, Option.some.injEq, reduceCtorEq] at ha <;> subst ha <;>
    simp only [readCycles, Mode.crosses, Bool.false_eq_true, if_false, Nat.add_zero, Nat.reduceSub]
  case zeroPage zp =>
    obtain ⟨o, hu, e⟩ := openZp_spec (k := 6) h .penult (by simp) op zp
    exact ⟨_, .of (moves_openZp op zp .penult) o (hu.mono (by omega)) h (by omega) (ea := eaZp) (by rw [eaZp, e]) f⟩
  case zeroPageX zp =>
    obtain ⟨o, hu, e⟩ := openZpIndexed_spec (k := 5) h .penult (by simp) op zp
    exact ⟨_, .of (moves_openZpIndexed op zp .penult) o (hu.mono (by omega)) h (by omega) (ea := eaZpIndexed .x)
      (by rw [eaZpIndexed, e, o.index]; rfl) f⟩
  case zeroPageY zp =>
    obtain ⟨o, hu, e⟩ := openZpIndexed_spec (k := 5) h .penult (by simp) op zp
    exact ⟨_, .of (moves_openZpIndexed op zp .penult) o (hu.mono (by omega)) h (by omega) (ea := eaZpIndexed .y)
      (by rw [eaZpIndexed, e, o.index]; rfl) f⟩
  case absolute addr =>
    obtain ⟨o, hu, e1, e2⟩ := openAbs_spec (k := 5) h .penult (by simp) op addr
    exact ⟨_, .of (moves_openAbs op addr .penult) o (hu.mono (by omega)) h (by omega) (ea := eaAbs)
      (by rw [eaAbs, e1, e2, wordOf_hiByte_loByte]) f⟩
  case absoluteX addr =>
    obtain ⟨o, hu, e1, e2, e3⟩ := openAbsIndexed_spec (k := 5) h .x op addr beforePartial
      (by intro b; cases b <;> simp [beforePartial])
    have := BeforeRead.indexed (moves_openAbsIndexed .x op addr beforePartial) o (hu.mono (by omega)) h (by omega) .x e2 e1 e3 f
    rw [indexed_cross (hiByte addr), wordOf_hiByte_loByte] at this
    exact this
  case absoluteY addr =>
    obtain ⟨o, hu, e1, e2, e3⟩ := openAbsIndexed_spec (k := 5) h .y op addr beforePartial
      (by intro b; cases b <;> simp [beforePartial])
    have := BeforeRead.indexed (moves_openAbsIndexed .y op addr beforePartial) o (hu.mono (by omega)) h (by omega) .y e2 e1 e3 f
    rw [indexed_cross (hiByte addr), wordOf_hiByte_loByte] at this
    exact this
  case indirectX zp =>
    obtain ⟨o, hu, e1, e2⟩ := openIzx_spec (k := 3) h .penult (by simp) op zp
    exact ⟨_, .of (moves_openIzx op zp .penult) o (hu.mono (by omega)) h (by omega) (ea := eaAbs) (by rw [eaAbs, e1, e2]) f⟩
  case indirectY zp =>
    obtain ⟨o, hu, e1, e2, e3⟩ := openIzy_spec (k := 4) h beforePartial
      (by intro b; cases b <;> simp [beforePartial]) op zp
    have := BeforeRead.indexed (moves_openIzy op zp beforePartial) o (hu.mono (by omega)) h (by omega) .y e2 e1 e3 f
    rw [indexed_cross (ramAt s (zeroPage (zp + 1)))] at this
    exact this

theorem readCycles_pos {m : Mode} {s : State} {a : Word} (h : m.ea s = some a) : 1 ≤ readCycles m := by
  cases m <;> simp [Mode.ea, readCycles] at *

/-- The last cycle of a Read reads its effective address, and its operand is the byte on the bus. -/
theorem read_last {i : Instr} {s : State} {a : Word} (h : undisturbed 8 s) (ht : i.tag = .read) (ha : i.mode.ea s = some a)
    {t : State} (he : exec i s = .next t) :
    oneCycle (.read a) (afterCycles (cyclesOf i s - 1) i s) t
      ∧ t.cpuBus = busByte (fun _ => .read a) (afterCycles (cyclesOf i s - 1) i s) := by
  obtain ⟨u, hu⟩ := readMode_before h i.mode i.opcode (readOp i.mnemonic) ha
  have hb : body i = readMode i.mode i.opcode (readOp i.mnemonic) := by
    funext s; rw [body, exec_read i s ht]
  have hn : cyclesOf i s - 1 = readCycles i.mode - 1 + if i.mode.crosses s then 1 else 0 := by
    rw [cyclesOf_read ht]; have := readCycles_pos ha; omega
  have h8 : readCycles i.mode - 1 + (if i.mode.crosses s then 1 else 0) < 8 := by
    cases i.mode <;> simp [readCycles] <;> split_ifs <;> omega
  have hw : afterCycles (cyclesOf i s - 1) i s = u := by
    rw [hn]
    exact afterCycles_of_standsAt (h.mono (k := 1) (by omega)).resetDue (h.before h8) (hb ▸ hu.at') hu.resetAt
  obtain ⟨ea, e1, e2⟩ := hu.tail
  have et : t = readTail ea (readOp i.mnemonic) u := by
    rw [exec_body, hb] at he; cases he; exact e2
  obtain ⟨k1, k2, -⟩ := cpuCyc_oneCycle (k := 0) hu.free .last (fun c => .read (ea c))
    fun d c => readOp i.mnemonic d { c with data := d }
  rw [hw, et, ← e1]
  exact ⟨k1, k2⟩

/-! ### A Write and a read-modify-write -/

/-- `F` runs `tail` at `a` after its first `n` cycles, which leave it at `u`, `k` cycles from the next reset at least. -/
structure Opens (k n : Nat) (len : Word) (a : Word) (tail : (Cpu → Word) → State → State) (F : State → State) (s u : State) :
    Prop where
  via : ∃ (g : State → State) (ea : Cpu → Word),
    Moves g ∧ IgnoresData ea ∧ ea u.cpu = a ∧ g s = u ∧ F = fun s => tail ea (g s)
  free : undisturbed k u
  opened : Opened n len s u

theorem Opens.of {k n : Nat} {len : Word} {a : Word} {tail : (Cpu → Word) → State → State} {g : State → State} {s : State}
    {ea : Cpu → Word} (hg : Moves g) (o : Opened n len s (g s)) (h : undisturbed k (g s)) (hea : ea (g s).cpu = a)
    (hi : IgnoresData ea) : Opens k n len a tail (fun s => tail ea (g s)) s (g s) :=
  ⟨⟨g, ea, hg, hi, hea, rfl, rfl⟩, h, o⟩

theorem Opens.indexed {k n : Nat} {len : Word} {tail : (Cpu → Word) → State → State} {g : State → State} (hg : Moves g)
    {s : State} (o : Opened n len s (g s)) (h : undisturbed (k + 1) (g s)) (kind : CycleKind) (hk : kind ≠ .last) (i : Index)
    {hi lo : Byte} (h1 : (g s).cpu.adh = hi) (h2 : (g s).cpu.adl = lo)
    (h4 : (g s).cpu.carryFix = pageCarry lo (i.of s.cpu)) :
    ∃ u, Opens k (n + 1) len (wordOf hi lo + (i.of s.cpu).setWidth 16) tail
      (fun s => tail (eaIndexed i) (dummyRead kind (eaPartial i) (g s))) s u := by
  obtain ⟨o1, hu1, hc1⟩ := dummyRead_spec o h kind hk (eaPartial i)
  refine ⟨_, .of (g := fun s => dummyRead kind (eaPartial i) (g s)) (hg.then (moves_dummyRead kind _)) o1 hu1
    (eaIndexed_eq ?_ ?_ (o1.index i) ?_) (ignoresData_indexed i)⟩
  · rw [hc1]; simpa using h1
  · rw [hc1]; simpa using h2
  · rw [hc1]; simpa using h4

/-- Where `F` stands after `j` more cycles, if its tail stands there. -/
theorem Opens.stands {k n : Nat} {len a : Word} {tail : (Cpu → Word) → State → State} {F : State → State} {s u : State}
    (o : Opens k n len a tail F s u) :
    ∃ ea, IgnoresData ea ∧ ea u.cpu = a ∧ F s = tail ea u ∧ ∀ j v, (∀ m ∈ s.resetAt.head?, s.cycle + (n + j) < m) →
      StandsAt (u.cycle + j) (tail ea) u v → StandsAt (s.cycle + (n + j)) F s v := by
  obtain ⟨⟨g, ea, hg, hi, he, rfl, rfl⟩, -, o⟩ := o
  refine ⟨ea, hi, he, rfl, fun j v hj hv => ?_⟩
  rw [o.cycle, Nat.add_assoc] at hv
  exact (StandsAt.done hg.toPaced (by rw [o.cycle]; omega) fun m hm => by have := hj m hm; omega).comp hg.toPaced hv

/-- The cycles of a Write before its last. -/
theorem writeMode_opens {s : State} (h : undisturbed 8 s) (m : Mode) (op : Byte) (v : Cpu → Byte) {a : Word}
    (ha : m.ea s = some a) :
    ∃ u, Opens 1 (writeCycles m - 1) m.bytes a (fun ea => writeTail ea v) (writeMode m op v) s u := by
  cases m <;> simp only [Mode.ea, Option.some.injEq, reduceCtorEq] at ha <;> subst ha <;>
    simp only [writeCycles, Mode.bytes, Nat.reduceSub]
  case zeroPage zp =>
    obtain ⟨o, hu, e⟩ := openZp_spec (k := 6) h .penult (by simp) op zp
    exact ⟨_, .of (moves_openZp op zp .penult) o (hu.mono (by omega)) (ea := eaZp) (by rw [eaZp, e]) ignoresData_zp⟩
  case zeroPageX zp =>
    obtain ⟨o, hu, e⟩ := openZpIndexed_spec (k := 5) h .penult (by simp) op zp
    exact ⟨_, .of (moves_openZpIndexed op zp .penult) o (hu.mono (by omega)) (ea := eaZpIndexed .x)
      (by rw [eaZpIndexed, e, o.index]; rfl) (ignoresData_zpIndexed .x)⟩
  case zeroPageY zp =>
    obtain ⟨o, hu, e⟩ := openZpIndexed_spec (k := 5) h .penult (by simp) op zp
    exact ⟨_, .of (moves_openZpIndexed op zp .penult) o (hu.mono (by omega)) (ea := eaZpIndexed .y)
      (by rw [eaZpIndexed, e, o.index]; rfl) (ignoresData_zpIndexed .y)⟩
  case absolute addr =>
    obtain ⟨o, hu, e1, e2⟩ := openAbs_spec (k := 5) h .penult (by simp) op addr
    exact ⟨_, .of (moves_openAbs op addr .penult) o (hu.mono (by omega)) (ea := eaAbs)
      (by rw [eaAbs, e1, e2, wordOf_hiByte_loByte]) ignoresData_abs⟩
  case absoluteX addr =>
    obtain ⟨o, hu, e1, e2, e3⟩ := openAbsIndexed_spec (k := 5) h .x op addr (fun _ => .mid) (by simp)
    have := Opens.indexed (k := 1) (tail := fun ea => writeTail ea v) (moves_openAbsIndexed .x op addr fun _ => .mid) o
      (hu.mono (by omega)) .penult (by simp) .x e2 e1 e3
    rw [wordOf_hiByte_loByte] at this
    exact this
  case absoluteY addr =>
    obtain ⟨o, hu, e1, e2, e3⟩ := openAbsIndexed_spec (k := 5) h .y op addr (fun _ => .mid) (by simp)
    have := Opens.indexed (k := 1) (tail := fun ea => writeTail ea v) (moves_openAbsIndexed .y op addr fun _ => .mid) o
      (hu.mono (by omega)) .penult (by simp) .y e2 e1 e3
    rw [wordOf_hiByte_loByte] at this
    exact this
  case indirectX zp =>
    obtain ⟨o, hu, e1, e2⟩ := openIzx_spec (k := 3) h .penult (by simp) op zp
    exact ⟨_, .of (moves_openIzx op zp .penult) o (hu.mono (by omega)) (ea := eaAbs) (by rw [eaAbs, e1, e2]) ignoresData_abs⟩
  case indirectY zp =>
    obtain ⟨o, hu, e1, e2, e3⟩ := openIzy_spec (k := 4) h (fun _ => .mid) (by simp) op zp
    exact Opens.indexed (k := 1) (tail := fun ea => writeTail ea v) (moves_openIzy op zp fun _ => .mid) o
      (hu.mono (by omega)) .penult (by simp) .y e2 e1 e3

/-- The cycles of a read-modify-write before its access. -/
theorem rmwMode_opens {s : State} (h : undisturbed 8 s) (m : Mode) (op : Byte) (f : Byte → Cpu → Byte × Cpu) {a : Word}
    (ha : m.ea s = some a) :
    ∃ u, Opens 3 (rmwCycles m - 3) m.bytes a (fun ea => rmwTail ea f) (rmwMode m op f) s u := by
  cases m <;> simp only [Mode.ea, Option.some.injEq, reduceCtorEq] at ha <;> subst ha <;>
    simp only [rmwCycles, Mode.bytes, Nat.reduceSub]
  case zeroPage zp =>
    obtain ⟨o, hu, e⟩ := openZp_spec (k := 6) h .mid (by simp) op zp
    exact ⟨_, .of (moves_openZp op zp .mid) o (hu.mono (by omega)) (ea := eaZp) (by rw [eaZp, e]) ignoresData_zp⟩
  case zeroPageX zp =>
    obtain ⟨o, hu, e⟩ := openZpIndexed_spec (k := 5) h .mid (by simp) op zp
    exact ⟨_, .of (moves_openZpIndexed op zp .mid) o (hu.mono (by omega)) (ea := eaZpIndexed .x)
      (by rw [eaZpIndexed, e, o.index]; rfl) (ignoresData_zpIndexed .x)⟩
  case zeroPageY zp =>
    obtain ⟨o, hu, e⟩ := openZpIndexed_spec (k := 5) h .mid (by simp) op zp
    exact ⟨_, .of (moves_openZpIndexed op zp .mid) o (hu.mono (by omega)) (ea := eaZpIndexed .y)
      (by rw [eaZpIndexed, e, o.index]; rfl) (ignoresData_zpIndexed .y)⟩
  case absolute addr =>
    obtain ⟨o, hu, e1, e2⟩ := openAbs_spec (k := 5) h .mid (by simp) op addr
    exact ⟨_, .of (moves_openAbs op addr .mid) o (hu.mono (by omega)) (ea := eaAbs)
      (by rw [eaAbs, e1, e2, wordOf_hiByte_loByte]) ignoresData_abs⟩
  case absoluteX addr =>
    obtain ⟨o, hu, e1, e2, e3⟩ := openAbsIndexed_spec (k := 5) h .x op addr (fun _ => .mid) (by simp)
    have := Opens.indexed (k := 3) (tail := fun ea => rmwTail ea f) (moves_openAbsIndexed .x op addr fun _ => .mid) o
      (hu.mono (by omega)) .mid (by simp) .x e2 e1 e3
    rw [wordOf_hiByte_loByte] at this
    exact this
  case absoluteY addr =>
    obtain ⟨o, hu, e1, e2, e3⟩ := openAbsIndexed_spec (k := 5) h .y op addr (fun _ => .mid) (by simp)
    have := Opens.indexed (k := 3) (tail := fun ea => rmwTail ea f) (moves_openAbsIndexed .y op addr fun _ => .mid) o
      (hu.mono (by omega)) .mid (by simp) .y e2 e1 e3
    rw [wordOf_hiByte_loByte] at this
    exact this
  case indirectX zp =>
    obtain ⟨o, hu, e1, e2⟩ := openIzx_spec (k := 3) h .mid (by simp) op zp
    exact ⟨_, .of (moves_openIzx op zp .mid) o (hu.mono (by omega)) (ea := eaAbs) (by rw [eaAbs, e1, e2]) ignoresData_abs⟩
  case indirectY zp =>
    obtain ⟨o, hu, e1, e2, e3⟩ := openIzy_spec (k := 4) h (fun _ => .mid) (by simp) op zp
    exact Opens.indexed (k := 3) (tail := fun ea => rmwTail ea f) (moves_openIzy op zp fun _ => .mid) o
      (hu.mono (by omega)) .mid (by simp) .y e2 e1 e3

theorem writeCycles_pos {m : Mode} {s : State} {a : Word} (h : m.ea s = some a) : 1 ≤ writeCycles m ∧ writeCycles m ≤ 8 := by
  cases m <;> simp [Mode.ea, writeCycles] at *

theorem rmwCycles_pos {m : Mode} {s : State} {a : Word} (h : m.ea s = some a) : 3 ≤ rmwCycles m ∧ rmwCycles m ≤ 8 := by
  cases m <;> simp [Mode.ea, rmwCycles] at *

/-- The last cycle of a Write writes its byte at its effective address. -/
theorem write_last {i : Instr} {s : State} {a : Word} (h : undisturbed 8 s) (ht : i.tag = .write) (ha : i.mode.ea s = some a)
    {t : State} (he : exec i s = .next t) : lastCycleWrites i a t.cpuBus s t := by
  obtain ⟨u, o⟩ := writeMode_opens h i.mode i.opcode (storeOp i.mnemonic) ha
  obtain ⟨ea, -, e1, e2, stands⟩ := o.stands
  have hb : body i = writeMode i.mode i.opcode (storeOp i.mnemonic) := by
    funext s; rw [body, exec_write i s ht]
  have hc := writeCycles_pos ha
  have hr : ∀ m ∈ s.resetAt.head?, s.cycle + (writeCycles i.mode - 1) < m := h.before (by omega)
  have hw : cyclesBefore 1 i s = u := by
    rw [cyclesBefore, cyclesOf_write ht]
    exact afterCycles_of_standsAt (h.mono (k := 1) (by omega)).resetDue hr
      (hb ▸ stands 0 u hr (.start (moves_writeTail _ _).toPaced (Nat.le_refl _))) o.opened.keeps.resetAt
  have et : t = writeTail ea (storeOp i.mnemonic) u := by
    rw [exec_body, hb] at he; cases he; exact e2
  obtain ⟨k1, k2, -⟩ := cpuCyc_oneCycle (k := 0) o.free .last (fun c => .write (ea c) (storeOp i.mnemonic c)) fun _ c => c
  have hv : t.cpuBus = storeOp i.mnemonic u.cpu := by rw [et]; exact k2
  rw [lastCycleWrites, hw, hv, ← e1, et]
  exact k1

/-- The last three cycles of a read-modify-write from `u`: where it stands between them, and what they are. -/
structure RmwCycles (ea : Cpu → Word) (op : Byte → Cpu → Byte × Cpu) (u v w : State) (m : Byte) : Prop where
  read : m = busByte (fun _ => .read (ea u.cpu)) u
  data : (readData .mid ea u).cpu.data = m
  first : oneCycle (.read (ea u.cpu)) u v
  second : oneCycle (.write (ea u.cpu) m) v w
  last : rmwTail ea op u = cpuCyc .last (fun c => .write (ea c) c.data) (fun _ c => (op m c).2) w
  addr : ea w.cpu = ea u.cpu
  result : w.cpu.data = (op m v.cpu).1
  stands0 : StandsAt (u.cycle + 0) (rmwTail ea op) u u
  stands1 : StandsAt (u.cycle + 1) (rmwTail ea op) u v
  stands2 : ∀ j x, StandsAt (u.cycle + (2 + j)) (cpuCyc .last (fun c => .write (ea c) c.data) fun _ c => (op m c).2) w x →
    (∀ n ∈ u.resetAt.head?, u.cycle + (2 + j) < n) → StandsAt (u.cycle + (2 + j)) (rmwTail ea op) u x
  keeps : Keeps u v
  wkeeps : WriteKeeps (ea u.cpu) m v w
  cycle : w.cycle = u.cycle + 2
  regs : ∀ n len s, Opened n len s u → SameRegs len s v.cpu ∧ SameRegs len s w.cpu

theorem rmwTail_cycles {u : State} (h : undisturbed 3 u) {ea : Cpu → Word} (hi : IgnoresData ea)
    (op : Byte → Cpu → Byte × Cpu) : ∃ v w m, RmwCycles ea op u v w m := by
  let rest := fun (m : Byte) (s : State) => cpuCyc .last (fun c => .write (ea c) c.data) (fun _ c => (op m c).2)
    (cpuCyc .penult (fun c => .write (ea c) c.data) (fun _ c => { c with data := (op m c).1 }) s)
  have mrest : ∀ m, Moves (rest m) := fun m =>
    (moves_cpuCyc .penult (fun c => .write (ea c) c.data) fun _ c => { c with data := (op m c).1 }).then
      (moves_cpuCyc .last (fun c => .write (ea c) c.data) fun _ c => (op m c).2)
  have pick : Paced fun s => rest s.cpu.data s := Paced.choose (fun s => s.cpu.data) (fun _ _ => rfl) fun m => (mrest m).toPaced
  obtain ⟨hc1, h1⟩ := cpuCyc_of_not_write (k := 2) h .mid (fun c => .read (ea c)) (fun d c => { c with data := d }) rfl
  obtain ⟨o1, -, c1⟩ := cpuCyc_oneCycle (k := 2) h .mid (fun c => .read (ea c)) fun d c => { c with data := d }
  change oneCycle _ u (readData .mid ea u) at o1
  change undisturbed 2 (readData .mid ea u) at h1
  change ReadCycle _ _ _ u (readData .mid ea u) at hc1
  generalize hm : busByte (fun _ => Act.read (ea u.cpu)) u = m at *
  have hdata : (readData .mid ea u).cpu.data = m := by rw [readData, c1]; rfl
  have ea1 : ea (readData .mid ea u).cpu = ea u.cpu := by rw [readData, c1]; exact hi u.cpu _ _
  have c1' : (readData .mid ea u).cpu = _ := c1
  obtain ⟨hw, -⟩ := cpuCyc_write (k := 1) h1 .penult ea (fun c => c.data) fun _ c => { c with data := (op m c).1 }
  obtain ⟨o2, -, c2⟩ := cpuCyc_oneCycle (k := 1) h1 .penult (fun c => .write (ea c) c.data) fun _ c => { c with data := (op m c).1 }
  rw [ea1, hdata] at o2 hw
  have hcyc : (readData .mid ea u).cycle = u.cycle + 1 := hc1.cycle
  have hcyc2 := hw.cycle
  rw [hcyc] at hcyc2
  refine ⟨_, _, m, hm.symm, hdata, o1, o2, by rw [rmwTail, hdata], ?_, ?_, .start (moves_rmwTail ea op).toPaced (Nat.le_refl _), ?_,
    fun j x hx hr => ?_, hc1.keeps, hw.keeps, hcyc2, fun n len s o => ⟨?_, ?_⟩⟩
  · rw [c2, ← ea1]; exact hi (readData .mid ea u).cpu _ _
  · rw [c2]; rfl
  · have d1 : StandsAt (u.cycle + 1) (readData .mid ea) u (readData .mid ea u) :=
      .done (moves_readData .mid ea).toPaced (Nat.le_of_eq hcyc) fun n hn => by have := h.2 n hn; omega
    exact d1.comp (h := fun s => rest s.cpu.data s) (moves_readData .mid ea).toPaced (.start pick (Nat.le_of_eq hcyc.symm))
  · have d1 : StandsAt (u.cycle + (2 + j)) (readData .mid ea) u (readData .mid ea u) :=
      .done (moves_readData .mid ea).toPaced (by rw [hcyc]; omega) hr
    refine d1.comp (h := fun s => rest s.cpu.data s) (moves_readData .mid ea).toPaced ?_
    have d2 := StandsAt.comp (h := cpuCyc .last (fun c => .write (ea c) c.data) fun _ c => (op m c).2)
      (moves_cpuCyc .penult (fun c => .write (ea c) c.data) fun _ c => { c with data := (op m c).1 }).toPaced
      (StandsAt.done (n := u.cycle + (2 + j)) (s := readData .mid ea u)
        (moves_cpuCyc .penult (fun c => .write (ea c) c.data) fun _ c => { c with data := (op m c).1 }).toPaced
        (by rw [hcyc2]; omega) (by rw [hc1.keeps.resetAt]; exact hr)) hx
    rw [StandsAt] at d2 ⊢
    rw [← d2]
    show setResets [] (rest (setResets _ (readData .mid ea u)).cpu.data _) = _
    rw [setResets_cpu, hdata]
    rfl
  · rw [c1']; exact ⟨o.a, o.x, o.y, o.sp, o.p, o.mode, o.pc⟩
  · rw [c2, c1']; exact ⟨o.a, o.x, o.y, o.sp, o.p, o.mode, o.pc⟩

/-- What a read-modify-write answers at an address other than $4014, and its last three cycles. -/
theorem rmw_last {i : Instr} {s : State} {a : Word} (h : undisturbed 8 s) (ht : i.tag = .rmw) (ha : i.mode.ea s = some a)
    (hd : a ≠ 0x4014#16) :
    ∃ t m c c', RmwDone i a m c c' s t ∧ lastCyclesModify i a m (rmwOp i.mnemonic m c).1 s t := by
  obtain ⟨u, o⟩ := rmwMode_opens h i.mode i.opcode (rmwOp i.mnemonic) ha
  obtain ⟨ea, hi, e1, e2, stands⟩ := o.stands
  have hb : body i = rmwMode i.mode i.opcode (rmwOp i.mnemonic) := by
    funext s; rw [body, exec_rmw i s ht]
  have hc := rmwCycles_pos ha
  obtain ⟨m, c, c', h1, h2, h3, h4, h5, h6, h7, hm⟩ := rmwTail_spec o.opened o.free ea hi (rmwOp i.mnemonic)
    (by rw [e1]; exact target_oamDma hd)
  obtain ⟨v, w, m', r⟩ := rmwTail_cycles o.free hi (rmwOp i.mnemonic)
  obtain rfl : m = m' := hm.symm.trans r.data
  rw [e1] at h1 h2
  rw [show rmwCycles i.mode - 3 + 3 = rmwCycles i.mode by omega] at h3
  rw [← e2] at h2 h3 h4 h7
  refine ⟨rmwMode i.mode i.opcode (rmwOp i.mnemonic) s, m, c, c', ⟨exec_rmw i s ht, h1, h2, h5, h6, h7,
    by rw [h3, cyclesOf_rmw ht], ended_of_cpu h7 (by rw [rmwOp_mode, h6.mode])⟩, ?_⟩
  have wcyc := r.cycle
  have ucyc := o.opened.cycle
  have uw : undisturbed 1 w := by
    have := o.free
    refine ⟨?_, fun n hn => ?_⟩
    · rw [r.wkeeps.dma, if_neg (by rw [e1]; exact target_oamDma hd), r.keeps.dma]; exact this.1
    · rw [r.wkeeps.resetAt, r.keeps.resetAt] at hn
      have := this.2 n hn; omega
  obtain ⟨k1, k2, -⟩ := cpuCyc_oneCycle (k := 0) uw .last (fun c => .write (ea c) c.data) fun _ c => (rmwOp i.mnemonic m c).2
  rw [← r.last, ← e2, r.addr, e1] at k1
  rw [← r.last, ← e2, h4] at k2
  change _ = w.cpu.data at k2
  have hfirst := r.first
  have hsecond := r.second
  have hread := r.read
  rw [e1] at hfirst hsecond hread
  have stand : ∀ j v, j < 3 → StandsAt (u.cycle + j) (rmwTail ea (rmwOp i.mnemonic)) u v → v.resetAt = s.resetAt →
      cyclesBefore (3 - j) i s = v := by
    intro j v hj hv hr
    have hlt : ∀ n ∈ s.resetAt.head?, s.cycle + (rmwCycles i.mode - 3 + j) < n := h.before (by omega)
    rw [cyclesBefore, cyclesOf_rmw ht, show rmwCycles i.mode - (3 - j) = rmwCycles i.mode - 3 + j by omega]
    exact afterCycles_of_standsAt (h.mono (k := 1) (by omega)).resetDue hlt (hb ▸ stands j v hlt hv) hr
  have rv : v.resetAt = s.resetAt := r.keeps.resetAt.trans o.opened.keeps.resetAt
  have s2 : StandsAt (u.cycle + 2) (rmwTail ea (rmwOp i.mnemonic)) u w := by
    refine r.stands2 0 w (.start (moves_cpuCyc .last _ _).toPaced (by omega)) ?_
    rw [o.opened.keeps.resetAt]
    exact fun n hn => by have := h.2 n hn; omega
  have b3 : cyclesBefore 3 i s = u := stand 0 u (by omega) r.stands0 o.opened.keeps.resetAt
  have b2 : cyclesBefore 2 i s = v := stand 1 v (by omega) r.stands1 rv
  have b1 : cyclesBefore 1 i s = w := stand 2 w (by omega) s2 (r.wkeeps.resetAt.trans rv)
  rw [lastCyclesModify, b3, b2, b1, k2]
  exact ⟨hread, hfirst, hsecond, k1⟩

/-! ### A read-modify-write of $4014 -/

/-- The DMA that delays a cycle of the CPU, made to stop at a boundary inside it. -/
theorem drain_stands {w : State} {k : Nat} (ha : ∀ j < k, (dmaCycles j w).dma.active = true) (hk : k ≤ dmaFuel) :
    StandsAt (w.cycle + k) (drainDma dmaFuel) w (dmaCycles k w) := by
  have hres : ∀ j, dmaCycles j (setResets [w.cycle + k] w) = setResets [w.cycle + k] (dmaCycles j w) := by
    intro j
    induction j with
    | zero => rfl
    | succ j ih => rw [dmaCycles, ih, setResets_dmaCycle]; rfl
  have key : ∀ n j fuel, j + n = k → n ≤ fuel →
      drainDma fuel (dmaCycles j (setResets [w.cycle + k] w)) = dmaCycles k (setResets [w.cycle + k] w) := by
    intro n
    induction n with
    | zero =>
      intro j fuel hj _
      obtain rfl : j = k := by omega
      refine drainDma_of_due fuel ?_
      rw [hres]; simp [resetDue, dmaCycles_cycle]
    | succ n ih =>
      intro j fuel hj hf
      obtain ⟨fuel, rfl⟩ : ∃ g, fuel = g + 1 := ⟨fuel - 1, by omega⟩
      have h1 : (dmaCycles j (setResets [w.cycle + k] w)).dma.active = true := by rw [hres]; exact ha j (by omega)
      have h2 : resetDue (dmaCycles j (setResets [w.cycle + k] w)) = false := by
        rw [hres]; simp [resetDue, dmaCycles_cycle]; omega
      rw [drainDma, h1, h2]
      exact ih (j + 1) fuel (by omega) (by omega)
  have := key k 0 dmaFuel (by omega) hk
  rw [StandsAt, lim]
  show setResets [] (drainDma dmaFuel (setResets [w.cycle + k] w)) = _
  rw [show setResets [w.cycle + k] w = dmaCycles 0 (setResets [w.cycle + k] w) from rfl, this, hres]
  rfl

/-- A cycle of the CPU that a DMA delays, made to stop at a boundary inside the DMA. -/
theorem cpuCyc_stands {w : State} {k : Nat} (ha : ∀ j < k, (dmaCycles j w).dma.active = true) (hk : k ≤ dmaFuel)
    (kind : CycleKind) (act : Cpu → Act) (upd : Byte → Cpu → Cpu) :
    StandsAt (w.cycle + k) (cpuCyc kind act upd) w (dmaCycles k w) := by
  show StandsAt _ (cyc kind (fun s => act s.cpu) fun d => State.mapCpu (upd d)) _ _
  rw [cyc_eq_comp]
  have hu : Updates fun d => State.mapCpu (upd d) :=
    ⟨fun _ _ _ => rfl, fun _ _ => rfl, fun _ _ => rfl, fun _ _ => rfl, fun _ _ h => h⟩
  exact (drain_stands ha hk).comp (paced_drain dmaFuel) (.start (paced_one (fun u => !u.dma.active)
    (ownCycle kind (fun s => act s.cpu) fun d => State.mapCpu (upd d)) (fun _ _ => rfl)
    (fun r s => setResets_ownCycle r kind (fun _ _ => rfl) hu s)
    fun s h => ticked_ownCycle kind _ hu (by simpa using h)) (by rw [dmaCycles_cycle]))

theorem oneCycle_dmaCycle {s : State} (h : s.dma.active = true) : oneCycle (dmaAct s) s (dmaCycle s) := by
  obtain ⟨act, k⟩ := ticked_dmaCycle h
  obtain rfl := (k.2.2.2.2.1 h).1
  exact k

/-- The cycles of a read-modify-write of $4014 (49_oam_dma.md R508): the read, the first write, the DMA it starts, the
second write. -/
structure RmwDma (i : Instr) (m : Byte) (c c' : Cpu) (s u v w t : State) : Prop where
  exec : exec i s = .next t
  at3 : cyclesBefore 3 i s = u
  at2 : cyclesBefore 2 i s = v
  during : ∀ k ≤ dmaLength w, afterCycles (cyclesOf i s - 1 + k) i s = dmaCycles k w
  keeps : Keeps s u
  kept : Keeps u v
  wkeeps : WriteKeeps 0x4014#16 m v w
  read : m = busByte (fun _ => .read 0x4014#16) u
  first : oneCycle (.read 0x4014#16) u v
  second : oneCycle (.write 0x4014#16 m) v w
  starts : DmaStarts w
  cycle : w.cycle + 1 = s.cycle + cyclesOf i s
  last : oneCycle (.write 0x4014#16 (rmwOp i.mnemonic m c).1) (dmaCycles (dmaLength w) w) t
  tail : WriteKeeps 0x4014#16 (rmwOp i.mnemonic m c).1 (dmaCycles (dmaLength w) w) t
  done : t.cycle = s.cycle + cyclesOf i s + dmaLength w
  same : SameRegs i.mode.bytes s c
  same' : SameRegs i.mode.bytes s c'
  cpu : t.cpu = endCpu .last t.arb.pending (rmwOp i.mnemonic m c').2

theorem dmaLength_le (s : State) : dmaLength s ≤ dmaFuel := by unfold dmaLength dmaLead dmaFuel; split_ifs <;> omega

theorem rmw_dma {i : Instr} {s : State} (hs : s.dma.active = false) (hr : ∀ n ∈ s.resetAt.head?, s.cycle + 522 ≤ n)
    (ht : i.tag = .rmw) (ha : i.mode.ea s = some 0x4014#16) : ∃ m c c' u v w t, RmwDma i m c c' s u v w t := by
  have h : undisturbed 8 s := ⟨hs, fun n hn => by have := hr n hn; omega⟩
  obtain ⟨u, o⟩ := rmwMode_opens h i.mode i.opcode (rmwOp i.mnemonic) ha
  obtain ⟨ea, hi, e1, e2, stands⟩ := o.stands
  have hb : body i = rmwMode i.mode i.opcode (rmwOp i.mnemonic) := by
    funext s; rw [body, exec_rmw i s ht]
  have hc := rmwCycles_pos ha
  obtain ⟨v, w, m, r⟩ := rmwTail_cycles o.free hi (rmwOp i.mnemonic)
  have wcyc := r.cycle
  have ucyc := o.opened.cycle
  have rv : v.resetAt = s.resetAt := r.keeps.resetAt.trans o.opened.keeps.resetAt
  have rw' : w.resetAt = s.resetAt := r.wkeeps.resetAt.trans rv
  have hfirst := r.first
  have hsecond := r.second
  have hread := r.read
  have hw := r.wkeeps
  rw [e1] at hfirst hsecond hread hw
  have hdma : w.dma = v.dma.start m := by rw [hw.dma]; rfl
  have hst : DmaStarts w := by constructor <;> rw [hdma] <;> rfl
  have hl : dmaLength w ≤ 514 := dmaLength_le w
  have stand : ∀ k v, k < rmwCycles i.mode + dmaLength w → rmwCycles i.mode - 3 ≤ k →
      StandsAt (u.cycle + (k - (rmwCycles i.mode - 3))) (rmwTail ea (rmwOp i.mnemonic)) u v → v.resetAt = s.resetAt →
      afterCycles k i s = v := by
    intro k v hk hk' hv hr'
    have hlt : ∀ n ∈ s.resetAt.head?, s.cycle + k < n := fun n hn => by have := hr n hn; omega
    have e : rmwCycles i.mode - 3 + (k - (rmwCycles i.mode - 3)) = k := by omega
    refine afterCycles_of_standsAt (h.mono (k := 1) (by omega)).resetDue hlt ?_ hr'
    have := stands (k - (rmwCycles i.mode - 3)) v (by rw [e]; exact hlt) hv
    rw [e] at this
    exact hb ▸ this
  let x := dmaCycles (dmaLength w) w
  have xcyc : x.cycle = w.cycle + dmaLength w := dmaCycles_cycle _ _
  have xk := dmaCycles_keeps (dmaLength w) w
  have ux : undisturbed 1 x := by
    refine ⟨dma_done hst, fun n hn => ?_⟩
    rw [xk.resetAt, rw'] at hn
    have := hr n hn; omega
  have hcyc : rmwTail ea (rmwOp i.mnemonic) u
      = cpuCyc .last (fun c => .write (ea c) c.data) (fun _ c => (rmwOp i.mnemonic m c).2) x := by
    rw [r.last, cpuCyc, cyc, drainDma_start hst]
    · show _ = cyc _ _ _ x
      rw [cyc, drainDma_of_inactive _ ux.1]
    · intro n hn
      rw [rw'] at hn
      have := hr n hn; omega
  obtain ⟨k1, k2, k3⟩ := cpuCyc_oneCycle (k := 0) ux .last (fun c => .write (ea c) c.data) fun _ c => (rmwOp i.mnemonic m c).2
  obtain ⟨hl1, -⟩ := cpuCyc_write (k := 0) ux .last ea (fun c => c.data) fun _ c => (rmwOp i.mnemonic m c).2
  have ex : ea x.cpu = 0x4014#16 := by rw [xk.cpu, r.addr, e1]
  have dx : x.cpu.data = (rmwOp i.mnemonic m v.cpu).1 := by rw [xk.cpu, r.result]
  rw [← hcyc, ← e2] at k1 hl1
  rw [ex, dx] at k1 hl1
  have hreg := r.regs _ _ _ o.opened
  refine ⟨m, v.cpu, w.cpu, u, v, w, rmwMode i.mode i.opcode (rmwOp i.mnemonic) s, exec_rmw i s ht, ?_, ?_, fun k hk => ?_,
    o.opened.keeps, r.keeps, hw, hread, hfirst, hsecond, hst, ?_, k1, hl1.keeps, ?_, hreg.1, hreg.2, ?_⟩
  · rw [cyclesBefore, cyclesOf_rmw ht]
    exact stand _ u (by omega) (by omega) (by rw [Nat.sub_self]; exact r.stands0) o.opened.keeps.resetAt
  · rw [cyclesBefore, cyclesOf_rmw ht]
    exact stand _ v (by omega) (by omega)
      (by rw [show rmwCycles i.mode - 2 - (rmwCycles i.mode - 3) = 1 by omega]; exact r.stands1) rv
  · rw [cyclesOf_rmw ht]
    refine stand _ _ (by omega) (by omega) ?_ ((dmaCycles_keeps k w).resetAt.trans rw')
    rw [show rmwCycles i.mode - 1 + k - (rmwCycles i.mode - 3) = 2 + k by omega]
    refine r.stands2 k _ ?_ ?_
    · have := cpuCyc_stands (w := w) (k := k) (fun j hj => dma_active_before hst (by omega)) (hk.trans (dmaLength_le w)) .last
        (fun c => .write (ea c) c.data) fun _ c => (rmwOp i.mnemonic m c).2
      rwa [wcyc, Nat.add_assoc] at this
    · rw [o.opened.keeps.resetAt]
      exact fun n hn => by have := hr n hn; omega
  · rw [cyclesOf_rmw ht]; omega
  · rw [hl1.cycle, xcyc, cyclesOf_rmw ht]; omega
  · rw [hl1.cpu, xk.cpu]

/-! ### The pointer of JMP indirect -/

/-- The last two cycles of JMP indirect read the two bytes of its pointer (40_addressing_modes.md R210). -/
theorem jumpInd_last {s : State} (h : undisturbed 5 s) (ptr : Word) {t : State} (he : exec (.jmpInd ptr) s = .next t) :
    oneCycle (.read ptr) (cyclesBefore 2 (.jmpInd ptr) s) (cyclesBefore 1 (.jmpInd ptr) s)
      ∧ oneCycle (.read (wordOf (hiByte ptr) (loByte ptr + 1))) (cyclesBefore 1 (.jmpInd ptr) s) t
      ∧ t.cpu.pc = wordOf (busByte (fun _ => .read (wordOf (hiByte ptr) (loByte ptr + 1))) (cyclesBefore 1 (.jmpInd ptr) s))
          (busByte (fun _ => .read ptr) (cyclesBefore 2 (.jmpInd ptr) s)) := by
  obtain ⟨o, hu, e1, e2⟩ := openAbs_spec (k := 2) h .mid (by simp) 0x6C#8 ptr
  have mo := moves_openAbs 0x6C#8 ptr .mid
  generalize hg : openAbs 0x6C#8 ptr .mid = g at *
  have hb : body (.jmpInd ptr) = fun s => cpuCyc .last (fun c => .read (wordOf c.adh (c.adl + 1)))
      (fun d c => { c with pc := wordOf d c.data }) (readData .penult eaAbs (g s)) := by
    rw [← hg]; rfl
  obtain ⟨k1, -, k3⟩ := cpuCyc_oneCycle hu .penult (fun c => .read (eaAbs c)) fun d c => { c with data := d }
  obtain ⟨hc1, hu1⟩ := cpuCyc_of_not_write hu .penult (fun c => .read (eaAbs c)) (fun d c => { c with data := d }) rfl
  change oneCycle _ _ (readData .penult eaAbs (g s)) at k1
  change (readData .penult eaAbs (g s)).cpu = _ at k3
  change undisturbed 1 (readData .penult eaAbs (g s)) at hu1
  obtain ⟨l1, -, l3⟩ := cpuCyc_oneCycle hu1 .last (fun c => .read (wordOf c.adh (c.adl + 1)))
    fun d c => { c with pc := wordOf d c.data }
  have ea : eaAbs (g s).cpu = ptr := by rw [eaAbs, e1, e2, wordOf_hiByte_loByte]
  rw [ea] at k1 k3
  have eb : wordOf (readData .penult eaAbs (g s)).cpu.adh ((readData .penult eaAbs (g s)).cpu.adl + 1)
      = wordOf (hiByte ptr) (loByte ptr + 1) := by rw [k3]; simp [e1, e2]
  rw [eb] at l1 l3
  have et : t = body (.jmpInd ptr) s := by rw [exec_body] at he; cases he; rfl
  rw [hb] at et
  have c1 : (readData .penult eaAbs (g s)).cycle = (g s).cycle + 1 := hc1.cycle
  have b2 : cyclesBefore 2 (.jmpInd ptr) s = g s := by
    refine afterCycles_of_standsAt (k := 3) (h.mono (k := 1) (by omega)).resetDue (h.before (by omega)) ?_ o.keeps.resetAt
    rw [hb]
    exact (StandsAt.done mo.toPaced (Nat.le_of_eq o.cycle) (h.before (by omega))).comp mo.toPaced
      (h := fun s => cpuCyc .last (fun c => .read (wordOf c.adh (c.adl + 1))) (fun d c => { c with pc := wordOf d c.data })
        (readData .penult eaAbs s))
      (.start ((moves_readData .penult eaAbs).then (moves_cpuCyc .last _ _)).toPaced (Nat.le_of_eq o.cycle.symm))
  have b1 : cyclesBefore 1 (.jmpInd ptr) s = readData .penult eaAbs (g s) := by
    refine afterCycles_of_standsAt (k := 4) (h.mono (k := 1) (by omega)).resetDue (h.before (by omega)) ?_
      (hc1.keeps.resetAt.trans o.keeps.resetAt)
    rw [hb]
    have ml := moves_cpuCyc .last (fun c => .read (wordOf c.adh (c.adl + 1))) fun d c => { c with pc := wordOf d c.data }
    have gc := o.cycle
    exact (StandsAt.done mo.toPaced (by omega) (h.before (by omega))).comp mo.toPaced
      (h := fun s => cpuCyc .last (fun c => .read (wordOf c.adh (c.adl + 1))) (fun d c => { c with pc := wordOf d c.data })
        (readData .penult eaAbs s))
      ((StandsAt.done (moves_readData .penult eaAbs).toPaced (by omega)
        (by rw [o.keeps.resetAt]; exact h.before (by omega))).comp (moves_readData .penult eaAbs).toPaced
        (.start ml.toPaced (by omega)))
  rw [b2, b1, et]
  refine ⟨k1, l1, ?_⟩
  rw [l3, k3]
  rfl

end Sys2Proof.Machine
end

