-- ==== Sys2Proof/Laws/PerInstr.lean ====
section
/-! SUPPORT. Facts said of each instruction as syntax, one lemma per constructor. -/

namespace Sys2Proof.Laws.RoundTrip

open Sys2Proof Sys2Proof.Machine

/-- The decode table's entry for the instruction's opcode, given its operand bytes, makes the instruction; and it takes as
many bytes as its mode says (30_encoding.md R150, R155, R158). -/
def Statement (i : Instr) : Prop :=
  decodeOp i.opcode ((encode i).getD 1 0) ((encode i).getD 2 0) = some i ∧ i.length = i.mode.bytes.toNat

theorem word {w : Word} {f : Word → Instr} : some (f (wordOf (hiByte w) (loByte w))) = some (f w) := by
  rw [wordOf_hiByte_loByte]

theorem brk : Statement .brk := ⟨rfl, rfl⟩
theorem oraIzx (b : Byte) : Statement (.oraIzx b) := ⟨show decodeOp 0x01#8 b 0 = _ from rfl, rfl⟩
theorem stp (row : StpRow) : Statement (.stp row) := by cases row <;> exact ⟨rfl, rfl⟩
theorem sloIzx (b : Byte) : Statement (.sloIzx b) := ⟨show decodeOp 0x03#8 b 0 = _ from rfl, rfl⟩
theorem nopZp04 (b : Byte) : Statement (.nopZp04 b) := ⟨show decodeOp 0x04#8 b 0 = _ from rfl, rfl⟩
theorem oraZp (b : Byte) : Statement (.oraZp b) := ⟨show decodeOp 0x05#8 b 0 = _ from rfl, rfl⟩
theorem aslZp (b : Byte) : Statement (.aslZp b) := ⟨show decodeOp 0x06#8 b 0 = _ from rfl, rfl⟩
theorem sloZp (b : Byte) : Statement (.sloZp b) := ⟨show decodeOp 0x07#8 b 0 = _ from rfl, rfl⟩
theorem php : Statement .php := ⟨rfl, rfl⟩
theorem oraImm (b : Byte) : Statement (.oraImm b) := ⟨show decodeOp 0x09#8 b 0 = _ from rfl, rfl⟩
theorem aslAcc : Statement .aslAcc := ⟨rfl, rfl⟩
theorem anc0B (b : Byte) : Statement (.anc0B b) := ⟨show decodeOp 0x0B#8 b 0 = _ from rfl, rfl⟩
theorem nopAbs0C (w : Word) : Statement (.nopAbs0C w) :=
  ⟨(show decodeOp 0x0C#8 (loByte w) (hiByte w) = some (.nopAbs0C (wordOf (hiByte w) (loByte w))) from rfl).trans
    (word (f := .nopAbs0C)), rfl⟩
theorem oraAbs (w : Word) : Statement (.oraAbs w) :=
  ⟨(show decodeOp 0x0D#8 (loByte w) (hiByte w) = some (.oraAbs (wordOf (hiByte w) (loByte w))) from rfl).trans
    (word (f := .oraAbs)), rfl⟩
theorem aslAbs (w : Word) : Statement (.aslAbs w) :=
  ⟨(show decodeOp 0x0E#8 (loByte w) (hiByte w) = some (.aslAbs (wordOf (hiByte w) (loByte w))) from rfl).trans
    (word (f := .aslAbs)), rfl⟩
theorem sloAbs (w : Word) : Statement (.sloAbs w) :=
  ⟨(show decodeOp 0x0F#8 (loByte w) (hiByte w) = some (.sloAbs (wordOf (hiByte w) (loByte w))) from rfl).trans
    (word (f := .sloAbs)), rfl⟩
theorem bpl (b : Byte) : Statement (.bpl b) := ⟨show decodeOp 0x10#8 b 0 = _ from rfl, rfl⟩
theorem oraIzy (b : Byte) : Statement (.oraIzy b) := ⟨show decodeOp 0x11#8 b 0 = _ from rfl, rfl⟩
theorem sloIzy (b : Byte) : Statement (.sloIzy b) := ⟨show decodeOp 0x13#8 b 0 = _ from rfl, rfl⟩
theorem nopZpx14 (b : Byte) : Statement (.nopZpx14 b) := ⟨show decodeOp 0x14#8 b 0 = _ from rfl, rfl⟩
theorem oraZpx (b : Byte) : Statement (.oraZpx b) := ⟨show decodeOp 0x15#8 b 0 = _ from rfl, rfl⟩
theorem aslZpx (b : Byte) : Statement (.aslZpx b) := ⟨show decodeOp 0x16#8 b 0 = _ from rfl, rfl⟩
theorem sloZpx (b : Byte) : Statement (.sloZpx b) := ⟨show decodeOp 0x17#8 b 0 = _ from rfl, rfl⟩
theorem clc : Statement .clc := ⟨rfl, rfl⟩
theorem oraAby (w : Word) : Statement (.oraAby w) :=
  ⟨(show decodeOp 0x19#8 (loByte w) (hiByte w) = some (.oraAby (wordOf (hiByte w) (loByte w))) from rfl).trans
    (word (f := .oraAby)), rfl⟩
theorem nopImplied (row : NopRow) : Statement (.nopImplied row) := by cases row <;> exact ⟨rfl, rfl⟩
theorem sloAby (w : Word) : Statement (.sloAby w) :=
  ⟨(show decodeOp 0x1B#8 (loByte w) (hiByte w) = some (.sloAby (wordOf (hiByte w) (loByte w))) from rfl).trans
    (word (f := .sloAby)), rfl⟩
theorem nopAbx1C (w : Word) : Statement (.nopAbx1C w) :=
  ⟨(show decodeOp 0x1C#8 (loByte w) (hiByte w) = some (.nopAbx1C (wordOf (hiByte w) (loByte w))) from rfl).trans
    (word (f := .nopAbx1C)), rfl⟩
theorem oraAbx (w : Word) : Statement (.oraAbx w) :=
  ⟨(show decodeOp 0x1D#8 (loByte w) (hiByte w) = some (.oraAbx (wordOf (hiByte w) (loByte w))) from rfl).trans
    (word (f := .oraAbx)), rfl⟩
theorem aslAbx (w : Word) : Statement (.aslAbx w) :=
  ⟨(show decodeOp 0x1E#8 (loByte w) (hiByte w) = some (.aslAbx (wordOf (hiByte w) (loByte w))) from rfl).trans
    (word (f := .aslAbx)), rfl⟩
theorem sloAbx (w : Word) : Statement (.sloAbx w) :=
  ⟨(show decodeOp 0x1F#8 (loByte w) (hiByte w) = some (.sloAbx (wordOf (hiByte w) (loByte w))) from rfl).trans
    (word (f := .sloAbx)), rfl⟩
theorem jsr (w : Word) : Statement (.jsr w) :=
  ⟨(show decodeOp 0x20#8 (loByte w) (hiByte w) = some (.jsr (wordOf (hiByte w) (loByte w))) from rfl).trans
    (word (f := .jsr)), rfl⟩
theorem andIzx (b : Byte) : Statement (.andIzx b) := ⟨show decodeOp 0x21#8 b 0 = _ from rfl, rfl⟩
theorem rlaIzx (b : Byte) : Statement (.rlaIzx b) := ⟨show decodeOp 0x23#8 b 0 = _ from rfl, rfl⟩
theorem bitZp (b : Byte) : Statement (.bitZp b) := ⟨show decodeOp 0x24#8 b 0 = _ from rfl, rfl⟩
theorem andZp (b : Byte) : Statement (.andZp b) := ⟨show decodeOp 0x25#8 b 0 = _ from rfl, rfl⟩
theorem rolZp (b : Byte) : Statement (.rolZp b) := ⟨show decodeOp 0x26#8 b 0 = _ from rfl, rfl⟩
theorem rlaZp (b : Byte) : Statement (.rlaZp b) := ⟨show decodeOp 0x27#8 b 0 = _ from rfl, rfl⟩
theorem plp : Statement .plp := ⟨rfl, rfl⟩
theorem andImm (b : Byte) : Statement (.andImm b) := ⟨show decodeOp 0x29#8 b 0 = _ from rfl, rfl⟩
theorem rolAcc : Statement .rolAcc := ⟨rfl, rfl⟩
theorem anc2B (b : Byte) : Statement (.anc2B b) := ⟨show decodeOp 0x2B#8 b 0 = _ from rfl, rfl⟩
theorem bitAbs (w : Word) : Statement (.bitAbs w) :=
  ⟨(show decodeOp 0x2C#8 (loByte w) (hiByte w) = some (.bitAbs (wordOf (hiByte w) (loByte w))) from rfl).trans
    (word (f := .bitAbs)), rfl⟩
theorem andAbs (w : Word) : Statement (.andAbs w) :=
  ⟨(show decodeOp 0x2D#8 (loByte w) (hiByte w) = some (.andAbs (wordOf (hiByte w) (loByte w))) from rfl).trans
    (word (f := .andAbs)), rfl⟩
theorem rolAbs (w : Word) : Statement (.rolAbs w) :=
  ⟨(show decodeOp 0x2E#8 (loByte w) (hiByte w) = some (.rolAbs (wordOf (hiByte w) (loByte w))) from rfl).trans
    (word (f := .rolAbs)), rfl⟩
theorem rlaAbs (w : Word) : Statement (.rlaAbs w) :=
  ⟨(show decodeOp 0x2F#8 (loByte w) (hiByte w) = some (.rlaAbs (wordOf (hiByte w) (loByte w))) from rfl).trans
    (word (f := .rlaAbs)), rfl⟩
theorem bmi (b : Byte) : Statement (.bmi b) := ⟨show decodeOp 0x30#8 b 0 = _ from rfl, rfl⟩
theorem andIzy (b : Byte) : Statement (.andIzy b) := ⟨show decodeOp 0x31#8 b 0 = _ from rfl, rfl⟩
theorem rlaIzy (b : Byte) : Statement (.rlaIzy b) := ⟨show decodeOp 0x33#8 b 0 = _ from rfl, rfl⟩
theorem nopZpx34 (b : Byte) : Statement (.nopZpx34 b) := ⟨show decodeOp 0x34#8 b 0 = _ from rfl, rfl⟩
theorem andZpx (b : Byte) : Statement (.andZpx b) := ⟨show decodeOp 0x35#8 b 0 = _ from rfl, rfl⟩
theorem rolZpx (b : Byte) : Statement (.rolZpx b) := ⟨show decodeOp 0x36#8 b 0 = _ from rfl, rfl⟩
theorem rlaZpx (b : Byte) : Statement (.rlaZpx b) := ⟨show decodeOp 0x37#8 b 0 = _ from rfl, rfl⟩
theorem sec : Statement .sec := ⟨rfl, rfl⟩
theorem andAby (w : Word) : Statement (.andAby w) :=
  ⟨(show decodeOp 0x39#8 (loByte w) (hiByte w) = some (.andAby (wordOf (hiByte w) (loByte w))) from rfl).trans
    (word (f := .andAby)), rfl⟩
theorem rlaAby (w : Word) : Statement (.rlaAby w) :=
  ⟨(show decodeOp 0x3B#8 (loByte w) (hiByte w) = some (.rlaAby (wordOf (hiByte w) (loByte w))) from rfl).trans
    (word (f := .rlaAby)), rfl⟩
theorem nopAbx3C (w : Word) : Statement (.nopAbx3C w) :=
  ⟨(show decodeOp 0x3C#8 (loByte w) (hiByte w) = some (.nopAbx3C (wordOf (hiByte w) (loByte w))) from rfl).trans
    (word (f := .nopAbx3C)), rfl⟩
theorem andAbx (w : Word) : Statement (.andAbx w) :=
  ⟨(show decodeOp 0x3D#8 (loByte w) (hiByte w) = some (.andAbx (wordOf (hiByte w) (loByte w))) from rfl).trans
    (word (f := .andAbx)), rfl⟩
theorem rolAbx (w : Word) : Statement (.rolAbx w) :=
  ⟨(show decodeOp 0x3E#8 (loByte w) (hiByte w) = some (.rolAbx (wordOf (hiByte w) (loByte w))) from rfl).trans
    (word (f := .rolAbx)), rfl⟩
theorem rlaAbx (w : Word) : Statement (.rlaAbx w) :=
  ⟨(show decodeOp 0x3F#8 (loByte w) (hiByte w) = some (.rlaAbx (wordOf (hiByte w) (loByte w))) from rfl).trans
    (word (f := .rlaAbx)), rfl⟩
theorem rti : Statement .rti := ⟨rfl, rfl⟩
theorem eorIzx (b : Byte) : Statement (.eorIzx b) := ⟨show decodeOp 0x41#8 b 0 = _ from rfl, rfl⟩
theorem sreIzx (b : Byte) : Statement (.sreIzx b) := ⟨show decodeOp 0x43#8 b 0 = _ from rfl, rfl⟩
theorem nopZp44 (b : Byte) : Statement (.nopZp44 b) := ⟨show decodeOp 0x44#8 b 0 = _ from rfl, rfl⟩
theorem eorZp (b : Byte) : Statement (.eorZp b) := ⟨show decodeOp 0x45#8 b 0 = _ from rfl, rfl⟩
theorem lsrZp (b : Byte) : Statement (.lsrZp b) := ⟨show decodeOp 0x46#8 b 0 = _ from rfl, rfl⟩
theorem sreZp (b : Byte) : Statement (.sreZp b) := ⟨show decodeOp 0x47#8 b 0 = _ from rfl, rfl⟩
theorem pha : Statement .pha := ⟨rfl, rfl⟩
theorem eorImm (b : Byte) : Statement (.eorImm b) := ⟨show decodeOp 0x49#8 b 0 = _ from rfl, rfl⟩
theorem lsrAcc : Statement .lsrAcc := ⟨rfl, rfl⟩
theorem alr (b : Byte) : Statement (.alr b) := ⟨show decodeOp 0x4B#8 b 0 = _ from rfl, rfl⟩
theorem jmpAbs (w : Word) : Statement (.jmpAbs w) :=
  ⟨(show decodeOp 0x4C#8 (loByte w) (hiByte w) = some (.jmpAbs (wordOf (hiByte w) (loByte w))) from rfl).trans
    (word (f := .jmpAbs)), rfl⟩
theorem eorAbs (w : Word) : Statement (.eorAbs w) :=
  ⟨(show decodeOp 0x4D#8 (loByte w) (hiByte w) = some (.eorAbs (wordOf (hiByte w) (loByte w))) from rfl).trans
    (word (f := .eorAbs)), rfl⟩
theorem lsrAbs (w : Word) : Statement (.lsrAbs w) :=
  ⟨(show decodeOp 0x4E#8 (loByte w) (hiByte w) = some (.lsrAbs (wordOf (hiByte w) (loByte w))) from rfl).trans
    (word (f := .lsrAbs)), rfl⟩
theorem sreAbs (w : Word) : Statement (.sreAbs w) :=
  ⟨(show decodeOp 0x4F#8 (loByte w) (hiByte w) = some (.sreAbs (wordOf (hiByte w) (loByte w))) from rfl).trans
    (word (f := .sreAbs)), rfl⟩
theorem bvc (b : Byte) : Statement (.bvc b) := ⟨show decodeOp 0x50#8 b 0 = _ from rfl, rfl⟩
theorem eorIzy (b : Byte) : Statement (.eorIzy b) := ⟨show decodeOp 0x51#8 b 0 = _ from rfl, rfl⟩
theorem sreIzy (b : Byte) : Statement (.sreIzy b) := ⟨show decodeOp 0x53#8 b 0 = _ from rfl, rfl⟩
theorem nopZpx54 (b : Byte) : Statement (.nopZpx54 b) := ⟨show decodeOp 0x54#8 b 0 = _ from rfl, rfl⟩
theorem eorZpx (b : Byte) : Statement (.eorZpx b) := ⟨show decodeOp 0x55#8 b 0 = _ from rfl, rfl⟩
theorem lsrZpx (b : Byte) : Statement (.lsrZpx b) := ⟨show decodeOp 0x56#8 b 0 = _ from rfl, rfl⟩
theorem sreZpx (b : Byte) : Statement (.sreZpx b) := ⟨show decodeOp 0x57#8 b 0 = _ from rfl, rfl⟩
theorem cli : Statement .cli := ⟨rfl, rfl⟩
theorem eorAby (w : Word) : Statement (.eorAby w) :=
  ⟨(show decodeOp 0x59#8 (loByte w) (hiByte w) = some (.eorAby (wordOf (hiByte w) (loByte w))) from rfl).trans
    (word (f := .eorAby)), rfl⟩
theorem sreAby (w : Word) : Statement (.sreAby w) :=
  ⟨(show decodeOp 0x5B#8 (loByte w) (hiByte w) = some (.sreAby (wordOf (hiByte w) (loByte w))) from rfl).trans
    (word (f := .sreAby)), rfl⟩
theorem nopAbx5C (w : Word) : Statement (.nopAbx5C w) :=
  ⟨(show decodeOp 0x5C#8 (loByte w) (hiByte w) = some (.nopAbx5C (wordOf (hiByte w) (loByte w))) from rfl).trans
    (word (f := .nopAbx5C)), rfl⟩
theorem eorAbx (w : Word) : Statement (.eorAbx w) :=
  ⟨(show decodeOp 0x5D#8 (loByte w) (hiByte w) = some (.eorAbx (wordOf (hiByte w) (loByte w))) from rfl).trans
    (word (f := .eorAbx)), rfl⟩
theorem lsrAbx (w : Word) : Statement (.lsrAbx w) :=
  ⟨(show decodeOp 0x5E#8 (loByte w) (hiByte w) = some (.lsrAbx (wordOf (hiByte w) (loByte w))) from rfl).trans
    (word (f := .lsrAbx)), rfl⟩
theorem sreAbx (w : Word) : Statement (.sreAbx w) :=
  ⟨(show decodeOp 0x5F#8 (loByte w) (hiByte w) = some (.sreAbx (wordOf (hiByte w) (loByte w))) from rfl).trans
    (word (f := .sreAbx)), rfl⟩
theorem rts : Statement .rts := ⟨rfl, rfl⟩
theorem adcIzx (b : Byte) : Statement (.adcIzx b) := ⟨show decodeOp 0x61#8 b 0 = _ from rfl, rfl⟩
theorem rraIzx (b : Byte) : Statement (.rraIzx b) := ⟨show decodeOp 0x63#8 b 0 = _ from rfl, rfl⟩
theorem nopZp64 (b : Byte) : Statement (.nopZp64 b) := ⟨show decodeOp 0x64#8 b 0 = _ from rfl, rfl⟩
theorem adcZp (b : Byte) : Statement (.adcZp b) := ⟨show decodeOp 0x65#8 b 0 = _ from rfl, rfl⟩
theorem rorZp (b : Byte) : Statement (.rorZp b) := ⟨show decodeOp 0x66#8 b 0 = _ from rfl, rfl⟩
theorem rraZp (b : Byte) : Statement (.rraZp b) := ⟨show decodeOp 0x67#8 b 0 = _ from rfl, rfl⟩
theorem pla : Statement .pla := ⟨rfl, rfl⟩
theorem adcImm (b : Byte) : Statement (.adcImm b) := ⟨show decodeOp 0x69#8 b 0 = _ from rfl, rfl⟩
theorem rorAcc : Statement .rorAcc := ⟨rfl, rfl⟩
theorem arr (b : Byte) : Statement (.arr b) := ⟨show decodeOp 0x6B#8 b 0 = _ from rfl, rfl⟩
theorem jmpInd (w : Word) : Statement (.jmpInd w) :=
  ⟨(show decodeOp 0x6C#8 (loByte w) (hiByte w) = some (.jmpInd (wordOf (hiByte w) (loByte w))) from rfl).trans
    (word (f := .jmpInd)), rfl⟩
theorem adcAbs (w : Word) : Statement (.adcAbs w) :=
  ⟨(show decodeOp 0x6D#8 (loByte w) (hiByte w) = some (.adcAbs (wordOf (hiByte w) (loByte w))) from rfl).trans
    (word (f := .adcAbs)), rfl⟩
theorem rorAbs (w : Word) : Statement (.rorAbs w) :=
  ⟨(show decodeOp 0x6E#8 (loByte w) (hiByte w) = some (.rorAbs (wordOf (hiByte w) (loByte w))) from rfl).trans
    (word (f := .rorAbs)), rfl⟩
theorem rraAbs (w : Word) : Statement (.rraAbs w) :=
  ⟨(show decodeOp 0x6F#8 (loByte w) (hiByte w) = some (.rraAbs (wordOf (hiByte w) (loByte w))) from rfl).trans
    (word (f := .rraAbs)), rfl⟩
theorem bvs (b : Byte) : Statement (.bvs b) := ⟨show decodeOp 0x70#8 b 0 = _ from rfl, rfl⟩
theorem adcIzy (b : Byte) : Statement (.adcIzy b) := ⟨show decodeOp 0x71#8 b 0 = _ from rfl, rfl⟩
theorem rraIzy (b : Byte) : Statement (.rraIzy b) := ⟨show decodeOp 0x73#8 b 0 = _ from rfl, rfl⟩
theorem nopZpx74 (b : Byte) : Statement (.nopZpx74 b) := ⟨show decodeOp 0x74#8 b 0 = _ from rfl, rfl⟩
theorem adcZpx (b : Byte) : Statement (.adcZpx b) := ⟨show decodeOp 0x75#8 b 0 = _ from rfl, rfl⟩
theorem rorZpx (b : Byte) : Statement (.rorZpx b) := ⟨show decodeOp 0x76#8 b 0 = _ from rfl, rfl⟩
theorem rraZpx (b : Byte) : Statement (.rraZpx b) := ⟨show decodeOp 0x77#8 b 0 = _ from rfl, rfl⟩
theorem sei : Statement .sei := ⟨rfl, rfl⟩
theorem adcAby (w : Word) : Statement (.adcAby w) :=
  ⟨(show decodeOp 0x79#8 (loByte w) (hiByte w) = some (.adcAby (wordOf (hiByte w) (loByte w))) from rfl).trans
    (word (f := .adcAby)), rfl⟩
theorem rraAby (w : Word) : Statement (.rraAby w) :=
  ⟨(show decodeOp 0x7B#8 (loByte w) (hiByte w) = some (.rraAby (wordOf (hiByte w) (loByte w))) from rfl).trans
    (word (f := .rraAby)), rfl⟩
theorem nopAbx7C (w : Word) : Statement (.nopAbx7C w) :=
  ⟨(show decodeOp 0x7C#8 (loByte w) (hiByte w) = some (.nopAbx7C (wordOf (hiByte w) (loByte w))) from rfl).trans
    (word (f := .nopAbx7C)), rfl⟩
theorem adcAbx (w : Word) : Statement (.adcAbx w) :=
  ⟨(show decodeOp 0x7D#8 (loByte w) (hiByte w) = some (.adcAbx (wordOf (hiByte w) (loByte w))) from rfl).trans
    (word (f := .adcAbx)), rfl⟩
theorem rorAbx (w : Word) : Statement (.rorAbx w) :=
  ⟨(show decodeOp 0x7E#8 (loByte w) (hiByte w) = some (.rorAbx (wordOf (hiByte w) (loByte w))) from rfl).trans
    (word (f := .rorAbx)), rfl⟩
theorem rraAbx (w : Word) : Statement (.rraAbx w) :=
  ⟨(show decodeOp 0x7F#8 (loByte w) (hiByte w) = some (.rraAbx (wordOf (hiByte w) (loByte w))) from rfl).trans
    (word (f := .rraAbx)), rfl⟩
theorem nopImm80 (b : Byte) : Statement (.nopImm80 b) := ⟨show decodeOp 0x80#8 b 0 = _ from rfl, rfl⟩
theorem staIzx (b : Byte) : Statement (.staIzx b) := ⟨show decodeOp 0x81#8 b 0 = _ from rfl, rfl⟩
theorem nopImm82 (b : Byte) : Statement (.nopImm82 b) := ⟨show decodeOp 0x82#8 b 0 = _ from rfl, rfl⟩
theorem saxIzx (b : Byte) : Statement (.saxIzx b) := ⟨show decodeOp 0x83#8 b 0 = _ from rfl, rfl⟩
theorem styZp (b : Byte) : Statement (.styZp b) := ⟨show decodeOp 0x84#8 b 0 = _ from rfl, rfl⟩
theorem staZp (b : Byte) : Statement (.staZp b) := ⟨show decodeOp 0x85#8 b 0 = _ from rfl, rfl⟩
theorem stxZp (b : Byte) : Statement (.stxZp b) := ⟨show decodeOp 0x86#8 b 0 = _ from rfl, rfl⟩
theorem saxZp (b : Byte) : Statement (.saxZp b) := ⟨show decodeOp 0x87#8 b 0 = _ from rfl, rfl⟩
theorem dey : Statement .dey := ⟨rfl, rfl⟩
theorem nopImm89 (b : Byte) : Statement (.nopImm89 b) := ⟨show decodeOp 0x89#8 b 0 = _ from rfl, rfl⟩
theorem txa : Statement .txa := ⟨rfl, rfl⟩
theorem xaa (b : Byte) : Statement (.xaa b) := ⟨show decodeOp 0x8B#8 b 0 = _ from rfl, rfl⟩
theorem styAbs (w : Word) : Statement (.styAbs w) :=
  ⟨(show decodeOp 0x8C#8 (loByte w) (hiByte w) = some (.styAbs (wordOf (hiByte w) (loByte w))) from rfl).trans
    (word (f := .styAbs)), rfl⟩
theorem staAbs (w : Word) : Statement (.staAbs w) :=
  ⟨(show decodeOp 0x8D#8 (loByte w) (hiByte w) = some (.staAbs (wordOf (hiByte w) (loByte w))) from rfl).trans
    (word (f := .staAbs)), rfl⟩
theorem stxAbs (w : Word) : Statement (.stxAbs w) :=
  ⟨(show decodeOp 0x8E#8 (loByte w) (hiByte w) = some (.stxAbs (wordOf (hiByte w) (loByte w))) from rfl).trans
    (word (f := .stxAbs)), rfl⟩
theorem saxAbs (w : Word) : Statement (.saxAbs w) :=
  ⟨(show decodeOp 0x8F#8 (loByte w) (hiByte w) = some (.saxAbs (wordOf (hiByte w) (loByte w))) from rfl).trans
    (word (f := .saxAbs)), rfl⟩
theorem bcc (b : Byte) : Statement (.bcc b) := ⟨show decodeOp 0x90#8 b 0 = _ from rfl, rfl⟩
theorem staIzy (b : Byte) : Statement (.staIzy b) := ⟨show decodeOp 0x91#8 b 0 = _ from rfl, rfl⟩
theorem ahxIzy (b : Byte) : Statement (.ahxIzy b) := ⟨show decodeOp 0x93#8 b 0 = _ from rfl, rfl⟩
theorem styZpx (b : Byte) : Statement (.styZpx b) := ⟨show decodeOp 0x94#8 b 0 = _ from rfl, rfl⟩
theorem staZpx (b : Byte) : Statement (.staZpx b) := ⟨show decodeOp 0x95#8 b 0 = _ from rfl, rfl⟩
theorem stxZpy (b : Byte) : Statement (.stxZpy b) := ⟨show decodeOp 0x96#8 b 0 = _ from rfl, rfl⟩
theorem saxZpy (b : Byte) : Statement (.saxZpy b) := ⟨show decodeOp 0x97#8 b 0 = _ from rfl, rfl⟩
theorem tya : Statement .tya := ⟨rfl, rfl⟩
theorem staAby (w : Word) : Statement (.staAby w) :=
  ⟨(show decodeOp 0x99#8 (loByte w) (hiByte w) = some (.staAby (wordOf (hiByte w) (loByte w))) from rfl).trans
    (word (f := .staAby)), rfl⟩
theorem txs : Statement .txs := ⟨rfl, rfl⟩
theorem tas (w : Word) : Statement (.tas w) :=
  ⟨(show decodeOp 0x9B#8 (loByte w) (hiByte w) = some (.tas (wordOf (hiByte w) (loByte w))) from rfl).trans
    (word (f := .tas)), rfl⟩
theorem shy (w : Word) : Statement (.shy w) :=
  ⟨(show decodeOp 0x9C#8 (loByte w) (hiByte w) = some (.shy (wordOf (hiByte w) (loByte w))) from rfl).trans
    (word (f := .shy)), rfl⟩
theorem staAbx (w : Word) : Statement (.staAbx w) :=
  ⟨(show decodeOp 0x9D#8 (loByte w) (hiByte w) = some (.staAbx (wordOf (hiByte w) (loByte w))) from rfl).trans
    (word (f := .staAbx)), rfl⟩
theorem shx (w : Word) : Statement (.shx w) :=
  ⟨(show decodeOp 0x9E#8 (loByte w) (hiByte w) = some (.shx (wordOf (hiByte w) (loByte w))) from rfl).trans
    (word (f := .shx)), rfl⟩
theorem ahxAby (w : Word) : Statement (.ahxAby w) :=
  ⟨(show decodeOp 0x9F#8 (loByte w) (hiByte w) = some (.ahxAby (wordOf (hiByte w) (loByte w))) from rfl).trans
    (word (f := .ahxAby)), rfl⟩
theorem ldyImm (b : Byte) : Statement (.ldyImm b) := ⟨show decodeOp 0xA0#8 b 0 = _ from rfl, rfl⟩
theorem ldaIzx (b : Byte) : Statement (.ldaIzx b) := ⟨show decodeOp 0xA1#8 b 0 = _ from rfl, rfl⟩
theorem ldxImm (b : Byte) : Statement (.ldxImm b) := ⟨show decodeOp 0xA2#8 b 0 = _ from rfl, rfl⟩
theorem laxIzx (b : Byte) : Statement (.laxIzx b) := ⟨show decodeOp 0xA3#8 b 0 = _ from rfl, rfl⟩
theorem ldyZp (b : Byte) : Statement (.ldyZp b) := ⟨show decodeOp 0xA4#8 b 0 = _ from rfl, rfl⟩
theorem ldaZp (b : Byte) : Statement (.ldaZp b) := ⟨show decodeOp 0xA5#8 b 0 = _ from rfl, rfl⟩
theorem ldxZp (b : Byte) : Statement (.ldxZp b) := ⟨show decodeOp 0xA6#8 b 0 = _ from rfl, rfl⟩
theorem laxZp (b : Byte) : Statement (.laxZp b) := ⟨show decodeOp 0xA7#8 b 0 = _ from rfl, rfl⟩
theorem tay : Statement .tay := ⟨rfl, rfl⟩
theorem ldaImm (b : Byte) : Statement (.ldaImm b) := ⟨show decodeOp 0xA9#8 b 0 = _ from rfl, rfl⟩
theorem tax : Statement .tax := ⟨rfl, rfl⟩
theorem lxa (b : Byte) : Statement (.lxa b) := ⟨show decodeOp 0xAB#8 b 0 = _ from rfl, rfl⟩
theorem ldyAbs (w : Word) : Statement (.ldyAbs w) :=
  ⟨(show decodeOp 0xAC#8 (loByte w) (hiByte w) = some (.ldyAbs (wordOf (hiByte w) (loByte w))) from rfl).trans
    (word (f := .ldyAbs)), rfl⟩
theorem ldaAbs (w : Word) : Statement (.ldaAbs w) :=
  ⟨(show decodeOp 0xAD#8 (loByte w) (hiByte w) = some (.ldaAbs (wordOf (hiByte w) (loByte w))) from rfl).trans
    (word (f := .ldaAbs)), rfl⟩
theorem ldxAbs (w : Word) : Statement (.ldxAbs w) :=
  ⟨(show decodeOp 0xAE#8 (loByte w) (hiByte w) = some (.ldxAbs (wordOf (hiByte w) (loByte w))) from rfl).trans
    (word (f := .ldxAbs)), rfl⟩
theorem laxAbs (w : Word) : Statement (.laxAbs w) :=
  ⟨(show decodeOp 0xAF#8 (loByte w) (hiByte w) = some (.laxAbs (wordOf (hiByte w) (loByte w))) from rfl).trans
    (word (f := .laxAbs)), rfl⟩
theorem bcs (b : Byte) : Statement (.bcs b) := ⟨show decodeOp 0xB0#8 b 0 = _ from rfl, rfl⟩
theorem ldaIzy (b : Byte) : Statement (.ldaIzy b) := ⟨show decodeOp 0xB1#8 b 0 = _ from rfl, rfl⟩
theorem laxIzy (b : Byte) : Statement (.laxIzy b) := ⟨show decodeOp 0xB3#8 b 0 = _ from rfl, rfl⟩
theorem ldyZpx (b : Byte) : Statement (.ldyZpx b) := ⟨show decodeOp 0xB4#8 b 0 = _ from rfl, rfl⟩
theorem ldaZpx (b : Byte) : Statement (.ldaZpx b) := ⟨show decodeOp 0xB5#8 b 0 = _ from rfl, rfl⟩
theorem ldxZpy (b : Byte) : Statement (.ldxZpy b) := ⟨show decodeOp 0xB6#8 b 0 = _ from rfl, rfl⟩
theorem laxZpy (b : Byte) : Statement (.laxZpy b) := ⟨show decodeOp 0xB7#8 b 0 = _ from rfl, rfl⟩
theorem clv : Statement .clv := ⟨rfl, rfl⟩
theorem ldaAby (w : Word) : Statement (.ldaAby w) :=
  ⟨(show decodeOp 0xB9#8 (loByte w) (hiByte w) = some (.ldaAby (wordOf (hiByte w) (loByte w))) from rfl).trans
    (word (f := .ldaAby)), rfl⟩
theorem tsx : Statement .tsx := ⟨rfl, rfl⟩
theorem las (w : Word) : Statement (.las w) :=
  ⟨(show decodeOp 0xBB#8 (loByte w) (hiByte w) = some (.las (wordOf (hiByte w) (loByte w))) from rfl).trans
    (word (f := .las)), rfl⟩
theorem ldyAbx (w : Word) : Statement (.ldyAbx w) :=
  ⟨(show decodeOp 0xBC#8 (loByte w) (hiByte w) = some (.ldyAbx (wordOf (hiByte w) (loByte w))) from rfl).trans
    (word (f := .ldyAbx)), rfl⟩
theorem ldaAbx (w : Word) : Statement (.ldaAbx w) :=
  ⟨(show decodeOp 0xBD#8 (loByte w) (hiByte w) = some (.ldaAbx (wordOf (hiByte w) (loByte w))) from rfl).trans
    (word (f := .ldaAbx)), rfl⟩
theorem ldxAby (w : Word) : Statement (.ldxAby w) :=
  ⟨(show decodeOp 0xBE#8 (loByte w) (hiByte w) = some (.ldxAby (wordOf (hiByte w) (loByte w))) from rfl).trans
    (word (f := .ldxAby)), rfl⟩
theorem laxAby (w : Word) : Statement (.laxAby w) :=
  ⟨(show decodeOp 0xBF#8 (loByte w) (hiByte w) = some (.laxAby (wordOf (hiByte w) (loByte w))) from rfl).trans
    (word (f := .laxAby)), rfl⟩
theorem cpyImm (b : Byte) : Statement (.cpyImm b) := ⟨show decodeOp 0xC0#8 b 0 = _ from rfl, rfl⟩
theorem cmpIzx (b : Byte) : Statement (.cmpIzx b) := ⟨show decodeOp 0xC1#8 b 0 = _ from rfl, rfl⟩
theorem nopImmC2 (b : Byte) : Statement (.nopImmC2 b) := ⟨show decodeOp 0xC2#8 b 0 = _ from rfl, rfl⟩
theorem dcpIzx (b : Byte) : Statement (.dcpIzx b) := ⟨show decodeOp 0xC3#8 b 0 = _ from rfl, rfl⟩
theorem cpyZp (b : Byte) : Statement (.cpyZp b) := ⟨show decodeOp 0xC4#8 b 0 = _ from rfl, rfl⟩
theorem cmpZp (b : Byte) : Statement (.cmpZp b) := ⟨show decodeOp 0xC5#8 b 0 = _ from rfl, rfl⟩
theorem decZp (b : Byte) : Statement (.decZp b) := ⟨show decodeOp 0xC6#8 b 0 = _ from rfl, rfl⟩
theorem dcpZp (b : Byte) : Statement (.dcpZp b) := ⟨show decodeOp 0xC7#8 b 0 = _ from rfl, rfl⟩
theorem iny : Statement .iny := ⟨rfl, rfl⟩
theorem cmpImm (b : Byte) : Statement (.cmpImm b) := ⟨show decodeOp 0xC9#8 b 0 = _ from rfl, rfl⟩
theorem dex : Statement .dex := ⟨rfl, rfl⟩
theorem axs (b : Byte) : Statement (.axs b) := ⟨show decodeOp 0xCB#8 b 0 = _ from rfl, rfl⟩
theorem cpyAbs (w : Word) : Statement (.cpyAbs w) :=
  ⟨(show decodeOp 0xCC#8 (loByte w) (hiByte w) = some (.cpyAbs (wordOf (hiByte w) (loByte w))) from rfl).trans
    (word (f := .cpyAbs)), rfl⟩
theorem cmpAbs (w : Word) : Statement (.cmpAbs w) :=
  ⟨(show decodeOp 0xCD#8 (loByte w) (hiByte w) = some (.cmpAbs (wordOf (hiByte w) (loByte w))) from rfl).trans
    (word (f := .cmpAbs)), rfl⟩
theorem decAbs (w : Word) : Statement (.decAbs w) :=
  ⟨(show decodeOp 0xCE#8 (loByte w) (hiByte w) = some (.decAbs (wordOf (hiByte w) (loByte w))) from rfl).trans
    (word (f := .decAbs)), rfl⟩
theorem dcpAbs (w : Word) : Statement (.dcpAbs w) :=
  ⟨(show decodeOp 0xCF#8 (loByte w) (hiByte w) = some (.dcpAbs (wordOf (hiByte w) (loByte w))) from rfl).trans
    (word (f := .dcpAbs)), rfl⟩
theorem bne (b : Byte) : Statement (.bne b) := ⟨show decodeOp 0xD0#8 b 0 = _ from rfl, rfl⟩
theorem cmpIzy (b : Byte) : Statement (.cmpIzy b) := ⟨show decodeOp 0xD1#8 b 0 = _ from rfl, rfl⟩
theorem dcpIzy (b : Byte) : Statement (.dcpIzy b) := ⟨show decodeOp 0xD3#8 b 0 = _ from rfl, rfl⟩
theorem nopZpxD4 (b : Byte) : Statement (.nopZpxD4 b) := ⟨show decodeOp 0xD4#8 b 0 = _ from rfl, rfl⟩
theorem cmpZpx (b : Byte) : Statement (.cmpZpx b) := ⟨show decodeOp 0xD5#8 b 0 = _ from rfl, rfl⟩
theorem decZpx (b : Byte) : Statement (.decZpx b) := ⟨show decodeOp 0xD6#8 b 0 = _ from rfl, rfl⟩
theorem dcpZpx (b : Byte) : Statement (.dcpZpx b) := ⟨show decodeOp 0xD7#8 b 0 = _ from rfl, rfl⟩
theorem cld : Statement .cld := ⟨rfl, rfl⟩
theorem cmpAby (w : Word) : Statement (.cmpAby w) :=
  ⟨(show decodeOp 0xD9#8 (loByte w) (hiByte w) = some (.cmpAby (wordOf (hiByte w) (loByte w))) from rfl).trans
    (word (f := .cmpAby)), rfl⟩
theorem dcpAby (w : Word) : Statement (.dcpAby w) :=
  ⟨(show decodeOp 0xDB#8 (loByte w) (hiByte w) = some (.dcpAby (wordOf (hiByte w) (loByte w))) from rfl).trans
    (word (f := .dcpAby)), rfl⟩
theorem nopAbxDC (w : Word) : Statement (.nopAbxDC w) :=
  ⟨(show decodeOp 0xDC#8 (loByte w) (hiByte w) = some (.nopAbxDC (wordOf (hiByte w) (loByte w))) from rfl).trans
    (word (f := .nopAbxDC)), rfl⟩
theorem cmpAbx (w : Word) : Statement (.cmpAbx w) :=
  ⟨(show decodeOp 0xDD#8 (loByte w) (hiByte w) = some (.cmpAbx (wordOf (hiByte w) (loByte w))) from rfl).trans
    (word (f := .cmpAbx)), rfl⟩
theorem decAbx (w : Word) : Statement (.decAbx w) :=
  ⟨(show decodeOp 0xDE#8 (loByte w) (hiByte w) = some (.decAbx (wordOf (hiByte w) (loByte w))) from rfl).trans
    (word (f := .decAbx)), rfl⟩
theorem dcpAbx (w : Word) : Statement (.dcpAbx w) :=
  ⟨(show decodeOp 0xDF#8 (loByte w) (hiByte w) = some (.dcpAbx (wordOf (hiByte w) (loByte w))) from rfl).trans
    (word (f := .dcpAbx)), rfl⟩
theorem cpxImm (b : Byte) : Statement (.cpxImm b) := ⟨show decodeOp 0xE0#8 b 0 = _ from rfl, rfl⟩
theorem sbcIzx (b : Byte) : Statement (.sbcIzx b) := ⟨show decodeOp 0xE1#8 b 0 = _ from rfl, rfl⟩
theorem nopImmE2 (b : Byte) : Statement (.nopImmE2 b) := ⟨show decodeOp 0xE2#8 b 0 = _ from rfl, rfl⟩
theorem isbIzx (b : Byte) : Statement (.isbIzx b) := ⟨show decodeOp 0xE3#8 b 0 = _ from rfl, rfl⟩
theorem cpxZp (b : Byte) : Statement (.cpxZp b) := ⟨show decodeOp 0xE4#8 b 0 = _ from rfl, rfl⟩
theorem sbcZp (b : Byte) : Statement (.sbcZp b) := ⟨show decodeOp 0xE5#8 b 0 = _ from rfl, rfl⟩
theorem incZp (b : Byte) : Statement (.incZp b) := ⟨show decodeOp 0xE6#8 b 0 = _ from rfl, rfl⟩
theorem isbZp (b : Byte) : Statement (.isbZp b) := ⟨show decodeOp 0xE7#8 b 0 = _ from rfl, rfl⟩
theorem inx : Statement .inx := ⟨rfl, rfl⟩
theorem sbcImm (b : Byte) : Statement (.sbcImm b) := ⟨show decodeOp 0xE9#8 b 0 = _ from rfl, rfl⟩
theorem nop : Statement .nop := ⟨rfl, rfl⟩
theorem usbc (b : Byte) : Statement (.usbc b) := ⟨show decodeOp 0xEB#8 b 0 = _ from rfl, rfl⟩
theorem cpxAbs (w : Word) : Statement (.cpxAbs w) :=
  ⟨(show decodeOp 0xEC#8 (loByte w) (hiByte w) = some (.cpxAbs (wordOf (hiByte w) (loByte w))) from rfl).trans
    (word (f := .cpxAbs)), rfl⟩
theorem sbcAbs (w : Word) : Statement (.sbcAbs w) :=
  ⟨(show decodeOp 0xED#8 (loByte w) (hiByte w) = some (.sbcAbs (wordOf (hiByte w) (loByte w))) from rfl).trans
    (word (f := .sbcAbs)), rfl⟩
theorem incAbs (w : Word) : Statement (.incAbs w) :=
  ⟨(show decodeOp 0xEE#8 (loByte w) (hiByte w) = some (.incAbs (wordOf (hiByte w) (loByte w))) from rfl).trans
    (word (f := .incAbs)), rfl⟩
theorem isbAbs (w : Word) : Statement (.isbAbs w) :=
  ⟨(show decodeOp 0xEF#8 (loByte w) (hiByte w) = some (.isbAbs (wordOf (hiByte w) (loByte w))) from rfl).trans
    (word (f := .isbAbs)), rfl⟩
theorem beq (b : Byte) : Statement (.beq b) := ⟨show decodeOp 0xF0#8 b 0 = _ from rfl, rfl⟩
theorem sbcIzy (b : Byte) : Statement (.sbcIzy b) := ⟨show decodeOp 0xF1#8 b 0 = _ from rfl, rfl⟩
theorem isbIzy (b : Byte) : Statement (.isbIzy b) := ⟨show decodeOp 0xF3#8 b 0 = _ from rfl, rfl⟩
theorem nopZpxF4 (b : Byte) : Statement (.nopZpxF4 b) := ⟨show decodeOp 0xF4#8 b 0 = _ from rfl, rfl⟩
theorem sbcZpx (b : Byte) : Statement (.sbcZpx b) := ⟨show decodeOp 0xF5#8 b 0 = _ from rfl, rfl⟩
theorem incZpx (b : Byte) : Statement (.incZpx b) := ⟨show decodeOp 0xF6#8 b 0 = _ from rfl, rfl⟩
theorem isbZpx (b : Byte) : Statement (.isbZpx b) := ⟨show decodeOp 0xF7#8 b 0 = _ from rfl, rfl⟩
theorem sed : Statement .sed := ⟨rfl, rfl⟩
theorem sbcAby (w : Word) : Statement (.sbcAby w) :=
  ⟨(show decodeOp 0xF9#8 (loByte w) (hiByte w) = some (.sbcAby (wordOf (hiByte w) (loByte w))) from rfl).trans
    (word (f := .sbcAby)), rfl⟩
theorem isbAby (w : Word) : Statement (.isbAby w) :=
  ⟨(show decodeOp 0xFB#8 (loByte w) (hiByte w) = some (.isbAby (wordOf (hiByte w) (loByte w))) from rfl).trans
    (word (f := .isbAby)), rfl⟩
theorem nopAbxFC (w : Word) : Statement (.nopAbxFC w) :=
  ⟨(show decodeOp 0xFC#8 (loByte w) (hiByte w) = some (.nopAbxFC (wordOf (hiByte w) (loByte w))) from rfl).trans
    (word (f := .nopAbxFC)), rfl⟩
theorem sbcAbx (w : Word) : Statement (.sbcAbx w) :=
  ⟨(show decodeOp 0xFD#8 (loByte w) (hiByte w) = some (.sbcAbx (wordOf (hiByte w) (loByte w))) from rfl).trans
    (word (f := .sbcAbx)), rfl⟩
theorem incAbx (w : Word) : Statement (.incAbx w) :=
  ⟨(show decodeOp 0xFE#8 (loByte w) (hiByte w) = some (.incAbx (wordOf (hiByte w) (loByte w))) from rfl).trans
    (word (f := .incAbx)), rfl⟩
theorem isbAbx (w : Word) : Statement (.isbAbx w) :=
  ⟨(show decodeOp 0xFF#8 (loByte w) (hiByte w) = some (.isbAbx (wordOf (hiByte w) (loByte w))) from rfl).trans
    (word (f := .isbAbx)), rfl⟩

end Sys2Proof.Laws.RoundTrip
end

