-- ==== Sys2Proof/Laws/Ports.lean ====
section
/-! SUPPORT. The access of a cycle when its address is a PPU port (20_memory.md R110), and a refresh of the whole open-bus
latch; and the numbers behind `palIndex` and `ntIndex` (20_memory.md R119, R126). -/

namespace Sys2Proof.Machine

theorem isPort.target {k : Nat} {a : Word} (h : isPort k a) : Machine.target a = .ppu ∧ portOf a = BitVec.ofNat 3 k := by
  obtain ⟨h1, h2, h3⟩ := h
  constructor
  · unfold Machine.target; dsimp only
    rw [if_neg (by omega), if_pos h2]
  · apply BitVec.eq_of_toNat_eq
    simp [portOf, ← h3]

theorem resetDecay_full {l : List Nat} (h : l.length = 8) : resetDecay 0xFF#8 0 l = [0,0,0,0,0,0,0,0] := by
  match l, h with
  | [a,b,c,d,e,f,g,i], _ => rfl

theorem refresh_full (p : Ppu) (d : Byte) (h : p.bus.decay.length = 8) :
    p.refresh 0xFF#8 d = { p with bus := refreshedBus d } := by
  unfold Ppu.refresh OpenBus.refresh refreshedBus
  rw [resetDecay_full h]
  have : (p.bus.latch &&& ~~~0xFF#8 ||| d &&& 0xFF#8) = d := by
    ext i hi
    have : i < 8 := hi
    interval_cases i <;> simp
  rw [this]

theorem perform_write_port {k : Nat} {a : Word} (h : isPort k a) (d : Byte) (s : State) :
    perform (.write a d) s = State.withVideo
      (Video.writePort s.cfg s.cycle (BitVec.ofNat 3 k) d s.video) { s with cpuBus := d } := by
  show { writeEffect a d s with cpuBus := d } = _
  unfold writeEffect
  rw [h.target.1, h.target.2]
  rfl

theorem perform_read_port {k : Nat} {a : Word} (h : isPort k a) (s : State) :
    perform (.read a) s = State.withVideo
      (Video.afterPort s.cfg s.cycle (BitVec.ofNat 3 k) s.video) { s with cpuBus := s.video.portValue s.cfg (BitVec.ofNat 3 k) } := by
  show { readEffect a s with cpuBus := readValue a s } = _
  unfold readEffect readValue
  rw [h.target.1, h.target.2]
  rfl

theorem renderingActive_iff (s : State) : s.ppu.renderingActive s.cfg = true ↔ renderingNow s := by
  simp [Ppu.renderingActive, PpuRegs.renderingEnabled, PpuRegs.bgEn, PpuRegs.sprEn, Position.renderingLine,
    Position.visible, renderingOn]

/-! ### The cell an address names -/

theorem palIndex_eq (a : PpuAddr) :
    palIndex a = if 16 ≤ a.toNat % 32 ∧ a.toNat % 4 = 0 then a.toNat % 32 - 16 else a.toNat % 32 := by
  have h1 : a &&& 0x1F#14 = BitVec.ofNat 14 (a.toNat % 32) := by
    apply BitVec.eq_of_toNat_eq
    rw [BitVec.toNat_and, BitVec.toNat_ofNat]
    show a.toNat &&& (2 ^ 5 - 1) = _
    rw [Nat.and_two_pow_sub_one_eq_mod]
    exact (Nat.mod_eq_of_lt (by omega)).symm
  have h4 : a.toNat % 4 = a.toNat % 32 % 4 := by omega
  unfold palIndex
  rw [h1, h4]
  have : a.toNat % 32 < 32 := Nat.mod_lt _ (by omega)
  generalize a.toNat % 32 = n at this
  interval_cases n <;> rfl

/-- The nametable that a mirroring makes of a table number. -/
def mirrorTable (m : Mirroring) (t : BitVec 2) : BitVec 2 :=
  match m with
  | .horizontal => t &&& 2#2
  | .vertical => t &&& 1#2
  | .singleLower => 0#2
  | .singleUpper => 1#2
  | .fourScreen => t

theorem mirrorTable_toNat (m : Mirroring) : ∀ t : BitVec 2, (mirrorTable m t).toNat = mirrored m t.toNat := by
  cases m <;> decide

theorem ntIndex_eq (m : Mirroring) (a : PpuAddr) :
    ntIndex m (a &&& 0x2FFF#14) = 0x400 * mirrored m (a.toNat / 0x400 % 4) + a.toNat % 0x400 := by
  have h : (mirror m (a &&& 0x2FFF#14) &&& 0x0FFF#14).toNat
      = (0#2 ++ (mirrorTable m (a.extractLsb' 10 2) ++ a.extractLsb' 0 10)).toNat := by
    apply Nat.eq_of_testBit_eq
    intro i
    rw [BitVec.testBit_toNat, BitVec.testBit_toNat]
    by_cases hi : i < 14
    · rw [BitVec.getLsbD_append, BitVec.getLsbD_append]
      cases m <;> (unfold mirror mirrorTable; interval_cases i <;> simp)
    · rw [BitVec.getLsbD_of_ge _ _ (by omega), BitVec.getLsbD_of_ge _ _ (by omega)]
  have ht : (a.extractLsb' 10 2).toNat = a.toNat / 0x400 % 4 := by simp [BitVec.extractLsb'_toNat, Nat.shiftRight_eq_div_pow]
  have ho : (a.extractLsb' 0 10).toNat = a.toNat % 0x400 := by simp [BitVec.extractLsb'_toNat]
  unfold ntIndex
  rw [h, BitVec.toNat_append, BitVec.toNat_append, mirrorTable_toNat, ho, ht]
  have : a.toNat % 0x400 < 2 ^ 10 := by omega
  rw [← Nat.shiftLeft_add_eq_or_of_lt this]
  simp [Nat.shiftLeft_eq]; omega

theorem ppuCell_nt (m : Mirroring) (a : PpuAddr) (h1 : 0x2000 ≤ a.toNat) (h2 : a.toNat < 0x3F00) :
    ppuCell m a.toNat = 0x2000 + ntIndex m (a &&& 0x2FFF#14) := by
  rw [ntIndex_eq]; unfold ppuCell
  rw [if_neg (by omega), if_pos h2]
  omega

theorem ppuCell_pal (m : Mirroring) (a : PpuAddr) (h : 0x3F00 ≤ a.toNat) :
    ppuCell m a.toNat = 0x3F00 + palIndex a := by
  rw [palIndex_eq]; unfold ppuCell
  rw [if_neg (by omega), if_neg (by omega)]

end Sys2Proof.Machine
end

