-- ==== Sys2Proof/Laws/Pixel.lean ====
section
/-! SUPPORT. What each part of a PPU dot may change, said as one equation each: the PPU after it is the PPU before it with
those fields replaced (48_ppu_pipeline.md R440). -/

namespace Sys2Proof.Machine

/-- The PPU changes in A12 at most. -/
abbrev OnlyA12 (p q : Ppu) : Prop := q = { p with a12 := q.a12 }

theorem Video.driveA12_only (c : Nat) (high : Bool) (v : Video) : OnlyA12 v.ppu (v.driveA12 c high).ppu := by
  unfold Video.driveA12
  split_ifs <;> rfl

/-- A read dot: the latch it stores, and A12. -/
theorem Video.fetch_only (c : Nat) (a : PpuAddr) (store : Byte → Ppu → Ppu) (v : Video) :
    ∃ (t : A12) (d : Byte), (v.fetch c a store).ppu = store d { v.ppu with a12 := t } := by
  exact ⟨(v.drive c a).ppu.a12, (v.drive c a).ppuRead a, congrArg (store _) (Video.driveA12_only c (a.getLsbD 12) v)⟩

/-- `PpuRead` looks at the palette and the cartridge only; mapper 0 does not see A12. -/
theorem Video.ppuRead_drive (c : Nat) (a b : PpuAddr) (v : Video) (h : v.cart.kind = .nrom) :
    (v.drive c a).ppuRead b = v.ppuRead b := by
  unfold Video.drive Video.driveA12
  split_ifs
  · rfl
  · unfold Video.ppuRead
    split_ifs
    · simp [Cart.clockIrq, Cart.note, Cart.readChr, Cart.chrCell, h]
    · simp [Cart.clockIrq, Cart.note, Cart.readNt, h]
    · rfl
  · unfold Video.ppuRead Ppu.paletteEntry
    rfl
  · rfl

/-- A read dot over mapper 0. -/
theorem Video.fetch_nrom (c : Nat) (a : PpuAddr) (store : Byte → Ppu → Ppu) (v : Video) (h : v.cart.kind = .nrom) :
    ∃ t : A12, (v.fetch c a store).ppu = store (v.ppuRead a) { v.ppu with a12 := t } := by
  refine ⟨(v.drive c a).ppu.a12, ?_⟩
  show store ((v.drive c a).ppuRead a) (v.drive c a).ppu = _
  rw [Video.ppuRead_drive c a a v h]
  exact congrArg _ (Video.driveA12_only c (a.getLsbD 12) v)

/-- `BackgroundStep()`: latches, v, A12. -/
theorem Video.backgroundStep_only (c dot : Nat) (v : Video) :
    (v.backgroundStep c dot).ppu
      = { v.ppu with
          bg := (v.backgroundStep c dot).ppu.bg
          regs := { v.ppu.regs with v := (v.backgroundStep c dot).ppu.regs.v }
          a12 := (v.backgroundStep c dot).ppu.a12 } := by
  have key : ∀ p q : Ppu, q = { p with bg := q.bg, regs := { p.regs with v := q.regs.v }, a12 := q.a12 } →
      q.scrollDot dot = { p with
        bg := (q.scrollDot dot).bg
        regs := { p.regs with v := (q.scrollDot dot).regs.v }
        a12 := (q.scrollDot dot).a12 } := by
    intro p q h
    unfold Ppu.scrollDot Ppu.mapRegs PpuRegs.scrollDot
    rw [h]
    dsimp only
    split_ifs <;> rfl
  have drive : ∀ (a : PpuAddr) (w : Video), (w.drive c a).ppu
      = { w.ppu with
          bg := (w.drive c a).ppu.bg, regs := { w.ppu.regs with v := (w.drive c a).ppu.regs.v }
          a12 := (w.drive c a).ppu.a12 } := by
    intro a w
    have h := Video.driveA12_only c (a.getLsbD 12) w
    show (w.driveA12 c (a.getLsbD 12)).ppu = _
    unfold Video.drive
    rw [h]
  have fetch : ∀ (a : PpuAddr) (f : Byte → BgPipe → BgPipe) (w : Video), (w.fetch c a fun d => Ppu.mapBg (f d)).ppu
      = { w.ppu with
          bg := (w.fetch c a fun d => Ppu.mapBg (f d)).ppu.bg
          regs := { w.ppu.regs with v := (w.fetch c a fun d => Ppu.mapBg (f d)).ppu.regs.v }
          a12 := (w.fetch c a fun d => Ppu.mapBg (f d)).ppu.a12 } := by
    intro a f w
    obtain ⟨t, d, h⟩ := Video.fetch_only c a (fun d => Ppu.mapBg (f d)) w
    rw [h]
    rfl
  have fetch' : ∀ (a : PpuAddr) (w : Video), (w.fetch c a fun _ p => p).ppu
      = { w.ppu with
          bg := (w.fetch c a fun _ p => p).ppu.bg
          regs := { w.ppu.regs with v := (w.fetch c a fun _ p => p).ppu.regs.v }
          a12 := (w.fetch c a fun _ p => p).ppu.a12 } := by
    intro a w
    obtain ⟨t, d, h⟩ := Video.fetch_only c a (fun _ p => p) w
    rw [h]
  have phase : ∀ ph, (v.bgPhase c ph).ppu
      = { v.ppu with
          bg := (v.bgPhase c ph).ppu.bg
          regs := { v.ppu.regs with v := (v.bgPhase c ph).ppu.regs.v }
          a12 := (v.bgPhase c ph).ppu.a12 } := by
    intro ph
    unfold Video.bgPhase
    split
    · exact drive _ v
    · exact fetch _ _ v
    · exact drive _ v
    · exact fetch _ _ v
    · exact drive _ v
    · exact fetch _ _ v
    · exact drive _ v
    · dsimp only [Video.mapPpu, Ppu.mapRegs]
      rw [fetch (bgPatternAddr v.ppu + 8#14) (fun d b => { b with ptHi := d }) v]
  unfold Video.backgroundStep Video.dummyNt
  dsimp only
  split_ifs
  · exact key _ _ (phase _)
  · exact key _ _ (drive _ v)
  · exact key _ _ (fetch' _ v)
  · exact key _ _ rfl

/-- `SpriteEvalStep()`: the evaluator, secondary OAM, SOV. -/
theorem Ppu.spriteEvalStep_only (dot : Nat) (p : Ppu) :
    p.spriteEvalStep dot
      = { p with
          ev := (p.spriteEvalStep dot).ev
          secOam := (p.spriteEvalStep dot).secOam
          regs := { p.regs with sov := (p.spriteEvalStep dot).regs.sov } } := by
  unfold Ppu.spriteEvalStep Ppu.evalAct Ppu.evalRead Ppu.writeSecOam
  dsimp only
  split_ifs <;> first
    | rfl
    | (split <;> rfl)

/-- `SpriteFetchStep()`: the sprite output units, OAMADDR, A12. -/
theorem Video.spriteFetchStep_only (c dot : Nat) (v : Video) :
    (v.spriteFetchStep c dot).ppu
      = { v.ppu with
          spr := (v.spriteFetchStep c dot).ppu.spr
          regs := { v.ppu.regs with oamAddr := (v.spriteFetchStep c dot).ppu.regs.oamAddr }
          a12 := (v.spriteFetchStep c dot).ppu.a12 } := by
  have drive : ∀ (a : PpuAddr) (w : Video), (w.drive c a).ppu
      = { w.ppu with spr := (w.drive c a).ppu.spr, a12 := (w.drive c a).ppu.a12 } := by
    intro a w
    have h := Video.driveA12_only c (a.getLsbD 12) w
    show (w.driveA12 c (a.getLsbD 12)).ppu = _
    unfold Video.drive
    rw [h]
  have fetch : ∀ (a : PpuAddr) (f : Byte → Ppu → Sprites) (w : Video),
      (w.fetch c a fun d p => { p with spr := f d p }).ppu
      = { w.ppu with
          spr := (w.fetch c a fun d p => { p with spr := f d p }).ppu.spr
          a12 := (w.fetch c a fun d p => { p with spr := f d p }).ppu.a12 } := by
    intro a f w
    obtain ⟨t, d, h⟩ := Video.fetch_only c a (fun d p => { p with spr := f d p }) w
    rw [h]
  have phase : ∀ (w : Video) (i q : Nat), (w.spritePhase c i q).ppu
      = { w.ppu with spr := (w.spritePhase c i q).ppu.spr, a12 := (w.spritePhase c i q).ppu.a12 } := by
    intro w i q
    unfold Video.spritePhase
    split
    · exact drive _ w
    · exact fetch _ (fun _ p => p.spr) w
    · exact drive _ w
    · exact fetch _ (fun _ p => p.spr) w
    · exact drive _ w
    · exact fetch _ (fun d p => { p.spr with fetchLo := d }) w
    · exact drive _ w
    · exact fetch _ (fun d p => { p.spr with slots := p.spr.slots.set i (p.loadedSlot i p.spr.fetchLo d) }) w
  unfold Video.spriteFetchStep
  dsimp only
  split_ifs
  · dsimp only [Video.mapPpu, Ppu.mapRegs]
    rw [phase]
    rfl
  · dsimp only [Video.mapPpu, Ppu.mapRegs]
    rw [phase]
  · rfl

/-- Shift, compose, count down: shifters, pixel, sprite counters, S0H and the delayed hit. -/
theorem Ppu.pixelStep_only (dot : Nat) (p : Ppu) :
    p.pixelStep dot
      = { p with
          bg := (p.pixelStep dot).bg
          fb := (p.pixelStep dot).fb
          spr := (p.pixelStep dot).spr
          regs := { p.regs with s0h := (p.pixelStep dot).regs.s0h }
          pos := { p.pos with s0Delayed := (p.pixelStep dot).pos.s0Delayed } } := by
  unfold Ppu.pixelStep Ppu.composePixel
  dsimp only
  split_ifs <;> rfl

/-- The flag events: VBL, S0H, SOV, the two frame flags. -/
theorem Ppu.flagEvents_only (cfg : Config) (p : Ppu) :
    p.flagEvents cfg
      = { p with
          regs := { p.regs with
            vbl := (p.flagEvents cfg).regs.vbl, s0h := (p.flagEvents cfg).regs.s0h, sov := (p.flagEvents cfg).regs.sov }
          pos := { p.pos with
            vblSuppress := (p.flagEvents cfg).pos.vblSuppress, s0Delayed := (p.flagEvents cfg).pos.s0Delayed } } := by
  unfold Ppu.flagEvents
  dsimp only
  split_ifs <;> rfl

/-- The delayed sprite-0 hit. -/
theorem Ppu.delayedHit_only (p : Ppu) :
    p.delayedHit = { p with
      regs := { p.regs with s0h := p.delayedHit.regs.s0h }, pos := { p.pos with s0Delayed := p.delayedHit.pos.s0Delayed } } := by
  unfold Ppu.delayedHit
  split_ifs <;> rfl

/-! ### The whole dot, by field -/

theorem renderingEnabled_iff (s : State) : s.ppu.regs.renderingEnabled = true ↔ renderingOn s := by
  simp [PpuRegs.renderingEnabled, PpuRegs.bgEn, PpuRegs.sprEn, renderingOn]

theorem Ppu.flagEvents_on (cfg : Config) (p : Ppu) :
    (p.flagEvents cfg).regs.renderingEnabled = p.regs.renderingEnabled := by
  rw [Ppu.flagEvents_only]; rfl

theorem Ppu.flagEvents_line (cfg : Config) (p : Ppu) : (p.flagEvents cfg).pos.renderingLine cfg = p.pos.renderingLine cfg := by
  rw [Ppu.flagEvents_only]; rfl

theorem Ppu.pixelStep_on (dot : Nat) (p : Ppu) : (p.pixelStep dot).regs.renderingEnabled = p.regs.renderingEnabled := by
  rw [Ppu.pixelStep_only]; rfl

/-- A dot on a rendering line with rendering enabled, before the delayed hit and `Advance()`. -/
theorem dot_rendering {s : State} (h : renderingNow s) :
    (ppuDot s).ppu = ((Video.fetchStep s.cycle s.ppu.pos.dot
      { ppu := (s.ppu.flagEvents s.cfg).pixelStep s.ppu.pos.dot, cart := s.cart }).ppu.delayedHit).advance s.cfg := by
  have hen := (renderingEnabled_iff s).2 h.1
  have hl : s.ppu.pos.renderingLine s.cfg = true := by
    simp only [Position.renderingLine, Position.visible, Bool.or_eq_true, Bool.and_eq_true, decide_eq_true_eq]
    exact h.2
  have hd : (s.ppu.flagEvents s.cfg).pos.dot = s.ppu.pos.dot := by rw [Ppu.flagEvents_only]
  show (Video.dot s.cfg s.cycle s.video).ppu = _
  unfold Video.dot Video.renderStep
  simp only [Video.mapPpu, State.video, Ppu.flagEvents_line, hl, if_true, Ppu.pixelStep_on, Ppu.flagEvents_on, hen, hd]

/-- The same, elsewhere. -/
theorem dot_idle {s : State} (h : s.ppu.pos.renderingLine s.cfg = false) :
    ppuDot s = { s with ppu := ((s.ppu.flagEvents s.cfg).delayedHit).advance s.cfg } := by
  show State.withVideo (Video.dot s.cfg s.cycle s.video) s = _
  unfold Video.dot
  simp only [Video.mapPpu, State.video, Ppu.flagEvents_line, h, Bool.false_eq_true, if_false]
  rfl

/-- The same, on a rendering line with rendering disabled. -/
theorem dot_disabled {s : State} (h : ¬ renderingOn s) (hl : s.ppu.pos.renderingLine s.cfg = true) :
    ppuDot s = { s with ppu := (((s.ppu.flagEvents s.cfg).pixelStep s.ppu.pos.dot).delayedHit).advance s.cfg } := by
  have hen : s.ppu.regs.renderingEnabled = false := by
    rw [← Bool.not_eq_true, renderingEnabled_iff]; exact h
  have hd : (s.ppu.flagEvents s.cfg).pos.dot = s.ppu.pos.dot := by rw [Ppu.flagEvents_only]
  show State.withVideo (Video.dot s.cfg s.cycle s.video) s = _
  unfold Video.dot Video.renderStep
  simp only [Video.mapPpu, State.video, Ppu.flagEvents_line, hl, if_true, Ppu.pixelStep_on, Ppu.flagEvents_on, hen, hd,
    Bool.false_eq_true, if_false]
  rfl

/-! ### The frame of a dot -/

/-- What no dot changes (48_ppu_pipeline.md R440). -/
theorem dot_keeps (s : State) : dotKeeps s (ppuDot s) := by
  have h := Video.dot_keeps s.cfg s.cycle s.video
  have hp : PpuDotKeeps s.ppu (ppuDot s).ppu := h.ppu
  have hc : CartSame s.cart (ppuDot s).cart := h.cart
  refine ⟨rfl, hp.bus, hp.oam, hp.palette, ?_, ?_, hc.log⟩
  · obtain ⟨⟨h1, h2, h3, h4, -, -⟩, h5, h6, -⟩ := hp
    dsimp only
    rw [← h1, ← h2, ← h3, ← h4, ← h5, ← h6]
  · obtain ⟨⟨h1, h2, h3, h4, h5, h6, h7, -⟩, h8⟩ := hc
    dsimp only
    rw [← h1, ← h2, ← h3, ← h4, ← h5, ← h6, ← h7, ← h8]

/-- `ComposePixel` runs at dots 1-256 of a visible line. -/
def Composes (p : Position) : Prop := 0 ≤ p.line ∧ 1 ≤ p.dot ∧ p.dot ≤ 256

/-- Where a dot composes no pixel, the shifters alone move. -/
theorem Ppu.pixelStep_blank {p : Ppu} (h : ¬ Composes p.pos) :
    p.pixelStep p.pos.dot = { p with bg := (p.pixelStep p.pos.dot).bg } := by
  have hn : ∀ q : Ppu, q.pos = p.pos →
      ¬ (decide (1 ≤ p.pos.dot) && decide (p.pos.dot ≤ 256) && decide (0 ≤ q.pos.line)) = true := by
    intro q hq k
    simp only [Bool.and_eq_true, decide_eq_true_eq, hq] at k
    exact h ⟨k.2, k.1.1, k.1.2⟩
  unfold Ppu.pixelStep
  dsimp only
  rw [if_neg (hn _ (by split_ifs <;> rfl))]
  split_ifs <;> rfl

/-- The sprite output units after the pixel of a dot: they count down where one is composed in rendering (R471). -/
theorem Ppu.pixelStep_spr (p : Ppu) : (p.pixelStep p.pos.dot).spr
    = if p.regs.renderingEnabled ∧ 0 ≤ p.pos.line ∧ 1 ≤ p.pos.dot ∧ p.pos.dot ≤ 256 then p.spr.decrement else p.spr := by
  by_cases h : Composes p.pos
  · have hl : (if p.regs.renderingEnabled = true then p.mapBg (.shiftAndReload p.pos.dot) else p).pos = p.pos := by
      split_ifs <;> rfl
    unfold Ppu.pixelStep
    dsimp only
    rw [hl]
    simp only [h.1, h.2.1, h.2.2, decide_true, Bool.and_self, if_true, and_true]
    split_ifs <;> rfl
  · rw [Ppu.pixelStep_blank h, if_neg fun k => h k.2]

/-- The flag events leave the sprite flags but at dot 1 of the pre-render line. -/
theorem Ppu.flagEvents_sprite (cfg : Config) (p : Ppu) :
    (p.flagEvents cfg).regs.s0h = (p.regs.s0h && !decide (p.pos.line = -1 ∧ p.pos.dot = 1))
      ∧ (p.flagEvents cfg).pos.s0Delayed = (p.pos.s0Delayed && !decide (p.pos.line = -1 ∧ p.pos.dot = 1)) := by
  have hN : cfg.region.nmiLine ≠ -1 := by cases cfg.region <;> decide
  unfold Ppu.flagEvents
  dsimp only
  by_cases h1 : p.pos.atVblankStart cfg = true
  · have h2 := h1
    simp only [Position.atVblankStart, Bool.and_eq_true, decide_eq_true_eq] at h2
    have h3 : ¬ p.pos.line = -1 := by rw [h2.1]; exact hN
    simp [h1, h3, Ppu.vblankStart]
  · simp only [h1, Bool.false_eq_true, if_false]
    by_cases h3 : p.pos.line = -1 ∧ p.pos.dot = 1
    · simp [h3, Ppu.prerenderClear]
    · rw [if_neg (by simpa using h3)]
      simp [h3]

/-- The fetches of a dot leave the sprite-0 flags, the position and the frame buffer alone. -/
theorem Video.fetchStep_pixel (c dot : Nat) (v : Video) :
    (v.fetchStep c dot).ppu.regs.s0h = v.ppu.regs.s0h ∧ (v.fetchStep c dot).ppu.pos = v.ppu.pos
      ∧ (v.fetchStep c dot).ppu.fb = v.ppu.fb := by
  unfold Video.fetchStep
  dsimp only
  rw [Video.spriteFetchStep_only]
  split_ifs
  · show (Ppu.spriteEvalStep dot (v.backgroundStep c dot).ppu).regs.s0h = _
      ∧ (Ppu.spriteEvalStep dot (v.backgroundStep c dot).ppu).pos = _
      ∧ (Ppu.spriteEvalStep dot (v.backgroundStep c dot).ppu).fb = _
    rw [Ppu.spriteEvalStep_only, Video.backgroundStep_only]
    exact ⟨rfl, rfl, rfl⟩
  · rw [Video.backgroundStep_only]
    exact ⟨rfl, rfl, rfl⟩

/-- Outside dots 257-320 they leave the sprite output units alone. -/
theorem Video.fetchStep_spr {c dot : Nat} (h : ¬ (257 ≤ dot ∧ dot ≤ 320)) (v : Video) :
    (v.fetchStep c dot).ppu.spr = v.ppu.spr := by
  unfold Video.fetchStep Video.spriteFetchStep
  dsimp only
  rw [if_neg (by simpa using h)]
  split_ifs
  · show (Ppu.spriteEvalStep dot (v.backgroundStep c dot).ppu).spr = _
    rw [Ppu.spriteEvalStep_only, Video.backgroundStep_only]
  · rw [Video.backgroundStep_only]

/-- The delayed hit on the flags it reads. -/
theorem Ppu.delayedHit_flags (p : Ppu) :
    p.delayedHit.regs.s0h = (p.regs.s0h || (p.pos.s0Delayed && decide (p.pos.dot = 2)))
      ∧ p.delayedHit.pos.s0Delayed = (p.pos.s0Delayed && !decide (p.pos.dot = 2)) := by
  unfold Ppu.delayedHit
  by_cases h : (p.pos.s0Delayed && decide (p.pos.dot = 2)) = true
  · rw [if_pos h, h]
    rw [Bool.and_eq_true] at h
    simp [h.1, h.2]
  · rw [if_neg h]
    rw [Bool.not_eq_true] at h
    refine ⟨by rw [h, Bool.or_false], ?_⟩
    cases hs : p.pos.s0Delayed
    · rfl
    · rw [hs, Bool.true_and] at h; rw [h]; rfl

theorem Ppu.advance_s0Delayed (cfg : Config) (p : Ppu) : (p.advance cfg).pos.s0Delayed = p.pos.s0Delayed := by
  unfold Ppu.advance Position.advance
  dsimp only
  split_ifs <;> rfl

theorem renderingLine_iff (s : State) : s.ppu.pos.renderingLine s.cfg = true ↔ s.ppu.pos.line = -1 ∨ visibleLine s := by
  simp [Position.renderingLine, Position.visible, visibleLine]

/-- A dot is its flag events, then on a rendering line its pixel and in rendering its fetches, whose outcome `q` keeps the
flags, the position, the frame buffer and outside dots 257-320 the sprite units of the pixel step, then the delayed hit. -/
theorem dot_parts (s : State) :
    ∃ q : Ppu, (ppuDot s).ppu = (q.delayedHit).advance s.cfg
      ∧ ∀ f r : Ppu, f = s.ppu.flagEvents s.cfg →
        r = (if s.ppu.pos.line = -1 ∨ visibleLine s then f.pixelStep s.ppu.pos.dot else f) →
        q.regs.s0h = r.regs.s0h ∧ q.pos = r.pos ∧ q.fb = r.fb
          ∧ (¬ (renderingNow s ∧ 257 ≤ s.ppu.pos.dot ∧ s.ppu.pos.dot ≤ 320) → q.spr = r.spr) := by
  by_cases hl : s.ppu.pos.line = -1 ∨ visibleLine s
  · by_cases hn : renderingOn s
    · refine ⟨_, dot_rendering ⟨hn, hl⟩, fun f r hf hr => ?_⟩
      rw [if_pos hl] at hr
      obtain ⟨h1, h2, h3⟩ := Video.fetchStep_pixel s.cycle s.ppu.pos.dot
        { ppu := (s.ppu.flagEvents s.cfg).pixelStep s.ppu.pos.dot, cart := s.cart }
      subst hf hr
      exact ⟨h1, h2, h3, fun k => Video.fetchStep_spr (fun d => k ⟨⟨hn, hl⟩, d⟩) _⟩
    · refine ⟨_, congrArg State.ppu (dot_disabled hn ((renderingLine_iff s).2 hl)), fun f r hf hr => ?_⟩
      rw [if_pos hl] at hr
      subst hf hr
      exact ⟨rfl, rfl, rfl, fun _ => rfl⟩
  · have : s.ppu.pos.renderingLine s.cfg = false := by
      rw [← Bool.not_eq_true, renderingLine_iff]; exact hl
    refine ⟨_, congrArg State.ppu (dot_idle this), fun f r hf hr => ?_⟩
    rw [if_neg hl] at hr
    subst hf hr
    exact ⟨rfl, rfl, rfl, fun _ => rfl⟩

theorem Ppu.flagEvents_same (cfg : Config) (p : Ppu) :
    (p.flagEvents cfg).pos.line = p.pos.line ∧ (p.flagEvents cfg).pos.dot = p.pos.dot ∧ (p.flagEvents cfg).spr = p.spr
      ∧ (p.flagEvents cfg).fb = p.fb := by
  rw [Ppu.flagEvents_only]; exact ⟨rfl, rfl, rfl, rfl⟩

/-- Outside dots 257-320 of rendering, the sprite output units count down at the pixels and stand elsewhere (R471). -/
theorem dot_spr {s : State} (h : ¬ (renderingNow s ∧ 257 ≤ s.ppu.pos.dot ∧ s.ppu.pos.dot ≤ 320)) :
    (ppuDot s).ppu.spr = if renderingOn s ∧ visibleLine s ∧ 1 ≤ s.ppu.pos.dot ∧ s.ppu.pos.dot ≤ 256 then
      s.ppu.spr.decrement else s.ppu.spr := by
  obtain ⟨q, e, k⟩ := dot_parts s
  obtain ⟨-, -, -, k4⟩ := k _ _ rfl rfl
  obtain ⟨f1, f2, f3, -⟩ := Ppu.flagEvents_same s.cfg s.ppu
  have hd : (ppuDot s).ppu.spr = q.spr := by rw [e]; show q.delayedHit.spr = _; rw [Ppu.delayedHit_only]
  have hp := Ppu.pixelStep_spr (s.ppu.flagEvents s.cfg)
  simp only [f1, f2, f3, Ppu.flagEvents_on, renderingEnabled_iff] at hp
  rw [hd, k4 h]
  by_cases hl : s.ppu.pos.line = -1 ∨ visibleLine s
  · rw [if_pos hl, hp]
    have : 0 ≤ s.ppu.pos.line ↔ visibleLine s := ⟨fun z => hl.resolve_left (by omega), fun z => z.1⟩
    simp only [this]
  · rw [if_neg hl, f3, if_neg fun z => hl (.inr z.2.1)]

/-- A dot that composes no pixel leaves the frame buffer alone (R479). -/
theorem dot_fb {s : State} (h : ¬ (visibleLine s ∧ 1 ≤ s.ppu.pos.dot ∧ s.ppu.pos.dot ≤ 256)) :
    (ppuDot s).ppu.fb = s.ppu.fb := by
  obtain ⟨q, e, k⟩ := dot_parts s
  obtain ⟨-, -, k3, -⟩ := k _ _ rfl rfl
  obtain ⟨f1, f2, -, f4⟩ := Ppu.flagEvents_same s.cfg s.ppu
  have hd : (ppuDot s).ppu.fb = q.fb := by rw [e]; show q.delayedHit.fb = _; rw [Ppu.delayedHit_only]
  rw [hd, k3]
  split_ifs with hl
  · have hc : ¬ Composes (s.ppu.flagEvents s.cfg).pos := by
      unfold Composes; rw [f1, f2]
      exact fun z => h ⟨hl.resolve_left (by omega), z.2⟩
    have := Ppu.pixelStep_blank hc
    rw [f2] at this
    rw [this, f4]
  · exact f4

/-- The sprite-0 flags after a dot, from those after its pixel (R440, R475). -/
theorem dot_s0 (s : State) {r : Ppu}
    (hr : r = if s.ppu.pos.line = -1 ∨ visibleLine s then (s.ppu.flagEvents s.cfg).pixelStep s.ppu.pos.dot
      else s.ppu.flagEvents s.cfg) :
    (ppuDot s).ppu.regs.s0h = (r.regs.s0h || (r.pos.s0Delayed && decide (s.ppu.pos.dot = 2)))
      ∧ (ppuDot s).ppu.pos.s0Delayed = (r.pos.s0Delayed && !decide (s.ppu.pos.dot = 2)) := by
  obtain ⟨q, e, k⟩ := dot_parts s
  obtain ⟨k1, k2, -, -⟩ := k _ _ rfl hr
  have hdot : r.pos.dot = s.ppu.pos.dot := by
    rw [hr]; split_ifs
    · rw [Ppu.pixelStep_only]; exact (Ppu.flagEvents_same s.cfg s.ppu).2.1
    · exact (Ppu.flagEvents_same s.cfg s.ppu).2.1
  rw [e, Ppu.advance_s0Delayed]
  show q.delayedHit.regs.s0h = _ ∧ _
  rw [(Ppu.delayedHit_flags q).1, (Ppu.delayedHit_flags q).2, k1, k2, hdot]
  exact ⟨rfl, rfl⟩

/-- S0H is lost at dot 1 of the pre-render line alone. -/
theorem dot_s0h_stays {s : State} (h : s.ppu.regs.s0h = true) (hn : ¬ (s.ppu.pos.line = -1 ∧ s.ppu.pos.dot = 1)) :
    (ppuDot s).ppu.regs.s0h = true := by
  rw [(dot_s0 s rfl).1]
  have hf : (s.ppu.flagEvents s.cfg).regs.s0h = true := by rw [(Ppu.flagEvents_sprite s.cfg s.ppu).1]; simp [h, hn]
  have hp : ∀ (p : Ppu) (d : Nat), p.regs.s0h = true → (p.pixelStep d).regs.s0h = true := by
    intro p d h
    unfold Ppu.pixelStep Ppu.composePixel
    dsimp only
    split_ifs <;> simp [Ppu.mapBg, h]
  split_ifs
  · simp [hp _ _ hf]
  · simp [hf]

/-- The sprite-0 flags where no pixel of rendering is composed. -/
theorem dot_s0_blank {s : State} (h : ¬ (renderingOn s ∧ visibleLine s ∧ 1 ≤ s.ppu.pos.dot ∧ s.ppu.pos.dot ≤ 256)) :
    ((ppuDot s).ppu.regs.s0h = true ↔ (s.ppu.regs.s0h = true ∧ ¬ (s.ppu.pos.line = -1 ∧ s.ppu.pos.dot = 1))
        ∨ (s.ppu.pos.s0Delayed = true ∧ s.ppu.pos.dot = 2))
      ∧ ((ppuDot s).ppu.pos.s0Delayed = true
        ↔ s.ppu.pos.s0Delayed = true ∧ s.ppu.pos.dot ≠ 2 ∧ ¬ (s.ppu.pos.line = -1 ∧ s.ppu.pos.dot = 1)) := by
  obtain ⟨f1, f2, -, -⟩ := Ppu.flagEvents_same s.cfg s.ppu
  obtain ⟨g1, g2⟩ := Ppu.flagEvents_sprite s.cfg s.ppu
  have hr : ∃ r : Ppu, r = (if s.ppu.pos.line = -1 ∨ visibleLine s then (s.ppu.flagEvents s.cfg).pixelStep s.ppu.pos.dot
      else s.ppu.flagEvents s.cfg) ∧ r.regs.s0h = (s.ppu.flagEvents s.cfg).regs.s0h
      ∧ r.pos.s0Delayed = (s.ppu.flagEvents s.cfg).pos.s0Delayed := by
    refine ⟨_, rfl, ?_⟩
    split_ifs with hl
    · by_cases hc : Composes (s.ppu.flagEvents s.cfg).pos
      · have hon : ¬ renderingOn s := by
          unfold Composes at hc; rw [f1, f2] at hc
          exact fun z => h ⟨z, hl.resolve_left (by omega), hc.2⟩
        have hen : (s.ppu.flagEvents s.cfg).regs.renderingEnabled = false := by
          rw [Ppu.flagEvents_on, ← Bool.not_eq_true, renderingEnabled_iff]; exact hon
        have hb : (s.ppu.flagEvents s.cfg).regs.bgEn = false := by
          unfold PpuRegs.renderingEnabled at hen; simp only [Bool.or_eq_false_iff] at hen; exact hen.1
        unfold Ppu.pixelStep Ppu.composePixel Ppu.sprite0Hit
        rw [hen]
        simp only [Bool.false_eq_true, if_false, hb, Bool.and_false, Bool.false_and, Bool.or_false]
        split_ifs <;> exact ⟨rfl, rfl⟩
      · have := Ppu.pixelStep_blank hc
        rw [f2] at this
        rw [this]
        exact ⟨rfl, rfl⟩
    · exact ⟨rfl, rfl⟩
  obtain ⟨r, hr, h1, h2⟩ := hr
  obtain ⟨e1, e2⟩ := dot_s0 s hr
  rw [e1, e2, h1, h2, g1, g2]
  constructor
  · by_cases a : s.ppu.pos.line = -1 ∧ s.ppu.pos.dot = 1
    · simp [a]
    · simp [a]
  · simp only [Bool.and_eq_true, Bool.not_eq_true', decide_eq_false_iff_not]
    tauto

/-! ### The pattern-low byte on its way (48_ppu_pipeline.md R466) -/

/-- Phase 5 alone fills `fetchLo`. -/
theorem Video.spritePhase_fetchLo {c i q : Nat} (h8 : q < 8) (h5 : q ≠ 5) (v : Video) :
    (v.spritePhase c i q).ppu.spr.fetchLo = v.ppu.spr.fetchLo := by
  have drive : ∀ a, (v.drive c a).ppu.spr = v.ppu.spr := fun a => by
    show (v.driveA12 c (a.getLsbD 12)).ppu.spr = _
    rw [Video.driveA12_only c (a.getLsbD 12) v]
  have fetch : ∀ a, (v.fetch c a fun _ p => p).ppu.spr = v.ppu.spr := fun a => by
    obtain ⟨t, d, h⟩ := Video.fetch_only c a (fun _ p => p) v
    rw [h]
  match q, h8, h5 with
  | 0, _, _ => exact congrArg _ (drive _)
  | 1, _, _ => exact congrArg _ (fetch _)
  | 2, _, _ => exact congrArg _ (drive _)
  | 3, _, _ => exact congrArg _ (fetch _)
  | 4, _, _ => exact congrArg _ (drive _)
  | 6, _, _ => exact congrArg _ (drive _)
  | 7, _, _ =>
    obtain ⟨t, d, h⟩ := Video.fetch_only c (v.ppu.spritePatternAddr i + 8#14) (fun d => Ppu.loadSlot i d) v
    show (v.fetch c _ _).ppu.spr.fetchLo = _
    rw [h]
    rfl

theorem Video.fetchStep_fetchLo {c dot : Nat} (h : (dot - 257) % 8 ≠ 5) (v : Video) :
    (v.fetchStep c dot).ppu.spr.fetchLo = v.ppu.spr.fetchLo := by
  have sprites : ∀ w : Video, (w.spriteFetchStep c dot).ppu.spr.fetchLo = w.ppu.spr.fetchLo := by
    intro w
    have forced : ∀ x : Video, (x.mapPpu (.mapRegs fun r => { r with oamAddr := 0 })).ppu.spr = x.ppu.spr := fun _ => rfl
    unfold Video.spriteFetchStep
    dsimp only
    split_ifs
    · rw [forced, Video.spritePhase_fetchLo (Nat.mod_lt _ (by omega)) h]; rfl
    · rw [forced, Video.spritePhase_fetchLo (Nat.mod_lt _ (by omega)) h]
    · rfl
  unfold Video.fetchStep
  dsimp only
  rw [sprites]
  split_ifs
  · show (Ppu.spriteEvalStep dot (v.backgroundStep c dot).ppu).spr.fetchLo = _
    rw [Ppu.spriteEvalStep_only, Video.backgroundStep_only]
  · rw [Video.backgroundStep_only]

/-- A dot in rendering of another phase keeps `fetchLo`. -/
theorem dot_fetchLo {s : State} (hn : renderingNow s) (h : (s.ppu.pos.dot - 257) % 8 ≠ 5) :
    (ppuDot s).ppu.spr.fetchLo = s.ppu.spr.fetchLo := by
  rw [dot_rendering hn]
  show (Ppu.delayedHit _).spr.fetchLo = _
  rw [Ppu.delayedHit_only]
  show (Video.fetchStep _ _ _).ppu.spr.fetchLo = _
  rw [Video.fetchStep_fetchLo h]
  unfold Ppu.pixelStep Ppu.composePixel
  dsimp only
  have := (Ppu.flagEvents_same s.cfg s.ppu).2.2.1
  split_ifs <;> (show (Ppu.flagEvents s.cfg s.ppu).spr.fetchLo = _; rw [this])

end Sys2Proof.Machine
end

