-- ==== Sys2Proof/Laws/Poll.lean ====
section
/-! SUPPORT. Every instruction polls in its penultimate cycle (40_addressing_modes.md R230), said once: what the cycles before
it keep of the interrupt inputs, what the poll makes of them, and that the last cycle leaves the outcome. -/

namespace Sys2Proof.Machine

/-- A primitive that writes nothing but internal RAM. -/
def Act.gentle : Act → Prop
  | .write a _ => target a = .ram
  | _ => True

/-- What is watched: `Q` of the inputs before the poll, `r` of its outcome. -/
structure Watch (Q : State → Prop) (r : Pending → Prop) : Prop where
  bus : ∀ act s, (act (beforeAccess s)).gentle → Q s → Q (busCycle act s)
  cpu : ∀ s c, c.p.i = s.cpu.p.i → Q s → Q { s with cpu := c }
  poll : ∀ s i, i = s.cpu.p.i → Q s → r (polled (beforeAccess s).arb i)

/-- The inputs with `k` undisturbed cycles to come. -/
structure Watched (Q : State → Prop) (k : Nat) (s : State) : Prop where
  free : undisturbed k s
  holds : Q s

variable {Q : State → Prop} {r : Pending → Prop}

theorem busCycle_undisturbed {k : Nat} {s : State} (h : undisturbed (k + 1) s) (act : State → Act)
    (ha : (act (beforeAccess s)).gentle) : undisturbed k (busCycle act s) := by
  cases e : act (beforeAccess s) with
  | write a d =>
    have w := writeEffect_keeps a d (beforeAccess s)
    have ht : target a = .ram := by rw [e] at ha; exact ha
    have k' := afterAccess_keeps (perform (.write a d) (beforeAccess s))
    have eq : busCycle act s = afterAccess (perform (.write a d) (beforeAccess s)) := by rw [busCycle, e]
    refine h.next ?_ ?_ (busCycle_cycle _ _)
    · rw [eq, k'.dma]
      show (writeEffect a d (beforeAccess s)).dma.active = _
      rw [w.dma]; simp [ht]
    · rw [eq, k'.resetAt]
      show (writeEffect a d (beforeAccess s)).resetAt = _
      rw [w.resetAt]; simp
  | read a =>
    have k := busCycle_keeps act s (by rw [e]; rfl)
    exact h.next (by rw [k.dma]) k.resetAt (busCycle_cycle _ _)
  | idle =>
    have k := busCycle_keeps act s (by rw [e]; rfl)
    exact h.next (by rw [k.dma]) k.resetAt (busCycle_cycle _ _)

/-- A cycle before the poll, whose update keeps the inputs. -/
theorem Watch.midOf (w : Watch Q r) {k : Nat} {s : State} (h : Watched Q (k + 1) s) (act : Cpu → Act)
    (upd : Byte → Cpu → Cpu) (ha : (act s.cpu).gentle)
    (hu : ∀ d t, t.cpu = s.cpu → Q t → Q { t with cpu := { upd d s.cpu with t := (upd d s.cpu).t + 1 } }) :
    Watched Q k (cpuCyc .mid act upd s) := by
  have hg : ((fun s => act s.cpu) (beforeAccess s)).gentle := by
    show (act (beforeAccess s).cpu).gentle
    rw [beforeAccess_cpu]; exact ha
  rw [cpuCyc, cyc_eq h.free]
  have e : endCycle .mid (State.mapCpu (upd (busByte (fun s => act s.cpu) s)) (busCycle (fun s => act s.cpu) s))
      = { busCycle (fun s => act s.cpu) s with cpu := { upd (busByte (fun s => act s.cpu) s) s.cpu with
          t := (upd (busByte (fun s => act s.cpu) s) s.cpu).t + 1 } } := by
    rw [endCycle, State.mapCpu, busCycle_cpu]
  rw [e]
  obtain ⟨f1, f2⟩ := busCycle_undisturbed h.free (fun s => act s.cpu) hg
  exact ⟨⟨f1, f2⟩, hu _ _ (busCycle_cpu _ _) (w.bus _ _ hg h.holds)⟩

/-- A cycle before the poll that leaves I alone. -/
theorem Watch.mid (w : Watch Q r) {k : Nat} {s : State} (h : Watched Q (k + 1) s) (act : Cpu → Act)
    (upd : Byte → Cpu → Cpu) (ha : (act s.cpu).gentle) (hu : ∀ d c, (upd d c).p.i = c.p.i) :
    Watched Q k (cpuCyc .mid act upd s) :=
  w.midOf h act upd ha fun d t ht hq => w.cpu t _ (by rw [ht]; exact hu d s.cpu) hq

/-- The penultimate cycle. -/
theorem Watch.penult (w : Watch Q r) {k : Nat} {s : State} (h : Watched Q (k + 1) s) (act : Cpu → Act)
    (upd : Byte → Cpu → Cpu) (hu : ∀ d c, (upd d c).p.i = c.p.i) : r (cpuCyc .penult act upd s).arb.pending := by
  obtain ⟨d, e⟩ := cpuCyc_pending h.free act upd
  rw [e]
  exact w.poll s _ (hu d s.cpu) h.holds

theorem drainDma_pending (fuel : Nat) (s : State) : (drainDma fuel s).arb.pending = s.arb.pending := by
  induction fuel generalizing s with
  | zero => rfl
  | succ fuel ih =>
    rw [drainDma]
    split_ifs
    · rw [ih]
      show (busCycle dmaAct s).arb.pending = _
      rw [busCycle_arb, beforeAccess_pending]
    · rfl

/-- The last cycle leaves what the poll found, whatever the DMA or a reset does before it. -/
theorem last_pending (act : Cpu → Act) (upd : Byte → Cpu → Cpu) (s : State) :
    (cpuCyc .last act upd s).arb.pending = s.arb.pending := by
  unfold cpuCyc cyc
  show (if resetDue (drainDma dmaFuel s) then drainDma dmaFuel s else _).arb.pending = _
  split_ifs
  · exact drainDma_pending _ _
  · show (busCycle (fun s => act s.cpu) (drainDma dmaFuel s)).arb.pending = _
    rw [busCycle_arb, beforeAccess_pending, drainDma_pending]

theorem Watch.last {s : State} (h : r s.arb.pending) (act : Cpu → Act) (upd : Byte → Cpu → Cpu) :
    r (cpuCyc .last act upd s).arb.pending := by rw [last_pending]; exact h

/-! ### The operations of the meanings, before the poll and at it -/

theorem Watch.fetchOp (w : Watch Q r) {k : Nat} {s : State} (h : Watched Q (k + 1) s) (op : Byte) :
    Watched Q k (fetchOp .mid op s) ∧ r (Machine.fetchOp .penult op s).arb.pending :=
  ⟨w.mid h atPc (fun _ c => { c with opcode := op, pc := c.pc + 1 }) trivial fun _ _ => rfl,
    w.penult h atPc (fun _ c => { c with opcode := op, pc := c.pc + 1 }) fun _ _ => rfl⟩

theorem Watch.fetchOperand (w : Watch Q r) {k : Nat} {s : State} (h : Watched Q (k + 1) s) (store : Cpu → Cpu)
    (hs : ∀ c, (store c).p.i = c.p.i) :
    Watched Q k (fetchOperand .mid store s) ∧ r (Machine.fetchOperand .penult store s).arb.pending :=
  ⟨w.mid h atPc (fun _ c => store { c with pc := c.pc + 1 }) trivial fun _ c => hs { c with pc := c.pc + 1 },
    w.penult h atPc (fun _ c => store { c with pc := c.pc + 1 }) fun _ c => hs { c with pc := c.pc + 1 }⟩

/-- A read that keeps I. -/
theorem Watch.read (w : Watch Q r) {k : Nat} {s : State} (h : Watched Q (k + 1) s) (a : Cpu → Word)
    (upd : Byte → Cpu → Cpu) (hu : ∀ d c, (upd d c).p.i = c.p.i) :
    Watched Q k (cpuCyc .mid (fun c => .read (a c)) upd s) ∧ r (cpuCyc .penult (fun c => .read (a c)) upd s).arb.pending :=
  ⟨w.mid h (fun c => .read (a c)) upd trivial hu, w.penult h (fun c => .read (a c)) upd hu⟩

theorem Watch.dummyRead (w : Watch Q r) {k : Nat} {s : State} (h : Watched Q (k + 1) s) (ea : Cpu → Word) :
    Watched Q k (dummyRead .mid ea s) ∧ r (Machine.dummyRead .penult ea s).arb.pending :=
  w.read h ea (fun _ c => c) fun _ _ => rfl

theorem Watch.readData (w : Watch Q r) {k : Nat} {s : State} (h : Watched Q (k + 1) s) (ea : Cpu → Word) :
    Watched Q k (readData .mid ea s) ∧ r (Machine.readData .penult ea s).arb.pending :=
  w.read h ea (fun d c => { c with data := d }) fun _ _ => rfl

theorem Watch.dummyPc (w : Watch Q r) {k : Nat} {s : State} (h : Watched Q (k + 1) s) :
    Watched Q k (dummyPc .mid s) ∧ r (Machine.dummyPc .penult s).arb.pending :=
  w.read h (fun c => c.pc) (fun _ c => c) fun _ _ => rfl

theorem Watch.stackUp (w : Watch Q r) {k : Nat} {s : State} (h : Watched Q (k + 1) s) :
    Watched Q k (stackUp .mid s) ∧ r (Machine.stackUp .penult s).arb.pending :=
  w.read h (fun c => stackAddr c.s) (fun _ c => { c with s := c.s + 1 }) fun _ _ => rfl

theorem Watch.push (w : Watch Q r) {k : Nat} {s : State} (h : Watched Q (k + 1) s) (v : Cpu → Byte) :
    Watched Q k (push .mid v s) ∧ r (Machine.push .penult v s).arb.pending :=
  ⟨w.mid h (fun c => .write (stackAddr c.s) (v c)) (fun _ c => { c with s := c.s - 1 }) (target_stackAddr _) fun _ _ => rfl,
    w.penult h (fun c => .write (stackAddr c.s) (v c)) (fun _ c => { c with s := c.s - 1 }) fun _ _ => rfl⟩

theorem Watch.fetchTwo (w : Watch Q r) {k : Nat} {s : State} (h : Watched Q (k + 2) s) (op : Byte) (store : Cpu → Cpu)
    (hs : ∀ c, (store c).p.i = c.p.i) : Watched Q k (Machine.fetchOperand .mid store (Machine.fetchOp .mid op s)) :=
  (w.fetchOperand (w.fetchOp h op).1 store hs).1

theorem Watch.readTail {s : State} (h : r s.arb.pending) (ea : Cpu → Word) (f : Byte → Cpu → Cpu) :
    r (readTail ea f s).arb.pending := Watch.last h (fun c => .read (ea c)) fun d c => f d { c with data := d }

theorem Watch.writeTail {s : State} (h : r s.arb.pending) (ea : Cpu → Word) (v : Cpu → Byte) :
    r (writeTail ea v s).arb.pending := Watch.last h (fun c => .write (ea c) (v c)) fun _ c => c

theorem Watch.rmwTail (w : Watch Q r) {k : Nat} {s : State} (h : Watched Q (k + 2) s) (ea : Cpu → Word)
    (op : Byte → Cpu → Byte × Cpu) : r (rmwTail ea op s).arb.pending :=
  Watch.last (w.penult (w.readData h ea).1 (fun c => .write (ea c) c.data)
      (fun _ c => { c with data := (op (Machine.readData .mid ea s).cpu.data c).1 }) fun _ _ => rfl)
    (fun c => .write (ea c) c.data) fun _ c => (op (Machine.readData .mid ea s).cpu.data c).2

theorem Watch.openZp (w : Watch Q r) {k : Nat} {s : State} (h : Watched Q (k + 2) s) (op zp : Byte) :
    Watched Q k (openZp op zp .mid s) ∧ r (Machine.openZp op zp .penult s).arb.pending :=
  w.fetchOperand (w.fetchOp h op).1 (fun c => { c with adl := zp }) fun _ => rfl

theorem Watch.openZpIndexed (w : Watch Q r) {k : Nat} {s : State} (h : Watched Q (k + 3) s) (op zp : Byte) :
    Watched Q k (openZpIndexed op zp .mid s) ∧ r (Machine.openZpIndexed op zp .penult s).arb.pending :=
  w.dummyRead (w.fetchTwo (k := k + 1) h op (fun c => { c with base := zp }) fun _ => rfl) fun c => zeroPage c.base

theorem Watch.openAbs (w : Watch Q r) {k : Nat} {s : State} (h : Watched Q (k + 3) s) (op : Byte) (addr : Word) :
    Watched Q k (openAbs op addr .mid s) ∧ r (Machine.openAbs op addr .penult s).arb.pending :=
  w.fetchOperand (w.fetchTwo (k := k + 1) h op (fun c => { c with adl := loByte addr }) fun _ => rfl)
    (fun c => { c with adh := hiByte addr }) fun _ => rfl

theorem Watch.openIzx (w : Watch Q r) {k : Nat} {s : State} (h : Watched Q (k + 5) s) (op zp : Byte) :
    Watched Q k (openIzx op zp .mid s) ∧ r (Machine.openIzx op zp .penult s).arb.pending := by
  have h2 := w.fetchTwo (k := k + 3) h op (fun c => { c with base := zp }) fun _ => rfl
  have h3 := (w.dummyRead h2 fun c => zeroPage c.base).1
  have h4 := (w.read h3 (fun c => zeroPage (c.base + c.x)) (fun d c => { c with adl := d }) fun _ _ => rfl).1
  exact w.read h4 (fun c => zeroPage (c.base + c.x + 1)) (fun d c => { c with adh := d }) fun _ _ => rfl

/-- An indexed Read whose partial address is read next: by then it has polled, or it crosses a page. -/
theorem Watch.indexedRead (w : Watch Q r) {k : Nat} {u : State} (i : Index) (f : Byte → Cpu → Cpu)
    (h : u.cpu.carryFix = true → Watched Q (k + 1) u) (h' : u.cpu.carryFix = false → r u.arb.pending) :
    r (indexedReadTail i f u).arb.pending := by
  unfold indexedReadTail
  split_ifs with hc
  · exact Watch.readTail (w.readData (h hc) (eaPartial i)).2 _ _
  · exact Watch.readTail (h' (by simpa using hc)) _ _

theorem Watch.indexedWrite (w : Watch Q r) {k : Nat} {u : State} (h : Watched Q (k + 1) u) (i : Index) (v : Cpu → Byte) :
    r (indexedWriteTail i v u).arb.pending := Watch.writeTail (w.dummyRead h (eaPartial i)).2 _ _

theorem Watch.indexedRmw (w : Watch Q r) {k : Nat} {u : State} (h : Watched Q (k + 3) u) (i : Index)
    (op : Byte → Cpu → Byte × Cpu) : r (indexedRmwTail i op u).arb.pending :=
  w.rmwTail (w.dummyRead h (eaPartial i)).1 (eaIndexed i) op

/-- The cycle that sets `carry_fix`: the poll point if no page is crossed. -/
theorem Watch.crossing (w : Watch Q r) {k : Nat} {u : State} (h : Watched Q (k + 1) u) (a : Cpu → Word)
    (store : Byte → Cpu → Cpu) (hs : ∀ d c, (store d c).p.i = c.p.i) (cross : Bool)
    (hc : ∀ d c, (store d c).carryFix = cross) :
    ((cpuCyc (beforePartial cross) (fun c => .read (a c)) store u).cpu.carryFix = true →
        Watched Q k (cpuCyc (beforePartial cross) (fun c => .read (a c)) store u))
      ∧ ((cpuCyc (beforePartial cross) (fun c => .read (a c)) store u).cpu.carryFix = false →
        r (cpuCyc (beforePartial cross) (fun c => .read (a c)) store u).arb.pending) := by
  have hf : (cpuCyc (beforePartial cross) (fun c => .read (a c)) store u).cpu.carryFix = cross := by
    rw [cpuCyc, cyc_eq h.free, endCycle_cpu]
    simp [State.mapCpu, hc]
  rw [hf]
  obtain ⟨h1, h2⟩ := w.read h a store hs
  cases cross
  · exact ⟨fun e => Bool.noConfusion e, fun _ => h2⟩
  · exact ⟨fun _ => h1, fun e => Bool.noConfusion e⟩

theorem Watch.absIndexed (w : Watch Q r) {k : Nat} {s : State} (h : Watched Q (k + 4) s) (i : Index) (op : Byte)
    (addr : Word) :
    Watched Q (k + 1) (openAbsIndexed i op addr (fun _ => .mid) s)
      ∧ ∀ f, r (indexedReadTail i f (openAbsIndexed i op addr beforePartial s)).arb.pending := by
  have h2 := w.fetchTwo (k := k + 2) h op (fun c => { c with adl := loByte addr }) fun _ => rfl
  have key : ∀ cross, Watched Q (k + 1) (Machine.fetchOperand .mid (fun c => { c with adh := hiByte addr, carryFix := cross })
      (Machine.fetchOperand .mid (fun c => { c with adl := loByte addr }) (Machine.fetchOp .mid op s))) := fun cross =>
    (w.fetchOperand h2 (fun c => { c with adh := hiByte addr, carryFix := cross }) fun _ => rfl).1
  refine ⟨key _, fun f => ?_⟩
  have kc : ∀ cross, r (indexedReadTail i f (Machine.fetchOperand (beforePartial cross)
      (fun c => { c with adh := hiByte addr, carryFix := cross })
      (Machine.fetchOperand .mid (fun c => { c with adl := loByte addr }) (Machine.fetchOp .mid op s)))).arb.pending := by
    intro cross
    obtain ⟨a, b⟩ := w.crossing h2 (fun c => c.pc)
      (fun _ c => { { c with pc := c.pc + 1 } with adh := hiByte addr, carryFix := cross }) (fun _ _ => rfl) cross
      fun _ _ => rfl
    exact w.indexedRead i f a b
  exact kc _

theorem Watch.izy (w : Watch Q r) {k : Nat} {s : State} (h : Watched Q (k + 5) s) (op zp : Byte) :
    Watched Q (k + 1) (openIzy op zp (fun _ => .mid) s)
      ∧ ∀ f, r (indexedReadTail .y f (openIzy op zp beforePartial s)).arb.pending := by
  have h2 := w.fetchTwo (k := k + 3) h op (fun c => { c with base := zp }) fun _ => rfl
  have h3 := (w.read h2 (fun c => zeroPage c.base) (fun d c => { c with adl := d }) fun _ _ => rfl).1
  have key : ∀ cross, Watched Q (k + 1) (cpuCyc .mid (fun c => .read (zeroPage (c.base + 1)))
      (fun d c => { c with adh := d, carryFix := cross })
      (cpuCyc .mid (fun c => .read (zeroPage c.base)) (fun d c => { c with adl := d })
        (Machine.fetchOperand .mid (fun c => { c with base := zp }) (Machine.fetchOp .mid op s)))) := fun cross =>
    (w.read h3 (fun c => zeroPage (c.base + 1)) (fun d c => { c with adh := d, carryFix := cross }) fun _ _ => rfl).1
  refine ⟨key _, fun f => ?_⟩
  have kc : ∀ cross, r (indexedReadTail .y f (cpuCyc (beforePartial cross) (fun c => .read (zeroPage (c.base + 1)))
      (fun d c => { c with adh := d, carryFix := cross })
      (cpuCyc .mid (fun c => .read (zeroPage c.base)) (fun d c => { c with adl := d })
        (Machine.fetchOperand .mid (fun c => { c with base := zp }) (Machine.fetchOp .mid op s))))).arb.pending := by
    intro cross
    obtain ⟨a, b⟩ := w.crossing h3 (fun c => zeroPage (c.base + 1)) (fun d c => { c with adh := d, carryFix := cross })
      (fun _ _ => rfl) cross fun _ _ => rfl
    exact w.indexedRead .y f a b
  exact kc _

theorem Watch.readMode (w : Watch Q r) {s : State} (h : Watched Q 8 s) (m : Mode) (op : Byte) (f : Byte → Cpu → Cpu)
    (hm : (∃ imm, m = .immediate imm) ∨ ∃ a, m.ea s = some a) : r (readMode m op f s).arb.pending := by
  cases m with
  | immediate imm => exact Watch.last (w.fetchOp (k := 7) h op).2 atPc fun _ c => f imm { { c with pc := c.pc + 1 } with data := imm }
  | zeroPage zp => exact Watch.readTail (w.openZp (k := 6) h op zp).2 _ _
  | zeroPageX zp => exact Watch.readTail (w.openZpIndexed (k := 5) h op zp).2 _ _
  | zeroPageY zp => exact Watch.readTail (w.openZpIndexed (k := 5) h op zp).2 _ _
  | absolute addr => exact Watch.readTail (w.openAbs (k := 5) h op addr).2 _ _
  | absoluteX addr => exact (w.absIndexed (k := 4) h .x op addr).2 f
  | absoluteY addr => exact (w.absIndexed (k := 4) h .y op addr).2 f
  | indirectX zp => exact Watch.readTail (w.openIzx (k := 3) h op zp).2 _ _
  | indirectY zp => exact (w.izy (k := 3) h op zp).2 f
  | _ => simp [Mode.ea] at hm

theorem Watch.writeMode (w : Watch Q r) {s : State} (h : Watched Q 8 s) (m : Mode) (op : Byte) (v : Cpu → Byte)
    (hm : ∃ a, m.ea s = some a) : r (writeMode m op v s).arb.pending := by
  cases m with
  | zeroPage zp => exact Watch.writeTail (w.openZp (k := 6) h op zp).2 _ _
  | zeroPageX zp => exact Watch.writeTail (w.openZpIndexed (k := 5) h op zp).2 _ _
  | zeroPageY zp => exact Watch.writeTail (w.openZpIndexed (k := 5) h op zp).2 _ _
  | absolute addr => exact Watch.writeTail (w.openAbs (k := 5) h op addr).2 _ _
  | absoluteX addr => exact w.indexedWrite (w.absIndexed (k := 4) h .x op addr).1 _ _
  | absoluteY addr => exact w.indexedWrite (w.absIndexed (k := 4) h .y op addr).1 _ _
  | indirectX zp => exact Watch.writeTail (w.openIzx (k := 3) h op zp).2 _ _
  | indirectY zp => exact w.indexedWrite (w.izy (k := 3) h op zp).1 _ _
  | _ => simp [Mode.ea] at hm

theorem Watch.rmwMode (w : Watch Q r) {s : State} (h : Watched Q 8 s) (m : Mode) (op : Byte) (f : Byte → Cpu → Byte × Cpu)
    (hm : ∃ a, m.ea s = some a) : r (rmwMode m op f s).arb.pending := by
  cases m with
  | zeroPage zp => exact w.rmwTail (k := 4) (w.openZp (k := 6) h op zp).1 _ _
  | zeroPageX zp => exact w.rmwTail (k := 3) (w.openZpIndexed (k := 5) h op zp).1 _ _
  | zeroPageY zp => exact w.rmwTail (k := 3) (w.openZpIndexed (k := 5) h op zp).1 _ _
  | absolute addr => exact w.rmwTail (k := 3) (w.openAbs (k := 5) h op addr).1 _ _
  | absoluteX addr => exact w.indexedRmw (k := 2) (w.absIndexed (k := 4) h .x op addr).1 _ _
  | absoluteY addr => exact w.indexedRmw (k := 2) (w.absIndexed (k := 4) h .y op addr).1 _ _
  | indirectX zp => exact w.rmwTail (k := 1) (w.openIzx (k := 3) h op zp).1 _ _
  | indirectY zp => exact w.indexedRmw (k := 1) (w.izy (k := 3) h op zp).1 _ _
  | _ => simp [Mode.ea] at hm

theorem Watch.relative (w : Watch Q r) {s : State} (h : Watched Q 8 s) (op off : Byte) (taken : Flags → Bool) :
    r (relative op off taken s).arb.pending := by
  obtain ⟨h1, h2⟩ := w.fetchOp (k := 7) h op
  unfold Machine.relative
  dsimp only
  cases taken s.cpu.p
  · exact Watch.last h2 atPc fun _ c => { { c with pc := c.pc + 1 } with data := off }
  · simp only [branchT1, if_true]
    generalize Machine.fetchOp .mid op s = u at h1
    obtain ⟨h3, h4⟩ := w.fetchOperand (k := 6) h1 (fun c => { c with data := off }) fun _ => rfl
    cases !samePage (branchTarget (u.cpu.pc + 1) off) (u.cpu.pc + 1)
    · exact Watch.last h4 (fun _ => .idle) fun _ c => { c with
        target := branchTarget (u.cpu.pc + 1) off, pc := branchTarget (u.cpu.pc + 1) off }
    · exact Watch.last (w.penult (k := 5) h3 (fun _ => .idle) (fun _ c => { c with target := branchTarget (u.cpu.pc + 1) off })
        fun _ _ => rfl) (fun _ => .idle) fun _ c => { c with pc := c.target }

/-- The instructions that poll with I as they find it: all but BRK, STP and the unstable ones, which do not poll, and RTI. -/
def pollsFirst (i : Instr) : Prop := i.mnemonic ∉ [.brk, .stp, .xaa, .ahx, .tas, .shy, .shx, .lxa, .las, .rti]

theorem Watch.exec (w : Watch Q r) {s t : State} (h : Watched Q 8 s) (i : Instr) (hi : pollsFirst i)
    (he : exec i s = .next t) : r t.arb.pending := by
  have fin : ∀ u, Machine.exec i s = .next u → r u.arb.pending → r t.arb.pending := by
    intro u e hu
    rw [he] at e
    cases e
    exact hu
  have pushReg : ∀ op v, r (pushReg op v s).arb.pending := fun op v =>
    Watch.last (w.dummyPc (k := 6) (w.fetchOp (k := 7) h op).1).2 (fun c => .write (stackAddr c.s) (v c))
      fun _ c => { c with s := c.s - 1 }
  have pullReg : ∀ op f, r (pullReg op f s).arb.pending := fun op f =>
    Watch.last (w.stackUp (k := 5) (w.dummyPc (k := 6) (w.fetchOp (k := 7) h op).1).1).2 atStack f
  cases exec_runs i s with
  | read ht e => exact fin _ e (w.readMode h _ _ _ (ea_read ht s))
  | write ht e => exact fin _ e (w.writeMode h _ _ _ (ea_write ht s))
  | rmw ht e => exact fin _ e (w.rmwMode h _ _ _ (ea_rmw ht s))
  | implied _ _ e => exact fin _ e (Watch.last (w.fetchOp (k := 7) h _).2 atPc fun _ c => impliedOp i.mnemonic c)
  | branch _ _ _ e => exact fin _ e (w.relative h _ _ _)
  | unstable ht e =>
    refine absurd ?_ hi
    revert ht
    cases i <;> first | (intro h; exact Tag.noConfusion h) | (intro; exact List.contains_iff_mem.1 rfl)
  | stp row h e => subst h; exact absurd (List.contains_iff_mem.1 rfl) hi
  | brk h e => subst h; exact absurd (List.contains_iff_mem.1 rfl) hi
  | rti h e => subst h; exact absurd (List.contains_iff_mem.1 rfl) hi
  | php _ e => exact fin _ e (pushReg _ _)
  | pha _ e => exact fin _ e (pushReg _ _)
  | plp _ e => exact fin _ e (pullReg _ _)
  | pla _ e => exact fin _ e (pullReg _ _)
  | rts _ e =>
    have h3 := (w.stackUp (k := 5) (w.dummyPc (k := 6) (w.fetchOp (k := 7) h 0x60#8).1).1).1
    have h4 := (w.read h3 (fun c => stackAddr c.s) (fun d c => { c with adl := d, s := c.s + 1 }) fun _ _ => rfl).1
    have h5 := (w.read h4 (fun c => stackAddr c.s) (fun d c => { c with adh := d, pc := wordOf d c.adl }) fun _ _ => rfl).2
    exact fin _ e (Watch.last h5 atPc fun _ c => { c with pc := c.pc + 1 })
  | jsr a _ e =>
    have h2 := w.fetchTwo (k := 6) h 0x20#8 (fun c => { c with adl := loByte a }) fun _ => rfl
    have h3 := (w.read h2 (fun c => stackAddr c.s) (fun _ c => c) fun _ _ => rfl).1
    have h4 := (w.push (w.push h3 fun c => hiByte c.pc).1 fun c => loByte c.pc).2
    exact fin _ e (Watch.last h4 atPc fun _ c => { c with adh := hiByte a, pc := wordOf (hiByte a) c.adl })
  | jmpAbs a _ e =>
    have h2 := (w.fetchOperand (w.fetchOp (k := 7) h 0x4C#8).1 (fun c => { c with adl := loByte a }) fun _ => rfl).2
    exact fin _ e (Watch.last h2 atPc fun _ c => { c with adh := hiByte a, pc := wordOf (hiByte a) c.adl })
  | jmpInd a _ e =>
    exact fin _ e (Watch.last (w.readData (w.openAbs (k := 5) h 0x6C#8 a).1 eaAbs).2
      (fun c => .read (wordOf c.adh (c.adl + 1))) fun d c => { c with pc := wordOf d c.data })

/-- RTI, where what is watched does not depend on I. -/
theorem Watch.rti (w : Watch Q r) (any : ∀ s c, Q s → Q { s with cpu := c }) (anyPoll : ∀ s i, Q s → r (polled (beforeAccess s).arb i))
    {s t : State} (h : Watched Q 8 s) (he : Machine.exec .rti s = .next t) : r t.arb.pending := by
  have e : t = returnInt 0x40#8 s := by cases he; rfl
  rw [e]
  have h3 := (w.stackUp (k := 5) (w.dummyPc (k := 6) (w.fetchOp (k := 7) h 0x40#8).1).1).1
  have h4 := w.midOf (k := 4) h3 atStack (fun d c => { c with p := .ofByte d, s := c.s + 1 }) trivial fun d t _ hq => any t _ hq
  obtain ⟨d, k⟩ := cpuCyc_pending (k := 3) h4.free atStack fun d c => { c with adl := d, s := c.s + 1 }
  have : r (cpuCyc .penult atStack (fun d c => { c with adl := d, s := c.s + 1 }) (cpuCyc .mid atStack
      (fun d c => { c with p := .ofByte d, s := c.s + 1 }) (Machine.stackUp .mid (Machine.dummyPc .mid
        (Machine.fetchOp .mid 0x40#8 s))))).arb.pending := by
    rw [k]; exact anyPoll _ _ h4.holds
  exact Watch.last this atStack fun d c => { c with adh := d, pc := wordOf d c.adl }

/-! ### The interrupt inputs -/

/-- An NMI latched. -/
theorem watch_latched : Watch (fun s => s.arb.nmiLatch = true) (· = .nmi) where
  bus := fun act s _ h => by rw [busCycle_arb]; exact (beforeAccess_latch s).1 h
  cpu := fun _ _ _ h => h
  poll := fun s i _ h => by simp [polled, (beforeAccess_latch s).1 h]

/-- I set. -/
theorem watch_masked : Watch (fun s => s.cpu.p.i = true) (· ≠ .irq) where
  bus := fun act s _ h => by rw [busCycle_cpu]; exact h
  cpu := fun _ _ e h => e.trans h
  poll := fun s i e h => by rw [e, h]; exact polled_masked _

theorem busCycle_apuIrq (act : State → Act) (s : State) : (busCycle act s).apuIrq = (beforeAccess s).apuIrq := by
  have e1 : ∀ (a : Act) (t : State), (perform a t).apuIrq = t.apuIrq := by
    intro a t
    cases a <;> simp only [perform]
    · unfold readEffect; split <;> rfl
    · unfold writeEffect; split <;> rfl
  have e2 : ∀ t : State, (afterAccess t).apuIrq = t.apuIrq := by
    intro t
    unfold afterAccess dotsAfter
    split_ifs <;> rfl
  exact (e2 _).trans (e1 _ _)

/-- The IRQ line held high, and I clear. -/
theorem watch_held : Watch (fun s => irqHeld s ∧ s.cpu.p.i = false) (· ≠ .none) where
  bus := fun act s _ h => ⟨by rw [irqHeld, busCycle_apuIrq]; exact (beforeAccess_irqHeld h.1).2, by rw [busCycle_cpu]; exact h.2⟩
  cpu := fun _ _ e h => ⟨h.1, e.trans h.2⟩
  poll := fun s i e h => by rw [e, h.2]; exact polled_irq (beforeAccess_irqHeld h.1).1

/-- Nothing to be recognised: no NMI latched or enabled, the IRQ line low. -/
def unasked (s : State) : Prop := s.arb.nmiLatch = false ∧ nmiOff s ∧ irqLow s

theorem cart_of_dots (s : State) : CartSame s.cart (ppuDot s).cart := (Video.dot_keeps s.cfg s.cycle s.video).cart

theorem beforeAccess_irqLow {s : State} (h : irqLow s) :
    (beforeAccess s).arb.irqSample = false ∧ irqLow (beforeAccess s) := by
  have k : CartSame s.cart (ppuDot (ppuDot (tickDevices s))).cart := (cart_of_dots (tickDevices s)).trans (cart_of_dots _)
  have ha : (ppuDot (ppuDot (tickDevices s))).apuIrq = .low := h.1
  have e1 : (beforeAccess s).apuIrq = .low := by
    show (ppuDot (ppuDot (tickDevices s))).apuIrq.advance _ = _
    rw [ha]; rfl
  have e2 : (beforeAccess s).cart.kind = .nrom ∨ (beforeAccess s).cart.irq = .low := by
    refine h.2.imp (fun e => k.kind.trans e) fun e => ?_
    show (ppuDot (ppuDot (tickDevices s))).cart.irq.advance _ = _
    rw [k.irq, e]; rfl
  refine ⟨?_, e1, e2⟩
  have : (beforeAccess s).arb.irqSample = ((beforeAccess s).apuIrq.level || (beforeAccess s).cart.irqOut) := rfl
  rw [this, e1, Cart.irqOut]
  rcases e2 with e | e <;> rw [e]
  · rfl
  · cases (beforeAccess s).cart.kind <;> rfl

theorem writeEffect_cart_ram {a : Word} (h : target a = .ram) (d : Byte) (s : State) :
    writeEffect a d s = { s with ram := Memory.write s.ram (ramIndex a) d } := by
  unfold writeEffect; rw [h]

theorem perform_gentle_cart {act : Act} (h : act.gentle) (s : State) :
    CartSame s.cart (perform act s).cart ∧ (perform act s).ppu.regs.ctrl = s.ppu.regs.ctrl := by
  cases act with
  | read a =>
    refine ⟨?_, (readEffect_keeps a s).ppu.ctrl⟩
    show CartSame s.cart (readEffect a s).cart
    unfold readEffect
    split
    · exact .refl _
    · exact (Video.afterPort_keeps _ _ _ s.video).2
    · exact .refl _
    · exact .refl _
    · exact .refl _
    · exact .refl _
    · exact .refl _
    · exact Cart.note_keeps _ _
  | write a d =>
    have e : perform (.write a d) s = { writeEffect a d s with cpuBus := d } := rfl
    rw [e, writeEffect_cart_ram h]
    exact ⟨.refl _, rfl⟩
  | idle => exact ⟨.refl _, rfl⟩

theorem watch_unasked : Watch unasked (· = .none) where
  bus := by
    rintro act s hg ⟨h1, h2, h3⟩
    have ha := perform_gentle_cart hg (beforeAccess s)
    obtain ⟨-, k1, k2⟩ := beforeAccess_irqLow h3
    have kd : CartSame (perform (act (beforeAccess s)) (beforeAccess s)).cart (busCycle act s).cart := by
      show CartSame _ (dotsAfter _).cart
      unfold dotsAfter
      split_ifs
      · exact (cart_of_dots _).trans (cart_of_dots _)
      · exact cart_of_dots _
    refine ⟨?_, ?_, ?_, ?_⟩
    · rw [busCycle_arb, (beforeAccess_latch s).2 h2]; exact h1
    · have e : (busCycle act s).ppu.regs.ctrl = s.ppu.regs.ctrl :=
        (afterAccess_keeps _).ppu.ctrl.trans (ha.2.trans (beforeAccess_keeps s).ppu.ctrl)
      unfold nmiOff at *
      rw [e]; exact h2
    · rw [busCycle_apuIrq]; exact k1
    · exact k2.imp (fun e => (kd.kind.trans ha.1.kind).trans e) fun e => (kd.irq.trans ha.1.irq).trans e
  cpu := fun _ _ _ h => h
  poll := by
    rintro s i - ⟨h1, h2, h3⟩
    have e : (beforeAccess s).arb.nmiLatch = false := ((beforeAccess_latch s).2 h2).trans h1
    simp [polled, e, (beforeAccess_irqLow h3).1]

end Sys2Proof.Machine
end

