-- ==== Sys2Proof/Laws/Stable.lean ====
section
/-! SUPPORT. One induction over everything a step can do: a property that a bus cycle, a DMA cycle and a warm reset keep, and
that says nothing of the CPU and the arbitrator, is kept by every instruction and by every step. -/

namespace Sys2Proof.Machine

/-- Kept by whatever a step is made of. -/
structure Stable (P : State → Prop) : Prop where
  cpu : ∀ s c, P s → P { s with cpu := c }
  arb : ∀ s a, P s → P { s with arb := a }
  bus : ∀ act s, P s → P (busCycle act s)
  dma : ∀ s, P s → s.dma.active = true → P (dmaCycle s)
  warm : ∀ s, P s → P (warmReset s)

variable {P : State → Prop}

theorem Stable.both (h : Stable P) (s : State) (c : Cpu) (a : Arbiter) (hs : P s) : P { s with cpu := c, arb := a } :=
  h.arb { s with cpu := c } a (h.cpu s c hs)

theorem Stable.drain (h : Stable P) (fuel : Nat) {s : State} (hs : P s) : P (drainDma fuel s) := by
  induction fuel generalizing s with
  | zero => exact hs
  | succ fuel ih =>
    rw [drainDma]
    split_ifs with hc
    · simp only [Bool.and_eq_true] at hc
      exact ih (h.dma s hs hc.1)
    · exact hs

theorem Stable.endCycle (h : Stable P) (kind : CycleKind) {s : State} (hs : P s) : P (endCycle kind s) := by
  cases kind
  · exact h.cpu _ _ hs
  · exact h.arb _ _ (h.cpu _ _ hs)
  · exact h.cpu _ _ hs

theorem Stable.cyc (h : Stable P) (kind : CycleKind) (act : State → Act) (upd : Byte → State → State)
    (hu : ∀ d s, P s → P (upd d s)) {s : State} (hs : P s) : P (cyc kind act upd s) := by
  have hd := h.drain dmaFuel hs
  unfold Machine.cyc
  dsimp only
  split_ifs
  · exact hd
  · exact h.endCycle _ (hu _ _ (h.bus _ _ hd))

theorem Stable.cpuCyc (h : Stable P) (kind : CycleKind) (act : Cpu → Act) (upd : Byte → Cpu → Cpu) {s : State} (hs : P s) :
    P (cpuCyc kind act upd s) :=
  h.cyc kind _ _ (fun _ _ k => h.cpu _ _ k) hs

/-! ### The operations of the meanings -/

theorem Stable.fetchOp (h : Stable P) (kind : CycleKind) (op : Byte) {s : State} (hs : P s) : P (fetchOp kind op s) :=
  h.cpuCyc _ _ _ hs

theorem Stable.fetchOperand (h : Stable P) (kind : CycleKind) (store : Cpu → Cpu) {s : State} (hs : P s) :
    P (fetchOperand kind store s) := h.cpuCyc _ _ _ hs

theorem Stable.dummyRead (h : Stable P) (kind : CycleKind) (ea : Cpu → Word) {s : State} (hs : P s) :
    P (dummyRead kind ea s) := h.cpuCyc _ _ _ hs

theorem Stable.readData (h : Stable P) (kind : CycleKind) (ea : Cpu → Word) {s : State} (hs : P s) :
    P (readData kind ea s) := h.cpuCyc _ _ _ hs

theorem Stable.readTail (h : Stable P) (ea : Cpu → Word) (f : Byte → Cpu → Cpu) {s : State} (hs : P s) :
    P (readTail ea f s) := h.cpuCyc _ _ _ hs

theorem Stable.writeTail (h : Stable P) (ea : Cpu → Word) (v : Cpu → Byte) {s : State} (hs : P s) :
    P (writeTail ea v s) := h.cpuCyc _ _ _ hs

theorem Stable.rmwTail (h : Stable P) (ea : Cpu → Word) (op : Byte → Cpu → Byte × Cpu) {s : State} (hs : P s) :
    P (rmwTail ea op s) := by
  unfold Machine.rmwTail
  dsimp only
  exact h.cpuCyc _ _ _ (h.cpuCyc _ _ _ (h.readData _ _ hs))

theorem Stable.openZp (h : Stable P) (op zp : Byte) (kind : CycleKind) {s : State} (hs : P s) : P (openZp op zp kind s) :=
  h.fetchOperand _ _ (h.fetchOp _ _ hs)

theorem Stable.openZpIndexed (h : Stable P) (op zp : Byte) (kind : CycleKind) {s : State} (hs : P s) :
    P (openZpIndexed op zp kind s) := by
  unfold Machine.openZpIndexed
  dsimp only
  exact h.dummyRead _ _ (h.fetchOperand _ _ (h.fetchOp _ _ hs))

theorem Stable.openAbs (h : Stable P) (op : Byte) (addr : Word) (kind : CycleKind) {s : State} (hs : P s) :
    P (openAbs op addr kind s) := by
  unfold Machine.openAbs
  dsimp only
  exact h.fetchOperand _ _ (h.fetchOperand _ _ (h.fetchOp _ _ hs))

theorem Stable.openAbsIndexed (h : Stable P) (i : Index) (op : Byte) (addr : Word) (kind : Bool → CycleKind) {s : State}
    (hs : P s) : P (openAbsIndexed i op addr kind s) := by
  unfold Machine.openAbsIndexed
  dsimp only
  exact h.fetchOperand _ _ (h.fetchOperand _ _ (h.fetchOp _ _ hs))

theorem Stable.openIzx (h : Stable P) (op zp : Byte) (kind : CycleKind) {s : State} (hs : P s) : P (openIzx op zp kind s) := by
  unfold Machine.openIzx
  dsimp only
  exact h.cpuCyc _ _ _ (h.cpuCyc _ _ _ (h.dummyRead _ _ (h.fetchOperand _ _ (h.fetchOp _ _ hs))))

theorem Stable.openIzy (h : Stable P) (op zp : Byte) (kind : Bool → CycleKind) {s : State} (hs : P s) :
    P (openIzy op zp kind s) := by
  unfold Machine.openIzy
  dsimp only
  exact h.cpuCyc _ _ _ (h.cpuCyc _ _ _ (h.fetchOperand _ _ (h.fetchOp _ _ hs)))

theorem Stable.indexedReadTail (h : Stable P) (i : Index) (f : Byte → Cpu → Cpu) {s : State} (hs : P s) :
    P (indexedReadTail i f s) := by
  unfold Machine.indexedReadTail
  split_ifs
  · exact h.readTail _ _ (h.readData _ _ hs)
  · exact h.readTail _ _ hs

theorem Stable.readMode (h : Stable P) (m : Mode) (op : Byte) (f : Byte → Cpu → Cpu) {s : State} (hs : P s) :
    P (readMode m op f s) := by
  cases m with
  | immediate imm =>
    unfold Machine.readMode Machine.immediate
    exact h.fetchOperand _ _ (h.fetchOp _ _ hs)
  | zeroPage zp => exact h.readTail _ _ (h.openZp _ _ _ hs)
  | zeroPageX zp => exact h.readTail _ _ (h.openZpIndexed _ _ _ hs)
  | zeroPageY zp => exact h.readTail _ _ (h.openZpIndexed _ _ _ hs)
  | absolute addr => exact h.readTail _ _ (h.openAbs _ _ _ hs)
  | absoluteX addr => exact h.indexedReadTail _ _ (h.openAbsIndexed _ _ _ _ hs)
  | absoluteY addr => exact h.indexedReadTail _ _ (h.openAbsIndexed _ _ _ _ hs)
  | indirectX zp => exact h.readTail _ _ (h.openIzx _ _ _ hs)
  | indirectY zp => exact h.indexedReadTail _ _ (h.openIzy _ _ _ hs)
  | implicit => exact hs
  | accumulator => exact hs
  | indirect ptr => exact hs
  | relative off => exact hs

theorem Stable.writeMode (h : Stable P) (m : Mode) (op : Byte) (v : Cpu → Byte) {s : State} (hs : P s) :
    P (writeMode m op v s) := by
  cases m with
  | zeroPage zp => exact h.writeTail _ _ (h.openZp _ _ _ hs)
  | zeroPageX zp => exact h.writeTail _ _ (h.openZpIndexed _ _ _ hs)
  | zeroPageY zp => exact h.writeTail _ _ (h.openZpIndexed _ _ _ hs)
  | absolute addr => exact h.writeTail _ _ (h.openAbs _ _ _ hs)
  | absoluteX addr => exact h.writeTail _ _ (h.dummyRead _ _ (h.openAbsIndexed _ _ _ _ hs))
  | absoluteY addr => exact h.writeTail _ _ (h.dummyRead _ _ (h.openAbsIndexed _ _ _ _ hs))
  | indirectX zp => exact h.writeTail _ _ (h.openIzx _ _ _ hs)
  | indirectY zp => exact h.writeTail _ _ (h.dummyRead _ _ (h.openIzy _ _ _ hs))
  | immediate imm => exact hs
  | implicit => exact hs
  | accumulator => exact hs
  | indirect ptr => exact hs
  | relative off => exact hs

theorem Stable.rmwMode (h : Stable P) (m : Mode) (op : Byte) (f : Byte → Cpu → Byte × Cpu) {s : State} (hs : P s) :
    P (rmwMode m op f s) := by
  cases m with
  | zeroPage zp => exact h.rmwTail _ _ (h.openZp _ _ _ hs)
  | zeroPageX zp => exact h.rmwTail _ _ (h.openZpIndexed _ _ _ hs)
  | zeroPageY zp => exact h.rmwTail _ _ (h.openZpIndexed _ _ _ hs)
  | absolute addr => exact h.rmwTail _ _ (h.openAbs _ _ _ hs)
  | absoluteX addr => exact h.rmwTail _ _ (h.dummyRead _ _ (h.openAbsIndexed _ _ _ _ hs))
  | absoluteY addr => exact h.rmwTail _ _ (h.dummyRead _ _ (h.openAbsIndexed _ _ _ _ hs))
  | indirectX zp => exact h.rmwTail _ _ (h.openIzx _ _ _ hs)
  | indirectY zp => exact h.rmwTail _ _ (h.dummyRead _ _ (h.openIzy _ _ _ hs))
  | immediate imm => exact hs
  | implicit => exact hs
  | accumulator => exact hs
  | indirect ptr => exact hs
  | relative off => exact hs

theorem Stable.relative (h : Stable P) (op off : Byte) (taken : Flags → Bool) {s : State} (hs : P s) :
    P (relative op off taken s) := by
  unfold Machine.relative
  dsimp only
  split_ifs <;> first
    | exact h.cpuCyc _ _ _ (h.cpuCyc _ _ _ (h.fetchOperand _ _ (h.fetchOp _ _ hs)))
    | exact h.cpuCyc _ _ _ (h.fetchOperand _ _ (h.fetchOp _ _ hs))
    | exact h.fetchOperand _ _ (h.fetchOp _ _ hs)

theorem Stable.vectorLow (h : Stable P) (kind : IntKind) {s : State} (hs : P s) : P (vectorLow kind s) :=
  h.cyc _ _ _ (fun _ t k => h.both t _ _ k) hs

theorem Stable.vectorHigh (h : Stable P) {s : State} (hs : P s) : P (vectorHigh s) :=
  h.cyc _ _ _ (fun _ t k => h.both t _ _ k) hs

theorem Stable.push (h : Stable P) (kind : CycleKind) (v : Cpu → Byte) {s : State} (hs : P s) : P (push kind v s) :=
  h.cpuCyc _ _ _ hs

theorem Stable.dummyPc (h : Stable P) (kind : CycleKind) {s : State} (hs : P s) : P (dummyPc kind s) := h.cpuCyc _ _ _ hs

theorem Stable.stackUp (h : Stable P) (kind : CycleKind) {s : State} (hs : P s) : P (stackUp kind s) := h.cpuCyc _ _ _ hs

theorem Stable.dummyPush (h : Stable P) {s : State} (hs : P s) : P (dummyPush s) := h.cpuCyc _ _ _ hs

theorem Stable.takeInterrupt (h : Stable P) (kind : IntKind) {s : State} (hs : P s) : P (takeInterrupt kind s) :=
  h.vectorHigh (h.vectorLow _ (h.push _ _ (h.push _ _ (h.push _ _ hs))))

theorem Stable.interruptSequence (h : Stable P) (kind : IntKind) {s : State} (hs : P s) : P (interruptSequence kind s) := by
  cases kind
  · exact h.takeInterrupt _ (h.cpuCyc _ _ _ (h.cpuCyc _ _ _ hs))
  · exact h.takeInterrupt _ (h.dummyPc _ (h.dummyPc _ hs))
  · exact h.takeInterrupt _ (h.dummyPc _ (h.dummyPc _ hs))

theorem Stable.resetSequence (h : Stable P) {s : State} (hs : P s) : P (resetSequence s) := by
  unfold Machine.resetSequence
  dsimp only
  exact h.cyc _ _ _ (fun _ _ k => h.cpu _ _ k) (h.cpuCyc _ _ _ (h.dummyPush (h.dummyPush (h.dummyPush
    (h.dummyPc _ (h.dummyPc _ hs))))))

theorem Stable.pushReg (h : Stable P) (op : Byte) (v : Cpu → Byte) {s : State} (hs : P s) : P (pushReg op v s) :=
  h.push _ _ (h.dummyPc _ (h.fetchOp _ _ hs))

theorem Stable.pullReg (h : Stable P) (op : Byte) (f : Byte → Cpu → Cpu) {s : State} (hs : P s) : P (pullReg op f s) :=
  h.cpuCyc _ _ _ (h.stackUp _ (h.dummyPc _ (h.fetchOp _ _ hs)))

theorem Stable.returnInt (h : Stable P) (op : Byte) {s : State} (hs : P s) : P (returnInt op s) := by
  unfold Machine.returnInt Machine.returnFromInterrupt
  dsimp only
  exact h.cpuCyc _ _ _ (h.cpuCyc _ _ _ (h.cpuCyc _ _ _ (h.stackUp _ (h.dummyPc _ (h.fetchOp _ _ hs)))))

theorem Stable.returnSub (h : Stable P) (op : Byte) {s : State} (hs : P s) : P (returnSub op s) := by
  unfold Machine.returnSub
  dsimp only
  exact h.cpuCyc _ _ _ (h.cpuCyc _ _ _ (h.cpuCyc _ _ _ (h.stackUp _ (h.dummyPc _ (h.fetchOp _ _ hs)))))

theorem Stable.callAbs (h : Stable P) (op : Byte) (addr : Word) {s : State} (hs : P s) : P (callAbs op addr s) := by
  unfold Machine.callAbs openJsr
  dsimp only
  exact h.cpuCyc _ _ _ (h.push _ _ (h.push _ _ (h.cpuCyc _ _ _ (h.fetchOperand _ _ (h.fetchOp _ _ hs)))))

theorem Stable.jumpAbs (h : Stable P) (op : Byte) (addr : Word) {s : State} (hs : P s) : P (jumpAbs op addr s) := by
  unfold Machine.jumpAbs
  dsimp only
  exact h.cpuCyc _ _ _ (h.fetchOperand _ _ (h.fetchOp _ _ hs))

theorem Stable.jumpInd (h : Stable P) (op : Byte) (ptr : Word) {s : State} (hs : P s) : P (jumpInd op ptr s) := by
  unfold Machine.jumpInd
  dsimp only
  exact h.cpuCyc _ _ _ (h.readData _ _ (h.openAbs _ _ _ hs))

/-- Every instruction keeps the property. -/
theorem Stable.exec (h : Stable P) (i : Instr) {s t : State} (hs : P s) (he : exec i s = .next t) : P t := by
  have fin : ∀ u, Machine.exec i s = .next u → P u → P t := by
    intro u e hu
    rw [he] at e
    cases e
    exact hu
  cases exec_runs i s with
  | read _ e => exact fin _ e (h.readMode _ _ _ hs)
  | write _ e => exact fin _ e (h.writeMode _ _ _ hs)
  | rmw _ e => exact fin _ e (h.rmwMode _ _ _ hs)
  | implied _ _ e => exact fin _ e (h.cpuCyc _ _ _ (h.fetchOp _ _ hs))
  | branch _ _ _ e => exact fin _ e (h.relative _ _ _ hs)
  | unstable _ e => exact fin _ e (h.cpuCyc _ _ _ hs)
  | stp _ _ e => exact fin _ e (h.cpuCyc _ _ _ hs)
  | brk _ e => exact fin _ e (h.interruptSequence _ hs)
  | php _ e => exact fin _ e (h.pushReg _ _ hs)
  | pha _ e => exact fin _ e (h.pushReg _ _ hs)
  | plp _ e => exact fin _ e (h.pullReg _ _ hs)
  | pla _ e => exact fin _ e (h.pullReg _ _ hs)
  | rti _ e => exact fin _ e (h.returnInt _ hs)
  | rts _ e => exact fin _ e (h.returnSub _ hs)
  | jsr _ _ e => exact fin _ e (h.callAbs _ _ hs)
  | jmpAbs _ _ e => exact fin _ e (h.jumpAbs _ _ hs)
  | jmpInd _ _ e => exact fin _ e (h.jumpInd _ _ hs)

/-- `exec` always answers a next state. -/
theorem exec_next (i : Instr) (s : State) : ∃ t, exec i s = .next t := by
  cases exec_runs i s <;> exact ⟨_, ‹_›⟩

/-- Every step keeps the property. -/
theorem Stable.step (h : Stable P) {s t : State} (hs : P s) (he : step s = .next t) : P t := by
  unfold Machine.step stepAs at he
  split_ifs at he with h1 h2 h3
  · cases he; exact h.warm _ hs
  · cases he; exact h.dma _ hs h3
  · split at he
    · split at he
      · exact h.exec _ hs he
      · cases he
    · cases he; exact h.interruptSequence _ hs
    · cases he; exact h.resetSequence hs
    · cases he; exact h.cpuCyc _ _ _ hs
    · cases he

end Sys2Proof.Machine
end

