-- ==== Sys2Proof/Tests/Slice0.lean ====
section
/-! SUPPORT. The model's own tests. Expected results are the spec's: the opcode table of 30_encoding.md R155 and R161
for decoding, the vectors V<n> of 95_test_vectors.md for effects. Then, for every statement with hypotheses, a state and
operands that meet them together, one per clause at a boundary value. -/

namespace Sys2Proof.Tests

open Sys2Proof Sys2Proof.Machine

/-! ### Decoding: every opcode byte, row by row of 30_encoding.md R155, operand bytes $34 and $12 -/

/-- What a byte string decodes to. -/
def reads (bytes : List Byte) : Option (Instr × List Byte) :=
  match decode bytes with
  | .ok r => some r
  | .error _ => none

/-- The instructions, each with nothing left over. -/
def whole (is : List Instr) : List (Option (Instr × List Byte)) := is.map fun i => some (i, [])

theorem test_decode_row_0 :
    [[0x00], [0x01, 0x34], [0x02], [0x03, 0x34], [0x04, 0x34], [0x05, 0x34], [0x06, 0x34], [0x07, 0x34], [0x08],
      [0x09, 0x34], [0x0A], [0x0B, 0x34], [0x0C, 0x34, 0x12], [0x0D, 0x34, 0x12], [0x0E, 0x34, 0x12],
      [0x0F, 0x34, 0x12]].map reads
    = whole [.brk, .oraIzx 0x34, .stp .op02, .sloIzx 0x34, .nopZp04 0x34, .oraZp 0x34, .aslZp 0x34, .sloZp 0x34,
      .php, .oraImm 0x34, .aslAcc, .anc0B 0x34, .nopAbs0C 0x1234, .oraAbs 0x1234, .aslAbs 0x1234, .sloAbs 0x1234] := by
  decide

theorem test_decode_row_1 :
    [[0x10, 0x34], [0x11, 0x34], [0x12], [0x13, 0x34], [0x14, 0x34], [0x15, 0x34], [0x16, 0x34], [0x17, 0x34],
      [0x18], [0x19, 0x34, 0x12], [0x1A], [0x1B, 0x34, 0x12], [0x1C, 0x34, 0x12], [0x1D, 0x34, 0x12],
      [0x1E, 0x34, 0x12], [0x1F, 0x34, 0x12]].map reads
    = whole [.bpl 0x34, .oraIzy 0x34, .stp .op12, .sloIzy 0x34, .nopZpx14 0x34, .oraZpx 0x34, .aslZpx 0x34,
      .sloZpx 0x34, .clc, .oraAby 0x1234, .nopImplied .op1A, .sloAby 0x1234, .nopAbx1C 0x1234, .oraAbx 0x1234,
      .aslAbx 0x1234, .sloAbx 0x1234] := by
  decide

theorem test_decode_row_2 :
    [[0x20, 0x34, 0x12], [0x21, 0x34], [0x22], [0x23, 0x34], [0x24, 0x34], [0x25, 0x34], [0x26, 0x34], [0x27, 0x34],
      [0x28], [0x29, 0x34], [0x2A], [0x2B, 0x34], [0x2C, 0x34, 0x12], [0x2D, 0x34, 0x12], [0x2E, 0x34, 0x12],
      [0x2F, 0x34, 0x12]].map reads
    = whole [.jsr 0x1234, .andIzx 0x34, .stp .op22, .rlaIzx 0x34, .bitZp 0x34, .andZp 0x34, .rolZp 0x34,
      .rlaZp 0x34, .plp, .andImm 0x34, .rolAcc, .anc2B 0x34, .bitAbs 0x1234, .andAbs 0x1234, .rolAbs 0x1234,
      .rlaAbs 0x1234] := by
  decide

theorem test_decode_row_3 :
    [[0x30, 0x34], [0x31, 0x34], [0x32], [0x33, 0x34], [0x34, 0x34], [0x35, 0x34], [0x36, 0x34], [0x37, 0x34],
      [0x38], [0x39, 0x34, 0x12], [0x3A], [0x3B, 0x34, 0x12], [0x3C, 0x34, 0x12], [0x3D, 0x34, 0x12],
      [0x3E, 0x34, 0x12], [0x3F, 0x34, 0x12]].map reads
    = whole [.bmi 0x34, .andIzy 0x34, .stp .op32, .rlaIzy 0x34, .nopZpx34 0x34, .andZpx 0x34, .rolZpx 0x34,
      .rlaZpx 0x34, .sec, .andAby 0x1234, .nopImplied .op3A, .rlaAby 0x1234, .nopAbx3C 0x1234, .andAbx 0x1234,
      .rolAbx 0x1234, .rlaAbx 0x1234] := by
  decide

theorem test_decode_row_4 :
    [[0x40], [0x41, 0x34], [0x42], [0x43, 0x34], [0x44, 0x34], [0x45, 0x34], [0x46, 0x34], [0x47, 0x34], [0x48],
      [0x49, 0x34], [0x4A], [0x4B, 0x34], [0x4C, 0x34, 0x12], [0x4D, 0x34, 0x12], [0x4E, 0x34, 0x12],
      [0x4F, 0x34, 0x12]].map reads
    = whole [.rti, .eorIzx 0x34, .stp .op42, .sreIzx 0x34, .nopZp44 0x34, .eorZp 0x34, .lsrZp 0x34, .sreZp 0x34,
      .pha, .eorImm 0x34, .lsrAcc, .alr 0x34, .jmpAbs 0x1234, .eorAbs 0x1234, .lsrAbs 0x1234, .sreAbs 0x1234] := by
  decide

theorem test_decode_row_5 :
    [[0x50, 0x34], [0x51, 0x34], [0x52], [0x53, 0x34], [0x54, 0x34], [0x55, 0x34], [0x56, 0x34], [0x57, 0x34],
      [0x58], [0x59, 0x34, 0x12], [0x5A], [0x5B, 0x34, 0x12], [0x5C, 0x34, 0x12], [0x5D, 0x34, 0x12],
      [0x5E, 0x34, 0x12], [0x5F, 0x34, 0x12]].map reads
    = whole [.bvc 0x34, .eorIzy 0x34, .stp .op52, .sreIzy 0x34, .nopZpx54 0x34, .eorZpx 0x34, .lsrZpx 0x34,
      .sreZpx 0x34, .cli, .eorAby 0x1234, .nopImplied .op5A, .sreAby 0x1234, .nopAbx5C 0x1234, .eorAbx 0x1234,
      .lsrAbx 0x1234, .sreAbx 0x1234] := by
  decide

theorem test_decode_row_6 :
    [[0x60], [0x61, 0x34], [0x62], [0x63, 0x34], [0x64, 0x34], [0x65, 0x34], [0x66, 0x34], [0x67, 0x34], [0x68],
      [0x69, 0x34], [0x6A], [0x6B, 0x34], [0x6C, 0x34, 0x12], [0x6D, 0x34, 0x12], [0x6E, 0x34, 0x12],
      [0x6F, 0x34, 0x12]].map reads
    = whole [.rts, .adcIzx 0x34, .stp .op62, .rraIzx 0x34, .nopZp64 0x34, .adcZp 0x34, .rorZp 0x34, .rraZp 0x34,
      .pla, .adcImm 0x34, .rorAcc, .arr 0x34, .jmpInd 0x1234, .adcAbs 0x1234, .rorAbs 0x1234, .rraAbs 0x1234] := by
  decide

theorem test_decode_row_7 :
    [[0x70, 0x34], [0x71, 0x34], [0x72], [0x73, 0x34], [0x74, 0x34], [0x75, 0x34], [0x76, 0x34], [0x77, 0x34],
      [0x78], [0x79, 0x34, 0x12], [0x7A], [0x7B, 0x34, 0x12], [0x7C, 0x34, 0x12], [0x7D, 0x34, 0x12],
      [0x7E, 0x34, 0x12], [0x7F, 0x34, 0x12]].map reads
    = whole [.bvs 0x34, .adcIzy 0x34, .stp .op72, .rraIzy 0x34, .nopZpx74 0x34, .adcZpx 0x34, .rorZpx 0x34,
      .rraZpx 0x34, .sei, .adcAby 0x1234, .nopImplied .op7A, .rraAby 0x1234, .nopAbx7C 0x1234, .adcAbx 0x1234,
      .rorAbx 0x1234, .rraAbx 0x1234] := by
  decide

theorem test_decode_row_8 :
    [[0x80, 0x34], [0x81, 0x34], [0x82, 0x34], [0x83, 0x34], [0x84, 0x34], [0x85, 0x34], [0x86, 0x34], [0x87, 0x34],
      [0x88], [0x89, 0x34], [0x8A], [0x8B, 0x34], [0x8C, 0x34, 0x12], [0x8D, 0x34, 0x12], [0x8E, 0x34, 0x12],
      [0x8F, 0x34, 0x12]].map reads
    = whole [.nopImm80 0x34, .staIzx 0x34, .nopImm82 0x34, .saxIzx 0x34, .styZp 0x34, .staZp 0x34, .stxZp 0x34,
      .saxZp 0x34, .dey, .nopImm89 0x34, .txa, .xaa 0x34, .styAbs 0x1234, .staAbs 0x1234, .stxAbs 0x1234,
      .saxAbs 0x1234] := by
  decide

theorem test_decode_row_9 :
    [[0x90, 0x34], [0x91, 0x34], [0x92], [0x93, 0x34], [0x94, 0x34], [0x95, 0x34], [0x96, 0x34], [0x97, 0x34],
      [0x98], [0x99, 0x34, 0x12], [0x9A], [0x9B, 0x34, 0x12], [0x9C, 0x34, 0x12], [0x9D, 0x34, 0x12],
      [0x9E, 0x34, 0x12], [0x9F, 0x34, 0x12]].map reads
    = whole [.bcc 0x34, .staIzy 0x34, .stp .op92, .ahxIzy 0x34, .styZpx 0x34, .staZpx 0x34, .stxZpy 0x34,
      .saxZpy 0x34, .tya, .staAby 0x1234, .txs, .tas 0x1234, .shy 0x1234, .staAbx 0x1234, .shx 0x1234,
      .ahxAby 0x1234] := by
  decide

theorem test_decode_row_A :
    [[0xA0, 0x34], [0xA1, 0x34], [0xA2, 0x34], [0xA3, 0x34], [0xA4, 0x34], [0xA5, 0x34], [0xA6, 0x34], [0xA7, 0x34],
      [0xA8], [0xA9, 0x34], [0xAA], [0xAB, 0x34], [0xAC, 0x34, 0x12], [0xAD, 0x34, 0x12], [0xAE, 0x34, 0x12],
      [0xAF, 0x34, 0x12]].map reads
    = whole [.ldyImm 0x34, .ldaIzx 0x34, .ldxImm 0x34, .laxIzx 0x34, .ldyZp 0x34, .ldaZp 0x34, .ldxZp 0x34,
      .laxZp 0x34, .tay, .ldaImm 0x34, .tax, .lxa 0x34, .ldyAbs 0x1234, .ldaAbs 0x1234, .ldxAbs 0x1234,
      .laxAbs 0x1234] := by
  decide

theorem test_decode_row_B :
    [[0xB0, 0x34], [0xB1, 0x34], [0xB2], [0xB3, 0x34], [0xB4, 0x34], [0xB5, 0x34], [0xB6, 0x34], [0xB7, 0x34],
      [0xB8], [0xB9, 0x34, 0x12], [0xBA], [0xBB, 0x34, 0x12], [0xBC, 0x34, 0x12], [0xBD, 0x34, 0x12],
      [0xBE, 0x34, 0x12], [0xBF, 0x34, 0x12]].map reads
    = whole [.bcs 0x34, .ldaIzy 0x34, .stp .opB2, .laxIzy 0x34, .ldyZpx 0x34, .ldaZpx 0x34, .ldxZpy 0x34,
      .laxZpy 0x34, .clv, .ldaAby 0x1234, .tsx, .las 0x1234, .ldyAbx 0x1234, .ldaAbx 0x1234, .ldxAby 0x1234,
      .laxAby 0x1234] := by
  decide

theorem test_decode_row_C :
    [[0xC0, 0x34], [0xC1, 0x34], [0xC2, 0x34], [0xC3, 0x34], [0xC4, 0x34], [0xC5, 0x34], [0xC6, 0x34], [0xC7, 0x34],
      [0xC8], [0xC9, 0x34], [0xCA], [0xCB, 0x34], [0xCC, 0x34, 0x12], [0xCD, 0x34, 0x12], [0xCE, 0x34, 0x12],
      [0xCF, 0x34, 0x12]].map reads
    = whole [.cpyImm 0x34, .cmpIzx 0x34, .nopImmC2 0x34, .dcpIzx 0x34, .cpyZp 0x34, .cmpZp 0x34, .decZp 0x34,
      .dcpZp 0x34, .iny, .cmpImm 0x34, .dex, .axs 0x34, .cpyAbs 0x1234, .cmpAbs 0x1234, .decAbs 0x1234,
      .dcpAbs 0x1234] := by
  decide

theorem test_decode_row_D :
    [[0xD0, 0x34], [0xD1, 0x34], [0xD2], [0xD3, 0x34], [0xD4, 0x34], [0xD5, 0x34], [0xD6, 0x34], [0xD7, 0x34],
      [0xD8], [0xD9, 0x34, 0x12], [0xDA], [0xDB, 0x34, 0x12], [0xDC, 0x34, 0x12], [0xDD, 0x34, 0x12],
      [0xDE, 0x34, 0x12], [0xDF, 0x34, 0x12]].map reads
    = whole [.bne 0x34, .cmpIzy 0x34, .stp .opD2, .dcpIzy 0x34, .nopZpxD4 0x34, .cmpZpx 0x34, .decZpx 0x34,
      .dcpZpx 0x34, .cld, .cmpAby 0x1234, .nopImplied .opDA, .dcpAby 0x1234, .nopAbxDC 0x1234, .cmpAbx 0x1234,
      .decAbx 0x1234, .dcpAbx 0x1234] := by
  decide

theorem test_decode_row_E :
    [[0xE0, 0x34], [0xE1, 0x34], [0xE2, 0x34], [0xE3, 0x34], [0xE4, 0x34], [0xE5, 0x34], [0xE6, 0x34], [0xE7, 0x34],
      [0xE8], [0xE9, 0x34], [0xEA], [0xEB, 0x34], [0xEC, 0x34, 0x12], [0xED, 0x34, 0x12], [0xEE, 0x34, 0x12],
      [0xEF, 0x34, 0x12]].map reads
    = whole [.cpxImm 0x34, .sbcIzx 0x34, .nopImmE2 0x34, .isbIzx 0x34, .cpxZp 0x34, .sbcZp 0x34, .incZp 0x34,
      .isbZp 0x34, .inx, .sbcImm 0x34, .nop, .usbc 0x34, .cpxAbs 0x1234, .sbcAbs 0x1234, .incAbs 0x1234,
      .isbAbs 0x1234] := by
  decide

theorem test_decode_row_F :
    [[0xF0, 0x34], [0xF1, 0x34], [0xF2], [0xF3, 0x34], [0xF4, 0x34], [0xF5, 0x34], [0xF6, 0x34], [0xF7, 0x34],
      [0xF8], [0xF9, 0x34, 0x12], [0xFA], [0xFB, 0x34, 0x12], [0xFC, 0x34, 0x12], [0xFD, 0x34, 0x12],
      [0xFE, 0x34, 0x12], [0xFF, 0x34, 0x12]].map reads
    = whole [.beq 0x34, .sbcIzy 0x34, .stp .opF2, .isbIzy 0x34, .nopZpxF4 0x34, .sbcZpx 0x34, .incZpx 0x34,
      .isbZpx 0x34, .sed, .sbcAby 0x1234, .nopImplied .opFA, .isbAby 0x1234, .nopAbxFC 0x1234, .sbcAbx 0x1234,
      .incAbx 0x1234, .isbAbx 0x1234] := by
  decide

/-- Bytes after the instruction are left over; a string too short for its opcode is refused. -/
theorem test_decode_rest :
    reads [0xA9, 0x7F, 0xEA] = some (.ldaImm 0x7F, [0xEA]) ∧ reads [0x4C, 0x00] = none ∧ reads [0xA9] = none
      ∧ reads [] = none := by
  decide

/-- The host's numbering: the first byte in bits 7-0, operand bytes of zero where the table gives none. -/
theorem test_decodeTableWord :
    decodeTableWord 8 0x6C = some (.jmpInd 0) ∧ decodeTableWord 24 0x12346C = some (.jmpInd 0x1234)
      ∧ decodeTableWord 8 0xEA = some .nop := by
  decide

/-- No operand value is reserved, so the check refuses no term (30_encoding.md R157; log entry 32). -/
theorem test_wellFormed_refuses_nothing :
    (Instr.ldaImm 0xFF).wellFormed = true ∧ (Instr.jmpInd 0xFFFF).wellFormed = true
      ∧ (Instr.bne 0x80).wellFormed = true := by
  decide

/-! ### One step: the vectors of 95_test_vectors.md, section 2.1 -/

/-- All flags 0. -/
def clear : Flags := { n := false, v := false, d := false, i := false, z := false, c := false }

/-- All flags 1. -/
def allSet : Flags := { n := true, v := true, d := true, i := true, z := true, c := true }

/-- The vectors' CPU: A = X = Y = 0, flags 0, S = $FD, PC = $8000. -/
def cpu0 : Cpu := { State.reset.cpu with mode := .run, s := 0xFD, pc := 0x8000, p := clear }

/-- The vectors' machine: code at PC, the vectors of the cartridge, `rom` and `ram` besides. -/
def machine (code : List Byte) (c : Cpu) (rom ram : Memory) : State :=
  placeBytes c.pc code { State.reset with
    cpu := c, ram := ram
    cart := { State.reset.cart with prg := rom ++ [(0x7FFB, 0x90), (0x7FFD, 0x80), (0x7FFF, 0x90)] } }

/-- What a vector looks at: registers, flags, cycles, one RAM byte. -/
structure Seen where
  a : Byte
  x : Byte
  y : Byte
  s : Byte
  pc : Word
  p : Flags
  cycles : Nat
  byte : Byte
  deriving DecidableEq, Repr

/-- The machine after one step from `s`, looked at with the RAM byte at `k`. -/
def run1 (s : State) (k : Word) : Option Seen :=
  match step s with
  | .next t => some ⟨t.cpu.a, t.cpu.x, t.cpu.y, t.cpu.s, t.cpu.pc, t.cpu.p, t.cycle, ramAt t k⟩
  | _ => none

theorem test_V1_lda :
    run1 (machine [0xA9, 0x00] { cpu0 with a := 0x55 } [] []) 0x0010
      = some ⟨0x00, 0x00, 0x00, 0xFD, 0x8002, { clear with z := true }, 2, 0x00⟩ := by
  decide

theorem test_V8_lda :
    run1 (machine [0xA1, 0xFE] { cpu0 with x := 0x03 } [] [(0x0001, 0x34), (0x0002, 0x02), (0x0234, 0x5A)]) 0x0010
      = some ⟨0x5A, 0x03, 0x00, 0xFD, 0x8002, clear, 6, 0x00⟩ := by
  decide

theorem test_V3_ldx :
    run1 (machine [0xB6, 0xF0] { cpu0 with y := 0x20 } [] [(0x0010, 0x77)]) 0x0010
      = some ⟨0x00, 0x77, 0x20, 0xFD, 0x8002, clear, 4, 0x77⟩ := by
  decide

theorem test_V11_stx :
    run1 (machine [0x96, 0xFF] { cpu0 with x := 0x66, y := 0x02 } [] []) 0x0001
      = some ⟨0x00, 0x66, 0x02, 0xFD, 0x8002, clear, 4, 0x66⟩ := by
  decide

theorem test_V12_txs :
    run1 (machine [0x9A] cpu0 [] []) 0x0010
      = some ⟨0x00, 0x00, 0x00, 0x00, 0x8001, clear, 2, 0x00⟩ := by
  decide

theorem test_V13_tsx :
    run1 (machine [0xBA] cpu0 [] []) 0x0010
      = some ⟨0x00, 0xFD, 0x00, 0xFD, 0x8001, { clear with n := true }, 2, 0x00⟩ := by
  decide

theorem test_V14_tay :
    run1 (machine [0xA8] { cpu0 with y := 0x05 } [] []) 0x0010
      = some ⟨0x00, 0x00, 0x00, 0xFD, 0x8001, { clear with z := true }, 2, 0x00⟩ := by
  decide

theorem test_V15_tya :
    run1 (machine [0x98] { cpu0 with y := 0x90 } [] []) 0x0010
      = some ⟨0x90, 0x00, 0x90, 0xFD, 0x8001, { clear with n := true }, 2, 0x00⟩ := by
  decide

theorem test_V17_adc :
    run1 (machine [0x69, 0x00] { cpu0 with a := 0xFF, p := { clear with c := true } } [] []) 0x0010
      = some ⟨0x00, 0x00, 0x00, 0xFD, 0x8002, { clear with z := true, c := true }, 2, 0x00⟩ := by
  decide

theorem test_V20_adc :
    run1 (machine [0x69, 0x09] { cpu0 with a := 0x09, p := { clear with d := true } } [] []) 0x0010
      = some ⟨0x12, 0x00, 0x00, 0xFD, 0x8002, { clear with d := true }, 2, 0x00⟩ := by
  decide

theorem test_V23_sbc :
    run1 (machine [0xE9, 0x01] { cpu0 with p := { clear with c := true } } [] []) 0x0010
      = some ⟨0xFF, 0x00, 0x00, 0xFD, 0x8002, { clear with n := true }, 2, 0x00⟩ := by
  decide

theorem test_V24_sbc :
    run1 (machine [0xE9, 0x01] { cpu0 with a := 0x80, p := { clear with c := true } } [] []) 0x0010
      = some ⟨0x7F, 0x00, 0x00, 0xFD, 0x8002, { clear with v := true, c := true }, 2, 0x00⟩ := by
  decide

theorem test_V25_and :
    run1 (machine [0x29, 0x0F] { cpu0 with a := 0xF0 } [] []) 0x0010
      = some ⟨0x00, 0x00, 0x00, 0xFD, 0x8002, { clear with z := true }, 2, 0x00⟩ := by
  decide

theorem test_V26_ora :
    run1 (machine [0x09, 0x80] { cpu0 with a := 0x01 } [] []) 0x0010
      = some ⟨0x81, 0x00, 0x00, 0xFD, 0x8002, { clear with n := true }, 2, 0x00⟩ := by
  decide

theorem test_V27_eor :
    run1 (machine [0x49, 0xFF] { cpu0 with a := 0xFF } [] []) 0x0010
      = some ⟨0x00, 0x00, 0x00, 0xFD, 0x8002, { clear with z := true }, 2, 0x00⟩ := by
  decide

theorem test_V28_cmp :
    run1 (machine [0xC9, 0x20] { cpu0 with a := 0x10 } [] []) 0x0010
      = some ⟨0x10, 0x00, 0x00, 0xFD, 0x8002, { clear with n := true }, 2, 0x00⟩ := by
  decide

theorem test_V31_cpx :
    run1 (machine [0xE0, 0x20] { cpu0 with x := 0x20 } [] []) 0x0010
      = some ⟨0x00, 0x20, 0x00, 0xFD, 0x8002, { clear with z := true, c := true }, 2, 0x00⟩ := by
  decide

theorem test_V32_cpy :
    run1 (machine [0xC0, 0x20] { cpu0 with y := 0x30 } [] []) 0x0010
      = some ⟨0x00, 0x00, 0x30, 0xFD, 0x8002, { clear with c := true }, 2, 0x00⟩ := by
  decide

theorem test_V34_bit :
    run1 (machine [0x24, 0x10] { cpu0 with a := 0x01 } [] [(0x0010, 0xC0)]) 0x0010
      = some ⟨0x01, 0x00, 0x00, 0xFD, 0x8002, { clear with n := true, v := true, z := true }, 3, 0xC0⟩ := by
  decide

theorem test_V37_dec :
    run1 (machine [0xC6, 0x10] cpu0 [] []) 0x0010
      = some ⟨0x00, 0x00, 0x00, 0xFD, 0x8002, { clear with n := true }, 5, 0xFF⟩ := by
  decide

theorem test_V39_inx :
    run1 (machine [0xE8] { cpu0 with x := 0xFF } [] []) 0x0010
      = some ⟨0x00, 0x00, 0x00, 0xFD, 0x8001, { clear with z := true }, 2, 0x00⟩ := by
  decide

theorem test_V40_iny :
    run1 (machine [0xC8] { cpu0 with y := 0x7F } [] []) 0x0010
      = some ⟨0x00, 0x00, 0x80, 0xFD, 0x8001, { clear with n := true }, 2, 0x00⟩ := by
  decide

theorem test_V41_dex :
    run1 (machine [0xCA] { cpu0 with x := 0x01 } [] []) 0x0010
      = some ⟨0x00, 0x00, 0x00, 0xFD, 0x8001, { clear with z := true }, 2, 0x00⟩ := by
  decide

theorem test_V42_dey :
    run1 (machine [0x88] cpu0 [] []) 0x0010
      = some ⟨0x00, 0x00, 0xFF, 0xFD, 0x8001, { clear with n := true }, 2, 0x00⟩ := by
  decide

theorem test_V43_asl :
    run1 (machine [0x0A] { cpu0 with a := 0x41 } [] []) 0x0010
      = some ⟨0x82, 0x00, 0x00, 0xFD, 0x8001, { clear with n := true }, 2, 0x00⟩ := by
  decide

theorem test_V45_lsr :
    run1 (machine [0x4A] { cpu0 with a := 0x01 } [] []) 0x0010
      = some ⟨0x00, 0x00, 0x00, 0xFD, 0x8001, { clear with z := true, c := true }, 2, 0x00⟩ := by
  decide

theorem test_V46_rol :
    run1 (machine [0x2A] { cpu0 with a := 0x40, p := { clear with c := true } } [] []) 0x0010
      = some ⟨0x81, 0x00, 0x00, 0xFD, 0x8001, { clear with n := true }, 2, 0x00⟩ := by
  decide

theorem test_V48_ror :
    run1 (machine [0x6A] { cpu0 with a := 0x02, p := { clear with c := true } } [] []) 0x0010
      = some ⟨0x81, 0x00, 0x00, 0xFD, 0x8001, { clear with n := true }, 2, 0x00⟩ := by
  decide

theorem test_V49_ror :
    run1 (machine [0x66, 0x10] cpu0 [] [(0x0010, 0x01)]) 0x0010
      = some ⟨0x00, 0x00, 0x00, 0xFD, 0x8002, { clear with z := true, c := true }, 5, 0x00⟩ := by
  decide

theorem test_V51_bne :
    run1 (machine [0xD0, 0x20] { cpu0 with pc := 0x80F0 } [] []) 0x0010
      = some ⟨0x00, 0x00, 0x00, 0xFD, 0x8112, clear, 4, 0x00⟩ := by
  decide

theorem test_V53_bpl :
    run1 (machine [0x10, 0x05] cpu0 [] []) 0x0010
      = some ⟨0x00, 0x00, 0x00, 0xFD, 0x8007, clear, 3, 0x00⟩ := by
  decide

theorem test_V54_bmi :
    run1 (machine [0x30, 0x05] cpu0 [] []) 0x0010
      = some ⟨0x00, 0x00, 0x00, 0xFD, 0x8002, clear, 2, 0x00⟩ := by
  decide

theorem test_V55_bvc :
    run1 (machine [0x50, 0xFE] cpu0 [] []) 0x0010
      = some ⟨0x00, 0x00, 0x00, 0xFD, 0x8000, clear, 3, 0x00⟩ := by
  decide

theorem test_V56_bvs :
    run1 (machine [0x70, 0x80] { cpu0 with p := { clear with v := true } } [] []) 0x0010
      = some ⟨0x00, 0x00, 0x00, 0xFD, 0x7F82, { clear with v := true }, 4, 0x00⟩ := by
  decide

theorem test_V57_bcs :
    run1 (machine [0xB0, 0x7F] { cpu0 with p := { clear with c := true } } [] []) 0x0010
      = some ⟨0x00, 0x00, 0x00, 0xFD, 0x8081, { clear with c := true }, 3, 0x00⟩ := by
  decide

theorem test_V58_bcc :
    run1 (machine [0x90, 0x10] { cpu0 with p := { clear with c := true } } [] []) 0x0010
      = some ⟨0x00, 0x00, 0x00, 0xFD, 0x8002, { clear with c := true }, 2, 0x00⟩ := by
  decide

theorem test_V60_beq :
    run1 (machine [0xF0, 0x01] { cpu0 with pc := 0x80FD, p := { clear with z := true } } [] []) 0x0010
      = some ⟨0x00, 0x00, 0x00, 0xFD, 0x8100, { clear with z := true }, 4, 0x00⟩ := by
  decide

theorem test_V64_rts :
    run1 (machine [0x60] { cpu0 with s := 0xFB } [] [(0x01FC, 0x02), (0x01FD, 0x80)]) 0x0010
      = some ⟨0x00, 0x00, 0x00, 0xFD, 0x8003, clear, 6, 0x00⟩ := by
  decide

theorem test_V65_rti :
    run1 (machine [0x40] { cpu0 with s := 0xFA } [] [(0x01FB, 0x20), (0x01FC, 0x34), (0x01FD, 0x12)]) 0x0010
      = some ⟨0x00, 0x00, 0x00, 0xFD, 0x1234, clear, 6, 0x00⟩ := by
  decide

theorem test_V66_rti :
    run1 (machine [0x40] { cpu0 with s := 0xFA } [] [(0x01FB, 0xFF), (0x01FD, 0x90)]) 0x0010
      = some ⟨0x00, 0x00, 0x00, 0xFD, 0x9000, allSet, 6, 0x00⟩ := by
  decide

theorem test_V67_brk :
    run1 (machine [0x00, 0xEA] { cpu0 with p := { clear with i := true } } [] []) 0x01FD
      = some ⟨0x00, 0x00, 0x00, 0xFA, 0x9000, { clear with i := true }, 7, 0x80⟩ := by
  decide

theorem test_V69_pha :
    run1 (machine [0x48] { cpu0 with a := 0x77, s := 0x00 } [] []) 0x0100
      = some ⟨0x77, 0x00, 0x00, 0xFF, 0x8001, clear, 3, 0x77⟩ := by
  decide

theorem test_V70_php :
    run1 (machine [0x08] { cpu0 with p := { clear with i := true, c := true } } [] []) 0x01FD
      = some ⟨0x00, 0x00, 0x00, 0xFC, 0x8001, { clear with i := true, c := true }, 3, 0x35⟩ := by
  decide

theorem test_V71_pla :
    run1 (machine [0x68] { cpu0 with s := 0xFC } [] [(0x01FD, 0x80)]) 0x0010
      = some ⟨0x80, 0x00, 0x00, 0xFD, 0x8001, { clear with n := true }, 4, 0x00⟩ := by
  decide

theorem test_V73_plp :
    run1 (machine [0x28] { cpu0 with s := 0xFC } [] [(0x01FD, 0xFF)]) 0x0010
      = some ⟨0x00, 0x00, 0x00, 0xFD, 0x8001, allSet, 4, 0x00⟩ := by
  decide

theorem test_V75_clc :
    run1 (machine [0x18] { cpu0 with p := { clear with c := true } } [] []) 0x0010
      = some ⟨0x00, 0x00, 0x00, 0xFD, 0x8001, clear, 2, 0x00⟩ := by
  decide

theorem test_V76_sec :
    run1 (machine [0x38] cpu0 [] []) 0x0010
      = some ⟨0x00, 0x00, 0x00, 0xFD, 0x8001, { clear with c := true }, 2, 0x00⟩ := by
  decide

theorem test_V77_cli :
    run1 (machine [0x58] { cpu0 with p := { clear with i := true } } [] []) 0x0010
      = some ⟨0x00, 0x00, 0x00, 0xFD, 0x8001, clear, 2, 0x00⟩ := by
  decide

theorem test_V78_sei :
    run1 (machine [0x78] cpu0 [] []) 0x0010
      = some ⟨0x00, 0x00, 0x00, 0xFD, 0x8001, { clear with i := true }, 2, 0x00⟩ := by
  decide

theorem test_V79_cld :
    run1 (machine [0xD8] { cpu0 with p := { clear with d := true } } [] []) 0x0010
      = some ⟨0x00, 0x00, 0x00, 0xFD, 0x8001, clear, 2, 0x00⟩ := by
  decide

theorem test_V80_sed :
    run1 (machine [0xF8] cpu0 [] []) 0x0010
      = some ⟨0x00, 0x00, 0x00, 0xFD, 0x8001, { clear with d := true }, 2, 0x00⟩ := by
  decide

theorem test_V81_clv :
    run1 (machine [0xB8] { cpu0 with p := { clear with v := true } } [] []) 0x0010
      = some ⟨0x00, 0x00, 0x00, 0xFD, 0x8001, clear, 2, 0x00⟩ := by
  decide

theorem test_V82_nop :
    run1 (machine [0xEA] cpu0 [] []) 0x0010
      = some ⟨0x00, 0x00, 0x00, 0xFD, 0x8001, clear, 2, 0x00⟩ := by
  decide

theorem test_V83_lax :
    run1 (machine [0xA7, 0x10] cpu0 [] [(0x0010, 0x8F)]) 0x0010
      = some ⟨0x8F, 0x8F, 0x00, 0xFD, 0x8002, { clear with n := true }, 3, 0x8F⟩ := by
  decide

theorem test_V85_sax :
    run1 (machine [0x87, 0x10] { cpu0 with a := 0xF0, x := 0x3C } [] []) 0x0010
      = some ⟨0xF0, 0x3C, 0x00, 0xFD, 0x8002, clear, 3, 0x30⟩ := by
  decide

theorem test_V86_dcp :
    run1 (machine [0xC7, 0x10] { cpu0 with a := 0x10 } [] [(0x0010, 0x11)]) 0x0010
      = some ⟨0x10, 0x00, 0x00, 0xFD, 0x8002, { clear with z := true, c := true }, 5, 0x10⟩ := by
  decide

theorem test_V88_slo :
    run1 (machine [0x07, 0x10] { cpu0 with a := 0x01 } [] [(0x0010, 0x80)]) 0x0010
      = some ⟨0x01, 0x00, 0x00, 0xFD, 0x8002, { clear with c := true }, 5, 0x00⟩ := by
  decide

theorem test_V89_rla :
    run1 (machine [0x27, 0x10] { cpu0 with a := 0xFF, p := { clear with c := true } } [] [(0x0010, 0x40)]) 0x0010
      = some ⟨0x81, 0x00, 0x00, 0xFD, 0x8002, { clear with n := true }, 5, 0x81⟩ := by
  decide

theorem test_V90_sre :
    run1 (machine [0x47, 0x10] { cpu0 with a := 0xFF } [] [(0x0010, 0x03)]) 0x0010
      = some ⟨0xFE, 0x00, 0x00, 0xFD, 0x8002, { clear with n := true, c := true }, 5, 0x01⟩ := by
  decide

theorem test_V91_rra :
    run1 (machine [0x67, 0x10] { cpu0 with a := 0x01 } [] [(0x0010, 0x03)]) 0x0010
      = some ⟨0x03, 0x00, 0x00, 0xFD, 0x8002, clear, 5, 0x01⟩ := by
  decide

theorem test_V95_anc :
    run1 (machine [0x0B, 0x80] { cpu0 with a := 0xFF } [] []) 0x0010
      = some ⟨0x80, 0x00, 0x00, 0xFD, 0x8002, { clear with n := true, c := true }, 2, 0x00⟩ := by
  decide

theorem test_V97_alr :
    run1 (machine [0x4B, 0x03] { cpu0 with a := 0xFF } [] []) 0x0010
      = some ⟨0x01, 0x00, 0x00, 0xFD, 0x8002, { clear with c := true }, 2, 0x00⟩ := by
  decide

theorem test_V100_arr :
    run1 (machine [0x6B, 0x40] { cpu0 with a := 0xFF } [] []) 0x0010
      = some ⟨0x20, 0x00, 0x00, 0xFD, 0x8002, { clear with v := true }, 2, 0x00⟩ := by
  decide

theorem test_V102_axs :
    run1 (machine [0xCB, 0x10] { cpu0 with a := 0x0F, x := 0xFF, p := { clear with c := true } } [] []) 0x0010
      = some ⟨0x0F, 0xFF, 0x00, 0xFD, 0x8002, { clear with n := true }, 2, 0x00⟩ := by
  decide

theorem test_V103_usbc :
    run1 (machine [0xEB, 0x03] { cpu0 with a := 0x05, p := { clear with c := true } } [] []) 0x0010
      = some ⟨0x02, 0x00, 0x00, 0xFD, 0x8002, { clear with c := true }, 2, 0x00⟩ := by
  decide

/-! ### Instructions without a vector: the examples of their rules -/

theorem test_R242_ldy :
    run1 (machine [0xA0, 0x7F] cpu0 [] []) 0x0010 = some ⟨0x00, 0x00, 0x7F, 0xFD, 0x8002, clear, 2, 0x00⟩ := by
  decide

theorem test_R245_sty :
    run1 (machine [0x84, 0x00] { cpu0 with y := 1 } [] []) 0x0000
      = some ⟨0x00, 0x00, 0x01, 0xFD, 0x8002, clear, 3, 0x01⟩ := by
  decide

theorem test_R246_tax :
    run1 (machine [0xAA] { cpu0 with x := 5 } [] []) 0x0010
      = some ⟨0x00, 0x00, 0x00, 0xFD, 0x8001, { clear with z := true }, 2, 0x00⟩ := by
  decide

theorem test_R248_txa :
    run1 (machine [0x8A] { cpu0 with x := 1 } [] []) 0x0010
      = some ⟨0x01, 0x01, 0x00, 0xFD, 0x8001, clear, 2, 0x00⟩ := by
  decide

/-- The mode after one step, and the opcode recorded. -/
def stop1 (s : State) : Option (CpuMode × Byte) :=
  match step s with
  | .next t => some (t.cpu.mode, t.cpu.opcode)
  | _ => none

theorem test_V196_stp : stop1 (machine [0x02] cpu0 [] []) = some (.jammed, 0x02) := by decide

theorem test_V197_refused : stop1 (machine [0x8B] cpu0 [] []) = some (.refused, 0x8B) := by decide

theorem test_R370_no_further_step :
    step { State.reset with cpu := { cpu0 with mode := .refused, opcode := 0x8B } } = .refused (.unstableOpcode 0x8B) :=
  rfl

/-! ### Ports, memory map, pipeline, DMA, interrupts: vectors of sections 2.2-2.6 -/

/-- The PPU vectors' machine: rendering off, line 250. -/
def idle : State :=
  { State.reset with ppu := { State.reset.ppu with pos := { State.reset.ppu.pos with line := 250 } } }

/-- A machine at a dot with PPUMASK. -/
def atDot (line : Int) (dot : Nat) (mask : Byte) : State :=
  { State.reset with ppu := { State.reset.ppu with
      regs := { State.reset.ppu.regs with mask := mask }
      pos := { State.reset.ppu.pos with line := line, dot := dot } } }

/-- The PPU registers of a machine changed. -/
def withRegs (f : PpuRegs → PpuRegs) (s : State) : State := { s with ppu := { s.ppu with regs := f s.ppu.regs } }

/-- The open-bus latch of a machine set. -/
def withBus (d : Byte) (s : State) : State := { s with ppu := { s.ppu with bus := { s.ppu.bus with latch := d } } }

theorem test_V108_ppuctrl :
    (perform (.write 0x2000 0x03) idle).ppu.regs.t = 0x0C00 ∧ (perform (.write 0x2000 0x03) idle).ppu.bus.latch = 0x03 := by
  decide

theorem test_V111_ppuscroll :
    let s := perform (.write 0x2005 0x5E) (perform (.write 0x2005 0x7D) idle)
    s.ppu.regs.t = 0x616F ∧ s.ppu.regs.xFine = 5 ∧ s.ppu.regs.w = false ∧ s.ppu.regs.v = 0 := by
  decide

theorem test_V112_ppuaddr :
    let s := perform (.write 0x2006 0x08) (perform (.write 0x2006 0x21) idle)
    s.ppu.regs.v = 0x2108 ∧ s.ppu.regs.t = 0x2108 ∧ s.ppu.regs.w = false := by
  decide

theorem test_V113_ppuaddr_clears_bit_14 :
    (perform (.write 0x2006 0xFF) (withRegs (fun r => { r with t := 0x7FFF }) idle)).ppu.regs.t = 0x3FFF := by
  decide

theorem test_V115_palette_through_mirror :
    let s := perform (.write 0x2007 0x2C) (withRegs (fun r => { r with v := 0x3F10 }) idle)
    Memory.read s.ppu.palette 0 = 0x2C ∧ s.ppu.regs.v = 0x3F11 := by
  decide

theorem test_V116_increment_32 :
    let s := perform (.write 0x2007 0x11) (withRegs (fun r => { r with v := 0x2000, ctrl := 0x04 }) idle)
    s.video.ppuRead 0x2000 = 0x11 ∧ s.ppu.regs.v = 0x2020 := by
  decide

/-- The start of V119-V121. -/
def paletteRead (mask latch : Byte) : State :=
  let s := withBus latch (withRegs (fun r => { r with v := 0x3F00, mask := mask }) idle)
  { s with ppu := { s.ppu with palette := [(0, 0x2C)] }, cart := s.cart.writeNt 0x2F00 0x77 }

theorem test_V119_palette_read :
    let s := perform (.read 0x2007) (paletteRead 0x00 0x00)
    s.cpuBus = 0x2C ∧ s.ppu.regs.readBuffer = 0x77 ∧ s.ppu.regs.v = 0x3F01 ∧ s.ppu.bus.latch = 0x2C := by
  decide

theorem test_V120_palette_read_greyscale : (perform (.read 0x2007) (paletteRead 0x01 0x00)).cpuBus = 0x20 := by decide

theorem test_V121_palette_read_open_bus : (perform (.read 0x2007) (paletteRead 0x00 0xC0)).cpuBus = 0xEC := by decide

theorem test_V122_read_in_rendering :
    let s := perform (.read 0x2007) (withBus 0x5A (atDot 10 100 0x08))
    s.cpuBus = 0x5A ∧ s.ppu.regs.v = 0x1001 := by
  decide

theorem test_V123_write_in_rendering :
    let s := perform (.write 0x2007 0x11) (withRegs (fun r => { r with v := 0x2000 }) (atDot 10 100 0x08))
    s.video.ppuRead 0x2000 = 0x00 ∧ s.ppu.regs.v = 0x3001 := by
  decide

theorem test_V124_status :
    let s := perform (.read 0x2002) (withBus 0x1F (withRegs (fun r => { r with vbl := true, w := true }) idle))
    s.cpuBus = 0x9F ∧ s.ppu.regs.vbl = false ∧ s.ppu.regs.w = false ∧ s.ppu.bus.latch = 0x9F := by
  decide

theorem test_V125_status_open_bus :
    (perform (.read 0x2002) (withBus 0x0A (withRegs (fun r => { r with s0h := true, sov := true }) idle))).cpuBus = 0x6A := by
  decide

theorem test_V127_oam_attribute_read :
    let s := withRegs (fun r => { r with oamAddr := 2 }) idle
    let t := perform (.read 0x2004) { s with ppu := { s.ppu with oam := [(2, 0xFF)] } }
    t.cpuBus = 0xE3 ∧ t.ppu.regs.oamAddr = 2 := by
  decide

theorem test_V129_oam_write_in_rendering :
    let s := perform (.write 0x2004 0xAA) (withRegs (fun r => { r with oamAddr := 0x20 }) (atDot 10 100 0x10))
    s.ppu.oam = [] ∧ s.ppu.regs.oamAddr = 0x24 := by
  decide

theorem test_V130_oam_read_while_clearing : (perform (.read 0x2004) (atDot 10 30 0x18)).cpuBus = 0xFF := by decide

theorem test_V131_oam_address_wraps :
    let s := perform (.write 0x2004 0x01) (withRegs (fun r => { r with oamAddr := 0xFF }) idle)
    Memory.read s.ppu.oam 0xFF = 0x01 ∧ s.ppu.regs.oamAddr = 0x00 := by
  decide

theorem test_V135_port_mirrors :
    let s := perform (.write 0x200C 0xAA) (perform (.write 0x3FFB 0x10) idle)
    Memory.read s.ppu.oam 0x10 = 0xAA ∧ s.ppu.regs.oamAddr = 0x11 := by
  decide

theorem test_V136_V137_coarse_x : incCoarseX 0x001F = 0x0400 ∧ incCoarseX 0x041F = 0x0000 := by decide

theorem test_V138_V140_fine_y : incFineY 0x73A0 = 0x0800 ∧ incFineY 0x73E0 = 0x0000 ∧ incFineY 0x1000 = 0x2000 := by decide

theorem test_V141_V142_attribute_address :
    atAddr 0x03BF = 0x23FF ∧ atShift 0x03BF = 2 ∧ ntAddr 0 = 0x2000 ∧ atAddr 0 = 0x23C0 ∧ atShift 0 = 0 := by
  decide

theorem test_V143_pattern_address :
    bgPatternAddr { State.reset.ppu with
      regs := { PpuRegs.reset with ctrl := 0x10, v := 0x3000 }, bg := { BgPipe.reset with ntLatch := 0x41 } } = 0x1413 := by
  decide

theorem test_V144_horizontal_copy :
    (ppuDot (withRegs (fun r => { r with v := 0x7FFF }) (atDot 5 257 0x08))).ppu.regs.v = 0x7BE0 := by
  decide

theorem test_V147_short_frame :
    let s := atDot (-1) 339 0x08
    (ppuDot { s with ppu := { s.ppu with pos := { s.ppu.pos with oddFrame := true } } }).ppu.pos.place = (0, 0, true) := by
  decide

theorem test_V149_vblank :
    (ppuDot (atDot 241 1 0x00)).ppu.regs.vbl = true
      ∧ (ppuDot (withRegs (fun r => { r with vbl := true }) (atDot (-1) 1 0x00))).ppu.regs.vbl = false := by
  decide

theorem test_V155_oamaddr_forced_to_0 :
    (ppuDot (withRegs (fun r => { r with oamAddr := 0x40 }) (atDot 5 257 0x08))).ppu.regs.oamAddr = 0 := by
  decide

theorem test_V159_empty_slot_address :
    { State.reset.ppu with regs := { PpuRegs.reset with ctrl := 0x08 } }.spritePatternAddr 0 = 0x1FF0 := by
  decide

theorem test_V169_V170_ram_mirrors :
    (perform (.read 0x1812) { idle with ram := [(0x12, 0x34)] }).cpuBus = 0x34
      ∧ Memory.read (perform (.write 0x1FFF 0x56) idle).ram 0x07FF = 0x56 := by
  decide

theorem test_V173_dma_register_read :
    let s := perform (.read 0x4014) (withBus 0x5A idle)
    s.cpuBus = 0x5A ∧ s.ppu.bus.latch = 0x5A := by
  decide

theorem test_V174_controller :
    (perform (.read 0x4016)
      { idle with cpuBus := 0x40, pads := { Device.fresh with answers := [0x01] } }).cpuBus = 0x41 := by
  decide

theorem test_V175_prg_mirror :
    (perform (.read 0xC123)
      { idle with cart := { Cart.blank with prgSize := .k16, prg := [(0x0123, 0x77)] } }).cpuBus = 0x77 := by
  decide

theorem test_V177_V178_palette_alias :
    (idle.video.ppuWrite 0x3F1C 0x15).ppuRead 0x3F0C = 0x15
      ∧ (idle.video.ppuWrite 0x3F11 0x15).ppuRead 0x3F01 = 0x00 := by
  decide

theorem test_V180_V181_mirroring :
    ({ idle.video with cart := { Cart.blank with mirroring := .vertical } }.ppuWrite 0x2800 0x99).ppuRead 0x2000 = 0x99
      ∧ (idle.video.ppuWrite 0x2400 0x99).ppuRead 0x2000 = 0x99
      ∧ (idle.video.ppuWrite 0x2800 0x99).ppuRead 0x2000 = 0x00 := by
  decide

/-- A DMA about to start at cycle `c`. -/
def dmaAt (c : Nat) : State := { idle with cycle := c, dma := { idle.dma with active := true, page := 0x02 } }

theorem test_V162_V163_dma_start :
    (dmaCycle (dmaAt 101)).dma.step = .read ∧ (dmaCycle (dmaAt 3092)).dma.step = .align
      ∧ (dmaCycle (dmaCycle (dmaAt 3092))).dma.step = .read := by
  decide

/-- A NOP at $8000 with the IRQ line held high and flags `p`; the mode after it. -/
def nopUnderIrq (code : List Byte) (p : Flags) : Option CpuMode :=
  match step { machine code { cpu0 with p := p } [] [] with apuIrq := { level := true, changes := [] } } with
  | .next t => some t.cpu.mode
  | _ => none

theorem test_V183_V184_irq :
    nopUnderIrq [0xEA] clear = some (.intSeq .irq) ∧ nopUnderIrq [0xEA] { clear with i := true } = some .run := by
  decide

theorem test_V185_V186_cli_sei :
    nopUnderIrq [0x58] { clear with i := true } = some .run ∧ nopUnderIrq [0x78] clear = some (.intSeq .irq) := by
  decide

/-- A table word placed where the next step fetches: LDA #$7F as the first instruction after reset. -/
theorem test_withFetchWord :
    run1 (State.reset.withFetchWord 16 0x7FA9) 0x0001 = some ⟨0x7F, 0, 0, 0, 2, State.reset.cpu.p, 2, 0x7F⟩ := by
  decide

/-- The indexed stores and read-modify-write forms, and a NOP whose index crosses a page. -/
theorem test_indexed_V9_V38_V93_V106 :
    (run1 (machine [0x9D, 0x00, 0x02] { cpu0 with a := 0x42, x := 0x01 } [] []) 0x0201
        = some ⟨0x42, 0x01, 0x00, 0xFD, 0x8003, clear, 5, 0x42⟩)
    ∧ (run1 (machine [0xFE, 0x00, 0x02] { cpu0 with x := 0x01 } [] [(0x0201, 0x7F)]) 0x0201
        = some ⟨0x00, 0x01, 0x00, 0xFD, 0x8003, { clear with n := true }, 7, 0x80⟩)
    ∧ (run1 (machine
          [0xF3, 0x20] { cpu0 with a := 0x05, p := { clear with c := true } } [] [(0x0021, 0x03), (0x0300, 0x01)]) 0x0300
        = some ⟨0x03, 0x00, 0x00, 0xFD, 0x8002, { clear with c := true }, 8, 0x02⟩)
    ∧ (run1 (machine [0x1C, 0xFF, 0x80] { cpu0 with x := 0x01 } [] []) 0x0010
        = some ⟨0x00, 0x01, 0x00, 0xFD, 0x8003, clear, 5, 0x00⟩) := by
  decide +kernel

/-- The jumps. -/
theorem test_jumps_V61_V62_V63 :
    (run1 (machine [0x4C, 0x00, 0xC0] cpu0 [] []) 0x0010
        = some ⟨0x00, 0x00, 0x00, 0xFD, 0xC000, clear, 3, 0x00⟩)
    ∧ (run1 (machine [0x6C, 0xFF, 0x02] cpu0 [] [(0x0200, 0x80), (0x02FF, 0x40)]) 0x0010
        = some ⟨0x00, 0x00, 0x00, 0xFD, 0x8040, clear, 5, 0x00⟩)
    ∧ (run1 (machine [0x20, 0x00, 0x90] cpu0 [] []) 0x01FD
        = some ⟨0x00, 0x00, 0x00, 0xFB, 0x9000, clear, 6, 0x80⟩) := by
  decide +kernel

/-- The test area reads open bus; the IRQ sequence; BRK taken over by an NMI; the reset sequence (95_test_vectors.md). -/
theorem test_sequences_V172_V183_V191_S1 :
    (run1 (machine [0xAD, 0x18, 0x40] cpu0 [] []) 0 = some ⟨0x40, 0, 0, 0xFD, 0x8003, clear, 4, 0⟩)
    ∧ (run1 (machine [0xEA] { cpu0 with mode := .intSeq .irq, pc := 0x8001 } [] []) 0x01FB
        = some ⟨0, 0, 0, 0xFA, 0x9000, { clear with i := true }, 7, 0x20⟩)
    ∧ (let s := machine [0x00] cpu0 [] []
      run1 { s with
          arb := { s.arb with nmiLatch := true }
          cart := { s.cart with prg := Memory.write s.cart.prg 0x7FFB 0xA0 } } 0x01FB
        = some ⟨0, 0, 0, 0xFA, 0xA000, { clear with i := true }, 7, 0x30⟩)
    ∧ (run1 { State.reset with cart := { Cart.blank with prg := [(0x7FFD, 0x80)] } } 0
        = some ⟨0, 0, 0, 0xFD, 0x8000, { clear with i := true }, 7, 0⟩) := by
  decide +kernel

/-- Between the cycles of INC $10 (40_addressing_modes.md R205): T3 has read the byte, T4 has written it back and formed the
result, T5 writes the result. -/
theorem test_cycles_of_inc :
    let s := machine [0xE6, 0x10] cpu0 [] [(0x10, 0x7F)]
    let i := Instr.incZp 0x10
    (cyclesBefore 2 i s).cpu.data = 0x7F ∧ (cyclesBefore 2 i s).cycle = 3 ∧ (cyclesBefore 1 i s).cpu.data = 0x80
      ∧ ramAt (cyclesBefore 1 i s) 0x10 = 0x7F ∧ ramAt (cyclesBefore 0 i s) 0x10 = 0x80 := by
  decide

/-! ### Witnesses: for each statement with hypotheses, a state and operands that meet them together

The power-on state is undisturbed for any number of cycles; the instructions named are those whose operands lie at the
ends of their ranges. -/

theorem undisturbed_of_none {s : State} (k : Nat) (hd : s.dma.active = false) (hr : s.resetAt = []) : undisturbed k s :=
  ⟨hd, by simp [hr]⟩

/-- A reset asserted exactly at the first boundary after `k` cycles leaves them undisturbed. -/
theorem witness_undisturbed_at_the_boundary : undisturbed 8 { State.reset with resetAt := [8] } :=
  ⟨rfl, by simp [State.reset, State.powerOn]⟩

theorem witness_LoadsTakeTheOperandAndSetNZ :
    undisturbed 8 State.reset
      ∧ ∀ i ∈ [Instr.ldaIzy 0xFF, .ldxImm 0x00, .ldyAbx 0xFFFF], i.mnemonic ∈ [Mnemonic.lda, .ldx, .ldy] :=
  ⟨undisturbed_of_none 8 rfl rfl, by decide⟩

theorem witness_StoresWriteTheRegister :
    undisturbed 8 State.reset
      ∧ ∀ i ∈ [Instr.staAbs 0x4014, .stxZpy 0xFF, .styAbs 0x2000], i.mnemonic ∈ [Mnemonic.sta, .stx, .sty] :=
  ⟨undisturbed_of_none 8 rfl rfl, by decide⟩

theorem witness_TransfersCopyARegister :
    undisturbed 2 State.reset
      ∧ ∀ i ∈ [Instr.tax, .tay, .txa, .tya, .tsx, .txs],
        i.mnemonic ∈ [Mnemonic.tax, .tay, .txa, .tya, .tsx, .txs] :=
  ⟨undisturbed_of_none 2 rfl rfl, by decide⟩

theorem witness_AdcAddsWithCarryInBinary : undisturbed 8 State.reset ∧ (Instr.adcImm 0x80).mnemonic = .adc :=
  ⟨undisturbed_of_none 8 rfl rfl, rfl⟩

theorem witness_SbcSubtractsWithBorrow :
    undisturbed 8 State.reset ∧ ∀ i ∈ [Instr.sbcAbx 0x00FF, .usbc 0xFF], i.mnemonic ∈ [Mnemonic.sbc, .usbc] :=
  ⟨undisturbed_of_none 8 rfl rfl, by decide⟩

theorem witness_LogicCombinesAWithTheOperand :
    undisturbed 8 State.reset
      ∧ ∀ i ∈ [Instr.andIzx 0xFF, .oraAby 0xFFFF, .eorZpx 0x80], i.mnemonic ∈ [Mnemonic.and, .ora, .eor] :=
  ⟨undisturbed_of_none 8 rfl rfl, by decide⟩

theorem witness_ComparesSetNZC :
    undisturbed 8 State.reset
      ∧ ∀ i ∈ [Instr.cmpIzy 0x00, .cpxImm 0xFF, .cpyAbs 0x2007], i.mnemonic ∈ [Mnemonic.cmp, .cpx, .cpy] :=
  ⟨undisturbed_of_none 8 rfl rfl, by decide⟩

theorem witness_BitTestsTheMemoryByte : undisturbed 8 State.reset ∧ (Instr.bitAbs 0x2002).mnemonic = .bit :=
  ⟨undisturbed_of_none 8 rfl rfl, rfl⟩

/-- The two addresses beside $4014, and page 0's last. -/
theorem witness_IncDecChangeMemoryByOne :
    undisturbed 8 State.reset
      ∧ ∀ p ∈ [(Instr.incAbs 0x4013, 0x4013#16), (.decAbx 0x4015, 0x4015#16), (.incZp 0xFF, 0x00FF#16)],
        p.1.mnemonic ∈ [Mnemonic.inc, .dec] ∧ p.1.mode.ea State.reset = some p.2 ∧ p.2 ≠ 0x4014#16 :=
  ⟨undisturbed_of_none 8 rfl rfl, by decide⟩

theorem witness_IndexRegistersCountByOne :
    undisturbed 2 State.reset
      ∧ ∀ i ∈ [Instr.inx, .iny, .dex, .dey], i.mnemonic ∈ [Mnemonic.inx, .iny, .dex, .dey] :=
  ⟨undisturbed_of_none 2 rfl rfl, by decide⟩

theorem witness_ShiftsAndRotates :
    undisturbed 8 State.reset ∧ undisturbed 2 State.reset
      ∧ (∀ p ∈ [(Instr.aslAbs 0x4013, 0x4013#16), (.lsrAbx 0x4015, 0x4015#16), (.rolZp 0xFF, 0x00FF#16),
          (.rorZpx 0x00, 0x0000#16)],
        p.1.mnemonic ∈ [Mnemonic.asl, .lsr, .rol, .ror] ∧ p.1.mode.ea State.reset = some p.2 ∧ p.2 ≠ 0x4014#16)
      ∧ ∀ i ∈ [Instr.aslAcc, .lsrAcc, .rolAcc, .rorAcc],
        i.mnemonic ∈ [Mnemonic.asl, .lsr, .rol, .ror] ∧ i.mode = .accumulator :=
  ⟨undisturbed_of_none 8 rfl rfl, undisturbed_of_none 2 rfl rfl, by decide⟩

theorem witness_BranchesFollowTheirFlag :
    undisturbed 4 State.reset ∧ ∀ p ∈ [(Instr.bpl 0x80, 0x80#8), (.beq 0x7F, 0x7F#8)], p.1.mode = .relative p.2 :=
  ⟨undisturbed_of_none 4 rfl rfl, by decide⟩

theorem witness_JumpsLoadPc : undisturbed 5 State.reset := undisturbed_of_none 5 rfl rfl

theorem witness_SubroutineCallAndReturn : undisturbed 6 State.reset := undisturbed_of_none 6 rfl rfl

/-- An APU that holds its interrupt output high, with flags `p`. -/
def held (p : Flags) : State :=
  { State.reset with apuIrq := { level := true, changes := [] }, cpu := { State.reset.cpu with p := p } }

theorem witness_RtiRestoresPAndPc : undisturbed 6 (held allSet) ∧ irqHeld (held allSet)
    ∧ (pulled (held allSet) 1).getLsbD 2 = false :=
  ⟨undisturbed_of_none 6 rfl rfl, rfl, by decide⟩

/-- The latch set; and clear, with PPUCTRL.7 = 0. -/
theorem witness_BrkTakesTheSoftwareInterrupt :
    (let s := { State.reset with arb := { State.reset.arb with nmiLatch := true } }
     undisturbed 7 s ∧ s.arb.nmiLatch = true)
    ∧ undisturbed 7 State.reset ∧ State.reset.arb.nmiLatch = false ∧ State.reset.ppu.regs.ctrl.getLsbD 7 = false :=
  ⟨⟨undisturbed_of_none 7 rfl rfl, rfl⟩, undisturbed_of_none 7 rfl rfl, rfl, rfl⟩

theorem witness_PushesStoreAtS :
    undisturbed 3 State.reset ∧ ∀ i ∈ [Instr.pha, .php], i.mnemonic ∈ [Mnemonic.pha, .php] :=
  ⟨undisturbed_of_none 3 rfl rfl, by decide⟩

/-- I set; and I clear under a held IRQ. -/
theorem witness_PullsReadAboveS :
    undisturbed 4 (held allSet) ∧ (held allSet).cpu.p.i = true
      ∧ undisturbed 4 (held clear) ∧ (held clear).cpu.p.i = false ∧ irqHeld (held clear) :=
  ⟨undisturbed_of_none 4 rfl rfl, rfl, undisturbed_of_none 4 rfl rfl, rfl, rfl⟩

theorem witness_FlagInstructionsSetOneFlag :
    undisturbed 2 (held allSet) ∧ (held allSet).cpu.p.i = true ∧ undisturbed 2 (held clear)
      ∧ (held clear).cpu.p.i = false ∧ irqHeld (held clear)
      ∧ ∀ i ∈ [Instr.clc, .sec, .cli, .sei, .cld, .sed, .clv],
        i.mnemonic ∈ [Mnemonic.clc, .sec, .cli, .sei, .cld, .sed, .clv] :=
  ⟨undisturbed_of_none 2 rfl rfl, rfl, undisturbed_of_none 2 rfl rfl, rfl, rfl, by decide⟩

theorem witness_NopsChangeNothingButPc :
    undisturbed 8 State.reset
      ∧ ∀ i ∈ [Instr.nop, .nopImplied .op1A, .nopImm80 0xFF, .nopAbxFC 0xFFFF], i.mnemonic = .nop :=
  ⟨undisturbed_of_none 8 rfl rfl, by decide⟩

theorem witness_LaxLoadsAAndXAndSaxStoresTheirAnd :
    undisturbed 8 State.reset ∧ (Instr.laxIzy 0xFF).mnemonic = .lax ∧ (Instr.saxAbs 0x4014).mnemonic = .sax :=
  ⟨undisturbed_of_none 8 rfl rfl, rfl, rfl⟩

theorem witness_DcpComparesAndIsbSubtracts :
    undisturbed 8 State.reset
      ∧ ∀ p ∈ [(Instr.dcpAby 0x4013, 0x4013#16), (.isbAbx 0x4015, 0x4015#16), (.isbIzy 0xFF, 0x0000#16)],
        p.1.mnemonic ∈ [Mnemonic.dcp, .isb] ∧ p.1.mode.ea State.reset = some p.2 ∧ p.2 ≠ 0x4014#16 :=
  ⟨undisturbed_of_none 8 rfl rfl, by decide⟩

theorem witness_ShiftAndCombineOpcodes :
    undisturbed 8 State.reset
      ∧ ∀ p ∈ [(Instr.sloAbs 0x4013, 0x4013#16), (.rlaAbx 0x4015, 0x4015#16), (.sreZpx 0xFF, 0x00FF#16),
          (.rraIzx 0xFF, 0x0000#16)],
        p.1.mnemonic ∈ [Mnemonic.slo, .rla, .sre, .rra] ∧ p.1.mode.ea State.reset = some p.2 ∧ p.2 ≠ 0x4014#16 :=
  ⟨undisturbed_of_none 8 rfl rfl, by decide⟩

theorem witness_ImmediateCombinedOpcodes :
    undisturbed 2 State.reset
      ∧ ∀ p ∈ [(Instr.anc0B 0xFF, 0xFF#8), (.anc2B 0x00, 0x00#8), (.alr 0x01, 0x01#8), (.arr 0x80, 0x80#8),
          (.axs 0xFF, 0xFF#8)],
        p.1.mnemonic ∈ [Mnemonic.anc, .alr, .arr, .axs] ∧ p.1.mode = .immediate p.2 :=
  ⟨undisturbed_of_none 2 rfl rfl, by decide⟩

theorem witness_UnstableOpcodesAreRefused :
    undisturbed 1 State.reset
      ∧ (∀ i ∈ [Instr.xaa 0, .ahxIzy 0, .ahxAby 0, .tas 0, .shy 0, .shx 0, .lxa 0, .las 0],
        i.mnemonic ∈ [Mnemonic.xaa, .ahx, .tas, .shy, .shx, .lxa, .las])
      ∧ { State.reset.cpu with mode := .refused }.mode = .refused :=
  ⟨undisturbed_of_none 1 rfl rfl, by decide, rfl⟩

/-- A jammed machine: with no DMA, with one, and with a reset due at this very boundary. -/
theorem witness_StpJamsUntilReset :
    undisturbed 1 State.reset
      ∧ (let s := { State.reset with cpu := { State.reset.cpu with mode := .jammed } }
        s.cpu.mode = .jammed ∧ resetDue s = false ∧ s.dma.active = false
          ∧ { s.dma with active := true }.active = true ∧ resetDue { s with resetAt := [1] } = false
          ∧ resetDue { s with resetAt := [0] } = true) :=
  ⟨undisturbed_of_none 1 rfl rfl, by decide⟩

theorem witness_EveryInstructionTakesItsCycles :
    undisturbed 8 State.reset
      ∧ ∀ i ∈ [Instr.incAbs 0x4013, .aslAcc, .brk, .stp .op02],
        i.tag = .rmw → i.mode.ea State.reset ≠ some 0x4014#16 :=
  ⟨undisturbed_of_none 8 rfl rfl, by decide⟩

/-- A one-byte, a two-byte and a three-byte opcode, exactly as long as they must be and one byte short. -/
theorem witness_EveryByteStringDecodes :
    reads [0xEA] = some (.nop, []) ∧ opcodeLength 0xEA = 1 ∧ opcodeLength 0xA9 = 2 ∧ opcodeLength 0x4C = 3 := by
  decide

/-- A JSR whose third byte its own push overwrites: S = $FD, PC = $01FB. -/
def jsrOnStack : State :=
  { State.reset with
    cpu := { cpu0 with pc := 0x01FB }
    ram := [(0x01FB, 0x20), (0x01FC, 0x34), (0x01FD, 0x99)] }

theorem witness_StepRunsTheInstructionAtPc :
    (undisturbed 8 (machine [0xA9, 0x7F] cpu0 [] []) ∧ (machine [0xA9, 0x7F] cpu0 [] []).cpu.mode = .run
      ∧ standsAtPc (.ldaImm 0x7F) (machine [0xA9, 0x7F] cpu0 [] []))
    ∧ undisturbed 8 jsrOnStack ∧ jsrOnStack.cpu.mode = .run ∧ standsAtPc (.jsr 0x0134) jsrOnStack :=
  ⟨⟨undisturbed_of_none 8 rfl rfl, rfl, by unfold standsAtPc; decide⟩, undisturbed_of_none 8 rfl rfl, rfl,
    by unfold standsAtPc; decide⟩

/-- A machine in another mode, one in mode `refused`, and one whose step enters it. -/
theorem witness_OnlyUnstableOpcodesStopTheMachine :
    State.reset.cpu.mode ≠ .refused ∧ { State.reset.cpu with mode := .refused }.mode = .refused
      ∧ (let s := machine [0x9B] cpu0 [] []
        s.cpu.mode ≠ .refused ∧ ∃ t, step s = .next t ∧ t.cpu.mode = .refused) :=
  ⟨by decide, rfl, by decide, _, rfl, by decide⟩

/-- The machine of the NOP vector. -/
def nopMachine : State := machine [0xEA] cpu0 [] []

theorem witness_EveryStepKeepsTheInvariant : Inv nopMachine ∧ ∃ t, step nopMachine = .next t :=
  ⟨{ ram := by unfold Memory.fits; decide
     ppu := {
       oam := by unfold Memory.fits; decide
       secOam := by unfold Memory.fits; decide
       palette := ⟨by unfold Memory.fits; decide, fun _ => show (0 : Nat) < 64 by decide⟩
       frame := by unfold frameFits; decide
       line := by decide
       dot := by decide
       decay := by decide
       slots := by decide
       count := by decide
       found := by decide
       copying := by decide }
     nt := by unfold Memory.fits; decide
     chr := by unfold Cart.chrFits; decide
     prg := by unfold Memory.fits; decide
     dma := by decide }, _, rfl⟩

theorem witness_ProgramRomAndParametersNeverChange :
    (∃ t, step nopMachine = .next t)
      ∧ ∃ t, step { nopMachine with cart := { nopMachine.cart with chrIsRam := false } } = .next t :=
  ⟨⟨_, rfl⟩, _, rfl⟩

/-- The three cases of the poll, on an idle cycle of the machine with the latch set, with a held IRQ, and with neither. -/
theorem witness_ThePenultimateCyclePolls :
    (let s := { State.reset with arb := { State.reset.arb with nmiLatch := true } }
     undisturbed 1 s ∧ (cpuCyc .penult (fun _ => .idle) (fun _ c => c) s).arb.nmiLatch = true)
    ∧ (let t := cpuCyc .penult (fun _ => .idle) (fun _ c => c) (held clear)
      undisturbed 1 (held clear) ∧ t.arb.nmiLatch = false ∧ t.arb.irqSample = true ∧ t.cpu.p.i = false)
    ∧ (let t := cpuCyc .penult (fun _ => .idle) (fun _ c => c) (held allSet)
      undisturbed 1 (held allSet) ∧ t.arb.nmiLatch = false ∧ t.cpu.p.i = true) :=
  ⟨⟨undisturbed_of_none 1 rfl rfl, by decide⟩, ⟨undisturbed_of_none 1 rfl rfl, by decide⟩,
    undisturbed_of_none 1 rfl rfl, by decide⟩

/-- An instruction's own poll: an NMI latched; the IRQ line held, I clear and set, RTI's pulled I clear and set; nothing that
asks, over mapper 0 and over an external mapper. -/
theorem witness_ThePenultimateCyclePolls_instructions :
    (∀ i ∈ [Instr.ldaImm 0, .staAbs 0x2000, .incAbs 0x4014, .bpl 0x80, .jsr 0, .plp, .rti],
        i.mnemonic ∉ [.brk, .stp, .xaa, .ahx, .tas, .shy, .shx, .lxa, .las])
      ∧ (let s := { State.reset with arb := { State.reset.arb with nmiLatch := true } }
        undisturbed 8 s ∧ s.arb.nmiLatch = true)
      ∧ (undisturbed 8 (held clear) ∧ irqHeld (held clear) ∧ (held clear).cpu.p.i = false
        ∧ (held allSet).cpu.p.i = true ∧ (pulled (held clear) 1).getLsbD 2 = false)
      ∧ (let s := { held clear with ram := [(0x0101, 0x04)] }
        undisturbed 8 s ∧ (pulled s 1).getLsbD 2 = true)
      ∧ ∀ kind ∈ [MapperKind.nrom, .external],
        let s := { State.reset with cart := { State.reset.cart with kind := kind } }
        undisturbed 8 s ∧ s.arb.nmiLatch = false ∧ s.ppu.regs.ctrl.getLsbD 7 = false ∧ irqLow s :=
  ⟨by decide, ⟨undisturbed_of_none 8 rfl rfl, rfl⟩,
    ⟨undisturbed_of_none 8 rfl rfl, rfl, by decide, by decide, by decide⟩, ⟨undisturbed_of_none 8 rfl rfl, by decide⟩,
    fun _ _ => ⟨undisturbed_of_none 8 rfl rfl, rfl, (by decide : State.reset.ppu.regs.ctrl.getLsbD 7 = false), rfl, .inr rfl⟩⟩

/-- A machine about to take an interrupt sequence, with the NMI latch as given. -/
def taking (kind : IntKind) (latch : Bool) : State :=
  { State.reset with
    cpu := { cpu0 with mode := .intSeq kind }, arb := { State.reset.arb with nmiLatch := latch } }

theorem witness_HardwareInterruptSequence :
    undisturbed 7 (taking .nmi false) ∧ undisturbed 7 (taking .irq true) ∧ undisturbed 7 (taking .irq false)
      ∧ IntKind.nmi ≠ .brk ∧ IntKind.irq ≠ .brk ∧ (taking .nmi false).cpu.mode = .intSeq .nmi
      ∧ (taking .irq true).cpu.mode = .intSeq .irq ∧ (taking .irq true).arb.nmiLatch = true
      ∧ (taking .irq false).arb.nmiLatch = false ∧ (taking .irq false).ppu.regs.ctrl.getLsbD 7 = false :=
  ⟨undisturbed_of_none 7 rfl rfl, undisturbed_of_none 7 rfl rfl, undisturbed_of_none 7 rfl rfl, by decide⟩

theorem witness_TheVectorIsChosenAtTheT6Access : undisturbed 2 (taking .irq true) := undisturbed_of_none 2 rfl rfl

theorem witness_TheResetSequenceLoadsPc :
    undisturbed 7 State.reset ∧ State.reset.cpu.mode = .resetSeq
      ∧ (∀ n ∈ { PowerOn.default with resetAt := [7] }.resetAt.head?, 7 ≤ n) ∧ PowerOn.default.cart.kind = .nrom :=
  ⟨undisturbed_of_none 7 rfl rfl, rfl, by simp, rfl⟩

/-- A reset due at the boundary itself, and one long due. -/
theorem witness_HostResetClearsWhatTheSpecNames :
    (let s := { State.reset with resetAt := [0] }
     s.cpu.mode ≠ .refused ∧ resetDue s = true)
    ∧ (let s := { State.reset with resetAt := [5], cycle := 9, cpu := { State.reset.cpu with mode := .jammed } }
      s.cpu.mode ≠ .refused ∧ resetDue s = true) := by
  decide

/-- A jammed machine. -/
def jammedMachine : State := { State.reset with cpu := { State.reset.cpu with mode := .jammed } }

/-- It ticks: its step is one cycle. -/
theorem witness_TheCycleSchedule :
    resetDue jammedMachine = false ∧ (∃ t, step jammedMachine = .next t)
      ∧ (PerCycle.now { start := jammedMachine, cycles := 0 }).cpu.mode ≠ .refused
      ∧ ∃ d, PerCycle.tick { start := jammedMachine, cycles := 0 } = .next d :=
  have h : PerCycle.over { start := jammedMachine, cycles := 0 } = false := by decide
  ⟨rfl, ⟨_, rfl⟩, by decide, { start := jammedMachine, cycles := 1 }, by simp [PerCycle.tick, h]⟩

/-- The ends of each range of the decoder, and both kinds of cartridge. -/
theorem witness_TheBusDecoder :
    (∀ a ∈ [0x0000#16, 0x1FFF#16], a.toNat < 0x2000)
      ∧ (∀ a ∈ [0x4000#16, 0x4013#16, 0x4015#16], a.toNat < 0x4014 ∧ 0x4000 ≤ a.toNat ∨ a.toNat = 0x4015)
      ∧ (0x4014#16).toNat = 0x4014 ∧ (0x4016#16).toNat = 0x4016 ∧ (0x4017#16).toNat = 0x4017
      ∧ (∀ a ∈ [0x4018#16, 0x401F#16], 0x4018 ≤ a.toNat ∧ a.toNat < 0x4020)
      ∧ (∀ a ∈ [0x4020#16, 0x7FFF#16, 0x8000#16, 0xFFFF#16], 0x4020 ≤ a.toNat) ∧ Cart.blank.kind = .nrom
      ∧ { Cart.blank with kind := .external }.kind = .external :=
  ⟨by simp, by simp, rfl, rfl, rfl, by simp, by simp, rfl, rfl⟩

/-- Every port at the first and the last of its mirrors, with w clear and set. -/
theorem witness_PortWrites :
    (∀ k ∈ List.range 8, isPort k (BitVec.ofNat 16 (0x2000 + k)) ∧ isPort k (BitVec.ofNat 16 (0x3FF8 + k)))
      ∧ State.reset.ppu.bus.decay.length = 8 ∧ State.reset.ppu.regs.w = false
      ∧ (withRegs (fun r => { r with w := true }) State.reset).ppu.regs.w = true := by
  decide

/-- At the racing dot of the vblank line, and at the dot after it. -/
theorem witness_StatusRead :
    isPort 2 0x2002#16 ∧ (atDot 241 1 0).ppu.bus.decay.length = 8
      ∧ ((atDot 241 1 0).ppu.pos.line = (atDot 241 1 0).cfg.region.nmiLine ∧ (atDot 241 1 0).ppu.pos.dot = 1)
      ∧ (atDot 241 2 0).ppu.pos.dot ≠ 1 := by
  decide

/-- Rendering, on a visible and on the pre-render line; and not, with v at the last nametable address and at the first
palette address. -/
theorem witness_PpuDataAccess :
    isPort 7 0x2007#16 ∧ renderingNow (atDot 239 100 0x08) ∧ renderingNow (atDot (-1) 340 0x10)
      ∧ ¬ renderingNow (atDot 240 100 0x18) ∧ ¬ renderingNow idle ∧ idle.ppu.bus.decay.length = 8
      ∧ (0x3EFF#14).toNat = (0x3EFF#15).toNat % 0x4000 ∧ (0x3F00#14).toNat = (0x3F00#15).toNat % 0x4000
      ∧ (0x3FFF#14).toNat = (0x7FFF#15).toNat % 0x4000 ∧ (0x0000#14).toNat = (0x4000#15).toNat % 0x4000 := by
  decide

/-- Dots 1 and 64 of a visible line, where a read may see the clearing; dots 0 and 65, where it does not. -/
theorem witness_OamDataAccess :
    isPort 4 0x2004#16 ∧ State.reset.ppu.bus.decay.length = 8
      ∧ (∀ dot ∈ [1, 64], let s := atDot 0 dot 0x08
        renderingOn s ∧ visibleLine s ∧ 1 ≤ s.ppu.pos.dot ∧ s.ppu.pos.dot ≤ 64 ∧ s.cfg.clearRead = .ff)
      ∧ (∀ dot ∈ [0, 65], let s := atDot 0 dot 0x08
        ¬ (renderingOn s ∧ visibleLine s ∧ 1 ≤ s.ppu.pos.dot ∧ s.ppu.pos.dot ≤ 64 ∧ s.cfg.clearRead = .ff))
      ∧ renderingNow (atDot 0 65 0x08) ∧ ¬ renderingNow (atDot 0 65 0x07) := by
  decide

/-- Both mappers; CHR-RAM and CHR-ROM; the last pattern address and the first of the nametables, each the cell of itself. -/
theorem witness_PpuMemoryReadsBackThroughItsMirrors :
    (idle.video.cart.kind = .nrom ∧ idle.video.cart.chrIsRam = true)
      ∧ (∀ ram ∈ [true, false], let c := { idle.video.cart with kind := .external, chrIsRam := ram }
        c.kind = .external ∧ c.chrIsRam = ram
          ∧ Config.mapperChrCell c.log 0x1FFF#14 = Config.mapperChrCell c.log 0x1FFF#14)
      ∧ 0x2000 ≤ (0x2000#14).toNat ∧ (0x1FFF#14).toNat < 0x2000
      ∧ ppuCell .horizontal 0x2000 = ppuCell .horizontal 0x2400 := by
  refine ⟨by decide, fun _ _ => ⟨rfl, rfl, rfl⟩, by decide⟩

/-- A counter one dot short of the decay time, and one that reaches it. -/
theorem witness_OpenBusRefreshAndDecay :
    (∀ k ∈ [0, 1, 3, 5, 6], isPort k (BitVec.ofNat 16 (0x2000 + k))) ∧ State.reset.ppu.bus.decay.length = 8
      ∧ (let b : OpenBus := { latch := 0xFF, decay := [3216308, 3216309, 0, 0, 0, 0, 0, 0] }
        b.decay.length = 8 ∧ 3216308 ∈ b.decay[0]? ∧ 3216309 ∈ b.decay[1]?
          ∧ 3216308 + 3 < State.reset.cfg.decayDots ∧ ¬ 3216309 + 3 < State.reset.cfg.decayDots) := by
  decide

/-- The skipped dot, the last dot of a line, of the last line of each region; and the start of a frame. -/
theorem witness_FramesHaveTheirLength :
    (let s := atDot (-1) 339 0x08
      let o := { s with ppu := { s.ppu with pos := { s.ppu.pos with oddFrame := true } } }
      o.ppu.pos.place = (-1, 339, true) ∧ o.cfg.region = .ntsc ∧ renderingOn o)
    ∧ (atDot 5 340 0).ppu.pos.place = (5, 340, false) ∧ (atDot 260 340 0).ppu.pos.place = (260, 340, false)
    ∧ Region.ntsc.numLines - 2 = 260 ∧ Region.pal.numLines - 2 = 310 ∧ Region.dendy.numLines - 2 = 310
    ∧ State.reset.ppu.pos.line = -1 ∧ State.reset.ppu.pos.dot = 0 := by
  decide

theorem witness_VblankIsSetAndCleared :
    ((atDot 241 1 0).ppu.pos.line = (atDot 241 1 0).cfg.region.nmiLine ∧ (atDot 241 1 0).ppu.pos.dot = 1
      ∧ (atDot 241 1 0).ppu.pos.vblSuppress = false)
    ∧ (atDot (-1) 1 0).ppu.pos.line = -1 ∧ (atDot (-1) 1 0).ppu.pos.dot = 1
    ∧ (∀ p ∈ [(0, 0), (0, 257), (239, 340), (240, 2), (-1, 2)],
      let s := atDot p.1 p.2 0x18
      ¬ (renderingOn s ∧ visibleLine s ∧ 1 ≤ s.ppu.pos.dot ∧ s.ppu.pos.dot ≤ 256))
    ∧ ∀ p ∈ [(0, 257), (240, 1), (-1, 2)],
      let s := atDot p.1 p.2 0x18
      let t := { s with ppu := { s.ppu with regs := { s.ppu.regs with s0h := true } } }
      t.ppu.regs.s0h = true ∧ ¬ (t.ppu.pos.line = -1 ∧ t.ppu.pos.dot = 1) := by
  decide

/-- The first and the last pixel of a visible line, and the dots beside them; and with rendering enabled the lines that render
nothing. -/
theorem witness_RenderingDisabledOnlyShowsTheBackdrop :
    (∀ p ∈ [(0, 1), (239, 256), (0, 0), (239, 257), (240, 1), (-1, 2)], ¬ renderingNow (atDot p.1 p.2 0xE7))
      ∧ ∀ line ∈ [240, 241, 260], ¬ renderingNow (atDot line 1 0x18) := by
  decide

/-- Every dot that a clause names, on a visible line or the pre-render line. -/
theorem witness_ScrollRegisterInRendering :
    (∀ dot ∈ [8, 248, 256, 257, 328, 336, 0, 1, 264, 320, 340], renderingNow (atDot 0 dot 0x08))
      ∧ (∀ dot ∈ [280, 304, 279, 305], renderingNow (atDot (-1) dot 0x10)) ∧ ¬ renderingNow (atDot 240 8 0x08)
      ∧ isPort 7 0x2007#16
      ∧ (0x001F#15).extractLsb' 0 5 = 31#5 ∧ (0x001E#15).extractLsb' 0 5 ≠ 31#5
      ∧ (0x7000#15).extractLsb' 12 3 = 7#3 ∧ (0x6FFF#15).extractLsb' 12 3 ≠ 7#3 := by
  decide

theorem witness_BackgroundFetchAndShift :
    (∀ dot ∈ [0, 1, 2, 4, 5, 8, 9, 256, 257, 258, 321, 322, 328, 329, 336, 337, 340],
      let s := atDot (-1) dot 0x08
      renderingNow s ∧ s.cart.kind = .nrom ∧ s.ppu.pos.dot ≤ 340)
      ∧ ¬ renderingNow (atDot 240 1 0x08) ∧ ¬ renderingNow (atDot (-1) 1 0) := by
  decide

/-- A machine at a dot of a visible line with an evaluator. -/
def evaluating (dot : Nat) (e : Evaluator) : State :=
  let s := atDot 16 dot 0x10
  { s with ppu := { s.ppu with ev := e } }

/-- The dots where the clauses meet, in each phase; entries in range, in range by one line, and not. -/
theorem witness_SpriteEvaluation :
    (∀ dot ∈ [0, 1, 2, 63, 64, 65, 66, 67, 255, 256, 257], ∀ e ∈ [Evaluator.reset,
        { Evaluator.reset with phase := .copy, n := 63, m := 3, found := 7 },
        { Evaluator.reset with phase := .overflow, n := 63, found := 8 }],
      let s := evaluating dot e
      renderingOn s ∧ (s.ppu.ev.phase = .copy → s.ppu.ev.found < 8) ∧ visibleLine s)
      ∧ onNextLine (atDot 16 66 0x10) 16 ∧ onNextLine (atDot 16 66 0x10) 9 ∧ ¬ onNextLine (atDot 16 66 0x10) 8
      ∧ ¬ onNextLine (atDot 16 66 0x10) 17 := by
  decide

/-- The first and the last dot of the first and of the last slot, one slot occupied by a sprite in range; and the
pre-render line, with none. -/
theorem witness_SpriteFetch :
    (∀ dot ∈ [257, 262, 264, 313, 320],
      let s := evaluating dot { Evaluator.reset with found := 1 }
      let t := { s with ppu := { s.ppu with secOam := [(0, 0x10)] } }
      renderingNow t ∧ t.cart.kind = .nrom ∧ 257 ≤ t.ppu.pos.dot ∧ t.ppu.pos.dot ≤ 320
        ∧ onNextLine t (secOamByte t 0 0))
      ∧ (257 - 257) / 8 < 1 ∧ (320 - 257) % 8 = 7 ∧ 1 ≤ (320 - 257) / 8
      ∧ (260 - 257) % 8 < 4 ∧ 4 ≤ (261 - 257) % 8 ∧ (261 - 257) / 8 < 1
      ∧ (263 - 257) % 8 ≠ 5
      ∧ renderingNow (atDot (-1) 257 0x10)
      ∧ ∀ dot ∈ [0, 1, 256, 321, 340], let s := atDot 0 dot 0x18
        ¬ (renderingNow s ∧ 257 ≤ s.ppu.pos.dot ∧ s.ppu.pos.dot ≤ 320) := by
  decide

/-- The pixels where a clause changes: 0, 1, 7, 8 and 255. -/
theorem witness_PixelAndSprite0Hit :
    (∀ dot ∈ [1, 2, 8, 9, 256], let s := atDot 239 dot 0x18
      renderingOn s ∧ visibleLine s ∧ 1 ≤ s.ppu.pos.dot ∧ s.ppu.pos.dot ≤ 256)
      ∧ ∀ p ∈ [(0, 0), (239, 257), (240, 1), (-1, 256)], let s := atDot p.1 p.2 0x18
        ¬ (visibleLine s ∧ 1 ≤ s.ppu.pos.dot ∧ s.ppu.pos.dot ≤ 256) := by
  decide

/-- A DMA that starts at an even and at an odd cycle, a reset asserted at the first boundary it allows. -/
theorem witness_OamDmaCopiesAPage :
    ∀ c ∈ [0, 1], let s := { dmaAt c with resetAt := [c + 514] }
      s.dma.active = true ∧ s.dma.step = .halt ∧ s.dma.index = 0 ∧ s.cpu.mode ≠ .refused
        ∧ (∀ m ∈ s.resetAt.head?, s.cycle + 514 ≤ m) ∧ ¬ renderingOn s := by
  decide

/-- Where a DMA meets no dot of rendering, and where it meets no other: the first and the last lines that the clauses allow. -/
theorem witness_OamDmaCopiesAPage_rendering :
    (∀ line ∈ [240, 253], let s := atDot line 340 0x18
        renderingOn s ∧ s.cfg.region.visibleLines ≤ s.ppu.pos.line ∧ s.ppu.pos.line + 7 < s.cfg.region.numLines - 1)
      ∧ ∀ line ∈ [-1, 232], let s := atDot line 340 0x10
        renderingOn s ∧ -1 ≤ s.ppu.pos.line ∧ s.ppu.pos.line + 7 < s.cfg.region.visibleLines := by
  decide

theorem witness_RmwOnOamDmaRegister :
    let s := { State.reset with resetAt := [522] }
    (Instr.incAbs 0x4014).tag = .rmw ∧ (Instr.incAbs 0x4014).mode.ea s = some 0x4014#16 ∧ s.dma.active = false
      ∧ ∀ n ∈ s.resetAt.head?, s.cycle + 522 ≤ n := by
  decide

end Sys2Proof.Tests
end

section
/-! The decoder over byte strings (30_encoding.md R150, R157, R158): its answer for every length of string, then O29. -/

namespace Sys2Proof.Proofs.ByteStrings

open Sys2Proof Sys2Proof.Machine

/-- An opcode announces one, two or three bytes (30_encoding.md R151). -/
theorem opcodeLength_bounds (op : Byte) : 1 ≤ opcodeLength op ∧ opcodeLength op ≤ 3 := by
  obtain ⟨i, hi, henc⟩ := decodeOp_encode op 0 0
  have announced : opcodeLength op = (encode i).length := by rw [opcodeLength, hi]; rfl
  rw [henc, List.length_cons, List.length_take] at announced
  simp only [List.length_cons, List.length_nil] at announced
  omega

/-- The two look-ahead bytes that `decode` reads agree with the string on as many bytes as the string has. -/
theorem take_lookahead {rest : List Byte} {n : Nat} (two : n ≤ 2) (enough : n ≤ rest.length) :
    [rest.getD 0 0, rest.getD 1 0].take n = rest.take n := by
  match rest, n with
  | _, 0 => simp
  | b :: _, 1 => simp
  | b :: c :: _, 2 => simp

theorem decode_of_short {op : Byte} {rest : List Byte} (short : rest.length + 1 < opcodeLength op) :
    decode (op :: rest) = .error (.truncated op) :=
  if_pos short

/-- A string long enough for its opcode is split into the encoding of an instruction and what follows it. -/
theorem decode_of_long {op : Byte} {rest : List Byte} (long : opcodeLength op ≤ rest.length + 1) :
    ∃ i, decode (op :: rest) = .ok (i, rest.drop (opcodeLength op - 1))
      ∧ encode i = op :: rest.take (opcodeLength op - 1) := by
  have bounds := opcodeLength_bounds op
  obtain ⟨i, hi, henc⟩ := decodeOp_encode op (rest.getD 0 0) (rest.getD 1 0)
  refine ⟨i, ?_, ?_⟩
  · rw [decode, if_neg (by omega), hi]
  · rw [henc, take_lookahead (by omega) (by omega)]

/-- A string that is decoded is the encoding of the instruction and the bytes left over. -/
theorem eq_encode_append_of_decode {bytes : List Byte} {i : Instr} {after : List Byte}
    (h : decode bytes = .ok (i, after)) : bytes = encode i ++ after := by
  cases bytes with
  | nil => cases h
  | cons op rest =>
    rcases Nat.lt_or_ge (rest.length + 1) (opcodeLength op) with short | long
    · rw [decode_of_short short] at h
      cases h
    · obtain ⟨j, hdecode, henc⟩ := decode_of_long long
      obtain ⟨rfl, rfl⟩ : j = i ∧ rest.drop (opcodeLength op - 1) = after := by simpa [hdecode] using h
      rw [henc, List.cons_append, List.take_append_drop]

/-- Settles O29: two bytes after the opcode are always enough, and a string long enough for its opcode is cut where the
encoding of its instruction ends. -/
theorem everyByteStringDecodes : Obligations.EveryByteStringDecodes := by
  unfold Obligations.EveryByteStringDecodes
  refine ⟨fun op b1 b2 rest => ?_, fun _ _ _ => eq_encode_append_of_decode, rfl,
    fun op rest => ⟨decode_of_short, fun long => ?_⟩⟩
  · have enough : opcodeLength op ≤ (b1 :: b2 :: rest).length + 1 := by
      have := (opcodeLength_bounds op).2
      simp only [List.length_cons]
      omega
    obtain ⟨i, hdecode, henc⟩ := decode_of_long enough
    exact ⟨i, _, hdecode, by simp [Instr.opcode, henc]⟩
  · obtain ⟨i, hdecode, -⟩ := decode_of_long long
    exact ⟨_, hdecode⟩

end Sys2Proof.Proofs.ByteStrings
end

section
/-! Cycle counts (40_addressing_modes.md R220): the count of every form of instruction that `Runs` names, then O27. -/

namespace Sys2Proof.Proofs.CycleCounts

open Sys2Proof Sys2Proof.Machine

/-! ### What no instruction changes -/

/-- The parameters, and PRG-ROM read byte by byte, are as before. -/
structure FixedKept (s t : State) : Prop where
  cfg : t.cfg = s.cfg
  prg : ∀ a, Memory.read t.cart.prg a = Memory.read s.cart.prg a

theorem fixedKept_of_storageKept {s t : State} (cfg : t.cfg = s.cfg) (storage : storageKept s t) : FixedKept s t := by
  refine ⟨cfg, fun a => ?_⟩
  obtain ⟨-, -, -, -, prg⟩ := storage a
  exact prg

theorem fixedKept_of_storesNothing {s t : State} (h : storesNothing s t) : FixedKept s t :=
  have ⟨_, storage, cfg, _⟩ := h
  fixedKept_of_storageKept cfg storage

theorem fixedKept_of_pushes {bytes : List Byte} {s t : State} (h : pushes bytes s t) : FixedKept s t :=
  have ⟨_, storage, cfg, _⟩ := h
  fixedKept_of_storageKept cfg storage

theorem fixedKept_of_stores {a : Word} {v : Byte} {s t : State} (h : stores a v s t) : FixedKept s t :=
  have ⟨_, prg, cfg, _⟩ := h
  ⟨cfg, prg⟩

theorem fixedKept_of_keeps {s t : State} (h : Keeps s t) : FixedKept s t := fixedKept_of_storageKept h.cfg h.storage

/-! ### The counts that the laws of the tags do not give -/

theorem cyclesOf_implied {i : Instr} (h : twoCycle i = true) (s : State) : cyclesOf i s = 2 := by
  simp only [twoCycle, Bool.and_eq_true, Bool.or_eq_true, decide_eq_true_eq] at h
  obtain ⟨cycles, mode | mode⟩ := h <;> simp [cyclesOf, cycles, mode, Mode.crosses]

/-- An unstable opcode's count is its opcode fetch (46_undocumented.md R370). -/
theorem cyclesOf_untagged {i : Instr} (h : i.tag = .untagged) (s : State) : cyclesOf i s = 1 := by
  revert h
  cases i <;> first | (intro h; exact Tag.noConfusion h) | (intro; rfl)

theorem row_cycles_branch {i : Instr} {off : Byte} (h : i.mode = .relative off) : i.row.cycles = 2 := by
  revert h
  cases i <;> first | (intro h; exact Mode.noConfusion h) | (intro; rfl)

/-- A branch takes two cycles, one more if it is taken, and one more if its target is in another page. -/
theorem cyclesOf_branch {i : Instr} {off : Byte} (h : i.mode = .relative off) (s : State) :
    cyclesOf i s = 2 + if i.mnemonic.taken s.cpu.p then
      (if samePage (s.cpu.pc + 2 + sext8 off) (s.cpu.pc + 2) then 1 else 2) else 0 := by
  simp only [cyclesOf, row_cycles_branch h, h, nextPc, Mode.bytes]

/-! ### Every instruction -/

/-- Instruction `i` takes `s` to `t` in the cycles of its row. -/
structure Completes (i : Instr) (s t : State) : Prop where
  exec : exec i s = .next t
  cycle : t.cycle = s.cycle + cyclesOf i s
  fixed : FixedKept s t

theorem completes_rmw {i : Instr} {s : State} (h : undisturbed 8 s) (tag : i.tag = .rmw)
    (noDma : i.mode.ea s ≠ some 0x4014#16) : ∃ t, Completes i s t := by
  obtain ⟨a, ea⟩ := ea_rmw tag s
  obtain ⟨t, _, _, _, done⟩ := rmw_done h tag ea fun at4014 => noDma (at4014 ▸ ea)
  exact ⟨t, done.exec, done.cycle, fixedKept_of_stores done.stores⟩

theorem completes_branch {i : Instr} {s : State} {off : Byte} (h : undisturbed 4 s) (mode : i.mode = .relative off) :
    ∃ t, Completes i s t := by
  have jumped := relative_spec h i.opcode off i.mnemonic.taken
  exact ⟨_, exec_branch i s off mode, by rw [jumped.cycle, cyclesOf_branch mode], fixedKept_of_keeps jumped.keeps⟩

/-- Every instruction completes, by the law of the operation that carries it out. -/
theorem exec_completes {i : Instr} {s : State} (h : undisturbed 8 s) (noDma : i.tag = .rmw → i.mode.ea s ≠ some 0x4014#16) :
    ∃ t, Completes i s t := by
  cases exec_runs i s with
  | read tag _ =>
    obtain ⟨t, _, _, done⟩ := read_done h tag
    exact ⟨t, done.exec, done.cycle, fixedKept_of_storesNothing done.kept⟩
  | write tag _ =>
    obtain ⟨t, _, _, done⟩ := write_done h tag
    exact ⟨t, done.exec, done.cycle, fixedKept_of_stores done.stores⟩
  | rmw tag _ => exact completes_rmw h tag (noDma tag)
  | implied two _ _ =>
    obtain ⟨t, done⟩ := implied_done (h.mono (by decide)) two
    exact ⟨t, done.exec, by rw [done.cycle, cyclesOf_implied two], fixedKept_of_storesNothing done.kept⟩
  | branch off mode _ _ => exact completes_branch (h.mono (by decide)) mode
  | unstable tag eq =>
    obtain ⟨keeps, cycle, -⟩ := stop_spec (h.mono (by decide)) i.opcode .refused
    exact ⟨_, eq, cycle.trans (by rw [cyclesOf_untagged tag]), fixedKept_of_keeps keeps⟩
  | stp row is eq =>
    obtain ⟨keeps, cycle, -⟩ := stop_spec (h.mono (by decide)) i.opcode .jammed
    exact ⟨_, eq, by subst is; exact cycle, fixedKept_of_keeps keeps⟩
  | brk is eq =>
    obtain ⟨_, _, _, taken⟩ := interruptSequence_spec (h.mono (by decide)) .brk
    exact ⟨_, eq, by subst is; exact taken.cycle, fixedKept_of_pushes taken.pushes⟩
  | php is eq =>
    obtain ⟨_, -, stored, cycle, -⟩ := pushReg_spec (h.mono (by decide)) 0x08#8 fun c => c.p.toByte true
    exact ⟨_, eq, by subst is; exact cycle, fixedKept_of_pushes stored⟩
  | pha is eq =>
    obtain ⟨_, -, stored, cycle, -⟩ := pushReg_spec (h.mono (by decide)) 0x48#8 Cpu.a
    exact ⟨_, eq, by subst is; exact cycle, fixedKept_of_pushes stored⟩
  | plp is eq =>
    obtain ⟨_, keeps, cycle, -⟩ := pullReg_spec (h.mono (by decide)) 0x28#8 fun d c => { c with p := .ofByte d }
    exact ⟨_, eq, by subst is; exact cycle, fixedKept_of_keeps keeps⟩
  | pla is eq =>
    obtain ⟨_, keeps, cycle, -⟩ := pullReg_spec (h.mono (by decide)) 0x68#8 fun d c => { c with a := d, p := c.p.setZN d }
    exact ⟨_, eq, by subst is; exact cycle, fixedKept_of_keeps keeps⟩
  | rti is eq =>
    obtain ⟨keeps, cycle, -⟩ := returnInt_spec (h.mono (by decide)) 0x40#8
    exact ⟨_, eq, by subst is; exact cycle, fixedKept_of_keeps keeps⟩
  | rts is eq =>
    obtain ⟨keeps, cycle, -⟩ := returnSub_spec (h.mono (by decide)) 0x60#8
    exact ⟨_, eq, by subst is; exact cycle, fixedKept_of_keeps keeps⟩
  | jsr addr is eq =>
    obtain ⟨stored, cycle, -⟩ := callAbs_spec (h.mono (by decide)) 0x20#8 addr
    exact ⟨_, eq, by subst is; exact cycle, fixedKept_of_pushes stored⟩
  | jmpAbs addr is eq =>
    have jumped := jumpAbs_spec (h.mono (by decide)) 0x4C#8 addr
    exact ⟨_, eq, by subst is; exact jumped.cycle, fixedKept_of_keeps jumped.keeps⟩
  | jmpInd ptr is eq =>
    obtain ⟨_, _, -, -, jumped⟩ := jumpInd_spec (h.mono (by decide)) 0x6C#8 ptr
    exact ⟨_, eq, by subst is; exact jumped.cycle, fixedKept_of_keeps jumped.keeps⟩

/-- Settles O27: by the operation that carries the instruction out, whose law gives its count and what it keeps. -/
theorem everyInstructionTakesItsCycles : Obligations.EveryInstructionTakesItsCycles := by
  unfold Obligations.EveryInstructionTakesItsCycles
  intro i s h noDma
  obtain ⟨t, done⟩ := exec_completes h noDma
  exact ⟨t, done.exec, done.cycle, done.fixed.cfg, done.fixed.prg⟩

end Sys2Proof.Proofs.CycleCounts
end

section
/-! Loads, stores and transfers (41_load_store_transfer.md): what a Read and a Write answer, in the registers the machine
had before them; then O1, O2 and O3. -/

namespace Sys2Proof.Proofs.LoadStoreTransfer

open Sys2Proof Sys2Proof.Machine

/-! ### The operations on registers that are those before -/

theorem regs_of_sameRegs {len : Word} {s : State} {c : Cpu} (same : SameRegs len s c) :
    regs c = regs { s.cpu with pc := s.cpu.pc + len } := by
  obtain ⟨a, x, y, sp, p, -, pc⟩ := same
  simp only [regs, a, x, y, sp, p, pc]

/-- The operation of a Read reads only its operand and the registers. -/
theorem regs_readOp {c c' : Cpu} (same : regs c = regs c') (k : Mnemonic) (m : Byte) :
    regs (readOp k m c) = regs (readOp k m c') := by
  simp only [regs, Prod.mk.injEq] at same
  obtain ⟨a, x, y, sp, pc, p⟩ := same
  cases k <;>
    simp only [readOp, regs, a, x, y, sp, pc, p, Alu.lda, Alu.ldx, Alu.ldy, Alu.adc, Alu.sbc, Alu.addTo, Alu.and, Alu.ora,
      Alu.eor, Alu.cmp, Alu.cpx, Alu.cpy, Alu.bit, Alu.lax, Alu.anc, Alu.alr, Alu.arr, Alu.axs, Alu.nop]

/-- The byte a Write stores depends on the registers alone. -/
theorem storeOp_of_sameRegs {len : Word} {s : State} {c : Cpu} (same : SameRegs len s c) (k : Mnemonic) :
    storeOp k c = storeOp k s.cpu := by
  obtain ⟨a, x, y, -, -, -, -⟩ := same
  cases k <;> simp only [storeOp, Alu.sax, a, x, y]

/-! ### What a Read and a Write answer -/

/-- A Read instruction takes `s` to `t` with operand `m`. -/
structure ReadAnswers (i : Instr) (m : Byte) (s t : State) : Prop where
  exec : exec i s = .next t
  operand : operandIs i.mode s t m
  last : lastCycleReads i s t
  regs : regs t.cpu = regs (readOp i.mnemonic m { s.cpu with pc := nextPc i s })
  kept : storesNothing s t
  cycle : t.cycle = s.cycle + cyclesOf i s
  ended : ended s t

theorem read_answers {i : Instr} {s : State} (h : undisturbed 8 s) (tag : i.tag = .read) :
    ∃ t m, ReadAnswers i m s t := by
  obtain ⟨t, m, c, done⟩ := read_done h tag
  refine ⟨t, m, done.exec, done.operand, fun a ea => read_last h tag ea done.exec, ?_, done.kept, done.cycle, done.ended⟩
  rw [done.cpu, regs_endCpu]
  exact regs_readOp (regs_of_sameRegs done.same) i.mnemonic m

/-- A Write instruction takes `s` to `t`, its store at `a`. -/
structure WriteAnswers (i : Instr) (a : Word) (s t : State) : Prop where
  exec : exec i s = .next t
  ea : i.mode.ea s = some a
  stores : stores a (storeOp i.mnemonic s.cpu) s t
  last : lastCycleWrites i a (storeOp i.mnemonic s.cpu) s t
  regs : regs t.cpu = regs { s.cpu with pc := nextPc i s }
  cycle : t.cycle = s.cycle + cyclesOf i s
  ended : ended s t

/-- A Write leaves the byte it stores on the bus. -/
theorem write_bus {i : Instr} {s t : State} (h : undisturbed 8 s) (tag : i.tag = .write) (he : exec i s = .next t) :
    t.cpuBus = storeOp i.mnemonic s.cpu := by
  obtain ⟨a, ea⟩ := ea_write tag s
  obtain ⟨c, wrote⟩ := writeMode_at h i.mode i.opcode (storeOp i.mnemonic) ea
  rw [exec_write i s tag] at he
  cases he
  rw [wrote.bus, storeOp_of_sameRegs wrote.sameRegs]

theorem write_answers {i : Instr} {s : State} (h : undisturbed 8 s) (tag : i.tag = .write) :
    ∃ t a, WriteAnswers i a s t := by
  obtain ⟨t, a, c, done⟩ := write_done h tag
  refine ⟨t, a, done.exec, done.ea, ?_, ?_, ?_, done.cycle, done.ended⟩
  · rw [← storeOp_of_sameRegs done.same]
    exact done.stores
  · rw [← write_bus h tag done.exec]
    exact write_last h tag done.ea done.exec
  · rw [done.cpu, regs_endCpu]
    exact regs_of_sameRegs done.same

/-! ### Loads (41_load_store_transfer.md R240-R242) -/

/-- What a load does to the CPU, as the rules write it. -/
theorem readOp_load {k : Mnemonic} (load : k ∈ [.lda, .ldx, .ldy]) (m : Byte) (c : Cpu) :
    readOp k m c = { c with
      a := if k = .lda then m else c.a
      x := if k = .ldx then m else c.x
      y := if k = .ldy then m else c.y
      p := zn m c.p } := by
  simp only [List.mem_cons, List.not_mem_nil, or_false] at load
  rw [← setZN_eq]
  rcases load with rfl | rfl | rfl <;> rfl

/-- Settles O1: a load is a Read whose operation is `readOp_load`. -/
theorem loadsTakeTheOperandAndSetNZ : Obligations.LoadsTakeTheOperandAndSetNZ := by
  unfold Obligations.LoadsTakeTheOperandAndSetNZ
  refine ⟨by decide, by decide, by decide, fun i s h load => ?_⟩
  have tag : i.tag = .read := tag_read (List.mem_append_left _ load)
  obtain ⟨t, m, done⟩ := read_answers h tag
  refine ⟨t, m, done.exec, done.operand, done.last, ?_, done.kept, done.cycle, done.ended⟩
  rw [done.regs, readOp_load load]

/-! ### Stores (41_load_store_transfer.md R243-R245) -/

/-- The register a store writes. -/
theorem storeOp_store {k : Mnemonic} (store : k ∈ [.sta, .stx, .sty]) (c : Cpu) :
    storeOp k c = if k = .sta then c.a else if k = .stx then c.x else c.y := by
  simp only [List.mem_cons, List.not_mem_nil, or_false] at store
  rcases store with rfl | rfl | rfl <;> rfl

/-- Settles O2: a store is a Write of the byte `storeOp_store` names. -/
theorem storesWriteTheRegister : Obligations.StoresWriteTheRegister := by
  unfold Obligations.StoresWriteTheRegister
  refine ⟨by decide, by decide, by decide, fun i s h store => ?_⟩
  have tag : i.tag = .write := tag_write (List.mem_append_left _ store)
  obtain ⟨t, a, done⟩ := write_answers h tag
  exact ⟨t, a, _, done.exec, done.ea, storeOp_store store s.cpu, done.stores, done.last, done.regs, done.cycle, done.ended⟩

/-! ### Transfers (41_load_store_transfer.md R246-R251) -/

/-- Settles O3: a transfer is a two-cycle instruction, whose operation is the rule's for each of the six mnemonics. -/
theorem transfersCopyARegister : Obligations.TransfersCopyARegister := by
  unfold Obligations.TransfersCopyARegister
  refine ⟨by decide, by decide, by decide, by decide, by decide, by decide, fun i s h transfer => ?_⟩
  have two : twoCycle i = true := twoCycle_of_mnemonic (List.mem_append_left _ transfer)
  obtain ⟨t, done⟩ := implied_done h two
  refine ⟨t, done.exec, ?_, done.kept, done.cycle, done.ended⟩
  rw [done.regs]
  generalize i.mnemonic = k at transfer ⊢
  simp only [List.mem_cons, List.not_mem_nil, or_false] at transfer
  simp only [← setZN_eq]
  rcases transfer with rfl | rfl | rfl | rfl | rfl | rfl <;> rfl

end Sys2Proof.Proofs.LoadStoreTransfer
end

section
/-! Arithmetic, logic, compare, and the counting of the index registers (42_arithmetic_logic.md): the operation of each
mnemonic as the rules write it, on the CPU registers; then O4, O5, O6, O7 and O10. -/

namespace Sys2Proof.Proofs.ArithmeticLogic

open Sys2Proof Sys2Proof.Machine Sys2Proof.Proofs.LoadStoreTransfer

/-! ### Addition and subtraction (42_arithmetic_logic.md R260-R262) -/

theorem addTo_eq (b : Byte) (c : Cpu) :
    Alu.addTo b c = { c with a := (add8 c.a b c.p.c c.p).1, p := (add8 c.a b c.p.c c.p).2 } := by
  obtain ⟨result, flags⟩ := add_eq c.a b c.p
  rw [Alu.addTo, result, flags]

/-- A and P are among the registers. -/
theorem a_p_of_regs {c c' : Cpu} (same : regs c = regs c') : c.a = c'.a ∧ c.p = c'.p := by
  simp only [regs, Prod.mk.injEq] at same
  obtain ⟨a, -, -, -, -, p⟩ := same
  exact ⟨a, p⟩

/-- SBC and USBC add the complement of the operand. -/
theorem readOp_sub {k : Mnemonic} (sub : k ∈ [.sbc, .usbc]) (m : Byte) (c : Cpu) :
    readOp k m c = Alu.addTo (m ^^^ 0xFF#8) c := by
  simp only [List.mem_cons, List.not_mem_nil, or_false] at sub
  rcases sub with rfl | rfl <;> rfl

/-- Settles O4: ADC is a Read whose operation is `addTo_eq`; D has no part in it. -/
theorem adcAddsWithCarryInBinary : Obligations.AdcAddsWithCarryInBinary := by
  unfold Obligations.AdcAddsWithCarryInBinary
  refine ⟨by decide, fun i s h adc => ?_⟩
  have tag : i.tag = .read := tag_read (by rw [adc]; decide)
  obtain ⟨t, m, done⟩ := read_answers h tag
  have op (c : Cpu) : readOp i.mnemonic m c = Alu.addTo m c := by rw [adc]; rfl
  refine ⟨t, m, done.exec, done.operand, done.last, ?_, done.kept, done.cycle, done.ended⟩
  rw [done.regs, op, addTo_eq]

/-- Settles O5: SBC and USBC are Reads that add the complement (`readOp_sub`), which is the subtraction by `sbc_arith`. -/
theorem sbcSubtractsWithBorrow : Obligations.SbcSubtractsWithBorrow := by
  unfold Obligations.SbcSubtractsWithBorrow
  refine ⟨by decide, by decide, fun i s h sub => ?_⟩
  have tag : i.tag = .read := tag_read (List.subset_def.mp (by decide) sub)
  obtain ⟨t, m, done⟩ := read_answers h tag
  have after := done.regs
  rw [readOp_sub sub, addTo_eq] at after
  obtain ⟨a, p⟩ : t.cpu.a = (add8 s.cpu.a (m ^^^ 0xFF#8) s.cpu.p.c s.cpu.p).1
      ∧ t.cpu.p = (add8 s.cpu.a (m ^^^ 0xFF#8) s.cpu.p.c s.cpu.p).2 := a_p_of_regs after
  obtain ⟨difference, noBorrow, overflow⟩ := sbc_arith s.cpu.a m s.cpu.p
  rw [← a] at difference
  rw [← p] at noBorrow overflow
  exact ⟨t, m, done.exec, done.operand, done.last, after, difference, noBorrow, overflow, done.kept, done.cycle, done.ended⟩

/-! ### Logic (42_arithmetic_logic.md R263-R265) -/

/-- The result of AND, ORA and EOR. -/
def logicResult (k : Mnemonic) (a m : Byte) : Byte :=
  if k = .and then a &&& m else if k = .ora then a ||| m else a ^^^ m

theorem readOp_logic {k : Mnemonic} (logic : k ∈ [.and, .ora, .eor]) (m : Byte) (c : Cpu) :
    readOp k m c = { c with a := logicResult k c.a m, p := zn (logicResult k c.a m) c.p } := by
  simp only [List.mem_cons, List.not_mem_nil, or_false] at logic
  rw [← setZN_eq]
  rcases logic with rfl | rfl | rfl <;> rfl

/-- Settles O6: AND, ORA and EOR are Reads whose operation is `readOp_logic`. -/
theorem logicCombinesAWithTheOperand : Obligations.LogicCombinesAWithTheOperand := by
  unfold Obligations.LogicCombinesAWithTheOperand
  refine ⟨by decide, by decide, by decide, fun i s h logic => ?_⟩
  have tag : i.tag = .read := tag_read (List.subset_def.mp (by decide) logic)
  obtain ⟨t, m, done⟩ := read_answers h tag
  refine ⟨t, m, logicResult i.mnemonic s.cpu.a m, done.exec, done.operand, done.last, rfl, ?_, done.kept, done.cycle,
    done.ended⟩
  rw [done.regs, readOp_logic logic]

/-! ### Compare (42_arithmetic_logic.md R266-R269) -/

theorem readOp_compare {k : Mnemonic} (cmp : k ∈ [.cmp, .cpx, .cpy]) (m : Byte) (c : Cpu) :
    readOp k m c = { c with p := compared (if k = .cmp then c.a else if k = .cpx then c.x else c.y) m c.p } := by
  simp only [List.mem_cons, List.not_mem_nil, or_false] at cmp
  rw [← compare_eq]
  rcases cmp with rfl | rfl | rfl <;> rfl

/-- Settles O7: a compare is a Read whose operation is `readOp_compare`. -/
theorem comparesSetNZC : Obligations.ComparesSetNZC := by
  unfold Obligations.ComparesSetNZC
  refine ⟨by decide, by decide, by decide, fun i s h cmp => ?_⟩
  have tag : i.tag = .read := tag_read (List.subset_def.mp (by decide) cmp)
  obtain ⟨t, m, done⟩ := read_answers h tag
  refine ⟨t, m, done.exec, done.operand, done.last, ?_, done.kept, done.cycle, done.ended⟩
  rw [done.regs, readOp_compare cmp]

/-! ### Counting an index register (42_arithmetic_logic.md R273-R276) -/

/-- The register that INX, DEX, INY or DEY counts, after it. -/
def counted (k : Mnemonic) (c : Cpu) : Byte :=
  (if k ∈ [.inx, .dex] then c.x else c.y) + if k ∈ [.inx, .iny] then 1 else 255

/-- Adding 255 is subtracting 1, modulo 256. -/
theorem toNat_counted (k : Mnemonic) (c : Cpu) :
    (counted k c).toNat = ((if k ∈ [.inx, .dex] then c.x.toNat else c.y.toNat)
      + if k ∈ [.inx, .iny] then 1 else 255) % 256 := by
  rw [counted, BitVec.toNat_add, apply_ite BitVec.toNat, apply_ite BitVec.toNat]
  rfl

theorem impliedOp_count {k : Mnemonic} (count : k ∈ [.inx, .iny, .dex, .dey]) (c : Cpu) :
    impliedOp k c = { c with
      x := if k ∈ [.inx, .dex] then counted k c else c.x
      y := if k ∈ [.inx, .dex] then c.y else counted k c
      p := zn (counted k c) c.p } := by
  have minusOne (r : Byte) : r - 1 = r + 255 := BitVec.sub_eq_add_neg r 1
  simp only [List.mem_cons, List.not_mem_nil, or_false] at count
  rw [← setZN_eq]
  rcases count with rfl | rfl | rfl | rfl
  · rfl
  · rfl
  · rw [impliedOp, Alu.dex, minusOne]; rfl
  · rw [impliedOp, Alu.dey, minusOne]; rfl

/-- Settles O10: each of the four is a two-cycle instruction whose operation is `impliedOp_count`. -/
theorem indexRegistersCountByOne : Obligations.IndexRegistersCountByOne := by
  unfold Obligations.IndexRegistersCountByOne
  refine ⟨by decide, by decide, by decide, by decide, fun i s h count => ?_⟩
  have two : twoCycle i = true := twoCycle_of_mnemonic (List.subset_def.mp (by decide) count)
  obtain ⟨t, done⟩ := implied_done h two
  refine ⟨t, counted i.mnemonic s.cpu, done.exec, toNat_counted i.mnemonic s.cpu, ?_, done.kept, done.cycle, done.ended⟩
  rw [done.regs, impliedOp_count count]
  rfl

end Sys2Proof.Proofs.ArithmeticLogic
end

section
/-! Shifts and rotates (43_shift_rotate.md): what a read-modify-write instruction answers, in the registers the machine had
before it, and the operation of the four mnemonics as the rules write it; then O11. -/

namespace Sys2Proof.Proofs.ShiftRotate

open Sys2Proof Sys2Proof.Machine Sys2Proof.Proofs.LoadStoreTransfer

/-! ### What a read-modify-write answers -/

/-- The operation of a read-modify-write reads only the byte and the registers. -/
theorem rmwOp_of_regs {c c' : Cpu} (same : regs c = regs c') (k : Mnemonic) (m : Byte) :
    (rmwOp k m c).1 = (rmwOp k m c').1 ∧ regs (rmwOp k m c).2 = regs (rmwOp k m c').2 := by
  simp only [regs, Prod.mk.injEq] at same
  obtain ⟨a, x, y, sp, pc, p⟩ := same
  cases k <;>
    simp only [rmwOp, regs, a, x, y, sp, pc, p, Alu.inc, Alu.dec, Alu.asl, Alu.lsr, Alu.rol, Alu.ror, Alu.dcp, Alu.isb,
      Alu.slo, Alu.rla, Alu.sre, Alu.rra, Alu.addTo, and_self]

/-- A read-modify-write instruction takes `s` to `t`, having read `m` at `a`: its operation is on the registers of `s`, PC
advanced. -/
structure RmwAnswers (i : Instr) (a : Word) (m : Byte) (s t : State) : Prop where
  exec : exec i s = .next t
  operand : delivers a s m
  stores : stores a (rmwOp i.mnemonic m { s.cpu with pc := nextPc i s }).1 s t
  last : lastCyclesModify i a m (rmwOp i.mnemonic m { s.cpu with pc := nextPc i s }).1 s t
  regs : regs t.cpu = regs (rmwOp i.mnemonic m { s.cpu with pc := nextPc i s }).2
  cycle : t.cycle = s.cycle + cyclesOf i s
  ended : ended s t

theorem rmw_answers {i : Instr} {s : State} {a : Word} (h : undisturbed 8 s) (tag : i.tag = .rmw)
    (ea : i.mode.ea s = some a) (noDma : a ≠ 0x4014#16) : ∃ t m, RmwAnswers i a m s t := by
  obtain ⟨t, m, c, c', done, last⟩ := rmw_last h tag ea noDma
  obtain ⟨byte, -⟩ := rmwOp_of_regs (regs_of_sameRegs done.same) i.mnemonic m
  obtain ⟨-, after⟩ := rmwOp_of_regs (regs_of_sameRegs done.same') i.mnemonic m
  refine ⟨t, m, done.exec, done.operand, byte ▸ done.stores, byte ▸ last, ?_, done.cycle, done.ended⟩
  rw [done.cpu, regs_endCpu]
  exact after

/-! ### The four mnemonics (43_shift_rotate.md R290-R293) -/

/-- Every form of a shift is a read-modify-write or on A (30_encoding.md R161). -/
theorem tag_or_mode_shift {i : Instr} (shift : i.mnemonic ∈ [.asl, .lsr, .rol, .ror]) :
    i.tag = .rmw ∨ i.mode = .accumulator := by
  refine mnemonic_mem shift ?_
  cases i <;> first
    | (intro h; exact Bool.noConfusion (show false = true from h)) | (intro; exact .inl rfl) | (intro; exact .inr rfl)

theorem tag_shift {i : Instr} {s : State} {a : Word} (shift : i.mnemonic ∈ [.asl, .lsr, .rol, .ror])
    (ea : i.mode.ea s = some a) : i.tag = .rmw := by
  refine (tag_or_mode_shift shift).resolve_right fun onA => ?_
  rw [onA] at ea
  cases ea

/-- A shift writes back the shifted byte and takes its flags from it and from the bit shifted out. -/
theorem rmwOp_shift {k : Mnemonic} (shift : k ∈ [.asl, .lsr, .rol, .ror]) (m : Byte) (c : Cpu) :
    rmwOp k m c = ((shiftOf k m c.p.c).1,
      { c with p := { zn (shiftOf k m c.p.c).1 c.p with c := (shiftOf k m c.p.c).2 } }) := by
  obtain ⟨asl, lsr, rol, ror⟩ := shift_eqs m c.p.c
  simp only [List.mem_cons, List.not_mem_nil, or_false] at shift
  rw [← setZN_eq]
  rcases shift with rfl | rfl | rfl | rfl
  · rw [← asl]; rfl
  · rw [← lsr]; rfl
  · rw [← rol]; rfl
  · rw [← ror]; rfl

/-- On A, a shift is the memory form's operation with A as the byte read and written back. -/
theorem impliedOp_shift {k : Mnemonic} (shift : k ∈ [.asl, .lsr, .rol, .ror]) (c : Cpu) :
    impliedOp k c = Alu.onA (rmwOp k) c := by
  simp only [List.mem_cons, List.not_mem_nil, or_false] at shift
  rcases shift with rfl | rfl | rfl | rfl <;> rfl

/-- Settles O11: on memory a shift is a read-modify-write, on A a two-cycle instruction; the operation of both is
`rmwOp_shift`. -/
theorem shiftsAndRotates : Obligations.ShiftsAndRotates := by
  unfold Obligations.ShiftsAndRotates
  refine ⟨by decide, by decide, by decide, by decide, fun i s a h shift ea noDma => ?_, fun i s h shift mode => ?_⟩
  · obtain ⟨t, m, done⟩ := rmw_answers h (tag_shift shift ea) ea noDma
    have stored := done.stores
    have last := done.last
    have after := done.regs
    rw [rmwOp_shift shift] at stored last after
    exact ⟨t, m, _, _, done.exec, done.operand, rfl, stored, last, after, done.cycle, done.ended⟩
  · obtain ⟨two, -⟩ := twoCycle_of_accumulator mode
    obtain ⟨t, done⟩ := implied_done h two
    have after := done.regs
    rw [impliedOp_shift shift, Alu.onA, rmwOp_shift shift] at after
    exact ⟨t, _, _, done.exec, rfl, after, done.kept, done.cycle, done.ended⟩

end Sys2Proof.Proofs.ShiftRotate
end

section
/-! Branches, jumps, subroutines and RTI (44_control_flow.md R301-R313): the condition, target and count of a branch, and the
two pointer bytes of JMP indirect; then O12, O13, O14 and O15. -/

namespace Sys2Proof.Proofs.ControlFlow

open Sys2Proof Sys2Proof.Machine

/-! ### Branches (44_control_flow.md R301-R308) -/

theorem mnemonic_branch {i : Instr} {off : Byte} (mode : i.mode = .relative off) :
    i.mnemonic ∈ [.bpl, .bmi, .bvc, .bvs, .bcc, .bcs, .bne, .beq] := by
  revert mode
  cases i <;> first | (intro mode; exact Mode.noConfusion mode) | (intro; exact List.contains_iff_mem.1 rfl)

/-- Where a branch leaves PC: past its two bytes, and from there by the offset if it is taken. -/
def branchPc (pc : Word) (off : Byte) (taken : Bool) : Word := if taken then pc + 2 + sext8 off else pc + 2

theorem branchPc_toNat (pc : Word) (off : Byte) (taken : Bool) :
    ((branchPc pc off taken).toNat : Int) = ((pc.toNat : Int) + 2 + if taken then off.toInt else 0) % 0x10000 := by
  cases taken
  · simp [branchPc]
  · exact branch_target pc off

/-- The count of a branch, by the pages of its target and of the next instruction. -/
theorem branch_cycles (pc : Word) (off : Byte) (taken : Bool) :
    (2 + if taken then (if samePage (pc + 2 + sext8 off) (pc + 2) then 1 else 2) else 0)
      = if taken then (if (branchPc pc off taken).toNat / 256 = (pc + 2).toNat / 256 then 3 else 4) else 2 := by
  cases taken
  · rfl
  · simp only [branchPc, samePage_iff, if_true, decide_eq_true_eq]
    split_ifs <;> rfl

/-- Settles O12: each branch is `relative` with its own condition, whose law gives PC and the count. -/
theorem branchesFollowTheirFlag : Obligations.BranchesFollowTheirFlag := by
  unfold Obligations.BranchesFollowTheirFlag
  refine ⟨by decide, by decide, by decide, by decide, by decide, by decide, by decide, by decide, fun i s off h mode => ?_⟩
  have jumped := relative_spec h i.opcode off i.mnemonic.taken
  refine ⟨_, i.mnemonic.taken s.cpu.p, branchPc s.cpu.pc off (i.mnemonic.taken s.cpu.p), exec_branch i s off mode, ?_,
    branchPc_toNat _ _ _, jumped.regs, jumped.keeps.storesNothing, jumped.ended, ?_⟩
  · have branch := mnemonic_branch mode
    generalize i.mnemonic = k at branch ⊢
    simp only [List.mem_cons, List.not_mem_nil, or_false] at branch
    rcases branch with rfl | rfl | rfl | rfl | rfl | rfl | rfl | rfl <;> rfl
  · rw [jumped.cycle, branch_cycles]

/-! ### Jumps (44_control_flow.md R309, R310) -/

theorem wordOf_inj {hi lo hi' lo' : Byte} (h : wordOf hi lo = wordOf hi' lo') : hi = hi' ∧ lo = lo' :=
  ⟨by rw [← hiByte_wordOf hi lo, h, hiByte_wordOf], by rw [← loByte_wordOf hi lo, h, loByte_wordOf]⟩

/-- Settles O13: the law of JMP indirect says what memory holds at the pointer, `jumpInd_last` in which cycles it is read;
they speak of the same two bytes, since both make up the PC it ends with. -/
theorem jumpsLoadPc : Obligations.JumpsLoadPc := by
  unfold Obligations.JumpsLoadPc
  refine ⟨by decide, fun s h => ⟨fun addr => ?_, fun ptr => ?_⟩⟩
  · have jumped := jumpAbs_spec (h.mono (by decide)) 0x4C#8 addr
    exact ⟨_, rfl, jumped.regs, jumped.keeps.storesNothing, jumped.cycle, jumped.ended⟩
  · obtain ⟨lo, hi, atPtr, atNext, jumped⟩ := jumpInd_spec h 0x6C#8 ptr
    obtain ⟨readsLow, readsHigh, pc⟩ := jumpInd_last h ptr rfl
    have jumpedPc : (jumpInd 0x6C#8 ptr s).cpu.pc = wordOf hi lo := by
      have after := jumped.regs
      simp only [regs, Prod.mk.injEq] at after
      obtain ⟨-, -, -, -, pc, -⟩ := after
      exact pc
    obtain ⟨high, low⟩ := wordOf_inj (jumpedPc.symm.trans pc)
    exact ⟨_, _, _, lo, hi, _, rfl, rfl, rfl, rfl, readsLow, readsHigh, low, high, atPtr, atNext, jumped.regs,
      jumped.keeps.storesNothing, jumped.cycle, jumped.ended⟩

/-! ### Subroutines and the return from an interrupt (44_control_flow.md R311-R313) -/

/-- Settles O14: by the laws of the two operations, `callAbs` and `returnSub`. -/
theorem subroutineCallAndReturn : Obligations.SubroutineCallAndReturn := by
  unfold Obligations.SubroutineCallAndReturn
  refine ⟨by decide, by decide, fun s h => ⟨fun addr => ?_, ?_⟩⟩
  · obtain ⟨pushed, cycle, ended, after⟩ := callAbs_spec h 0x20#8 addr
    exact ⟨_, rfl, pushed, after, cycle, ended⟩
  · obtain ⟨keeps, cycle, ended, after⟩ := returnSub_spec h 0x60#8
    exact ⟨_, rfl, after, keeps.storesNothing, cycle, ended⟩

/-- Settles O15: P is pulled before the poll, so the poll sees the I that was pulled (`returnInt_pending`). -/
theorem rtiRestoresPAndPc : Obligations.RtiRestoresPAndPc := by
  unfold Obligations.RtiRestoresPAndPc
  refine ⟨by decide, fun s h => ?_⟩
  obtain ⟨keeps, cycle, ended, after⟩ := returnInt_spec h 0x40#8
  obtain ⟨arb, pending, sampled⟩ := returnInt_pending h 0x40#8
  refine ⟨_, rfl, after, keeps.storesNothing, cycle, ended, fun irq clear => ?_⟩
  rw [pending, clear]
  exact polled_irq (sampled irq)

end Sys2Proof.Proofs.ControlFlow
end

section
/-! Stack and flag instructions (45_stack_flags_nop.md R320-R330): the byte a push leaves on the stack, what a pull answers
in the registers the machine had before it, and what a poll with the old I lets in; then O17, O18 and O19. -/

namespace Sys2Proof.Proofs.StackFlags

open Sys2Proof Sys2Proof.Machine

/-! ### Pushes (45_stack_flags_nop.md R320, R321) -/

theorem pha_or_php {i : Instr} (push : i.mnemonic ∈ [.pha, .php]) : i = .pha ∨ i = .php := by
  refine mnemonic_mem push ?_
  cases i <;> first
    | (intro h; exact Bool.noConfusion (show false = true from h)) | (intro; exact .inl rfl) | (intro; exact .inr rfl)

theorem ramAt_of_pushes {v : Byte} {s t : State} (pushed : pushes [v] s t) : ramAt t (stackAddr s.cpu.s) = v := by
  obtain ⟨ram, -, -⟩ := pushed
  exact (ram _).trans (Memory.read_write_same _ _ _)

/-- Settles O17: both are `pushReg`, whose value A or P is that of the machine before it. -/
theorem pushesStoreAtS : Obligations.PushesStoreAtS := by
  unfold Obligations.PushesStoreAtS
  refine ⟨by decide, by decide, fun i s h push => ?_⟩
  obtain rfl | rfl := pha_or_php push
  · obtain ⟨c, same, pushed, cycle, after, ended⟩ := pushReg_spec h 0x48#8 Cpu.a
    rw [same.a] at pushed
    exact ⟨_, s.cpu.a, rfl, fun _ => rfl, nofun, ramAt_of_pushes pushed, pushed, after, cycle, ended⟩
  · obtain ⟨c, same, pushed, cycle, after, ended⟩ := pushReg_spec h 0x08#8 fun c => c.p.toByte true
    rw [same.p] at pushed
    exact ⟨_, s.cpu.p.toByte true, rfl, nofun, fun _ => toByte_true s.cpu.p, ramAt_of_pushes pushed, pushed, after, cycle,
      ended⟩

/-! ### What a poll lets in (40_addressing_modes.md R230, R232) -/

/-- A poll that sees I set takes no IRQ; one that sees I clear and an asserted IRQ takes an interrupt. -/
theorem poll_sees {a : Arbiter} {i : Bool} {q : Pending} {asserted : Prop} (poll : q = polled a i)
    (sampled : asserted → a.irqSample = true) : (i = true → q ≠ .irq) ∧ (i = false → asserted → q ≠ .none) := by
  subst poll
  refine ⟨?_, ?_⟩
  · rintro rfl
    exact polled_masked a
  · rintro rfl irq
    exact polled_irq (sampled irq)

/-! ### Pulls (45_stack_flags_nop.md R322, R323) -/

/-- A pull whose update keeps the mode and reads only the registers: it is made on the registers before the instruction, S
and PC advanced. -/
theorem pullReg_answers {s : State} (h : undisturbed 4 s) (op : Byte) {f : Byte → Cpu → Cpu}
    (reads : ∀ d c c', regs c = regs c' → regs (f d c) = regs (f d c')) (mode : ∀ d c, (f d c).mode = c.mode) :
    regs (pullReg op f s).cpu = regs (f (pulled s 1) { s.cpu with s := s.cpu.s + 1, pc := s.cpu.pc + 1 })
      ∧ storesNothing s (pullReg op f s) ∧ (pullReg op f s).cycle = s.cycle + 4 ∧ ended s (pullReg op f s) := by
  obtain ⟨c, keeps, cycle, same, cMode, cpu⟩ := pullReg_spec h op f
  refine ⟨?_, keeps.storesNothing, cycle, ended_of_cpu cpu ((mode _ c).trans cMode)⟩
  rw [cpu, regs_endCpu]
  exact reads _ _ _ same

/-- PLA's update reads only the registers. -/
theorem regs_pullA (d : Byte) (c c' : Cpu) (same : regs c = regs c') :
    regs { c with a := d, p := c.p.setZN d } = regs { c' with a := d, p := c'.p.setZN d } := by
  simp only [regs, Prod.mk.injEq] at same
  obtain ⟨-, x, y, sp, pc, p⟩ := same
  simp only [regs, x, y, sp, pc, p]

/-- PLP's update reads only the registers. -/
theorem regs_pullP (d : Byte) (c c' : Cpu) (same : regs c = regs c') :
    regs { c with p := .ofByte d } = regs { c' with p := .ofByte d } := by
  simp only [regs, Prod.mk.injEq] at same
  obtain ⟨a, x, y, sp, pc, -⟩ := same
  simp only [regs, a, x, y, sp, pc]

/-- Settles O18: both are `pullReg`; PLP writes P in its last cycle, after the poll (`pullReg_pending`). -/
theorem pullsReadAboveS : Obligations.PullsReadAboveS := by
  unfold Obligations.PullsReadAboveS
  refine ⟨by decide, by decide, fun s h => ⟨?_, ?_⟩⟩
  · obtain ⟨after, kept, cycle, ended⟩ := pullReg_answers h 0x68#8 regs_pullA fun _ _ => rfl
    rw [setZN_eq] at after
    exact ⟨_, rfl, after, kept, cycle, ended⟩
  · obtain ⟨after, kept, cycle, ended⟩ := pullReg_answers h 0x28#8 regs_pullP fun _ _ => rfl
    obtain ⟨arb, pending, sampled⟩ := pullReg_pending h 0x28#8 fun d c => { c with p := .ofByte d }
    exact ⟨_, rfl, after, kept, cycle, ended, poll_sees pending sampled⟩

/-! ### Flag instructions (45_stack_flags_nop.md R324-R330) -/

/-- Settles O19: each is a two-cycle instruction, whose first cycle polls, before the last one writes the flag. -/
theorem flagInstructionsSetOneFlag : Obligations.FlagInstructionsSetOneFlag := by
  unfold Obligations.FlagInstructionsSetOneFlag
  refine ⟨by decide, by decide, by decide, by decide, by decide, by decide, by decide, fun i s h flag => ?_⟩
  have two : twoCycle i = true := twoCycle_of_mnemonic (List.subset_def.mp (by decide) flag)
  obtain ⟨t, done⟩ := implied_done h two
  refine ⟨t, done.exec, ?_, done.kept, done.cycle, done.ended,
    poll_sees done.pending fun irq => (beforeAccess_irqHeld irq).1⟩
  rw [done.regs]
  generalize i.mnemonic = k at flag ⊢
  simp only [List.mem_cons, List.not_mem_nil, or_false] at flag
  rcases flag with rfl | rfl | rfl | rfl | rfl | rfl | rfl <;> rfl

end Sys2Proof.Proofs.StackFlags
end

section
/-! Undocumented opcodes (46_undocumented.md) and NOP (45_stack_flags_nop.md R331): the operation of each mnemonic as the
rules write it, what the opcodes that stop the CPU leave, and the step of a jammed machine; then O20 to O26. -/

namespace Sys2Proof.Proofs.Undocumented

open Sys2Proof Sys2Proof.Machine
open Sys2Proof.Proofs.CycleCounts Sys2Proof.Proofs.LoadStoreTransfer Sys2Proof.Proofs.ArithmeticLogic
open Sys2Proof.Proofs.ShiftRotate

/-! ### NOP (45_stack_flags_nop.md R331, 46_undocumented.md R351-R353) -/

/-- A NOP has an operand and reads it, or has none and takes two cycles (30_encoding.md R161). -/
theorem nop_reads_or_implied {i : Instr} (nop : i.mnemonic = .nop) :
    i.tag = .read ∨ (twoCycle i = true ∧ i.mode = .implicit) := by
  revert nop
  cases i <;> first
    | (intro h; exact Mnemonic.noConfusion h) | (intro; exact .inl rfl) | (intro; exact .inr ⟨rfl, rfl⟩)

/-- The operand of a mode with an effective address is the byte that stands there, and is on the bus. -/
theorem operandIs_ea {m : Mode} {s t : State} {d : Byte} {a : Word} (operand : operandIs m s t d) (ea : m.ea s = some a) :
    d = t.cpuBus ∧ delivers a s d := by
  cases m with
  | immediate imm => cases ea
  | _ =>
    obtain ⟨onBus, stands⟩ := operand
    exact ⟨onBus, stands a ea⟩

/-- Settles O20: a NOP with an operand is a Read, one without is a two-cycle instruction, and the operation of both leaves
the registers alone. -/
theorem nopsChangeNothingButPc : Obligations.NopsChangeNothingButPc := by
  unfold Obligations.NopsChangeNothingButPc
  refine ⟨by decide, fun i s h nop => ?_⟩
  rcases nop_reads_or_implied nop with tag | ⟨two, mode⟩
  · obtain ⟨t, m, done⟩ := read_answers h tag
    have after := done.regs
    rw [nop] at after
    refine ⟨t, done.exec, after, fun a ea => ?_, done.last, done.kept, done.cycle, done.ended⟩
    obtain ⟨onBus, stands⟩ := operandIs_ea done.operand ea
    exact onBus ▸ stands
  · obtain ⟨t, done⟩ := implied_done (h.mono (by decide)) two
    have noEa (a : Word) : i.mode.ea s ≠ some a := by rw [mode]; nofun
    have after := done.regs
    rw [nop] at after
    refine ⟨t, done.exec, ?_, fun a ea => absurd ea (noEa a), fun a ea => absurd ea (noEa a), done.kept, ?_, done.ended⟩
    · rw [nextPc, mode]
      exact after
    · rw [done.cycle, cyclesOf_implied two]

/-! ### LAX and SAX (46_undocumented.md R341, R342) -/

/-- Settles O21: LAX is a Read and SAX a Write, each with the rule's operation. -/
theorem laxLoadsAAndXAndSaxStoresTheirAnd : Obligations.LaxLoadsAAndXAndSaxStoresTheirAnd := by
  unfold Obligations.LaxLoadsAAndXAndSaxStoresTheirAnd
  refine ⟨by decide, by decide, fun i s h lax => ?_, fun i s h sax => ?_⟩
  · have tag : i.tag = .read := tag_read (by rw [lax]; decide)
    obtain ⟨t, m, done⟩ := read_answers h tag
    have after := done.regs
    rw [lax, readOp, Alu.lax, setZN_eq] at after
    exact ⟨t, m, done.exec, done.operand, done.last, after, done.kept, done.cycle, done.ended⟩
  · have tag : i.tag = .write := tag_write (by rw [sax]; decide)
    obtain ⟨t, a, done⟩ := write_answers h tag
    have stored := done.stores
    have last := done.last
    rw [sax] at stored last
    exact ⟨t, a, done.exec, done.ea, stored, last, done.regs, done.cycle, done.ended⟩

/-! ### Combined read-modify-write opcodes (46_undocumented.md R343-R348) -/

theorem increment_eq (m : Byte) : m + 1 = BitVec.ofNat 8 ((m.toNat + 1) % 256) := by
  apply BitVec.eq_of_toNat_eq
  simp

/-- Subtracting 1 is adding 255, modulo 256. -/
theorem decrement_eq (m : Byte) : m - 1 = BitVec.ofNat 8 ((m.toNat + 255) % 256) := by
  apply BitVec.eq_of_toNat_eq
  rw [BitVec.sub_eq_add_neg]
  simp

/-- The operation of a read-modify-write that is no mere shift is the one the rules write. -/
theorem rmwOp_eq_modified {k : Mnemonic} (rmw : k ∈ [.inc, .dec, .dcp, .isb, .slo, .rla, .sre, .rra]) (m : Byte) (c : Cpu) :
    rmwOp k m c = modified k m c := by
  obtain ⟨asl, lsr, rol, ror⟩ := shift_eqs m c.p.c
  simp only [Prod.ext_iff] at asl lsr rol ror
  simp only [List.mem_cons, List.not_mem_nil, or_false] at rmw
  rcases rmw with rfl | rfl | rfl | rfl | rfl | rfl | rfl | rfl
  · rw [rmwOp, Alu.inc, increment_eq, setZN_eq]; rfl
  · rw [rmwOp, Alu.dec, decrement_eq, setZN_eq]; rfl
  · rw [rmwOp, Alu.dcp, decrement_eq, compare_eq]; rfl
  · rw [rmwOp, Alu.isb, increment_eq, addTo_eq]; rfl
  · rw [rmwOp, Alu.slo, Flags.shifted, setZN_eq, asl.1, asl.2]; rfl
  · rw [rmwOp, Alu.rla, Flags.shifted, setZN_eq, rol.1, rol.2]; rfl
  · rw [rmwOp, Alu.sre, Flags.shifted, setZN_eq, lsr.1, lsr.2]; rfl
  · change Alu.rra m c = _
    rw [Alu.rra, addTo_eq, ror.1, ror.2]; rfl

/-- The byte DCP or ISB stores is the one read, counted down or up. -/
theorem modified_count {k : Mnemonic} (count : k ∈ [.dcp, .isb]) (m : Byte) (c : Cpu) :
    (modified k m c).1.toNat = (m.toNat + if k = .isb then 1 else 255) % 256 := by
  have word (n : Nat) : (BitVec.ofNat 8 (n % 256)).toNat = n % 256 := by simp
  simp only [List.mem_cons, List.not_mem_nil, or_false] at count
  rcases count with rfl | rfl
  · exact word (m.toNat + 255)
  · exact word (m.toNat + 1)

/-- Settles O22: both are read-modify-writes whose operation is that of `modified`. -/
theorem dcpComparesAndIsbSubtracts : Obligations.DcpComparesAndIsbSubtracts := by
  unfold Obligations.DcpComparesAndIsbSubtracts
  refine ⟨by decide, by decide, fun i s a h count ea noDma => ?_⟩
  have rmw : i.mnemonic ∈ [.inc, .dec, .dcp, .isb, .slo, .rla, .sre, .rra] := List.subset_def.mp (by decide) count
  obtain ⟨t, m, done⟩ := rmw_answers h (tag_rmw rmw) ea noDma
  have stored := done.stores
  have last := done.last
  have after := done.regs
  rw [rmwOp_eq_modified rmw] at stored last after
  refine ⟨t, m, _, done.exec, done.operand, modified_count count m _, stored, last, after.trans ?_, done.cycle, done.ended⟩
  generalize i.mnemonic = k at count ⊢
  simp only [List.mem_cons, List.not_mem_nil, or_false] at count
  rcases count with rfl | rfl <;> rfl

/-- The byte SLO, RLA, SRE or RRA stores is the shifted one. -/
theorem modified_shift {k : Mnemonic} (combine : k ∈ [.slo, .rla, .sre, .rra]) (m : Byte) (c : Cpu) :
    (modified k m c).1 = (shiftOf k m c.p.c).1 := by
  simp only [List.mem_cons, List.not_mem_nil, or_false] at combine
  rcases combine with rfl | rfl | rfl | rfl <;> rfl

/-- Settles O23: the four are read-modify-writes whose operation is that of `modified`. -/
theorem shiftAndCombineOpcodes : Obligations.ShiftAndCombineOpcodes := by
  unfold Obligations.ShiftAndCombineOpcodes
  refine ⟨by decide, by decide, by decide, by decide, fun i s a h combine ea noDma => ?_⟩
  have rmw : i.mnemonic ∈ [.inc, .dec, .dcp, .isb, .slo, .rla, .sre, .rra] := List.subset_def.mp (by decide) combine
  obtain ⟨t, m, done⟩ := rmw_answers h (tag_rmw rmw) ea noDma
  have stored := done.stores
  have last := done.last
  have after := done.regs
  rw [rmwOp_eq_modified rmw] at stored last after
  refine ⟨t, m, _, (shiftOf i.mnemonic m s.cpu.p.c).2, done.exec, done.operand, Prod.ext (modified_shift combine m _) rfl,
    stored, last, after.trans ?_, done.cycle, done.ended⟩
  generalize i.mnemonic = k at combine ⊢
  simp only [List.mem_cons, List.not_mem_nil, or_false] at combine
  rcases combine with rfl | rfl | rfl | rfl <;> rfl

/-! ### Combined immediate opcodes (46_undocumented.md R349, R350, R354, R355) -/

/-- The register `r` and the flags `p` that ANC, ALR, ARR or AXS makes of its operand and the CPU registers. -/
structure ImmediateRule (k : Mnemonic) (m : Byte) (c : Cpu) (r : Byte) (p : Flags) : Prop where
  anc : k = .anc → r = c.a &&& m ∧ p = { zn r c.p with c := r.getLsbD 7 }
  alr : k = .alr → r.toNat = (c.a &&& m).toNat / 2 ∧ p = { zn r c.p with c := (c.a &&& m).getLsbD 0 }
  arr : k = .arr → r.toNat = 128 * c.p.c.toNat + (c.a &&& m).toNat / 2
    ∧ p = { zn r c.p with c := r.getLsbD 6, v := xor (r.getLsbD 6) (r.getLsbD 5) }
  axs : k = .axs → r.toNat = (256 + (c.a &&& c.x).toNat - m.toNat) % 256
    ∧ p = { zn r c.p with c := decide (m.toNat ≤ (c.a &&& c.x).toNat) }

theorem shiftRight_toNat (m : Byte) : (shiftRight m).toNat = m.toNat / 2 := by
  rw [shiftRight, BitVec.toNat_ushiftRight, Nat.shiftRight_eq_div_pow, pow_one]

theorem rotateRight_toNat (c : Bool) (m : Byte) : (rotateRight c m).toNat = 128 * c.toNat + m.toNat / 2 := by
  obtain ⟨-, -, -, ror⟩ := shift_eqs m c
  have result : rotateRight c m = BitVec.ofNat 8 (128 * c.toNat + m.toNat / 2) := congrArg Prod.fst ror
  have := m.isLt
  have := c.toNat_le
  rw [result, BitVec.toNat_ofNat, Nat.mod_eq_of_lt (by omega)]

theorem sub_toNat (a b : Byte) : (a - b).toNat = (256 + a.toNat - b.toNat) % 256 := by
  have := b.isLt
  rw [BitVec.toNat_sub]
  omega

/-- A combined immediate opcode puts the rule's result in its register, X for AXS and A for the others. -/
theorem readOp_immediate {k : Mnemonic} (combined : k ∈ [.anc, .alr, .arr, .axs]) (m : Byte) (c : Cpu) :
    ∃ r p, ImmediateRule k m c r p ∧ readOp k m c = { c with
      a := if k = .axs then c.a else r
      x := if k = .axs then r else c.x
      p := p } := by
  simp only [List.mem_cons, List.not_mem_nil, or_false] at combined
  rcases combined with rfl | rfl | rfl | rfl
  · refine ⟨c.a &&& m, _, ⟨fun _ => ⟨rfl, ?_⟩, nofun, nofun, nofun⟩, rfl⟩
    rw [Flags.shifted, setZN_eq, BitVec.msb_eq_getLsbD_last]
  · refine ⟨shiftRight (c.a &&& m), _, ⟨nofun, fun _ => ⟨shiftRight_toNat _, ?_⟩, nofun, nofun⟩, rfl⟩
    rw [Flags.shifted, setZN_eq, carryRight]
  · refine ⟨rotateRight c.p.c (c.a &&& m), _, ⟨nofun, nofun, fun _ => ⟨rotateRight_toNat _ _, ?_⟩, nofun⟩, rfl⟩
    rw [Flags.shifted, setZN_eq]
  · refine ⟨(c.a &&& c.x) - m, _, ⟨nofun, nofun, nofun, fun _ => ⟨sub_toNat _ _, ?_⟩⟩, rfl⟩
    rw [Flags.compare, setZN_eq]

/-- A Read of an immediate byte, which needs its two cycles undisturbed and no more. -/
theorem immediate_answers {i : Instr} {s : State} {imm : Byte} (h : undisturbed 2 s) (tag : i.tag = .read)
    (mode : i.mode = .immediate imm) : ∃ t, exec i s = .next t
      ∧ regs t.cpu = regs (readOp i.mnemonic imm { s.cpu with pc := s.cpu.pc + 2 })
      ∧ storesNothing s t ∧ t.cycle = s.cycle + 2 ∧ ended s t := by
  obtain ⟨t, c, done⟩ := immediate_done h tag mode
  have same := done.same
  have cycle := done.cycle
  rw [mode] at same
  rw [cyclesOf_read tag, mode] at cycle
  refine ⟨t, done.exec, ?_, done.kept, cycle, done.ended⟩
  rw [done.cpu, regs_endCpu]
  exact regs_readOp (regs_of_sameRegs same) i.mnemonic imm

/-- Settles O24: the four are Reads of an immediate byte whose operation is `readOp_immediate`. -/
theorem immediateCombinedOpcodes : Obligations.ImmediateCombinedOpcodes := by
  unfold Obligations.ImmediateCombinedOpcodes
  refine ⟨by decide, by decide, by decide, by decide, fun i s m h combined mode => ?_⟩
  have tag : i.tag = .read := tag_read (List.subset_def.mp (by decide) combined)
  obtain ⟨t, exec, after, kept, cycle, ended⟩ := immediate_answers h tag mode
  obtain ⟨r, p, rule, op⟩ := readOp_immediate combined m { s.cpu with pc := s.cpu.pc + 2 }
  rw [op] at after
  obtain ⟨-, rfl⟩ := a_p_of_regs after
  exact ⟨t, r, exec, rule.anc, rule.alr, rule.arr, rule.axs, after, kept, cycle, ended⟩

/-! ### Opcodes that stop the CPU (46_undocumented.md R370, R371) -/

/-- The opcode fetch of `op` takes `s` to `t`, and the CPU to `mode`. -/
structure Stops (op : Byte) (mode : CpuMode) (s t : State) : Prop where
  mode : t.cpu.mode = mode
  opcode : t.cpu.opcode = op
  cycle : t.cycle = s.cycle + 1
  regs : regs t.cpu = regs { s.cpu with pc := s.cpu.pc + 1 }
  kept : storesNothing s t

/-- A mode that no end of an instruction leaves is the mode after the fetch. -/
theorem fetch_stops {s : State} (h : undisturbed 1 s) (op : Byte) {mode : CpuMode} (stuck : ∀ q, nextMode mode q = mode) :
    Stops op mode s (cpuCyc .last atPc (fun _ c => { c with opcode := op, pc := c.pc + 1, mode := mode }) s) := by
  obtain ⟨keeps, cycle, cpu⟩ := stop_spec h op mode
  refine ⟨?_, ?_, cycle, ?_, keeps.storesNothing⟩
  · rw [cpu, endCpu_mode_last, stuck]
  · rw [cpu, endCpu]
  · rw [cpu, regs_endCpu]
    rfl

theorem refuse_stops {s : State} (h : undisturbed 1 s) (op : Byte) : Stops op .refused s (refuse op s) :=
  fetch_stops h op fun _ => rfl

theorem jam_stops {s : State} (h : undisturbed 1 s) (op : Byte) : Stops op .jammed s (jam op s) :=
  fetch_stops h op fun _ => rfl

theorem step_of_refused {s : State} (refused : s.cpu.mode = .refused) : step s = .refused (.unstableOpcode s.cpu.opcode) :=
  if_pos refused

/-- Settles O25: an unstable opcode is `refuse`, and no step leaves mode `refused`. -/
theorem unstableOpcodesAreRefused : Obligations.UnstableOpcodesAreRefused := by
  unfold Obligations.UnstableOpcodesAreRefused
  refine ⟨by decide, by decide, by decide, by decide, by decide, by decide, by decide, fun i s h unstable => ?_,
    fun s => step_of_refused⟩
  have stops := refuse_stops h i.opcode
  exact ⟨_, exec_unstable i s unstable, stops.mode, stops.opcode, stops.cycle, stops.regs, stops.kept⟩

/-! ### The jammed machine (46_undocumented.md R371) -/

/-- The cycle `act` takes a jammed machine `s` to `t`. -/
structure JammedCycle (act : State → Act) (s t : State) : Prop where
  mode : t.cpu.mode = .jammed
  regs : regs t.cpu = regs s.cpu
  cycle : t.cycle = s.cycle + 1
  ppu : t.ppu = (busCycle act s).ppu
  apu : t.apu = (busCycle act s).apu
  pads : t.pads = (busCycle act s).pads
  latch : t.arb.nmiLatch = (beforeAccess s).arb.nmiLatch
  pending : t.arb.pending = s.arb.pending
  ram : t.ram = s.ram

/-- The DMA's cycle leaves the CPU as it is. -/
theorem dmaCycle_jammed {s : State} (jammed : s.cpu.mode = .jammed) : JammedCycle dmaAct s (dmaCycle s) := by
  have keeps := dmaCycle_keeps s
  refine ⟨?_, ?_, dmaCycle_cycle s, rfl, rfl, rfl, ?_, keeps.pending, keeps.ram⟩
  · rw [keeps.cpu, jammed]
  · rw [keeps.cpu]
  · exact congrArg Arbiter.nmiLatch (busCycle_arb dmaAct s)

/-- The idle cycle is its bus cycle and the end of it. -/
theorem jamCycle_eq {s : State} (h : undisturbed 1 s) : jamCycle s = endCycle .last (busCycle (fun _ => .idle) s) := by
  rw [jamCycle, cpuCyc, cyc_eq h]
  rfl

/-- The idle cycle leaves the bus and every memory as they are. -/
theorem jamCycle_idle {s : State} (h : undisturbed 1 s) : ReadCycle .last (fun _ c => c) s.cpuBus s (jamCycle s) := by
  obtain ⟨idle, -⟩ := cpuCyc_of_not_write h .last (fun _ => .idle) (fun _ c => c) rfl
  rwa [show busByte (fun _ => .idle) s = s.cpuBus from beforeAccess_cpuBus s] at idle

theorem jamCycle_jammed {s : State} (h : undisturbed 1 s) (jammed : s.cpu.mode = .jammed) :
    JammedCycle (fun _ => .idle) s (jamCycle s) := by
  have idle := jamCycle_idle h
  have eq := jamCycle_eq h
  have arb : (jamCycle s).arb = (beforeAccess s).arb := cpuCyc_arb h _ _ _ nofun
  refine ⟨?_, ?_, idle.cycle, ?_, ?_, ?_, ?_, ?_, idle.keeps.ram⟩
  · rw [idle.cpu, endCpu_mode_last, jammed]
    rfl
  · rw [idle.cpu, regs_endCpu]
  · rw [eq, endCycle_ppu]
  · rw [eq, endCycle_apu]
  · rw [eq, endCycle_pads]
  · rw [arb]
  · rw [arb, beforeAccess_pending]

theorem step_of_jammed {s : State} (jammed : s.cpu.mode = .jammed) (noReset : resetDue s = false)
    (noDma : s.dma.active = false) : step s = .next (jamCycle s) := by
  simp [step, stepAs, jammed, noReset, noDma]

theorem step_of_reset {s : State} (on : s.cpu.mode ≠ .refused) (due : resetDue s = true) : step s = .next (warmReset s) := by
  simp [step, stepAs, on, due]

/-- Settles O26: STP is `jam`; a jammed machine takes the DMA's cycle if one runs and else an idle one, or the reset that
is due. -/
theorem stpJamsUntilReset : Obligations.StpJamsUntilReset := by
  unfold Obligations.StpJamsUntilReset
  have on {s : State} (jammed : s.cpu.mode = .jammed) : s.cpu.mode ≠ .refused := by rw [jammed]; nofun
  refine ⟨by decide, fun row s h => ?_, fun s jammed noReset => ?_, fun s jammed due => ⟨_, step_of_reset (on jammed) due, rfl⟩⟩
  · have stops := jam_stops h (Instr.stp row).opcode
    exact ⟨_, exec_stp row s, stops.mode, stops.cycle, stops.regs, stops.kept⟩
  · cases active : s.dma.active with
    | true =>
      have done := dmaCycle_jammed jammed
      exact ⟨_, dmaAct, step_of_dma (on jammed) noReset active, rfl, done.mode, done.regs, done.cycle, done.ppu, done.apu,
        done.pads, fun _ => dmaCycle_dma s, done.latch, done.pending, fun a => by rw [done.ram], nofun⟩
    | false =>
      have h : undisturbed 1 s := undisturbed_of_idle active noReset
      have done := jamCycle_jammed h jammed
      have idle := jamCycle_idle h
      exact ⟨_, fun _ => .idle, step_of_jammed jammed noReset active, rfl, done.mode, done.regs, done.cycle, done.ppu,
        done.apu, done.pads, nofun, done.latch, done.pending, fun a => by rw [done.ram],
        fun _ => ⟨idle.bus, idle.keeps.storesNothing⟩⟩

end Sys2Proof.Proofs.Undocumented
end

section
/-! PPU ports (47_ppu_registers.md R400-R412): a port write is its effect on a video whose open bus is refreshed; the fields
of t and v bit by bit, what each read returns and refreshes; then O45 to O48. -/

namespace Sys2Proof.Proofs.PpuRegisters

open Sys2Proof Sys2Proof.Machine

/-! ### A write after its refresh of open bus (47_ppu_registers.md R400) -/

/-- A write of port `k` is `f` on the refreshed video, where the port's arm is `f` after the refresh. -/
theorem perform_write_as {k : Nat} {a : Word} {d : Byte} {s : State} (port : isPort k a) (bits : s.ppu.bus.decay.length = 8)
    {f : Video → Video}
    (writes : s.video.writePort s.cfg s.cycle (BitVec.ofNat 3 k) d = f (s.video.mapPpu (.refresh 0xFF#8 d))) :
    perform (.write a d) s
      = State.withVideo (f { ppu := { s.ppu with bus := refreshedBus d }, cart := s.cart }) { s with cpuBus := d } := by
  have refreshed : s.video.mapPpu (.refresh 0xFF#8 d) = { ppu := { s.ppu with bus := refreshedBus d }, cart := s.cart } :=
    congrArg (Video.mk · s.cart) (refresh_full s.ppu d bits)
  rw [perform_write_port port, writes, refreshed]

/-- A write of a port whose arm updates the registers by `f`. -/
theorem perform_write_regs {k : Nat} {a : Word} {d : Byte} {s : State} (port : isPort k a)
    (bits : s.ppu.bus.decay.length = 8) {f : PpuRegs → PpuRegs}
    (writes : s.video.writePort s.cfg s.cycle (BitVec.ofNat 3 k) d
      = (s.video.mapPpu (.refresh 0xFF#8 d)).mapPpu (.mapRegs f)) :
    perform (.write a d) s
      = { s with cpuBus := d, ppu := { s.ppu with bus := refreshedBus d, regs := f s.ppu.regs } } :=
  perform_write_as port bits (f := .mapPpu (.mapRegs f)) writes

@[simp] theorem ppuWrite_bus (v : Video) (a : PpuAddr) (d : Byte) : (v.ppuWrite a d).ppu.bus = v.ppu.bus := by
  unfold Video.ppuWrite
  split_ifs <;> rfl

@[simp] theorem ppuWrite_regs (v : Video) (a : PpuAddr) (d : Byte) : (v.ppuWrite a d).ppu.regs = v.ppu.regs := by
  unfold Video.ppuWrite
  split_ifs <;> rfl

@[simp] theorem driveA12_bus (c : Nat) (high : Bool) (v : Video) : (v.driveA12 c high).ppu.bus = v.ppu.bus := by
  rw [Video.driveA12_only]

@[simp] theorem driveA12_regs (c : Nat) (high : Bool) (v : Video) : (v.driveA12 c high).ppu.regs = v.ppu.regs := by
  rw [Video.driveA12_only]

/-- The refresh is all that a write of any port does to open bus. -/
theorem writePort_bus (cfg : Config) (c : Nat) (port : BitVec 3) (d : Byte) (v : Video) :
    (v.writePort cfg c port d).ppu.bus = (v.ppu.refresh 0xFF#8 d).bus := by
  unfold Video.writePort
  dsimp only
  split_ifs
  · rfl
  · rfl
  · rfl
  · rfl
  · unfold Ppu.writeOamData
    dsimp only [Video.mapPpu]
    split_ifs <;> rfl
  · rfl
  · unfold Video.writeAddr
    split_ifs
    · exact driveA12_bus _ _ _
    · rfl
  · unfold Video.writeData
    dsimp only
    split_ifs
    · rfl
    · rfl
    · exact (driveA12_bus _ _ _).trans (ppuWrite_bus _ _ _)

theorem perform_write_bus {k : Nat} {a : Word} (port : isPort k a) (d : Byte) {s : State}
    (bits : s.ppu.bus.decay.length = 8) : (perform (.write a d) s).ppu.bus = refreshedBus d := by
  rw [perform_write_port port, State.withVideo_ppu, writePort_bus, State.video_ppu, refresh_full s.ppu d bits]

/-! ### t bit for bit (47_ppu_registers.md R401, R404, R406) -/

theorem extractLsb'_congr {m n lo lo' len : Nat} {x : BitVec m} {y : BitVec n}
    (same : ∀ i < len, x.getLsbD (lo + i) = y.getLsbD (lo' + i)) : x.extractLsb' lo len = y.extractLsb' lo' len := by
  refine BitVec.eq_of_getLsbD_eq fun i hi => ?_
  rw [BitVec.getLsbD_extractLsb', BitVec.getLsbD_extractLsb', same i hi]

/-- t after a PPUCTRL write. -/
theorem writeCtrl_t (d : Byte) (r : PpuRegs) :
    (r.writeCtrl d).t.extractLsb' 10 2 = d.extractLsb' 0 2 ∧ (r.writeCtrl d).t.extractLsb' 0 10 = r.t.extractLsb' 0 10
      ∧ (r.writeCtrl d).t.extractLsb' 12 3 = r.t.extractLsb' 12 3 := by
  unfold PpuRegs.writeCtrl
  refine ⟨extractLsb'_congr fun i hi => ?_, extractLsb'_congr fun i hi => ?_, extractLsb'_congr fun i hi => ?_⟩ <;>
    interval_cases i <;> simp

/-- The first PPUSCROLL write: coarse X of t, and x. -/
theorem writeScroll_first (d : Byte) {r : PpuRegs} (w : r.w = false) :
    ∃ t : Scroll, t.extractLsb' 0 5 = d.extractLsb' 3 5 ∧ t.extractLsb' 5 10 = r.t.extractLsb' 5 10
      ∧ r.writeScroll d = { r with t := t, xFine := d.extractLsb' 0 3, w := true } := by
  refine ⟨(r.t &&& ~~~0x001F#15) ||| (d >>> 3).setWidth 15, extractLsb'_congr fun i hi => ?_,
    extractLsb'_congr fun i hi => ?_, ?_⟩
  · interval_cases i <;> simp
  · interval_cases i <;> simp
  · have fine : d.setWidth 3 = d.extractLsb' 0 3 := BitVec.setWidth_eq_extractLsb' (by decide)
    simp [PpuRegs.writeScroll, w, fine]

/-- The second PPUSCROLL write: fine Y and coarse Y of t. -/
theorem writeScroll_second (d : Byte) {r : PpuRegs} (w : r.w = true) :
    ∃ t : Scroll, t.extractLsb' 12 3 = d.extractLsb' 0 3 ∧ t.extractLsb' 5 5 = d.extractLsb' 3 5
      ∧ t.extractLsb' 0 5 = r.t.extractLsb' 0 5 ∧ t.extractLsb' 10 2 = r.t.extractLsb' 10 2
      ∧ r.writeScroll d = { r with t := t, w := false } := by
  refine ⟨(r.t &&& ~~~0x73E0#15) ||| ((d &&& 7#8).setWidth 15 <<< 12) ||| ((d >>> 3).setWidth 15 <<< 5), ?_, ?_, ?_, ?_,
    by simp [PpuRegs.writeScroll, w]⟩
  all_goals
    refine extractLsb'_congr fun i hi => ?_
    interval_cases i <;> simp

/-- t after the first PPUADDR write. -/
theorem writeAddrHigh_t (d : Byte) (r : PpuRegs) :
    (r.writeAddrHigh d).t.extractLsb' 8 6 = d.extractLsb' 0 6 ∧ (r.writeAddrHigh d).t.getLsbD 14 = false
      ∧ (r.writeAddrHigh d).t.extractLsb' 0 8 = r.t.extractLsb' 0 8 := by
  unfold PpuRegs.writeAddrHigh
  refine ⟨extractLsb'_congr fun i hi => ?_, by simp, extractLsb'_congr fun i hi => ?_⟩ <;> interval_cases i <;> simp

/-- t after the second PPUADDR write. -/
theorem writeAddrLow_t (d : Byte) (r : PpuRegs) :
    (r.writeAddrLow d).t.extractLsb' 0 8 = d ∧ (r.writeAddrLow d).t.extractLsb' 8 7 = r.t.extractLsb' 8 7 := by
  unfold PpuRegs.writeAddrLow
  refine ⟨(extractLsb'_congr (y := d) (lo' := 0) fun i hi => ?_).trans BitVec.extractLsb'_eq_self,
    extractLsb'_congr fun i hi => ?_⟩ <;> interval_cases i <;> simp

/-! ### A12 (48_ppu_pipeline.md R481) -/

theorem driveA12_eq (c : Nat) (high : Bool) (v : Video) :
    v.driveA12 c high = {
      ppu := { v.ppu with a12 := {
        level := high
        fallCycle := if v.ppu.a12.level = true ∧ high = false then c else v.ppu.a12.fallCycle } }
      cart := if v.ppu.a12.level = false ∧ high = true ∧ 3 ≤ (c : Int) - v.ppu.a12.fallCycle then v.cart.clockIrq
        else v.cart } := by
  have filter : 3 ≤ (c : Int) - v.ppu.a12.fallCycle ↔ v.ppu.a12.fallCycle + 3 ≤ c := by omega
  obtain ⟨⟨regs, bus, bg, spr, ev, pos, ⟨level, fall⟩⟩, cart⟩ := v
  cases level <;> cases high <;> simp [Video.driveA12, Video.mapPpu, filter]

/-- The PPUADDR write that drives A12 (47_ppu_registers.md R406). -/
theorem writeAddr_second (c : Nat) (d : Byte) {v : Video} (w : v.ppu.regs.w = true) :
    v.writeAddr c d = (v.mapPpu (.mapRegs (.writeAddrLow d))).driveA12 c ((v.ppu.regs.writeAddrLow d).t.getLsbD 12) := by
  unfold Video.writeAddr
  rw [if_pos w]
  rfl

theorem writeAddr_first (c : Nat) (d : Byte) {v : Video} (w : v.ppu.regs.w = false) :
    v.writeAddr c d = v.mapPpu (.mapRegs (.writeAddrHigh d)) := by
  unfold Video.writeAddr
  rw [w, if_neg Bool.false_ne_true]

/-- Settles O45: every port write is its arm on the refreshed video; the registers and t of each arm are read off it. -/
theorem portWrites : Obligations.PortWrites := by
  unfold Obligations.PortWrites
  refine ⟨fun k a d s port bits => ⟨perform_write_bus port d bits, ?_, ?_, ?_, ?_, ?_, ?_, ?_, ?_⟩, driveA12_eq⟩
  · rintro rfl
    exact perform_write_as port bits (f := id) rfl
  · rintro rfl
    exact perform_write_regs port bits (f := fun r => { r with oamAddr := d }) rfl
  · rintro rfl
    exact perform_write_regs port bits (f := fun r => { r with mask := d }) rfl
  · rintro rfl
    obtain ⟨select, low, high⟩ := writeCtrl_t d s.ppu.regs
    exact ⟨_, select, low, high, perform_write_regs port bits (f := .writeCtrl d) rfl⟩
  · rintro rfl w
    obtain ⟨t, coarseX, kept, regs⟩ := writeScroll_first d w
    exact ⟨t, coarseX, kept, regs ▸ perform_write_regs port bits (f := .writeScroll d) rfl⟩
  · rintro rfl w
    obtain ⟨t, fineY, coarseY, low, select, regs⟩ := writeScroll_second d w
    exact ⟨t, fineY, coarseY, low, select, regs ▸ perform_write_regs port bits (f := .writeScroll d) rfl⟩
  · rintro rfl w
    obtain ⟨field, top, low⟩ := writeAddrHigh_t d s.ppu.regs
    exact ⟨_, field, top, low, perform_write_regs port bits (f := .writeAddrHigh d) (writeAddr_first s.cycle d w)⟩
  · rintro rfl w
    obtain ⟨field, high⟩ := writeAddrLow_t d s.ppu.regs
    exact ⟨_, field, high, perform_write_as port bits
      (f := fun v => (v.mapPpu (.mapRegs (.writeAddrLow d))).driveA12 s.cycle ((s.ppu.regs.writeAddrLow d).t.getLsbD 12))
      (writeAddr_second s.cycle d w)⟩


/-! ### The refresh of some bits of open bus (47_ppu_registers.md R405, R407, R411) -/

/-- A refresh by a value that agrees with the latch outside the mask. -/
theorem refresh_eq {mask value : Byte} {b : OpenBus} (same : value &&& ~~~mask = b.latch &&& ~~~mask) :
    b.refresh mask value = { latch := value, decay := resetDecay mask 0 b.decay } := by
  have latch : b.latch &&& ~~~mask ||| value &&& mask = value := by
    rw [← same]
    ext i hi
    cases h : mask[i] <;> simp [h]
  rw [OpenBus.refresh, latch]

theorem resetDecay_high {l : List Nat} (bits : l.length = 8) : resetDecay 0xE0#8 0 l = l.take 5 ++ [0, 0, 0] := by
  match l, bits with
  | [_, _, _, _, _, _, _, _], _ => rfl

theorem resetDecay_low {l : List Nat} (bits : l.length = 8) :
    resetDecay 0x3F#8 0 l = [0, 0, 0, 0, 0, 0] ++ l.drop 6 := by
  match l, bits with
  | [_, _, _, _, _, _, _, _], _ => rfl

/-! ### PPUSTATUS (47_ppu_registers.md R405) -/

theorem getElem_flagBit (f : Bool) (weight : Byte) (i : Nat) (hi : i < 8) :
    (flagBit f weight)[i] = (f && weight[i]) := by
  cases f <;> simp [flagBit]

theorem statusValue_bits (cfg : Config) (p : Ppu) :
    (p.statusValue cfg).getLsbD 7 = (p.regs.vbl && !p.pos.atVblankStart cfg)
      ∧ (p.statusValue cfg).getLsbD 6 = p.regs.s0h ∧ (p.statusValue cfg).getLsbD 5 = p.regs.sov
      ∧ (p.statusValue cfg).extractLsb' 0 5 = p.bus.latch.extractLsb' 0 5 := by
  unfold Ppu.statusValue
  refine ⟨?_, ?_, ?_, extractLsb'_congr fun i hi => ?_⟩
  · simp [getElem_flagBit]
  · simp [getElem_flagBit]
  · simp [getElem_flagBit]
  · interval_cases i <;> simp [getElem_flagBit]

theorem statusValue_low (cfg : Config) (p : Ppu) : p.statusValue cfg &&& ~~~0xE0#8 = p.bus.latch &&& ~~~0xE0#8 := by
  unfold Ppu.statusValue
  refine BitVec.eq_of_getLsbD_eq fun i hi => ?_
  interval_cases i <;> simp [getElem_flagBit]

theorem perform_statusRead {a : Word} {s : State} (port : isPort 2 a) (bits : s.ppu.bus.decay.length = 8) :
    perform (.read a) s = { s with
      cpuBus := s.ppu.statusValue s.cfg
      ppu := { s.ppu with
        regs := { s.ppu.regs with vbl := false, w := false }
        pos := { s.ppu.pos with vblSuppress := s.ppu.pos.vblSuppress || s.ppu.pos.atVblankStart s.cfg }
        bus := { latch := s.ppu.statusValue s.cfg, decay := s.ppu.bus.decay.take 5 ++ [0, 0, 0] } } } := by
  have refreshed := refresh_eq (statusValue_low s.cfg s.ppu)
  rw [resetDecay_high bits] at refreshed
  rw [perform_read_port port, ← refreshed]
  rfl

theorem nmiOut_of_vbl {p : Ppu} (clear : p.regs.vbl = false) : p.nmiOut = false := by
  rw [Ppu.nmiOut, clear, Bool.and_false]

/-- A dot whose VBL is clear and suppressed leaves it clear (48_ppu_pipeline.md R460). -/
theorem ppuDot_vbl_of_suppressed {s : State} (clear : s.ppu.regs.vbl = false) (suppressed : s.ppu.pos.vblSuppress = true) :
    (ppuDot s).ppu.regs.vbl = false := by
  obtain ⟨-, vbl, -⟩ := Video.dot_effect s.cfg s.cycle s.video
  rw [ppuDot_ppu, vbl]
  simp [clear, suppressed]

/-- Settles O46: the value and the effect of the read, and the dot after it by `Video.dot_effect`. -/
theorem statusRead : Obligations.StatusRead := by
  unfold Obligations.StatusRead
  intro a s port bits
  have after := perform_statusRead port bits
  obtain ⟨vbl, s0h, sov, low⟩ := statusValue_bits s.cfg s.ppu
  refine ⟨_, s.ppu.pos.atVblankStart s.cfg, by simp [Position.atVblankStart], vbl, s0h, sov, low, after,
    nmiOut_of_vbl (by rw [after]), fun race => ?_⟩
  have clear : (ppuDot (perform (.read a) s)).ppu.regs.vbl = false :=
    ppuDot_vbl_of_suppressed (by rw [after]) (by rw [after]; simp [race])
  exact ⟨clear, nmiOut_of_vbl clear⟩

/-! ### OAMDATA (47_ppu_registers.md R409, R410) -/

/-- A read of OAMDATA sees the clearing of secondary OAM. -/
abbrev SeesClearing (s : State) : Prop :=
  renderingOn s ∧ visibleLine s ∧ 1 ≤ s.ppu.pos.dot ∧ s.ppu.pos.dot ≤ 64 ∧ s.cfg.clearRead = .ff

theorem oamDataValue_eq (s : State) :
    s.ppu.oamDataValue s.cfg = if SeesClearing s then 0xFF#8 else s.ppu.oamValue := by
  have place : (s.ppu.pos.visible s.cfg && decide (1 ≤ s.ppu.pos.dot) && decide (s.ppu.pos.dot ≤ 64)
      && s.ppu.regs.renderingEnabled) = true
      ↔ renderingOn s ∧ visibleLine s ∧ 1 ≤ s.ppu.pos.dot ∧ s.ppu.pos.dot ≤ 64 := by
    rw [Bool.and_eq_true, renderingEnabled_iff]
    simp only [Position.visible, Bool.and_eq_true, decide_eq_true_eq]
    tauto
  unfold Ppu.oamDataValue SeesClearing
  cases policy : s.cfg.clearRead with
  | ff => simp only [place, and_true]
  | oam => simp

theorem oamValue_eq (p : Ppu) :
    p.oamValue = if p.regs.oamAddr.toNat % 4 = 2 then Memory.read p.oam p.regs.oamAddr.toNat &&& 0xE3#8
      else Memory.read p.oam p.regs.oamAddr.toNat := by
  have byteTwo : p.regs.oamAddr &&& 3#8 = 2#8 ↔ p.regs.oamAddr.toNat % 4 = 2 := by
    rw [← BitVec.toNat_inj, BitVec.toNat_and]
    exact (Nat.and_two_pow_sub_one_eq_mod p.regs.oamAddr.toNat 2).congr_left
  simp only [Ppu.oamValue, byteTwo]

theorem perform_oamDataRead {a : Word} {s : State} (port : isPort 4 a) (bits : s.ppu.bus.decay.length = 8) :
    perform (.read a) s = { s with
      cpuBus := s.ppu.oamDataValue s.cfg, ppu := { s.ppu with bus := refreshedBus (s.ppu.oamDataValue s.cfg) } } := by
  rw [perform_read_port port, ← refresh_full s.ppu _ bits]
  rfl

theorem writeOamData_rendering {cfg : Config} {p : Ppu} (d : Byte) (active : p.renderingActive cfg = true) :
    p.writeOamData cfg d = { p with regs := { p.regs with oamAddr := p.regs.oamAddr + 4 } } := by
  rw [Ppu.writeOamData, if_pos active]

theorem writeOamData_plain {cfg : Config} {p : Ppu} (d : Byte) (inactive : ¬ p.renderingActive cfg = true) :
    p.writeOamData cfg d = { p with
      oam := Memory.write p.oam p.regs.oamAddr.toNat d, regs := { p.regs with oamAddr := p.regs.oamAddr + 1 } } := by
  rw [Ppu.writeOamData, if_neg inactive]

theorem perform_oamDataWrite {a : Word} {d : Byte} {s : State} (port : isPort 4 a) (bits : s.ppu.bus.decay.length = 8) :
    perform (.write a d) s = { s with
      cpuBus := d, ppu := Ppu.writeOamData s.cfg d { s.ppu with bus := refreshedBus d } } :=
  perform_write_as port bits (f := .mapPpu (.writeOamData s.cfg d)) rfl

/-- Settles O48: the read by its value, the write by the two branches of `Ppu.writeOamData`. -/
theorem oamDataAccess : Obligations.OamDataAccess := by
  unfold Obligations.OamDataAccess
  intro a d s port bits
  refine ⟨⟨_, _, oamValue_eq s.ppu, fun clearing => ?_, fun plain => ?_, perform_oamDataRead port bits⟩,
    fun rendering => ?_, fun plain => ?_⟩
  · rw [oamDataValue_eq, if_pos clearing]
  · rw [oamDataValue_eq, if_neg plain]
  · rw [perform_oamDataWrite port bits, writeOamData_rendering]
    exact (renderingActive_iff s).2 rendering
  · rw [perform_oamDataWrite port bits, writeOamData_plain]
    exact mt (renderingActive_iff s).1 plain

/-! ### PPUDATA (47_ppu_registers.md R407, R408) -/

theorem eq_vramAddr {r : PpuRegs} {addr : PpuAddr} (masked : addr.toNat = r.v.toNat % 0x4000) : addr = r.vramAddr :=
  BitVec.eq_of_toNat_eq (masked.trans (BitVec.toNat_setWidth 14 r.v).symm)

theorem ppuCell_palette_index (m : Mirroring) {addr : PpuAddr} (palette : 0x3F00 ≤ addr.toNat) :
    ppuCell m addr.toNat - 0x3F00 = palIndex addr := by
  rw [ppuCell_pal m addr palette, Nat.add_sub_cancel_left]

/-- A palette entry under a 6-bit mask, as a byte. -/
theorem paletteEntry_masked (p : Ppu) (i : Nat) (r : PpuRegs) :
    (p.paletteEntry i &&& r.greyMask).setWidth 8
      = Memory.read p.palette i &&& (if r.mask.getLsbD 0 then 0x30#8 else 0x3F#8) := by
  unfold Ppu.paletteEntry PpuRegs.greyMask PpuRegs.grey
  refine BitVec.eq_of_getLsbD_eq fun b hb => ?_
  split_ifs <;> interval_cases b <;> simp

/-- The increment outside rendering, of registers whose v and PPUCTRL are those of `r`. -/
theorem incVram_eq {q r : PpuRegs} (v : q.v = r.v) (ctrl : q.ctrl = r.ctrl) :
    incVram q = r.v + if r.ctrl.getLsbD 2 then 32#15 else 1#15 := by
  unfold incVram PpuRegs.inc32
  rw [v, ctrl]
  split_ifs <;> rfl

theorem mapRegs_plainInc {w : Video} {r : PpuRegs} (v : w.ppu.regs.v = r.v) (ctrl : w.ppu.regs.ctrl = r.ctrl) :
    w.mapPpu (.mapRegs .plainInc) = { w with
      ppu := { w.ppu with
        regs := { w.ppu.regs with v := r.v + if r.ctrl.getLsbD 2 then 32#15 else 1#15 } } } := by
  rw [← incVram_eq v ctrl]
  rfl

/-- A read in rendering. -/
theorem perform_dataRead_rendering {a : Word} {s : State} (port : isPort 7 a)
    (active : s.ppu.renderingActive s.cfg = true) :
    perform (.read a) s = { s with
      cpuBus := s.ppu.bus.latch
      ppu := { s.ppu with regs := { s.ppu.regs with v := incFineY (incCoarseX s.ppu.regs.v) } } } := by
  have value : s.video.portValue s.cfg 7#3 = s.ppu.bus.latch := if_pos active
  have effect : s.video.afterPort s.cfg s.cycle 7#3 = s.video.mapPpu (.mapRegs .renderingInc) := if_pos active
  rw [perform_read_port port, value, effect]
  rfl

theorem dataValue_memory {cfg : Config} {v : Video} (inactive : ¬ v.ppu.renderingActive cfg = true)
    (memory : v.ppu.regs.vramAddr.toNat < 0x3F00) : v.dataValue cfg = v.ppu.regs.readBuffer :=
  (if_neg inactive).trans (if_pos memory)

theorem dataValue_palette {cfg : Config} {v : Video} (inactive : ¬ v.ppu.renderingActive cfg = true)
    (palette : 0x3F00 ≤ v.ppu.regs.vramAddr.toNat) :
    v.dataValue cfg = (v.ppu.paletteEntry (palIndex v.ppu.regs.vramAddr) &&& v.ppu.regs.greyMask).setWidth 8
      ||| (v.ppu.bus.latch &&& 0xC0#8) :=
  (if_neg inactive).trans (if_neg palette.not_gt)

/-- The bits of open bus a read outside rendering refreshes: a palette entry drives six. -/
def refreshMask (a : PpuAddr) : Byte := if a.toNat < 0x3F00 then 0xFF#8 else 0x3F#8

theorem refresh_memory {a : PpuAddr} (memory : a.toNat < 0x3F00) (value : Byte) {p : Ppu} (bits : p.bus.decay.length = 8) :
    p.bus.refresh (refreshMask a) value = refreshedBus value := by
  rw [refreshMask, if_pos memory]
  exact congrArg Ppu.bus (refresh_full p value bits)

theorem refresh_palette {a : PpuAddr} (palette : 0x3F00 ≤ a.toNat) (entry : BitVec 6) {value : Byte} {b : OpenBus}
    (shown : value = entry.setWidth 8 ||| (b.latch &&& 0xC0#8)) (bits : b.decay.length = 8) :
    b.refresh (refreshMask a) value = { latch := value, decay := [0, 0, 0, 0, 0, 0] ++ b.decay.drop 6 } := by
  have top : value &&& ~~~0x3F#8 = b.latch &&& ~~~0x3F#8 := by
    rw [shown]
    refine BitVec.eq_of_getLsbD_eq fun i hi => ?_
    interval_cases i <;> simp
  rw [refreshMask, if_neg palette.not_gt, refresh_eq top, resetDecay_low bits]

/-- The PPU side with the read buffer refilled from v and open bus `bus`, before the address reaches A12. -/
def refilled (s : State) (bus : OpenBus) : Video where
  ppu := { s.ppu with
    bus := bus, regs := { s.ppu.regs with readBuffer := s.video.ppuRead (refillAddr s.ppu.regs.vramAddr) } }
  cart := s.cart

/-- A read outside rendering. -/
theorem perform_dataRead_plain {a : Word} {s : State} (port : isPort 7 a)
    (inactive : ¬ s.ppu.renderingActive s.cfg = true) {u : Video}
    (driven : u = (refilled s (s.ppu.bus.refresh (refreshMask s.ppu.regs.vramAddr) (s.video.dataValue s.cfg))).driveA12 s.cycle
      (s.ppu.regs.vramAddr.getLsbD 12)) :
    perform (.read a) s = { s with
      cpuBus := s.video.dataValue s.cfg
      cart := u.cart
      ppu := { u.ppu with
        regs := { u.ppu.regs with
          v := s.ppu.regs.v + if s.ppu.regs.ctrl.getLsbD 2 then 32#15 else 1#15 } } } := by
  have effect : s.video.afterPort s.cfg s.cycle 7#3 = u.mapPpu (.mapRegs .plainInc) := by
    rw [driven]
    exact if_neg inactive
  have scroll : u.ppu.regs.v = s.ppu.regs.v := by
    rw [driven, driveA12_regs]
    rfl
  have ctrl : u.ppu.regs.ctrl = s.ppu.regs.ctrl := by
    rw [driven, driveA12_regs]
    rfl
  rw [perform_read_port port, effect, mapRegs_plainInc scroll ctrl]
  rfl

theorem perform_dataWrite {a : Word} {d : Byte} {s : State} (port : isPort 7 a) (bits : s.ppu.bus.decay.length = 8) :
    perform (.write a d) s = State.withVideo
      (Video.writeData s.cfg s.cycle d { ppu := { s.ppu with bus := refreshedBus d }, cart := s.cart })
      { s with cpuBus := d } :=
  perform_write_as port bits (f := .writeData s.cfg s.cycle d) rfl

/-- A write in rendering stores in the palette alone. -/
theorem writeData_rendering {cfg : Config} {v : Video} (c : Nat) (d : Byte) (active : v.ppu.renderingActive cfg = true)
    {index : Nat} (cell : 0x3F00 ≤ v.ppu.regs.vramAddr.toNat → index = palIndex v.ppu.regs.vramAddr) :
    v.writeData cfg c d = { v with
      ppu := { v.ppu with
        palette := if 0x3F00 ≤ v.ppu.regs.vramAddr.toNat then Memory.write v.ppu.palette index (d &&& 0x3F#8)
          else v.ppu.palette
        regs := { v.ppu.regs with v := incFineY (incCoarseX v.ppu.regs.v) } } } := by
  unfold Video.writeData
  dsimp only
  rw [if_pos active]
  split_ifs with palette
  · rw [cell palette]
    rfl
  · rfl

/-- A write outside rendering. -/
theorem writeData_plain {cfg : Config} {v u : Video} (c : Nat) (d : Byte) (inactive : ¬ v.ppu.renderingActive cfg = true)
    (driven : u = (v.ppuWrite v.ppu.regs.vramAddr d).driveA12 c (v.ppu.regs.vramAddr.getLsbD 12)) :
    v.writeData cfg c d = { u with
      ppu := { u.ppu with
        regs := { u.ppu.regs with
          v := v.ppu.regs.v + if v.ppu.regs.ctrl.getLsbD 2 then 32#15 else 1#15 } } } := by
  have regs : u.ppu.regs = v.ppu.regs := by rw [driven, driveA12_regs, ppuWrite_regs]
  rw [← mapRegs_plainInc (by rw [regs]) (by rw [regs]), driven]
  exact if_neg inactive

/-- Settles O47: read and write, each by the two branches of `rendering_active`. -/
theorem ppuDataAccess : Obligations.PpuDataAccess := by
  unfold Obligations.PpuDataAccess
  rintro a d s port bits r addr inc refill index colour rfl masked rfl rfl cellIndex rfl
  obtain rfl := eq_vramAddr masked
  have cell : 0x3F00 ≤ s.ppu.regs.vramAddr.toNat → index = palIndex s.ppu.regs.vramAddr := fun palette =>
    cellIndex.trans (ppuCell_palette_index _ palette)
  refine ⟨fun rendering => ?_, fun plain => ?_⟩
  · have active := (renderingActive_iff s).2 rendering
    refine ⟨perform_dataRead_rendering port active, ?_⟩
    rw [perform_dataWrite port bits, writeData_rendering (index := index)]
    · rfl
    · exact active
    · exact cell
  · have inactive := mt (renderingActive_iff s).1 plain
    refine ⟨⟨s.video.dataValue s.cfg, s.ppu.bus.refresh (refreshMask s.ppu.regs.vramAddr) (s.video.dataValue s.cfg), _,
      fun memory => ?_, fun palette => ?_, rfl, perform_dataRead_plain port inactive rfl⟩, _, rfl, ?_⟩
    · have value := dataValue_memory (v := s.video) inactive memory
      exact ⟨value, refresh_memory memory _ bits⟩
    · have shown := dataValue_palette (v := s.video) inactive palette
      refine ⟨?_, refresh_palette palette _ shown bits⟩
      rw [shown, paletteEntry_masked, cell palette]
      rfl
    · rw [perform_dataWrite port bits, writeData_plain (driven := rfl)]
      · rfl
      · exact inactive

end Sys2Proof.Proofs.PpuRegisters
end

section
/-! The PPU pipeline (48_ppu_pipeline.md R440-R478): the position along a frame, the status flags, the scroll register, the
pixel with its sprite-0 hit, and the dot out of rendering; O51 to O54 and O58. -/

namespace Sys2Proof.Proofs.PpuPipeline

open Sys2Proof Sys2Proof.Machine Sys2Proof.Proofs.PpuRegisters

/-! ### The position (48_ppu_pipeline.md R443, R444) -/

theorem advance_place_eq {cfg : Config} {p : Position} {line : Int} {dot : Nat} {odd : Bool}
    (place : p.place = (line, dot, odd)) (on : Bool) :
    (p.advance cfg on).place
      = if line = -1 ∧ dot = 339 ∧ cfg.region = .ntsc ∧ odd = true ∧ on = true then (0, 0, odd)
        else if dot < 340 then (line, dot + 1, odd)
        else if line < cfg.region.numLines - 2 then (line + 1, 0, odd)
        else (-1, 0, !odd) := by
  obtain ⟨rfl, rfl, rfl⟩ : p.line = line ∧ p.dot = dot ∧ p.oddFrame = odd := by simpa [Position.place] using place
  unfold Position.advance
  simp only [Bool.and_eq_true, decide_eq_true_eq, and_assoc]
  split_ifs <;> rfl

theorem ppuDot_place (s : State) :
    (ppuDot s).ppu.pos.place = (s.ppu.pos.advance s.cfg s.ppu.regs.renderingEnabled).place :=
  (Video.dot_effect s.cfg s.cycle s.video).1

/-- The dot that a frame reaches after `m` dots, counted in full lines of 341; `skip` dots are left out after dot 339 of the
pre-render line. -/
def frameDot (skip m : Nat) : Nat := if m < 340 then m else m + skip

/-- The place `k` full dots into a frame. -/
def placeAt (odd : Bool) (k : Nat) : Int × Nat × Bool := ((k / 341 : Nat) - 1, k % 341, odd)

theorem frameDot_short (skip : Nat) {m : Nat} (short : m < 340) : frameDot skip m = m := if_pos short

theorem frameDot_long (skip : Nat) {m : Nat} (long : 340 ≤ m) : frameDot skip m = m + skip := if_neg long.not_gt

/-- Inside a frame `Advance()` goes to the next of its full dots, but at the skipped one. -/
theorem advance_placeAt {cfg : Config} {p : Position} {odd : Bool} {k : Nat} (place : p.place = placeAt odd k) (on : Bool)
    (inside : k + 1 < 341 * cfg.region.numLines.toNat) :
    (p.advance cfg on).place
      = if k = 339 ∧ cfg.region = .ntsc ∧ odd = true ∧ on = true then placeAt odd 341 else placeAt odd (k + 1) := by
  have skips : ((k / 341 : Nat) : Int) - 1 = -1 ∧ k % 341 = 339 ↔ k = 339 := by omega
  rw [advance_place_eq place]
  simp only [← and_assoc, skips, placeAt]
  split_ifs
  · rfl
  · simp only [Prod.mk.injEq, and_true]
    omega
  · simp only [Prod.mk.injEq, and_true]
    omega
  · omega

theorem numLines_large (r : Region) : 262 ≤ r.numLines := by cases r <;> decide

section Frame

variable {cfg : Config} {on : Nat → Bool} {p : Position} {skip : Nat} (start : p.place = placeAt p.oddFrame 0)
  (skips : skip = if cfg.region = .ntsc ∧ p.oddFrame = true ∧ on 339 = true then 1 else 0)

include start skips

/-- Every dot of a frame, by the number of dots since its start. -/
theorem positionAfter_place : ∀ m, m + skip < 341 * cfg.region.numLines.toNat →
    (positionAfter cfg on p m).place = placeAt p.oddFrame (frameDot skip m) := by
  have long := numLines_large cfg.region
  intro m
  induction m with
  | zero => exact fun _ => start
  | succ m ih =>
    intro inside
    have here := ih (by omega)
    rcases Nat.lt_trichotomy m 339 with before | rfl | after
    · rw [frameDot_short skip (by omega)] at here ⊢
      refine (advance_placeAt here (on m) (by omega)).trans ?_
      rw [if_neg fun skipped => before.ne skipped.1]
    · rw [frameDot_short skip (by omega)] at here
      rw [frameDot_long skip (by omega), skips]
      refine (advance_placeAt here (on 339) (by omega)).trans ?_
      simp only [true_and]
      split_ifs <;> rfl
    · rw [frameDot_long skip (by omega)] at here ⊢
      refine (advance_placeAt here (on m) (by omega)).trans ?_
      rw [if_neg (by omega), Nat.add_right_comm]

/-- The frame's last dot leads back to its start, with the parity flipped. -/
theorem positionAfter_frame {n : Nat} (length : n + skip = 341 * cfg.region.numLines.toNat) :
    (positionAfter cfg on p n).place = (-1, 0, !p.oddFrame) := by
  have long := numLines_large cfg.region
  have once : skip ≤ 1 := by rw [skips]; split_ifs <;> omega
  obtain ⟨m, rfl⟩ : ∃ m, n = m + 1 := ⟨n - 1, by omega⟩
  have last := positionAfter_place start skips m (by omega)
  rw [frameDot_long skip (by omega)] at last
  refine (advance_place_eq last (on m)).trans ?_
  rw [if_neg (by omega), if_neg (by omega), if_neg (by omega)]

/-- No dot inside the frame is its start. -/
theorem positionAfter_inside {m : Nat} (pos : 0 < m) (inside : m + skip < 341 * cfg.region.numLines.toNat) :
    ¬ ((positionAfter cfg on p m).line = -1 ∧ (positionAfter cfg on p m).dot = 0) := by
  have place := positionAfter_place start skips m inside
  simp only [Position.place, placeAt, Prod.mk.injEq] at place
  obtain ⟨line, dot, -⟩ := place
  rw [line, dot]
  unfold frameDot
  split_ifs <;> omega

end Frame

/-- Settles O51: `Advance()` case by case; along a frame by induction on its dots, counted as if none were skipped. -/
theorem framesHaveTheirLength : Obligations.FramesHaveTheirLength := by
  unfold Obligations.FramesHaveTheirLength
  refine ⟨fun s line dot odd place => ?_, fun _ _ => rfl, fun cfg on p n line dot length => ?_⟩
  · rw [ppuDot_place, advance_place_eq place.symm]
    simp only [renderingEnabled_iff]
  · have start : p.place = placeAt p.oddFrame 0 := by rw [Position.place, line, dot]; rfl
    have long := numLines_large cfg.region
    have frame : n + (if cfg.region = .ntsc ∧ p.oddFrame = true ∧ on 339 = true then 1 else 0)
        = 341 * cfg.region.numLines.toNat := by
      rw [length]
      split_ifs <;> omega
    exact ⟨positionAfter_frame start rfl frame, fun m pos inside => positionAfter_inside start rfl pos (by omega)⟩

/-! ### The flags (48_ppu_pipeline.md R460, R461, R464, R475) -/

theorem inRange_iff (s : State) (y : Byte) : s.ppu.inRange y = true ↔ onNextLine s y := by
  unfold Ppu.inRange PpuRegs.spriteHeight PpuRegs.sprH
  rw [Bool.and_eq_true, decide_eq_true_eq, decide_eq_true_eq]

theorem atVblankStart_iff (p : Position) (cfg : Config) :
    p.atVblankStart cfg = true ↔ p.line = cfg.region.nmiLine ∧ p.dot = 1 := by
  rw [Position.atVblankStart, Bool.and_eq_true, decide_eq_true_eq, decide_eq_true_eq]

theorem ppuDot_vbl_iff (s : State) :
    (ppuDot s).ppu.regs.vbl = true ↔
      ¬ (s.ppu.pos.line = -1 ∧ s.ppu.pos.dot = 1)
        ∧ (s.ppu.regs.vbl = true
          ∨ s.ppu.pos.line = s.cfg.region.nmiLine ∧ s.ppu.pos.dot = 1 ∧ s.ppu.pos.vblSuppress = false) := by
  obtain ⟨-, vbl, -⟩ := Video.dot_effect s.cfg s.cycle s.video
  rw [ppuDot_ppu, vbl, State.video_ppu]
  split_ifs with prerender
  · simp [prerender]
  · simp [prerender, atVblankStart_iff, and_assoc]

theorem ppuDot_vblSuppress_iff (s : State) :
    (ppuDot s).ppu.pos.vblSuppress = true ↔
      s.ppu.pos.vblSuppress = true ∧ ¬ (s.ppu.pos.line = s.cfg.region.nmiLine ∧ s.ppu.pos.dot = 1) := by
  obtain ⟨-, -, suppress, -⟩ := Video.dot_effect s.cfg s.cycle s.video
  rw [ppuDot_ppu, suppress, State.video_ppu, Bool.and_eq_true, Bool.not_eq_true', ← Bool.not_eq_true, atVblankStart_iff]

theorem ppuDot_sov_iff (s : State) :
    (ppuDot s).ppu.regs.sov = true ↔
      ¬ (s.ppu.pos.line = -1 ∧ s.ppu.pos.dot = 1)
        ∧ (s.ppu.regs.sov = true
          ∨ renderingOn s ∧ visibleLine s ∧ 66 ≤ s.ppu.pos.dot ∧ s.ppu.pos.dot ≤ 256 ∧ s.ppu.pos.dot % 2 = 0
            ∧ s.ppu.ev.phase = .overflow ∧ onNextLine s s.ppu.ev.latch) := by
  obtain ⟨-, -, -, -, -, sov⟩ := Video.dot_effect s.cfg s.cycle s.video
  rw [ppuDot_ppu, sov, State.video_ppu]
  split_ifs with prerender
  · simp [prerender]
  · rw [Bool.or_eq_true, Bool.and_eq_true, decide_eq_true_eq, renderingActive_iff, inRange_iff, and_iff_right prerender]
    refine or_congr_right ⟨?_, ?_⟩
    · rintro ⟨⟨⟨on, line⟩, shown, low, high, even, phase⟩, range⟩
      exact ⟨on, line.resolve_left (by omega), low, high, even, phase, range⟩
    · rintro ⟨on, line, low, high, even, phase, range⟩
      exact ⟨⟨⟨on, .inr line⟩, line.1, low, high, even, phase⟩, range⟩

theorem ppuDot_nmiOut (s : State) :
    (ppuDot s).ppu.nmiOut = (s.ppu.regs.ctrl.getLsbD 7 && (ppuDot s).ppu.regs.vbl) := by
  obtain ⟨-, -, -, -, regs, -⟩ := dot_keeps s
  have ctrl : (ppuDot s).ppu.regs.ctrl = s.ppu.regs.ctrl := by rw [regs]
  rw [Ppu.nmiOut, PpuRegs.nmiEn, ctrl]

/-- Dot 1 of the pre-render line clears the sprite flags. -/
theorem ppuDot_prerender {s : State} (line : s.ppu.pos.line = -1) (dot : s.ppu.pos.dot = 1) :
    (ppuDot s).ppu.regs.s0h = false ∧ (ppuDot s).ppu.regs.sov = false ∧ (ppuDot s).ppu.pos.s0Delayed = false := by
  obtain ⟨s0h, delayed⟩ := dot_s0_blank (s := s) fun pixel => absurd pixel.2.1.1 (by omega)
  have sov := ppuDot_sov_iff s
  simp only [line, dot, and_self, not_true_eq_false, and_false, false_or, false_and, iff_false, Bool.not_eq_true,
    OfNat.one_ne_ofNat] at s0h delayed sov
  exact ⟨s0h, sov, delayed⟩

/-- Settles O52: each flag by its own rule, from `Video.dot_effect` and the sprite-0 lemmas of the dot. -/
theorem vblankIsSetAndCleared : Obligations.VblankIsSetAndCleared := by
  unfold Obligations.VblankIsSetAndCleared
  exact fun s => ⟨ppuDot_vbl_iff s, ppuDot_vblSuppress_iff s, ppuDot_nmiOut s, ppuDot_prerender, ppuDot_sov_iff s,
    dot_s0h_stays, dot_s0_blank⟩

/-! ### The fields of v (48_ppu_pipeline.md R450-R453) -/

/-- Bits from `n` up agree where the quotients by `2 ^ n` do. -/
theorem getLsbD_of_div_eq {v w : Scroll} {n i : Nat} (same : v.toNat / 2 ^ n = w.toNat / 2 ^ n) (high : n ≤ i) :
    v.getLsbD i = w.getLsbD i := by
  obtain ⟨j, rfl⟩ := Nat.exists_eq_add_of_le high
  rw [← BitVec.testBit_toNat, ← BitVec.testBit_toNat, Nat.add_comm, ← Nat.testBit_div_two_pow, same,
    Nat.testBit_div_two_pow]

/-- Bits below `n` agree where the remainders by `2 ^ n` do. -/
theorem getLsbD_of_mod_eq {v w : Scroll} {n i : Nat} (same : v.toNat % 2 ^ n = w.toNat % 2 ^ n) (low : i < n) :
    v.getLsbD i = w.getLsbD i := by
  have bit (u : Scroll) : u.getLsbD i = (u.toNat % 2 ^ n).testBit i := by
    rw [Nat.testBit_mod_two_pow, BitVec.testBit_toNat, decide_eq_true low, Bool.true_and]
  rw [bit v, bit w, same]

theorem toNat_field (v : Scroll) (lo len : Nat) : (v.extractLsb' lo len).toNat = v.toNat / 2 ^ lo % 2 ^ len := by
  rw [BitVec.extractLsb'_toNat, Nat.shiftRight_eq_div_pow]

theorem field_ne_iff {v : Scroll} {lo len : Nat} {d : BitVec len} :
    v.extractLsb' lo len ≠ d ↔ v.toNat / 2 ^ lo % 2 ^ len ≠ d.toNat := by
  rw [ne_eq, ← BitVec.toNat_inj, toNat_field]

/-- A field counts up, modulo its size, when its unit is added. -/
theorem field_add_unit (v : Scroll) {lo len : Nat} (fits : lo + len ≤ 15) :
    (v + BitVec.ofNat 15 (2 ^ lo)).extractLsb' lo len = v.extractLsb' lo len + 1 := by
  have above : 2 ^ 15 = 2 ^ lo * 2 ^ (15 - lo) := by rw [← Nat.pow_add]; congr 1; omega
  have size : 2 ^ len ∣ 2 ^ (15 - lo) := Nat.pow_dvd_pow 2 (by omega)
  refine BitVec.eq_of_toNat_eq ?_
  rw [toNat_field, BitVec.toNat_add, BitVec.toNat_add, toNat_field, BitVec.toNat_ofNat, Nat.add_mod_mod, above,
    Nat.mod_mul_right_div_self, Nat.mod_mod_of_dvd _ size, Nat.add_div_right _ (Nat.two_pow_pos lo)]
  simp [Nat.add_mod]

/-- Coarse X at its end wraps into the next nametable. -/
theorem incCoarseX_wraps {v : Scroll} (last : v.extractLsb' 0 5 = 31#5) :
    (incCoarseX v).extractLsb' 0 5 = 0#5 ∧ (incCoarseX v).getLsbD 10 = !v.getLsbD 10 := by
  rw [incCoarseX, coarseX, if_pos last]
  refine ⟨BitVec.eq_of_getLsbD_eq fun i hi => ?_, by simp⟩
  interval_cases i <;> simp

theorem toNat_succ {v : Scroll} (inside : v.extractLsb' 0 5 ≠ 31#5) : (v + 1#15).toNat / 2 ^ 5 = v.toNat / 2 ^ 5 := by
  rw [field_ne_iff] at inside
  have bound := v.isLt
  rw [BitVec.toNat_add]
  simp only [BitVec.toNat_ofNat] at *
  omega

theorem incCoarseX_steps {v : Scroll} (inside : v.extractLsb' 0 5 ≠ 31#5) :
    (incCoarseX v).extractLsb' 0 5 = v.extractLsb' 0 5 + 1 ∧ (incCoarseX v).getLsbD 10 = v.getLsbD 10 := by
  rw [incCoarseX, coarseX, if_neg inside]
  exact ⟨field_add_unit v (by decide), getLsbD_of_div_eq (toNat_succ inside) (by decide)⟩

/-- A coarse-X increment changes bits 0-4 and 10 alone. -/
theorem getLsbD_incCoarseX {v : Scroll} {i : Nat} (above : 5 ≤ i) (other : i ≠ 10) (bound : i < 15) :
    (incCoarseX v).getLsbD i = v.getLsbD i := by
  unfold incCoarseX coarseX
  split_ifs with last
  · interval_cases i <;> simp_all
  · exact getLsbD_of_div_eq (toNat_succ last) above

/-- Fine Y below its end counts up. -/
theorem incFineY_steps {v : Scroll} (inside : v.extractLsb' 12 3 ≠ 7#3) :
    (incFineY v).extractLsb' 12 3 = v.extractLsb' 12 3 + 1 ∧ (incFineY v).extractLsb' 0 12 = v.extractLsb' 0 12 := by
  have kept : (v + 0x1000#15).toNat % 2 ^ 12 = v.toNat % 2 ^ 12 := by
    rw [BitVec.toNat_add]
    simp only [BitVec.toNat_ofNat]
    omega
  rw [incFineY, fineY, if_neg inside]
  exact ⟨field_add_unit v (by decide), extractLsb'_congr fun i hi => getLsbD_of_mod_eq kept (by omega)⟩

theorem toNat_add_row {w : Scroll} (inside : w.extractLsb' 5 5 ≠ 31#5) :
    (w + 0x20#15).toNat / 2 ^ 10 = w.toNat / 2 ^ 10 ∧ (w + 0x20#15).toNat % 2 ^ 5 = w.toNat % 2 ^ 5 := by
  rw [field_ne_iff] at inside
  have bound := w.isLt
  rw [BitVec.toNat_add]
  simp only [BitVec.toNat_ofNat] at *
  omega

/-- In the last row of a nametable, and in the last that v can name, fine Y wraps to row 0; from row 29 into the other
nametable. -/
theorem incFineY_lastRow {v : Scroll} (last : v.extractLsb' 12 3 = 7#3)
    (row : v.extractLsb' 5 5 = 29#5 ∨ v.extractLsb' 5 5 = 31#5) :
    incFineY v = (v &&& 0x0C1F#15) ^^^ (if v.extractLsb' 5 5 = 29#5 then 0x0800#15 else 0#15) := by
  have mask : ~~~0x7000#15 &&& ~~~0x03E0#15 = 0x0C1F#15 := rfl
  rw [incFineY, fineY, if_pos last]
  unfold coarseY
  obtain row | row := row
  · simp only [row, if_true, BitVec.and_assoc, mask]
  · have other : 31#5 ≠ 29#5 := by decide
    simp only [row, if_neg other, if_true, BitVec.and_assoc, mask, BitVec.xor_zero]

theorem incFineY_otherRow {v : Scroll} (last : v.extractLsb' 12 3 = 7#3)
    (row : ¬ (v.extractLsb' 5 5 = 29#5 ∨ v.extractLsb' 5 5 = 31#5)) :
    incFineY v = (v &&& ~~~0x7000#15) + 0x20#15 := by
  obtain ⟨not29, not31⟩ := not_or.1 row
  rw [incFineY, fineY, if_pos last]
  unfold coarseY
  rw [if_neg not29, if_neg not31]

/-- Fine Y at its end wraps into the next tile row, the last row of a nametable into the other one. -/
theorem incFineY_wraps {v : Scroll} (last : v.extractLsb' 12 3 = 7#3) :
    (incFineY v).extractLsb' 12 3 = 0#3
      ∧ (incFineY v).getLsbD 11 = (v.getLsbD 11 ^^ decide (v.extractLsb' 5 5 = 29#5))
      ∧ (incFineY v).extractLsb' 5 5
        = (if v.extractLsb' 5 5 = 29#5 ∨ v.extractLsb' 5 5 = 31#5 then 0#5 else v.extractLsb' 5 5 + 1)
      ∧ (incFineY v).extractLsb' 0 5 = v.extractLsb' 0 5 ∧ (incFineY v).getLsbD 10 = v.getLsbD 10 := by
  by_cases row : v.extractLsb' 5 5 = 29#5 ∨ v.extractLsb' 5 5 = 31#5
  · rw [incFineY_lastRow last row, if_pos row]
    split_ifs with switches
    all_goals
      refine ⟨BitVec.eq_of_getLsbD_eq fun i hi => ?_, by simp [switches], BitVec.eq_of_getLsbD_eq fun i hi => ?_,
        extractLsb'_congr fun i hi => ?_, by simp⟩ <;> interval_cases i <;> simp
  · obtain ⟨not29, not31⟩ := not_or.1 row
    have tile : (v &&& ~~~0x7000#15).extractLsb' 5 5 = v.extractLsb' 5 5 := extractLsb'_congr fun i hi => by
      interval_cases i <;> simp
    obtain ⟨high, low⟩ := toNat_add_row (w := v &&& ~~~0x7000#15) (by rwa [tile])
    rw [incFineY_otherRow last row, if_neg row, decide_eq_false not29]
    refine ⟨BitVec.eq_of_getLsbD_eq fun i hi => ?_, ?_, (field_add_unit _ (by decide)).trans (by rw [tile]),
      extractLsb'_congr fun i hi => ?_, ?_⟩
    · rw [BitVec.getLsbD_extractLsb', getLsbD_of_div_eq high (by omega)]
      interval_cases i <;> simp
    · rw [getLsbD_of_div_eq high (by decide)]
      simp
    · rw [getLsbD_of_mod_eq low (by omega)]
      interval_cases i <;> simp
    · rw [getLsbD_of_div_eq high (by decide)]
      simp

theorem copyX_fields (v t : Scroll) :
    (copyX v t).getLsbD 10 = t.getLsbD 10 ∧ (copyX v t).extractLsb' 0 5 = t.extractLsb' 0 5
      ∧ (copyX v t).extractLsb' 5 5 = v.extractLsb' 5 5 ∧ (copyX v t).extractLsb' 11 4 = v.extractLsb' 11 4 := by
  unfold copyX
  refine ⟨by simp, extractLsb'_congr fun i hi => ?_, extractLsb'_congr fun i hi => ?_, extractLsb'_congr fun i hi => ?_⟩ <;>
    interval_cases i <;> simp

theorem copyY_fields (v t : Scroll) :
    (copyY v t).extractLsb' 11 4 = t.extractLsb' 11 4 ∧ (copyY v t).extractLsb' 5 5 = t.extractLsb' 5 5
      ∧ (copyY v t).getLsbD 10 = v.getLsbD 10 ∧ (copyY v t).extractLsb' 0 5 = v.extractLsb' 0 5 := by
  unfold copyY
  refine ⟨extractLsb'_congr fun i hi => ?_, extractLsb'_congr fun i hi => ?_, by simp, extractLsb'_congr fun i hi => ?_⟩ <;>
    interval_cases i <;> simp

/-! ### v after a dot or an access -/

theorem scrolled_coarseX {line : Int} {dot : Nat} (v t : Scroll) (group : dot % 8 = 0) (pos : 0 < dot)
    (fetch : dot < 256 ∨ dot = 328 ∨ dot = 336) : scrolled line dot v t = incCoarseX v := by
  unfold scrolled
  rw [if_neg (by omega), if_neg (by omega), if_neg (by omega), if_pos ⟨by omega, group⟩]

theorem scrolled_copyY (dot : Nat) (v t : Scroll) (first : 280 ≤ dot) (last : dot ≤ 304) :
    scrolled (-1) dot v t = copyY v t := by
  unfold scrolled
  rw [if_neg (by omega), if_neg (by omega), if_pos ⟨rfl, first, last⟩, if_neg (by omega)]

theorem scrolled_other {line : Int} {dot : Nat} (v t : Scroll)
    (fetch : ¬ (dot % 8 = 0 ∧ 0 < dot ∧ (dot ≤ 256 ∨ dot = 328 ∨ dot = 336))) (copy : dot ≠ 257)
    (vertical : ¬ (280 ≤ dot ∧ dot ≤ 304 ∧ line = -1)) : scrolled line dot v t = v := by
  unfold scrolled
  rw [if_neg (by omega), if_neg copy, if_neg (by omega), if_neg (by omega)]

theorem ppuDot_v (s : State) :
    (ppuDot s).ppu.regs.v = if s.ppu.renderingActive s.cfg then
      scrolled s.ppu.pos.line s.ppu.pos.dot s.ppu.regs.v s.ppu.regs.t else s.ppu.regs.v := by
  obtain ⟨-, -, -, v, -⟩ := Video.dot_effect s.cfg s.cycle s.video
  exact v

theorem perform_dataWrite_v {a : Word} (d : Byte) {s : State} (port : isPort 7 a)
    (active : s.ppu.renderingActive s.cfg = true) :
    (perform (.write a d) s).ppu.regs.v = incFineY (incCoarseX s.ppu.regs.v) := by
  have arm : s.video.writePort s.cfg s.cycle 7#3 d = (s.video.mapPpu (.refresh 0xFF#8 d)).writeData s.cfg s.cycle d := rfl
  have wrote := writeData_rendering (v := s.video.mapPpu (.refresh 0xFF#8 d)) s.cycle d active fun _ => rfl
  rw [perform_write_port port, State.withVideo_ppu, arm, wrote]
  rfl

/-- Settles O54: the fields of each increment and copy, and the dots by `Video.dot_effect`, whose `scrolled` says which of
them a dot makes. -/
theorem scrollRegisterInRendering : Obligations.ScrollRegisterInRendering := by
  unfold Obligations.ScrollRegisterInRendering
  refine ⟨fun v => ⟨incCoarseX_wraps, incCoarseX_steps, extractLsb'_congr fun i hi => ?_, extractLsb'_congr fun i hi => ?_,
    incFineY_steps, incFineY_wraps⟩, fun s rendering dot v t w hdot hv ht hw => ?_, fun s blank => ?_,
    fun a d s port rendering => ?_⟩
  · exact getLsbD_incCoarseX (by omega) (by omega) (by omega)
  · exact getLsbD_incCoarseX (by omega) (by omega) (by omega)
  · rw [ppuDot_v, if_pos ((renderingActive_iff s).2 rendering), ← hdot, ← hv, ← ht] at hw
    subst hw
    refine ⟨scrolled_coarseX v t, ?_, ?_, fun first last line => ?_, scrolled_other v t⟩
    · rintro rfl
      rfl
    · rintro rfl
      exact copyX_fields v t
    · rw [line, scrolled_copyY dot v t first last]
      exact copyY_fields v t
  · rw [ppuDot_v, if_neg (mt (renderingActive_iff s).1 blank)]
  · have active := (renderingActive_iff s).2 rendering
    refine ⟨?_, perform_dataWrite_v d port active⟩
    rw [perform_dataRead_rendering port active]

/-! ### The pixel of a dot (48_ppu_pipeline.md R440, R472-R478) -/

theorem visibleLines_le_nmiLine (r : Region) : r.visibleLines ≤ r.nmiLine := by cases r <;> decide

/-- A visible line has no flag event. -/
theorem flagEvents_visible {s : State} (visible : visibleLine s) : s.ppu.flagEvents s.cfg = s.ppu := by
  obtain ⟨first, last⟩ := visible
  have before := visibleLines_le_nmiLine s.cfg.region
  have vblank : ¬ s.ppu.pos.atVblankStart s.cfg = true := by
    rw [atVblankStart_iff]
    omega
  have prerender : ¬ s.ppu.pos.line = -1 := by omega
  unfold Ppu.flagEvents
  rw [if_neg vblank]
  simp [prerender]

/-- The PPU that the dot's pixel is composed from: in rendering, after the dot's shift. -/
def pixelSource (s : State) : Ppu :=
  if s.ppu.regs.renderingEnabled then s.ppu.mapBg (.shiftAndReload s.ppu.pos.dot) else s.ppu

theorem pixelSource_on {s : State} (on : renderingOn s) : pixelSource s = s.ppu.mapBg (.shiftAndReload s.ppu.pos.dot) :=
  if_pos ((renderingEnabled_iff s).2 on)

theorem pixelSource_off {s : State} (off : ¬ renderingOn s) : pixelSource s = s.ppu :=
  if_neg (mt (renderingEnabled_iff s).1 off)

/-- The dot shows a pixel. -/
abbrev ShowsPixel (s : State) : Prop := visibleLine s ∧ 1 ≤ s.ppu.pos.dot ∧ s.ppu.pos.dot ≤ 256

/-- Of the frame buffer, S0H and the delayed hit a pixel step changes what `ComposePixel` does. -/
theorem pixelStep_shows {s : State} (shows : ShowsPixel s) {composed : Ppu}
    (eq : composed = (pixelSource s).composePixel (s.ppu.pos.dot - 1)) :
    (s.ppu.pixelStep s.ppu.pos.dot).fb = composed.fb
      ∧ (s.ppu.pixelStep s.ppu.pos.dot).regs.s0h = composed.regs.s0h
      ∧ (s.ppu.pixelStep s.ppu.pos.dot).pos = composed.pos := by
  obtain ⟨⟨line, -⟩, low, high⟩ := shows
  have here : (pixelSource s).pos = s.ppu.pos := by
    unfold pixelSource
    split_ifs <;> rfl
  have step : s.ppu.pixelStep s.ppu.pos.dot
      = if s.ppu.regs.renderingEnabled then { composed with spr := composed.spr.decrement } else composed := by
    rw [eq]
    unfold Ppu.pixelStep
    dsimp only
    rw [← pixelSource, here, if_pos (by simp [line, low, high])]
  rw [step]
  split_ifs <;> exact ⟨rfl, rfl, rfl⟩

theorem dot_fb_pixel {s : State} (shows : ShowsPixel s) (y x : Nat) :
    pixelAt (ppuDot s).ppu.fb y x
      = if s.ppu.pos.line = y ∧ s.ppu.pos.dot = x + 1 then
          some (Config.rgbPalette ((pixelSource s).colourAt (s.ppu.pos.dot - 1)))
        else pixelAt s.ppu.fb y x := by
  obtain ⟨q, dot, parts⟩ := dot_parts s
  obtain ⟨-, -, fb, -⟩ := parts _ _ rfl rfl
  obtain ⟨pixel, -, -⟩ := pixelStep_shows shows rfl
  have last : (ppuDot s).ppu.fb = q.fb := by rw [dot]; show q.delayedHit.fb = _; rw [Ppu.delayedHit_only]
  have source : (pixelSource s).fb = s.ppu.fb ∧ (pixelSource s).pos.line = s.ppu.pos.line := by
    unfold pixelSource
    split_ifs <;> exact ⟨rfl, rfl⟩
  obtain ⟨⟨line, shown⟩, low, high⟩ := shows
  have place : y = s.ppu.pos.line.toNat ∧ x = s.ppu.pos.dot - 1 ↔ s.ppu.pos.line = y ∧ s.ppu.pos.dot = x + 1 := by omega
  rw [last, fb, if_pos (.inr ⟨line, shown⟩), flagEvents_visible ⟨line, shown⟩, pixel, Ppu.composePixel, source.1, source.2,
    pixelAt_putPixel]
  simp only [place]

theorem dot_s0_pixel {s : State} (shows : ShowsPixel s) {hit : Prop}
    (hits : (pixelSource s).sprite0Hit (s.ppu.pos.dot - 1) = true ↔ hit) :
    ((ppuDot s).ppu.regs.s0h = true
        ↔ s.ppu.regs.s0h = true ∨ (hit ∧ 2 ≤ s.ppu.pos.dot) ∨ (s.ppu.pos.s0Delayed = true ∧ s.ppu.pos.dot = 2))
      ∧ ((ppuDot s).ppu.pos.s0Delayed = true
        ↔ (s.ppu.pos.s0Delayed = true ∧ s.ppu.pos.dot ≠ 2) ∨ (hit ∧ s.ppu.pos.dot = 1)) := by
  obtain ⟨s0h, delayed⟩ := dot_s0 s rfl
  obtain ⟨-, hitNow, pos⟩ := pixelStep_shows shows rfl
  have source : (pixelSource s).regs.s0h = s.ppu.regs.s0h ∧ (pixelSource s).pos.s0Delayed = s.ppu.pos.s0Delayed := by
    unfold pixelSource
    split_ifs <;> exact ⟨rfl, rfl⟩
  obtain ⟨visible, low, high⟩ := shows
  rw [s0h, delayed, if_pos (.inr visible), flagEvents_visible visible, hitNow, pos, Ppu.composePixel, source.1, source.2]
  simp only [Bool.or_eq_true, Bool.and_eq_true, Bool.not_eq_true', decide_eq_true_eq, decide_eq_false_iff_not, hits]
  obtain one | two | later : s.ppu.pos.dot = 1 ∨ s.ppu.pos.dot = 2 ∨ 2 < s.ppu.pos.dot := by omega
  · simp [one]
  · simp [two, or_assoc]
  · have inside : 1 ≤ s.ppu.pos.dot - 1 ∧ s.ppu.pos.dot - 1 ≠ 0 ∧ 2 ≤ s.ppu.pos.dot ∧ s.ppu.pos.dot ≠ 1 := by omega
    simp [later.ne', inside]

/-! ### The colour (48_ppu_pipeline.md R472-R477) -/

theorem colour_eq (u : SpriteSlot) : u.colour = slotColour u := by
  unfold SpriteSlot.colour SpriteSlot.active slotColour
  simp only [Bool.and_eq_true, decide_eq_true_eq]
  split_ifs with active
  · have column : 7 - (-u.x).toNat = (7 + u.x).toNat := by omega
    rw [column]
    rfl
  · rfl

theorem firstOpaque_eq_find (slots : List SpriteSlot) :
    firstOpaque slots = slots.find? fun u => decide (slotColour u ≠ 0) := by
  induction slots with
  | nil => rfl
  | cons u rest ih =>
    rw [firstOpaque, colour_eq, ih, List.find?_cons]
    by_cases blank : slotColour u = 0 <;> simp [blank]

theorem bgColour_lt (p : Ppu) (x : Nat) : p.bgColour x < 4 := by
  have bit (w : Word) : BgPipe.pick w p.regs.xFine < 2 := Bool.toNat_lt _
  have hi := bit p.bg.bgHi
  have lo := bit p.bg.bgLo
  unfold Ppu.bgColour
  split_ifs <;> omega

theorem bgPalette_lt (p : Ppu) : p.bgPalette < 4 := by
  have bit (w : Word) : BgPipe.pick w p.regs.xFine < 2 := Bool.toNat_lt _
  have hi := bit p.bg.atHi
  have lo := bit p.bg.atLo
  unfold Ppu.bgPalette
  omega

theorem slotColour_lt (u : SpriteSlot) : slotColour u < 4 := by
  have bit (d : Byte) (i : Nat) : bitOf d i < 2 := Bool.toNat_lt _
  have hi := bit u.hi (7 + u.x).toNat
  have lo := bit u.lo (7 + u.x).toNat
  unfold slotColour
  split_ifs <;> omega

theorem muxIndex_none {p : Ppu} {x b : Nat} (winner : p.spriteAt x = none) (colour : p.bgColour x = b) :
    p.muxIndex x = if b = 0 then 0 else 4 * p.bgPalette + b := by
  rw [Ppu.muxIndex, winner, colour]

theorem muxIndex_some {p : Ppu} {x b : Nat} {u : SpriteSlot} (winner : p.spriteAt x = some u) (colour : p.bgColour x = b) :
    p.muxIndex x = if b = 0 ∨ u.attr.getLsbD 5 = false then 16 + 4 * (u.attr.toNat % 4) + slotColour u
      else 4 * p.bgPalette + b := by
  have palette : (u.attr &&& 3#8).toNat = u.attr.toNat % 4 := by
    rw [BitVec.toNat_and]
    exact Nat.and_two_pow_sub_one_eq_mod u.attr.toNat 2
  rw [Ppu.muxIndex, winner, colour, ← palette, ← colour_eq]
  simp only [SpriteSlot.paletteIndex, Bool.or_eq_true, decide_eq_true_eq, Bool.not_eq_true']

/-- The winning sprite is opaque. -/
theorem slotColour_of_spriteAt {p : Ppu} {x : Nat} {u : SpriteSlot} (winner : p.spriteAt x = some u) :
    slotColour u ≠ 0 := by
  unfold Ppu.spriteAt at winner
  split_ifs at winner
  rw [firstOpaque_eq_find] at winner
  simpa using List.find?_some winner

/-- The multiplexer gives the backdrop, or one of the three colours of one of the eight palettes. -/
theorem muxIndex_range (p : Ppu) (x : Nat) : p.muxIndex x = 0 ∨ p.muxIndex x % 4 ≠ 0 ∧ p.muxIndex x < 32 := by
  have background := bgColour_lt p x
  have palette := bgPalette_lt p
  cases winner : p.spriteAt x with
  | none =>
    rw [muxIndex_none winner rfl]
    split_ifs <;> omega
  | some u =>
    have sprite := slotColour_lt u
    have visibleColour := slotColour_of_spriteAt winner
    rw [muxIndex_some winner rfl]
    split_ifs <;> omega

theorem colourAt_eq {p : Ppu} {x idx : Nat} (index : p.muxIndex x = idx) :
    p.colourAt x = (Memory.read p.palette (if idx % 4 = 0 then 0 else idx)).setWidth 6
      &&& if p.regs.mask.getLsbD 0 then 0x30#6 else 0x3F#6 := by
  have range := muxIndex_range p x
  rw [index] at range
  have address : (0x3F00#14 + BitVec.ofNat 14 idx).toNat = 0x3F00 + idx := by
    rw [BitVec.toNat_add, BitVec.toNat_ofNat, BitVec.toNat_ofNat]
    omega
  have entry : palIndex (0x3F00#14 + BitVec.ofNat 14 idx) = if idx % 4 = 0 then 0 else idx := by
    rw [palIndex_eq, address]
    split_ifs <;> omega
  rw [Ppu.colourAt, index, entry]
  rfl

/-! ### The backdrop (48_ppu_pipeline.md R477) -/

theorem muxIndex_disabled {p : Ppu} (off : p.regs.renderingEnabled = false) (x : Nat) : p.muxIndex x = 0 := by
  obtain ⟨bg, spr⟩ := Bool.or_eq_false_iff.1 off
  have background : p.bgColour x = 0 := by simp [Ppu.bgColour, bg]
  have sprite : p.spriteAt x = none := by simp [Ppu.spriteAt, PpuRegs.spritesShown, spr]
  rw [muxIndex_none sprite background, if_pos rfl]

/-- A dot out of rendering changes of the frame buffer the pixel of a visible line, which shows the backdrop. -/
theorem dot_fb_backdrop {s : State} (outside : ¬ renderingNow s) (y x : Nat) :
    pixelAt (ppuDot s).ppu.fb y x
      = if s.ppu.pos.line = y ∧ s.ppu.pos.line < s.cfg.region.visibleLines ∧ s.ppu.pos.dot = x + 1 ∧ x < 256 then
          some (Config.rgbPalette ((Memory.read s.ppu.palette 0).setWidth 6
            &&& if s.ppu.regs.mask.getLsbD 0 then 0x30#6 else 0x3F#6))
        else pixelAt s.ppu.fb y x := by
  by_cases shows : ShowsPixel s
  · have off : ¬ renderingOn s := fun on => outside ⟨on, .inr shows.1⟩
    have backdrop := muxIndex_disabled (p := s.ppu) (by rwa [← Bool.not_eq_true, renderingEnabled_iff]) (s.ppu.pos.dot - 1)
    rw [dot_fb_pixel shows, pixelSource_off off, colourAt_eq backdrop]
    obtain ⟨⟨line, shown⟩, low, high⟩ := shows
    have place : s.ppu.pos.line = y ∧ s.ppu.pos.line < s.cfg.region.visibleLines ∧ s.ppu.pos.dot = x + 1 ∧ x < 256
        ↔ s.ppu.pos.line = y ∧ s.ppu.pos.dot = x + 1 := by omega
    simp only [place]
    rfl
  · rw [dot_fb shows, if_neg]
    rintro ⟨line, shown, dot, bound⟩
    exact shows ⟨⟨by omega, shown⟩, by omega, by omega⟩

/-- Nothing of the PPU changes but the frame buffer, the position and the three status flags. -/
abbrev OnlyShown (p q : Ppu) : Prop :=
  q = { p with
    fb := q.fb, pos := q.pos, regs := { p.regs with vbl := q.regs.vbl, s0h := q.regs.s0h, sov := q.regs.sov } }

theorem OnlyShown.trans {p q r : Ppu} (first : OnlyShown p q) (second : OnlyShown q r) : OnlyShown p r :=
  Eq.trans second (by rw [first])

theorem flagEvents_shown (cfg : Config) (p : Ppu) : OnlyShown p (p.flagEvents cfg) := by
  rw [OnlyShown, Ppu.flagEvents_only]

theorem delayedHit_shown (p : Ppu) : OnlyShown p p.delayedHit := by
  rw [OnlyShown, Ppu.delayedHit_only]

theorem pixelStep_shown {p : Ppu} (off : ¬ p.regs.renderingEnabled = true) (dot : Nat) : OnlyShown p (p.pixelStep dot) := by
  unfold Ppu.pixelStep
  dsimp only
  rw [if_neg off, if_neg off]
  split_ifs <;> rfl

/-- A dot out of rendering leaves the rest of the machine as it was. -/
theorem dot_outside {s : State} (outside : ¬ renderingNow s) :
    ppuDot s = { s with ppu := (ppuDot s).ppu } ∧ OnlyShown s.ppu (ppuDot s).ppu := by
  have flags := flagEvents_shown s.cfg s.ppu
  by_cases line : s.ppu.pos.renderingLine s.cfg = true
  · have off : ¬ renderingOn s := fun on => outside ⟨on, (renderingLine_iff s).1 line⟩
    have pixel := pixelStep_shown (p := s.ppu.flagEvents s.cfg)
      (by rwa [Ppu.flagEvents_on, renderingEnabled_iff]) s.ppu.pos.dot
    rw [dot_disabled off line]
    exact ⟨rfl, ((flags.trans pixel).trans (delayedHit_shown _)).trans rfl⟩
  · rw [dot_idle (Bool.eq_false_iff.2 line)]
    exact ⟨rfl, (flags.trans (delayedHit_shown _)).trans rfl⟩

/-- Off the pre-render line no dot is skipped. -/
theorem advance_off {p : Position} (line : p.line ≠ -1) (cfg : Config) (on : Bool) :
    p.advance cfg on = p.advance cfg false := by
  simp [Position.advance, line]

theorem ppuDot_place_outside {s : State} (outside : ¬ renderingNow s) :
    (ppuDot s).ppu.pos.place = (s.ppu.pos.advance s.cfg false).place := by
  rw [ppuDot_place]
  by_cases on : s.ppu.regs.renderingEnabled = true
  · rw [advance_off fun line => outside ⟨(renderingEnabled_iff s).1 on, .inl line⟩]
  · rw [Bool.eq_false_iff.2 on]

/-- Settles O53: the frame of the dot, then each field it may change by its own lemma. -/
theorem renderingDisabledOnlyShowsTheBackdrop : Obligations.RenderingDisabledOnlyShowsTheBackdrop := by
  unfold Obligations.RenderingDisabledOnlyShowsTheBackdrop
  intro s outside
  obtain ⟨machine, ppu⟩ := dot_outside outside
  obtain ⟨s0h, delayed⟩ := dot_s0_blank (s := s) fun pixel => outside ⟨pixel.1, .inr pixel.2.1⟩
  refine ⟨_, _, _, _, machine.trans (congrArg (fun p => { s with ppu := p }) ppu), dot_fb_backdrop outside,
    ppuDot_place_outside outside, ppuDot_vblSuppress_iff s, delayed, ?_, s0h⟩
  rw [ppuDot_sov_iff, and_comm]
  exact and_congr_left fun _ => or_iff_left fun search => outside ⟨search.1, .inr search.2.1⟩

/-! ### The background after the dot's shift (48_ppu_pipeline.md R449, R472) -/

/-- A reload leaves the upper byte, which the pixel is taken from. -/
theorem pick_reloadLow (w : Word) (d : Byte) (fine : BitVec 3) : BgPipe.pick (reloadLow w d) fine = BgPipe.pick w fine := by
  have bound := fine.isLt
  unfold BgPipe.pick reloadLow
  generalize fine.toNat = n at bound
  congr 1
  interval_cases n <;> simp

theorem shiftDot_visible {dot : Nat} (visible : dot ≤ 256) : shiftDot dot = decide (2 ≤ dot) := by
  rw [shiftDot, Bool.eq_iff_iff]
  simp only [Bool.or_eq_true, Bool.and_eq_true, decide_eq_true_eq]
  omega

/-- A shifter as the pixel of dot `dot` finds it. -/
def shiftedAt (dot : Nat) (w : Word) : Word := if 2 ≤ dot then w <<< 1 else w

/-- The bits the pixel is taken from are those of the shifters shifted and not yet reloaded. -/
theorem pick_shiftAndReload {dot : Nat} (visible : dot ≤ 256) (b : BgPipe) (fine : BitVec 3) :
    BgPipe.pick (b.shiftAndReload dot).bgLo fine = bitOf (shiftedAt dot b.bgLo) (15 - fine.toNat)
      ∧ BgPipe.pick (b.shiftAndReload dot).bgHi fine = bitOf (shiftedAt dot b.bgHi) (15 - fine.toNat)
      ∧ BgPipe.pick (b.shiftAndReload dot).atLo fine = bitOf (shiftedAt dot b.atLo) (15 - fine.toNat)
      ∧ BgPipe.pick (b.shiftAndReload dot).atHi fine = bitOf (shiftedAt dot b.atHi) (15 - fine.toNat) := by
  have shifted : (if shiftDot dot then b.shift else b) = { b with
      bgLo := shiftedAt dot b.bgLo, bgHi := shiftedAt dot b.bgHi
      atLo := shiftedAt dot b.atLo, atHi := shiftedAt dot b.atHi } := by
    unfold shiftedAt
    rw [shiftDot_visible visible]
    by_cases first : 2 ≤ dot <;> simp [first, BgPipe.shift]
  unfold BgPipe.shiftAndReload
  rw [shifted]
  dsimp only
  split_ifs
  · exact ⟨pick_reloadLow _ _ _, pick_reloadLow _ _ _, pick_reloadLow _ _ _, pick_reloadLow _ _ _⟩
  · exact ⟨rfl, rfl, rfl, rfl⟩

/-- Pixel `dot - 1` lies right of the clipped left column. -/
theorem unclipped_iff (dot : Nat) : decide (8 ≤ dot - 1) = decide (9 ≤ dot) := decide_eq_decide.2 (by omega)

section Shown

variable {s : State} (on : renderingOn s)

include on

theorem bgColour_pixelSource (high : s.ppu.pos.dot ≤ 256) :
    (pixelSource s).bgColour (s.ppu.pos.dot - 1)
      = if (s.ppu.regs.mask.getLsbD 3 && (decide (9 ≤ s.ppu.pos.dot) || s.ppu.regs.mask.getLsbD 1)) then
          2 * bitOf (shiftedAt s.ppu.pos.dot s.ppu.bg.bgHi) (15 - s.ppu.regs.xFine.toNat)
            + bitOf (shiftedAt s.ppu.pos.dot s.ppu.bg.bgLo) (15 - s.ppu.regs.xFine.toNat)
        else 0 := by
  obtain ⟨lo, hi, -, -⟩ := pick_shiftAndReload high s.ppu.bg s.ppu.regs.xFine
  rw [pixelSource_on on, ← lo, ← hi, ← unclipped_iff]
  rfl

theorem bgPalette_pixelSource (high : s.ppu.pos.dot ≤ 256) :
    (pixelSource s).bgPalette = 2 * bitOf (shiftedAt s.ppu.pos.dot s.ppu.bg.atHi) (15 - s.ppu.regs.xFine.toNat)
      + bitOf (shiftedAt s.ppu.pos.dot s.ppu.bg.atLo) (15 - s.ppu.regs.xFine.toNat) := by
  obtain ⟨-, -, lo, hi⟩ := pick_shiftAndReload high s.ppu.bg s.ppu.regs.xFine
  rw [pixelSource_on on, ← lo, ← hi]
  rfl

theorem spritesShown_pixelSource :
    (pixelSource s).regs.spritesShown (s.ppu.pos.dot - 1)
      = (s.ppu.regs.mask.getLsbD 4 && (decide (9 ≤ s.ppu.pos.dot) || s.ppu.regs.mask.getLsbD 2)) := by
  rw [pixelSource_on on, ← unclipped_iff]
  rfl

theorem spriteAt_pixelSource :
    (pixelSource s).spriteAt (s.ppu.pos.dot - 1)
      = if (s.ppu.regs.mask.getLsbD 4 && (decide (9 ≤ s.ppu.pos.dot) || s.ppu.regs.mask.getLsbD 2)) then
          (s.ppu.spr.slots.take s.ppu.spr.count).find? (fun u => decide (slotColour u ≠ 0))
        else none := by
  rw [Ppu.spriteAt, spritesShown_pixelSource on, firstOpaque_eq_find, pixelSource_on on]
  rfl

theorem sprite0Hit_pixelSource {b : Nat} (colour : (pixelSource s).bgColour (s.ppu.pos.dot - 1) = b) :
    (pixelSource s).sprite0Hit (s.ppu.pos.dot - 1) = true
      ↔ s.ppu.spr.zeroOnLine = true
        ∧ (s.ppu.regs.mask.getLsbD 4 && (decide (9 ≤ s.ppu.pos.dot) || s.ppu.regs.mask.getLsbD 2)) = true
        ∧ (∃ u, s.ppu.spr.slots.head? = some u ∧ slotColour u ≠ 0) ∧ b ≠ 0
        ∧ s.ppu.regs.mask.getLsbD 3 = true ∧ s.ppu.pos.dot ≠ 256 := by
  have slot : slotColour (s.ppu.spr.slots.headD .zero) ≠ 0
      ↔ ∃ u, s.ppu.spr.slots.head? = some u ∧ slotColour u ≠ 0 := by
    cases s.ppu.spr.slots with
    | nil => simp [slotColour, SpriteSlot.zero, bitOf]
    | cons u rest => simp
  have last : s.ppu.pos.dot - 1 ≠ 255 ↔ s.ppu.pos.dot ≠ 256 := by omega
  rw [Ppu.sprite0Hit, spritesShown_pixelSource on, colour, pixelSource_on on, colour_eq]
  simp only [Bool.and_eq_true, decide_eq_true_eq, and_assoc]
  rw [← slot, last]
  rfl

end Shown

/-- Settles O58: the pixel that `ComposePixel` makes of the shifted background and the sprites, its hit, and the counters. -/
theorem pixelAndSprite0Hit : Obligations.PixelAndSprite0Hit := by
  unfold Obligations.PixelAndSprite0Hit
  refine ⟨fun s blank => dot_fb blank, ?_⟩
  rintro s on visible low high dot fine shifted bgShown sprShown b bp idx winner hit t rfl rfl hshifted rfl rfl hb hbp
    hwinner hidx hhit rfl
  have shows : ShowsPixel s := ⟨visible, low, high⟩
  obtain rfl : shifted = shiftedAt s.ppu.pos.dot := funext hshifted
  have colour := (bgColour_pixelSource on high).trans hb.symm
  have palette := (bgPalette_pixelSource on high).trans hbp.symm
  have sprite := (spriteAt_pixelSource on).trans hwinner.symm
  have index : (pixelSource s).muxIndex (s.ppu.pos.dot - 1) = idx := by
    rw [hidx]
    cases winner with
    | none => rw [muxIndex_none sprite colour, palette]
    | some u => rw [muxIndex_some sprite colour, palette]
  obtain ⟨s0h, delayed⟩ := dot_s0_pixel shows ((sprite0Hit_pixelSource on colour).trans hhit.symm)
  have spr := dot_spr (s := s) fun fetch => absurd fetch.2.1 (by omega)
  rw [if_pos ⟨on, visible, low, high⟩] at spr
  refine ⟨fun y x => ?_, s0h, delayed, congrArg Sprites.slots spr⟩
  rw [dot_fb_pixel shows, colourAt_eq index, pixelSource_on on]
  rfl

end Sys2Proof.Proofs.PpuPipeline
end

section
/-! OAM DMA (49_oam_dma.md R500-R505): how long it runs, and O59. -/

namespace Sys2Proof.Proofs.OamDma

open Sys2Proof Sys2Proof.Machine

/-- The two lengths of a DMA, by the parity of its first cycle (49_oam_dma.md R504). -/
theorem dmaLength_eq (s : State) : dmaLength s = if s.cycle % 2 = 0 then 514 else 513 := by
  unfold dmaLength dmaLead
  split_ifs <;> rfl

/-- Settles O59: the run is `dmaCycles` (`run_dma`), which ends at `dmaLength`; what each of its cycles does and what they
leave in OAM are the laws of the DMA. -/
theorem oamDmaCopiesAPage : Obligations.OamDmaCopiesAPage := by
  unfold Obligations.OamDmaCopiesAPage
  intro s n active step index mode reset length
  have starts : DmaStarts s := ⟨active, step, index⟩
  obtain rfl : n = dmaLength s := length.trans (dmaLength_eq s).symm
  have run {k : Nat} (hk : k ≤ dmaLength s) : core.run k s = .next (dmaCycles k s) := run_dma starts mode reset hk
  have keeps := dmaCycles_keeps (dmaLength s) s
  refine ⟨dmaCycles (dmaLength s) s, run le_rfl, dma_done starts, dmaCycles_cycle _ s, keeps.cpu, keeps.pending,
    fun a => by rw [keeps.ram], fun k hk => ?_, dma_copiesPage starts⟩
  have running := dma_active_before starts hk
  exact ⟨dmaCycles k s, dmaCycles (k + 1) s, run hk.le, run hk, running, oneCycle_dmaCycle running⟩

end Sys2Proof.Proofs.OamDma
end

section
/-! The round trip from an instruction to its bytes and back (30_encoding.md R150-R158): O28 from the table's entry for each
opcode, and O30. -/

namespace Sys2Proof.Proofs.Encoding

open Sys2Proof Sys2Proof.Machine Sys2Proof.Laws.RoundTrip Sys2Proof.Proofs.ByteStrings

/-- The table makes every instruction of its own bytes. -/
theorem roundTrip : ∀ i : Instr, Statement i
  | .brk => brk | .oraIzx b => oraIzx b | .stp row => stp row | .sloIzx b => sloIzx b | .nopZp04 b => nopZp04 b
  | .oraZp b => oraZp b | .aslZp b => aslZp b | .sloZp b => sloZp b | .php => php | .oraImm b => oraImm b
  | .aslAcc => aslAcc | .anc0B b => anc0B b | .nopAbs0C w => nopAbs0C w | .oraAbs w => oraAbs w
  | .aslAbs w => aslAbs w | .sloAbs w => sloAbs w | .bpl b => bpl b | .oraIzy b => oraIzy b | .sloIzy b => sloIzy b
  | .nopZpx14 b => nopZpx14 b | .oraZpx b => oraZpx b | .aslZpx b => aslZpx b | .sloZpx b => sloZpx b | .clc => clc
  | .oraAby w => oraAby w | .nopImplied row => nopImplied row | .sloAby w => sloAby w | .nopAbx1C w => nopAbx1C w
  | .oraAbx w => oraAbx w | .aslAbx w => aslAbx w | .sloAbx w => sloAbx w | .jsr w => jsr w | .andIzx b => andIzx b
  | .rlaIzx b => rlaIzx b | .bitZp b => bitZp b | .andZp b => andZp b | .rolZp b => rolZp b | .rlaZp b => rlaZp b
  | .plp => plp | .andImm b => andImm b | .rolAcc => rolAcc | .anc2B b => anc2B b | .bitAbs w => bitAbs w
  | .andAbs w => andAbs w | .rolAbs w => rolAbs w | .rlaAbs w => rlaAbs w | .bmi b => bmi b | .andIzy b => andIzy b
  | .rlaIzy b => rlaIzy b | .nopZpx34 b => nopZpx34 b | .andZpx b => andZpx b | .rolZpx b => rolZpx b
  | .rlaZpx b => rlaZpx b | .sec => sec | .andAby w => andAby w | .rlaAby w => rlaAby w | .nopAbx3C w => nopAbx3C w
  | .andAbx w => andAbx w | .rolAbx w => rolAbx w | .rlaAbx w => rlaAbx w | .rti => rti | .eorIzx b => eorIzx b
  | .sreIzx b => sreIzx b | .nopZp44 b => nopZp44 b | .eorZp b => eorZp b | .lsrZp b => lsrZp b | .sreZp b => sreZp b
  | .pha => pha | .eorImm b => eorImm b | .lsrAcc => lsrAcc | .alr b => alr b | .jmpAbs w => jmpAbs w
  | .eorAbs w => eorAbs w | .lsrAbs w => lsrAbs w | .sreAbs w => sreAbs w | .bvc b => bvc b | .eorIzy b => eorIzy b
  | .sreIzy b => sreIzy b | .nopZpx54 b => nopZpx54 b | .eorZpx b => eorZpx b | .lsrZpx b => lsrZpx b
  | .sreZpx b => sreZpx b | .cli => cli | .eorAby w => eorAby w | .sreAby w => sreAby w | .nopAbx5C w => nopAbx5C w
  | .eorAbx w => eorAbx w | .lsrAbx w => lsrAbx w | .sreAbx w => sreAbx w | .rts => rts | .adcIzx b => adcIzx b
  | .rraIzx b => rraIzx b | .nopZp64 b => nopZp64 b | .adcZp b => adcZp b | .rorZp b => rorZp b | .rraZp b => rraZp b
  | .pla => pla | .adcImm b => adcImm b | .rorAcc => rorAcc | .arr b => arr b | .jmpInd w => jmpInd w
  | .adcAbs w => adcAbs w | .rorAbs w => rorAbs w | .rraAbs w => rraAbs w | .bvs b => bvs b | .adcIzy b => adcIzy b
  | .rraIzy b => rraIzy b | .nopZpx74 b => nopZpx74 b | .adcZpx b => adcZpx b | .rorZpx b => rorZpx b
  | .rraZpx b => rraZpx b | .sei => sei | .adcAby w => adcAby w | .rraAby w => rraAby w | .nopAbx7C w => nopAbx7C w
  | .adcAbx w => adcAbx w | .rorAbx w => rorAbx w | .rraAbx w => rraAbx w | .nopImm80 b => nopImm80 b
  | .staIzx b => staIzx b | .nopImm82 b => nopImm82 b | .saxIzx b => saxIzx b | .styZp b => styZp b
  | .staZp b => staZp b | .stxZp b => stxZp b | .saxZp b => saxZp b | .dey => dey | .nopImm89 b => nopImm89 b
  | .txa => txa | .xaa b => xaa b | .styAbs w => styAbs w | .staAbs w => staAbs w | .stxAbs w => stxAbs w
  | .saxAbs w => saxAbs w | .bcc b => bcc b | .staIzy b => staIzy b | .ahxIzy b => ahxIzy b | .styZpx b => styZpx b
  | .staZpx b => staZpx b | .stxZpy b => stxZpy b | .saxZpy b => saxZpy b | .tya => tya | .staAby w => staAby w
  | .txs => txs | .tas w => tas w | .shy w => shy w | .staAbx w => staAbx w | .shx w => shx w | .ahxAby w => ahxAby w
  | .ldyImm b => ldyImm b | .ldaIzx b => ldaIzx b | .ldxImm b => ldxImm b | .laxIzx b => laxIzx b
  | .ldyZp b => ldyZp b | .ldaZp b => ldaZp b | .ldxZp b => ldxZp b | .laxZp b => laxZp b | .tay => tay
  | .ldaImm b => ldaImm b | .tax => tax | .lxa b => lxa b | .ldyAbs w => ldyAbs w | .ldaAbs w => ldaAbs w
  | .ldxAbs w => ldxAbs w | .laxAbs w => laxAbs w | .bcs b => bcs b | .ldaIzy b => ldaIzy b | .laxIzy b => laxIzy b
  | .ldyZpx b => ldyZpx b | .ldaZpx b => ldaZpx b | .ldxZpy b => ldxZpy b | .laxZpy b => laxZpy b | .clv => clv
  | .ldaAby w => ldaAby w | .tsx => tsx | .las w => las w | .ldyAbx w => ldyAbx w | .ldaAbx w => ldaAbx w
  | .ldxAby w => ldxAby w | .laxAby w => laxAby w | .cpyImm b => cpyImm b | .cmpIzx b => cmpIzx b
  | .nopImmC2 b => nopImmC2 b | .dcpIzx b => dcpIzx b | .cpyZp b => cpyZp b | .cmpZp b => cmpZp b
  | .decZp b => decZp b | .dcpZp b => dcpZp b | .iny => iny | .cmpImm b => cmpImm b | .dex => dex | .axs b => axs b
  | .cpyAbs w => cpyAbs w | .cmpAbs w => cmpAbs w | .decAbs w => decAbs w | .dcpAbs w => dcpAbs w | .bne b => bne b
  | .cmpIzy b => cmpIzy b | .dcpIzy b => dcpIzy b | .nopZpxD4 b => nopZpxD4 b | .cmpZpx b => cmpZpx b
  | .decZpx b => decZpx b | .dcpZpx b => dcpZpx b | .cld => cld | .cmpAby w => cmpAby w | .dcpAby w => dcpAby w
  | .nopAbxDC w => nopAbxDC w | .cmpAbx w => cmpAbx w | .decAbx w => decAbx w | .dcpAbx w => dcpAbx w
  | .cpxImm b => cpxImm b | .sbcIzx b => sbcIzx b | .nopImmE2 b => nopImmE2 b | .isbIzx b => isbIzx b
  | .cpxZp b => cpxZp b | .sbcZp b => sbcZp b | .incZp b => incZp b | .isbZp b => isbZp b | .inx => inx
  | .sbcImm b => sbcImm b | .nop => nop | .usbc b => usbc b | .cpxAbs w => cpxAbs w | .sbcAbs w => sbcAbs w
  | .incAbs w => incAbs w | .isbAbs w => isbAbs w | .beq b => beq b | .sbcIzy b => sbcIzy b | .isbIzy b => isbIzy b
  | .nopZpxF4 b => nopZpxF4 b | .sbcZpx b => sbcZpx b | .incZpx b => incZpx b | .isbZpx b => isbZpx b | .sed => sed
  | .sbcAby w => sbcAby w | .isbAby w => isbAby w | .nopAbxFC w => nopAbxFC w | .sbcAbx w => sbcAbx w
  | .incAbx w => incAbx w | .isbAbx w => isbAbx w

/-- An instruction's bytes are its opcode and as many operand bytes as the opcode announces. -/
theorem encode_eq_opcode_cons (i : Instr) :
    ∃ operands, encode i = i.opcode :: operands ∧ operands.length = opcodeLength i.opcode - 1 := by
  obtain ⟨j, hj, henc⟩ := decodeOp_encode i.opcode ((encode i).getD 1 0) ((encode i).getD 2 0)
  obtain rfl : i = j := Option.some.inj ((roundTrip i).1.symm.trans hj)
  have bounds := opcodeLength_bounds i.opcode
  exact ⟨_, henc, by simp; omega⟩

theorem encode_injective {i j : Instr} (h : encode i = encode j) : i = j := by
  have hi := (roundTrip i).1
  rw [Instr.opcode, h] at hi
  exact Option.some.inj (hi.symm.trans (roundTrip j).1)

/-- Settles O28: the decoder cuts the string where the opcode says, which is where the encoding ends, and what it reads there
encodes to the same bytes. -/
theorem decodingInvertsEncoding : Obligations.DecodingInvertsEncoding := by
  unfold Obligations.DecodingInvertsEncoding
  intro i rest
  obtain ⟨operands, henc, hlength⟩ := encode_eq_opcode_cons i
  have long : opcodeLength i.opcode ≤ (operands ++ rest).length + 1 := by simp; omega
  obtain ⟨j, hdecode, hj⟩ := decode_of_long long
  rw [← hlength, List.take_left, ← henc] at hj
  rw [← hlength, List.drop_left, encode_injective hj] at hdecode
  rwa [henc, List.cons_append]

/-- Settles O30, by running the decoder on each of the sixteen strings. -/
theorem sampleWordsDecode : Obligations.SampleWordsDecode := by
  unfold Obligations.SampleWordsDecode
  refine ⟨rfl, rfl, rfl, rfl, rfl, rfl, rfl, rfl, rfl, rfl, rfl, rfl, rfl, rfl, rfl, rfl⟩

end Sys2Proof.Proofs.Encoding
end

section
/-! What every step keeps (10_state.md, 00_scope.md R6): the invariant and the read-only contents of the machine, each a property
that a bus cycle, a DMA cycle and a warm reset keep. -/

namespace Sys2Proof.Proofs.StepKeeps

open Sys2Proof Sys2Proof.Machine

/-! ### The invariant -/

theorem stable_inv : Stable Inv where
  cpu _ _ h := ⟨h.ram, h.ppu, h.nt, h.chr, h.prg, h.dma⟩
  arb _ _ h := ⟨h.ram, h.ppu, h.nt, h.chr, h.prg, h.dma⟩
  bus act _ h := busCycle_inv act h
  dma _ h active := dmaCycle_inv h active
  warm _ h := warmReset_inv h

/-- Settles O34: each operation of a step keeps the invariant (`stable_inv`), and a step is made of these. -/
theorem everyStepKeepsTheInvariant : Obligations.EveryStepKeepsTheInvariant := by
  unfold Obligations.EveryStepKeepsTheInvariant
  exact fun s t inv next => stable_inv.step inv next

/-- Settles O33: every memory is empty, and every counter is 0. -/
theorem powerOnMeetsTheInvariant : Obligations.PowerOnMeetsTheInvariant := by
  unfold Obligations.PowerOnMeetsTheInvariant
  have empty (size : Nat) : Memory.fits [] size := ⟨rfl, rfl⟩
  have ppu : PpuInv State.reset.cfg State.reset.ppu :=
    { oam := empty 256
      secOam := empty 32
      palette := ⟨empty 32, fun i => show (Memory.read [] i).toNat < 64 by simp⟩
      frame := ⟨rfl, fun _ => by simp [State.reset, State.powerOn, PowerOn.default]⟩
      line := by decide
      dot := by decide
      decay := rfl
      slots := rfl
      count := by decide
      found := by decide
      copying := by decide }
  exact ⟨empty 2048, ppu, empty 4096, ⟨rfl, fun _ => rfl⟩, empty _, by decide⟩

/-! ### Parameters and read-only memory -/

/-- The cartridge keeps its PRG-ROM, its kind and parameters, and pattern memory that is CHR-ROM (20_memory.md R119-R121). -/
structure RomKept (c d : Cart) : Prop where
  prg : d.prg = c.prg
  kind : d.kind = c.kind
  prgSize : d.prgSize = c.prgSize
  mirroring : d.mirroring = c.mirroring
  chrIsRam : d.chrIsRam = c.chrIsRam
  chr : c.chrIsRam = false → d.chr = c.chr

theorem RomKept.trans {c d e : Cart} (h : RomKept c d) (k : RomKept d e) : RomKept c e :=
  ⟨k.prg.trans h.prg, k.kind.trans h.kind, k.prgSize.trans h.prgSize, k.mirroring.trans h.mirroring,
    k.chrIsRam.trans h.chrIsRam, fun rom => (k.chr (h.chrIsRam.trans rom)).trans (h.chr rom)⟩

theorem romKept_of_keeps {c d : Cart} (h : CartKeeps c d) : RomKept c d :=
  ⟨h.prg, h.kind, h.prgSize, h.mirroring, h.chrIsRam, fun _ => h.chr⟩

theorem romKept_refl (c : Cart) : RomKept c c := romKept_of_keeps (.refl c)

/-- A write of PPU memory changes CHR-RAM, a nametable or the palette (20_memory.md R125). -/
theorem ppuWrite_romKept (v : Video) (a : PpuAddr) (d : Byte) : RomKept v.cart (v.ppuWrite a d).cart := by
  unfold Video.ppuWrite
  split_ifs
  · rw [Cart.writeChr_only]
    exact ⟨rfl, rfl, rfl, rfl, rfl, fun rom => by simp [Cart.writeChr, rom]⟩
  · exact ⟨rfl, rfl, rfl, rfl, rfl, fun _ => rfl⟩
  · exact romKept_refl v.cart

theorem driveA12_romKept (c : Nat) (high : Bool) (v : Video) : RomKept v.cart (v.driveA12 c high).cart :=
  romKept_of_keeps (v.driveA12_keeps c high).cart.toCartKeeps

/-- Of the eight ports only PPUADDR and PPUDATA reach the cartridge. -/
theorem writePort_romKept (cfg : Config) (c : Nat) (port : BitVec 3) (d : Byte) (v : Video) :
    RomKept v.cart (v.writePort cfg c port d).cart := by
  unfold Video.writePort Video.writeAddr Video.writeData
  dsimp only
  split_ifs <;> try exact romKept_refl v.cart
  · exact (driveA12_romKept _ _ ((v.mapPpu _).mapPpu _) :)
  · exact (ppuWrite_romKept (v.mapPpu (.refresh 0xFF#8 d)) _ d).trans (driveA12_romKept _ _ _)

theorem writeEffect_romKept (a : Word) (d : Byte) (s : State) : RomKept s.cart (writeEffect a d s).cart := by
  by_cases port : target a = .ppu
  · simpa [writeEffect, port] using writePort_romKept s.cfg s.cycle (portOf a) d s.video
  · exact romKept_of_keeps ((writeEffect_keeps a d s).other port).2

theorem perform_romKept (act : Act) (s : State) : RomKept s.cart (perform act s).cart := by
  cases act with
  | read a => exact romKept_of_keeps (readEffect_keeps a s).cart
  | write a d => exact writeEffect_romKept a d s
  | idle => exact romKept_refl _

theorem perform_cfg (act : Act) (s : State) : (perform act s).cfg = s.cfg := by
  cases act with
  | read a => exact (readEffect_keeps a s).cfg
  | write a d => exact (writeEffect_keeps a d s).cfg
  | idle => rfl

/-- The parameters and the read-only part of the cartridge are those of `s` (00_scope.md R6). -/
def FixedAs (s t : State) : Prop := t.cfg = s.cfg ∧ RomKept s.cart t.cart

theorem busCycle_fixed (act : State → Act) (s : State) : FixedAs s (busCycle act s) := by
  have before := beforeAccess_keeps s
  have after := afterAccess_keeps (perform (act (beforeAccess s)) (beforeAccess s))
  refine ⟨after.cfg.trans ((perform_cfg _ _).trans before.cfg), ?_⟩
  exact ((romKept_of_keeps before.cart).trans (perform_romKept _ _)).trans (romKept_of_keeps after.cart)

theorem FixedAs.trans {s t u : State} (h : FixedAs s t) (k : FixedAs t u) : FixedAs s u :=
  ⟨k.1.trans h.1, h.2.trans k.2⟩

theorem stable_fixed (s : State) : Stable (FixedAs s) where
  cpu _ _ h := h
  arb _ _ h := h
  bus act t h := h.trans (busCycle_fixed act t)
  dma t h _ := h.trans (busCycle_fixed dmaAct t)
  warm _ h := h

/-- Settles O35: the one access that could reach the cartridge's ROM, a write through PPUDATA, does not (`ppuWrite_romKept`). -/
theorem programRomAndParametersNeverChange : Obligations.ProgramRomAndParametersNeverChange := by
  unfold Obligations.ProgramRomAndParametersNeverChange
  intro s t next
  obtain ⟨cfg, kept⟩ := (stable_fixed s).step ⟨rfl, romKept_refl _⟩ next
  exact ⟨cfg, kept.prg, kept.kind, kept.prgSize, kept.mirroring, kept.chrIsRam, kept.chr⟩

end Sys2Proof.Proofs.StepKeeps
end

section
/-! Interrupts and reset (60_exceptions.md R520-R526, 44_control_flow.md R314, 70_reset_and_hazards.md R560-R564): the sample of a
cycle, the poll of an instruction, and the sequences that take a vector. -/

namespace Sys2Proof.Proofs.Interrupts

open Sys2Proof Sys2Proof.Machine

/-! ### The sample (60_exceptions.md R520, R521) -/

/-- An external mapper's output is that of its line; mapper 0 has none. -/
theorem irqOut_iff (c : Cart) : c.irqOut = true ↔ c.kind = .external ∧ c.irq.level = true := by
  unfold Cart.irqOut
  cases c.kind <;> simp

/-- Settles O36: the arbitrator after a cycle is the one its sample leaves (`busCycle_arb`), and the sample is taken of the machine
after the second dot. -/
theorem interruptInputsAreSampledEveryCycle : Obligations.InterruptInputsAreSampledEveryCycle := by
  unfold Obligations.InterruptInputsAreSampledEveryCycle
  intro act s u n
  have sample : (busCycle act s).arb = (sampleInterrupts u).arb := busCycle_arb act s
  rw [sample]
  refine ⟨rfl, ?_, ?_, rfl⟩
  · show (s.arb.nmiLatch || (n && !s.arb.nmiPrev)) = true ↔ _
    simp
  · show ((s.apuIrq.advance s.cycle).level || Cart.irqOut { u.cart with irq := u.cart.irq.advance s.cycle }) = true ↔ _
    rw [Bool.or_eq_true, irqOut_iff]

/-! ### The poll (60_exceptions.md R522) -/

/-- The arbitrator after a penultimate cycle: that of its sample, with the poll's outcome pending. -/
theorem penult_arb {s : State} (h : undisturbed 1 s) (act : Cpu → Act) (upd : Byte → Cpu → Cpu) :
    (cpuCyc .penult act upd s).arb = { (beforeAccess s).arb with
      pending := polled (beforeAccess s).arb (cpuCyc .penult act upd s).cpu.p.i } := by
  rw [cpuCyc, cyc_eq (k := 0) h]
  simp [endCycle, poll]

theorem arb_of_not_penult {kind : CycleKind} (hk : kind ≠ .penult) {s : State} (h : undisturbed 1 s) (act : Cpu → Act)
    (upd : Byte → Cpu → Cpu) : (cpuCyc kind act upd s).arb.pending = s.arb.pending := by
  rw [cpuCyc_arb (k := 0) h kind act upd hk, beforeAccess_pending]

theorem eq_rti_of_mnemonic {i : Instr} : i.mnemonic = .rti → i = .rti := by
  cases i <;> first | exact fun _ => rfl | exact fun h => Mnemonic.noConfusion h

/-- What every instruction that polls makes of an input that does not depend on I. -/
theorem polls_unmasked {Q : State → Prop} {r : Pending → Prop} (w : Watch Q r) (any : ∀ s c, Q s → Q { s with cpu := c })
    (anyPoll : ∀ s i, Q s → r (polled (beforeAccess s).arb i)) {i : Instr} {s t : State} (h : undisturbed 8 s) (hq : Q s)
    (hi : i.mnemonic ∉ [.brk, .stp, .xaa, .ahx, .tas, .shy, .shx, .lxa, .las]) (he : exec i s = .next t) :
    r t.arb.pending := by
  by_cases rti : i.mnemonic = .rti
  · exact w.rti any anyPoll ⟨h, hq⟩ (eq_rti_of_mnemonic rti ▸ he)
  · exact w.exec ⟨h, hq⟩ i (by simpa [pollsFirst, rti] using hi) he

theorem polled_of_unasked {s : State} (h : unasked s) (i : Bool) : polled (beforeAccess s).arb i = .none := by
  obtain ⟨latch, off, low⟩ := h
  simp [polled, (beforeAccess_latch s).2 off, latch, (beforeAccess_irqLow low).1]

/-- What every instruction that polls makes of I: RTI of the I it pulls, any other of the I it finds. -/
theorem polls_masked {i : Instr} {s t : State} (h : undisturbed 8 s)
    (hi : i.mnemonic ∉ [.brk, .stp, .xaa, .ahx, .tas, .shy, .shx, .lxa, .las]) (he : exec i s = .next t) {masked : Bool}
    (hm : masked = if i.mnemonic = .rti then (pulled s 1).getLsbD 2 else s.cpu.p.i) :
    (masked = true → t.arb.pending ≠ .irq) ∧ (masked = false → irqHeld s → t.arb.pending ≠ .none) := by
  by_cases rti : i.mnemonic = .rti
  · obtain rfl := eq_rti_of_mnemonic rti
    obtain ⟨a, poll, sampled⟩ := returnInt_pending (h.mono (by decide)) 0x40#8
    obtain rfl : returnInt 0x40#8 s = t := Host.Outcome.next.inj he
    rw [if_pos rti] at hm
    exact StackFlags.poll_sees (hm ▸ poll) sampled
  · have first : pollsFirst i := by simpa [pollsFirst, rti] using hi
    rw [if_neg rti] at hm
    exact ⟨fun set => watch_masked.exec ⟨h, hm ▸ set⟩ i first he,
      fun clear held => watch_held.exec ⟨h, held, hm ▸ clear⟩ i first he⟩

/-- Settles O37: the poll's arbitrator by `penult_arb`; what an instruction's poll makes of each input is that input's `Watch`. -/
theorem thePenultimateCyclePolls : Obligations.ThePenultimateCyclePolls := by
  unfold Obligations.ThePenultimateCyclePolls
  refine ⟨fun act upd s h => ⟨?_, arb_of_not_penult (by decide) h _ _, arb_of_not_penult (by decide) h _ _⟩, ?_⟩
  · rintro t rfl
    rw [penult_arb h]
    refine ⟨?_, ?_, ?_, rfl⟩ <;> simp +contextual [polled]
    rintro - (low | masked) <;> simp [*]
  · intro i s h hi
    obtain ⟨t, next⟩ := exec_next i s
    obtain ⟨set, clear⟩ := polls_masked h hi next rfl
    refine ⟨t, _, next, rfl, fun latched => ?_, clear, set, fun latch off low => ?_⟩
    · exact polls_unmasked watch_latched (fun _ _ h => h) (fun s _ h => by simp [polled, (beforeAccess_latch s).1 h]) h latched hi next
    · exact polls_unmasked watch_unasked (fun _ _ h => h) (fun _ i h => polled_of_unasked h i) h ⟨latch, off, low⟩ hi next

/-! ### Taking an interrupt (60_exceptions.md R523-R526) -/

theorem toByte_false (p : Flags) : (p.toByte false).toNat
    = 128 * p.n.toNat + 64 * p.v.toNat + 32 + 8 * p.d.toNat + 4 * p.i.toNat + 2 * p.z.toNat + p.c.toNat := by
  rcases p with ⟨n, v, d, i, z, c⟩
  revert n v d i z c
  decide

/-- What a machine that no DMA and no reset holds up does in a mode but `run` and `refused`. -/
theorem step_intSeq {s : State} {kind : IntKind} (h : undisturbed 1 s) (mode : s.cpu.mode = .intSeq kind) :
    step s = .next (interruptSequence kind s) := by
  simp [step, stepAs, mode, h.resetDue, h.1]

theorem step_resetSeq {s : State} (h : undisturbed 1 s) (mode : s.cpu.mode = .resetSeq) : step s = .next (resetSequence s) := by
  simp [step, stepAs, mode, h.resetDue, h.1]

theorem vector_mem {vec : Word} (h : vec = 0xFFFA#16 ∨ vec = 0xFFFE#16) : vec ∈ [0xFFFE#16, 0xFFFA#16] := by
  simpa [or_comm] using h

/-- Settles O16: BRK is `interruptSequence .brk`, with B = 1 pushed and PC past its padding byte. -/
theorem brkTakesTheSoftwareInterrupt : Obligations.BrkTakesTheSoftwareInterrupt := by
  unfold Obligations.BrkTakesTheSoftwareInterrupt
  refine ⟨by decide, fun s h => ?_⟩
  obtain ⟨vec, lo, hi, taken⟩ := interruptSequence_spec h .brk
  exact ⟨_, vec, lo, hi, rfl, vector_mem taken.which, fun latched => taken.nmi (.inr latched),
    fun latch off => taken.plain (by decide) latch off, taken.low, taken.high, taken.pushes, taken.regs, taken.cycle,
    taken.index, taken.mode, taken.pending⟩

/-- Settles O38: the step is `interruptSequence`, with B = 0 pushed. -/
theorem hardwareInterruptSequence : Obligations.HardwareInterruptSequence := by
  unfold Obligations.HardwareInterruptSequence
  intro s kind h mode hard
  obtain ⟨vec, lo, hi, taken⟩ := interruptSequence_spec h kind
  have pushes := taken.pushes
  have run := taken.mode
  rw [if_neg hard, show s.cpu.pc + 0 = s.cpu.pc from BitVec.add_zero _, show pushedB kind = false from decide_eq_false hard]
    at pushes
  rw [mode] at run
  exact ⟨_, vec, lo, hi, _, step_intSeq (h.mono (by decide)) mode, vector_mem taken.which, taken.nmi,
    fun irq latch off => taken.plain (by simp [irq]) latch off, taken.low, taken.high, toByte_false _, pushes, taken.regs,
    taken.cycle, taken.index, run, taken.pending⟩

/-- Settles O39: T6 and T7 by their laws; the byte T7 reads is that of the machine before T6, which stores nothing. -/
theorem theVectorIsChosenAtTheT6Access : Obligations.TheVectorIsChosenAtTheT6Access := by
  unfold Obligations.TheVectorIsChosenAtTheT6Access
  intro kind s h latch u
  obtain ⟨lo, low, keeps, -, cleared, cpu, next⟩ := vectorLow_spec (k := 1) h kind
  obtain ⟨hi, high, -, -, pending, -, cpu'⟩ := vectorHigh_spec next
  have target : u.cpu.target = vectorFor kind latch := by rw [cpu]; rfl
  have adl : u.cpu.adl = lo := by rw [cpu]; rfl
  refine ⟨?_, cleared, ?_, ?_, hi, (delivers_congr keeps).1 high, ?_, pending⟩
  · rw [target, vectorFor]
    simp
  · rw [cpu]; rfl
  · rw [target, adl]; exact low
  · rw [cpu']; rfl

/-! ### Reset (70_reset_and_hazards.md R560-R564) -/

/-- From power-on S is $FD under both policies: three below 0 is $FD. -/
theorem resetS_powerOn (policy : ResetSPolicy) : resetS policy (0 - 3) = 0xFD#8 := by
  cases policy <;> rfl

/-- Settles O40: the sequence by its law; from power-on the vector lies in mapper 0's PRG-ROM. -/
theorem theResetSequenceLoadsPc : Obligations.TheResetSequenceLoadsPc := by
  unfold Obligations.TheResetSequenceLoadsPc
  refine ⟨fun s h mode => ?_, fun cfg p free nrom => ?_⟩
  · obtain ⟨lo, hi, low, high, keeps, cycle, done, registers⟩ := resetSequence_spec h
    refine ⟨_, lo, hi, step_resetSeq (h.mono (by decide)) mode, low, high, registers, keeps.storesNothing, cycle, done.1, ?_⟩
    rw [done.2, mode]; rfl
  · have h : undisturbed 7 (.powerOn cfg p) := ⟨rfl, fun n hn => by simpa [State.powerOn] using free n hn⟩
    obtain ⟨lo, hi, low, high, -, cycle, -, registers⟩ := resetSequence_spec h
    simp only [regs, Prod.mk.injEq] at registers
    obtain ⟨a, x, y, sp, pc, flags⟩ := registers
    refine ⟨_, step_resetSeq (h.mono (by decide)) rfl, cycle, sp.trans (resetS_powerOn _), ?_, a, x, y, flags⟩
    rw [pc, low.2 nrom (by decide), high.2 nrom (by decide)]
    rfl

/-- Settles O41: the step is `warmReset`. -/
theorem hostResetClearsWhatTheSpecNames : Obligations.HostResetClearsWhatTheSpecNames := by
  unfold Obligations.HostResetClearsWhatTheSpecNames
  intro s mode due
  have next : step s = .next (warmReset s) := by simp [step, stepAs, mode, due]
  refine ⟨_, next, ?_⟩
  and_intros <;> rfl

/-- Settles O42, field by field of `State.powerOn`. -/
theorem powerOnHasTheFixedValues : Obligations.PowerOnHasTheFixedValues := by
  unfold Obligations.PowerOnHasTheFixedValues
  refine ⟨?_, rfl⟩
  intro cfg p s
  and_intros <;> rfl

end Sys2Proof.Proofs.Interrupts
end

section
/-! BIT, INC and DEC (42_arithmetic_logic.md R270-R272), and any read-modify-write of $4014 (49_oam_dma.md R508): the operation of
each, over the laws of its tag; O8, O9 and O60. -/

namespace Sys2Proof.Proofs.MemoryOperations

open Sys2Proof Sys2Proof.Machine Sys2Proof.Proofs.LoadStoreTransfer Sys2Proof.Proofs.ShiftRotate Sys2Proof.Proofs.Undocumented

/-! ### BIT (42_arithmetic_logic.md R270) -/

/-- BIT's test of A and M, as the statement writes it. -/
theorem readOp_bit (m : Byte) (c : Cpu) : readOp .bit m c = { c with
    p := { c.p with z := decide (c.a &&& m = 0#8), v := m.getLsbD 6, n := m.getLsbD 7 } } := rfl

/-- Settles O8: BIT is a Read whose operation is `readOp_bit`. -/
theorem bitTestsTheMemoryByte : Obligations.BitTestsTheMemoryByte := by
  unfold Obligations.BitTestsTheMemoryByte
  refine ⟨by decide, fun i s h bit => ?_⟩
  obtain ⟨t, m, done⟩ := read_answers h (tag_read (by rw [bit]; decide))
  refine ⟨t, m, done.exec, done.operand, done.last, ?_, done.kept, done.cycle, done.ended⟩
  rw [done.regs, bit, readOp_bit]

/-! ### INC and DEC (42_arithmetic_logic.md R271, R272) -/

/-- The byte INC or DEC stores is the one read, counted up or down, and its flags are that byte's. -/
theorem modified_incDec {k : Mnemonic} (count : k ∈ [.inc, .dec]) (m : Byte) (c : Cpu) :
    (modified k m c).1.toNat = (m.toNat + if k = .inc then 1 else 255) % 256
      ∧ (modified k m c).2 = { c with p := zn (modified k m c).1 c.p } := by
  have word (n : Nat) : (BitVec.ofNat 8 (n % 256)).toNat = n % 256 := by simp
  simp only [List.mem_cons, List.not_mem_nil, or_false] at count
  rcases count with rfl | rfl
  · exact ⟨word (m.toNat + 1), rfl⟩
  · exact ⟨word (m.toNat + 255), rfl⟩

/-- Settles O9: both are read-modify-writes whose operation is that of `modified`. -/
theorem incDecChangeMemoryByOne : Obligations.IncDecChangeMemoryByOne := by
  unfold Obligations.IncDecChangeMemoryByOne
  refine ⟨by decide, by decide, fun i s a h count ea noDma => ?_⟩
  have rmw : i.mnemonic ∈ [.inc, .dec, .dcp, .isb, .slo, .rla, .sre, .rra] := List.subset_def.mp (by decide) count
  obtain ⟨t, m, done⟩ := rmw_answers h (tag_rmw rmw) ea noDma
  have stored := done.stores
  have last := done.last
  have after := done.regs
  rw [rmwOp_eq_modified rmw] at stored last after
  obtain ⟨byte, flags⟩ := modified_incDec count m { s.cpu with pc := nextPc i s }
  rw [flags] at after
  exact ⟨t, m, _, done.exec, done.operand, byte, stored, last, after, done.cycle, done.ended⟩

/-! ### A read-modify-write of $4014 (49_oam_dma.md R508) -/

/-- Every read-modify-write is a shift, a count, or a combined opcode (30_encoding.md R161). -/
theorem mnemonic_of_rmw {i : Instr} : i.tag = .rmw → i.mnemonic ∈ [.asl, .lsr, .rol, .ror]
    ∨ i.mnemonic ∈ [.inc, .dec, .dcp, .isb, .slo, .rla, .sre, .rra] := by
  cases i <;> first
    | exact fun h => Tag.noConfusion h
    | exact fun _ => .inl (List.contains_iff_mem.1 rfl)
    | exact fun _ => .inr (List.contains_iff_mem.1 rfl)

theorem rmwOp_of_tag {i : Instr} (tag : i.tag = .rmw) (m : Byte) (c : Cpu) :
    rmwOp i.mnemonic m c = modified i.mnemonic m c := by
  rcases mnemonic_of_rmw tag with shift | other
  · rw [rmwOp_shift shift]
    generalize i.mnemonic = k at shift ⊢
    simp only [List.mem_cons, List.not_mem_nil, or_false] at shift
    rcases shift with rfl | rfl | rfl | rfl <;> rfl
  · exact rmwOp_eq_modified other m c

/-- A read-modify-write operation neither reads nor writes PC. -/
theorem modified_withPc (k : Mnemonic) (m : Byte) (c : Cpu) (pc : Word) :
    modified k m { c with pc := pc } = ((modified k m c).1, { (modified k m c).2 with pc := pc }) := by
  cases k <;> rfl

/-- The operation of a read-modify-write on registers that are those of `s` but for PC. -/
theorem modified_of_sameRegs {i : Instr} (tag : i.tag = .rmw) {s : State} {c : Cpu} (same : SameRegs i.mode.bytes s c)
    (m : Byte) : (rmwOp i.mnemonic m c).1 = (modified i.mnemonic m s.cpu).1
      ∧ regs (rmwOp i.mnemonic m c).2 = regs { (modified i.mnemonic m s.cpu).2 with pc := nextPc i s } := by
  have eq := rmwOp_of_regs (regs_of_sameRegs same) i.mnemonic m
  rwa [rmwOp_of_tag tag m { s.cpu with pc := _ }, modified_withPc] at eq

/-- No dot and no interrupt sample changes the PPU's open bus. -/
theorem beforeAccess_ppuBus (s : State) : (beforeAccess s).ppu.bus = s.ppu.bus := by
  have dot (t : State) : (ppuDot t).ppu.bus = t.ppu.bus := (Video.dot_keeps t.cfg t.cycle t.video).ppu.bus
  exact (dot _).trans (dot (tickDevices s))

/-- Settles O60: the cycles are those of `rmw_dma`, the DMA between the two writes is `dmaCycles`. -/
theorem rmwOnOamDmaRegister : Obligations.RmwOnOamDmaRegister := by
  unfold Obligations.RmwOnOamDmaRegister
  intro i s tag ea idle free
  obtain ⟨m, c, c', u, v, w, t, r⟩ := rmw_dma idle free tag ea
  obtain ⟨byte, -⟩ := modified_of_sameRegs tag r.same m
  obtain ⟨-, registers⟩ := modified_of_sameRegs tag r.same' m
  have last := r.last
  have tail := r.tail
  rw [byte] at last tail
  have dma := dmaCycles_keeps (dmaLength w) w
  have wait : dmaLength w = if (s.cycle + cyclesOf i s) % 2 = 1 then 514 else 513 := by
    rw [OamDma.dmaLength_eq, ← r.cycle]
    split_ifs <;> omega
  refine ⟨u, v, t, _, m, (modified i.mnemonic m s.cpu).1, _, r.exec, r.at3.symm, r.at2.symm, rfl, wait, r.first, ?_, ?_⟩
  · rw [r.read, busByte]
    exact congrArg OpenBus.latch (beforeAccess_ppuBus u)
  rw [r.during 0 (Nat.zero_le _), r.during _ le_rfl]
  refine ⟨r.second, ?_, fun k hk => ?_, dma_done r.starts, ?_, rfl, last, tail.dma, fun a => ?_, fun a => ?_, ?_, r.done, ?_⟩
  · rw [dmaCycles, r.wkeeps.dma, r.kept.dma, r.keeps.dma]
    rfl
  · rw [r.during k hk.le, r.during (k + 1) hk]
    exact ⟨dma_active_before r.starts hk, oneCycle_dmaCycle (dma_active_before r.starts hk)⟩
  · have page : w.dma.page = m := by rw [r.wkeeps.dma]; rfl
    exact page ▸ dma_copiesPage r.starts
  · rw [tail.ram, dma.ram, r.wkeeps.ram, r.kept.ram, r.keeps.ram]
    rfl
  · rw [(tail.other (by decide)).1.oam]
  · rw [r.cpu, regs_endCpu, registers]
  · exact ended_of_cpu r.cpu ((rmwOp_mode _ _ _).trans r.same'.mode)

end Sys2Proof.Proofs.MemoryOperations
end

section
/-! The schedule of a CPU cycle, and a step as the run of its cycles (20_memory.md R131, 00_scope.md R13); O44. -/

namespace Sys2Proof.Proofs.CycleSchedule

open Sys2Proof Sys2Proof.Machine Sys2Proof.Proofs.StepKeeps

/-! ### One cycle (20_memory.md R131) -/

theorem beforeAccess_ticks (s : State) :
    (beforeAccess s).apu = s.apu.tick ∧ (beforeAccess s).pads = s.pads.tick := by
  simp [beforeAccess]

/-- An access is seen by a device, but it is no tick. -/
theorem perform_ticks (act : Act) (s : State) :
    (perform act s).apu.ticks = s.apu.ticks ∧ (perform act s).pads.ticks = s.pads.ticks := by
  cases act with
  | read a =>
    show (readEffect a s).apu.ticks = _ ∧ (readEffect a s).pads.ticks = _
    unfold readEffect
    split <;> exact ⟨rfl, rfl⟩
  | write a d =>
    show (writeEffect a d s).apu.ticks = _ ∧ (writeEffect a d s).pads.ticks = _
    unfold writeEffect
    split <;> exact ⟨rfl, rfl⟩
  | idle => exact ⟨rfl, rfl⟩

theorem afterAccess_devices (s : State) : (afterAccess s).apu = s.apu ∧ (afterAccess s).pads = s.pads := by
  unfold afterAccess dotsAfter
  split_ifs <;> exact ⟨rfl, rfl⟩

theorem busCycle_ticks (act : State → Act) (s : State) :
    (busCycle act s).apu.ticks = s.apu.ticks + 1 ∧ (busCycle act s).pads.ticks = s.pads.ticks + 1 := by
  obtain ⟨apu, pads⟩ := afterAccess_devices (perform (act (beforeAccess s)) (beforeAccess s))
  obtain ⟨seen, seen'⟩ := perform_ticks (act (beforeAccess s)) (beforeAccess s)
  obtain ⟨tick, tick'⟩ := beforeAccess_ticks s
  rw [busCycle, apu, pads, seen, seen', tick, tick']
  exact ⟨rfl, rfl⟩

/-- The cycle has a fourth dot exactly if it is a long one of PAL, which the access does not change. -/
theorem longCycle_perform (act : Act) (s : State) :
    longCycle (perform act (beforeAccess s)) = true ↔ s.cfg.region = .pal ∧ s.cycle % 5 = 4 := by
  rw [longCycle, perform_cfg, perform_cycle, beforeAccess_cfg, beforeAccess_cycle, Bool.and_eq_true, decide_eq_true_iff,
    decide_eq_true_iff]

/-! ### The cycles of a step (00_scope.md R13) -/

/-- Resets taken at a boundary do not stop the machine. -/
theorem honourResets_running (fuel : Nat) {s : State} (running : s.cpu.mode ≠ .refused) :
    (honourResets fuel s).cpu.mode ≠ .refused := by
  induction fuel generalizing s with
  | zero => exact running
  | succ fuel ih =>
    rw [honourResets]
    split_ifs
    · exact ih (s := warmReset s) (by simp [warmReset])
    · exact running

theorem tick_next {c : PerCycle} (running : c.now.cpu.mode ≠ .refused) : ∃ d, c.tick = .next d := by
  obtain ⟨t, next⟩ := stepAs_next (s := c.ready) (honourResets_running _ running)
  cases ended : c.over <;> simp [PerCycle.tick, ended, next]

/-- Settles O44: the cycle by its definition, the ticks by their laws (`PerCycle.tick_ticked`, `step_ticks`). -/
theorem theCycleSchedule : Obligations.TheCycleSchedule := by
  unfold Obligations.TheCycleSchedule
  refine ⟨?_, fun c d => PerCycle.tick_ticked, fun c => tick_next, fun s t idle next => step_ticks idle next⟩
  intro act s before after long
  refine ⟨_, rfl, ?_, rfl, busCycle_cycle act s, busCycle_ticks act s⟩
  have cycle : busCycle act s = countCycle (openBusDecay (cycleDots after) (dotsAfter after)) := rfl
  have fourth : longCycle after = true ↔ long := longCycle_perform _ _
  rw [cycle, cycleDots, dotsAfter]
  simp only [fourth]
  rfl

end Sys2Proof.Proofs.CycleSchedule
end

section
/-! Which instruction a step runs (40_addressing_modes.md R200, R201), and which step stops the machine (46_undocumented.md R370):
O31 and O32. -/

namespace Sys2Proof.Proofs.StepRuns

open Sys2Proof Sys2Proof.Machine Sys2Proof.Proofs.Encoding Sys2Proof.Proofs.ByteStrings

/-! ### The mode through the cycles of an instruction -/

/-- A step can follow. -/
def Running (s : State) : Prop := s.cpu.mode ≠ .refused

theorem drainDma_cpu (fuel : Nat) (s : State) : (drainDma fuel s).cpu = s.cpu := by
  induction fuel generalizing s with
  | zero => rfl
  | succ fuel ih =>
    rw [drainDma]
    split_ifs
    · rw [ih, (dmaCycle_keeps s).cpu]
    · rfl

theorem nextMode_running {mode : CpuMode} (h : mode ≠ .refused) (q : Pending) : nextMode mode q ≠ .refused := by
  cases mode with
  | run => cases q <;> simp [nextMode]
  | refused => exact absurd rfl h
  | _ => simp [nextMode]

theorem endCpu_running (kind : CycleKind) (q : Pending) {c : Cpu} (h : c.mode ≠ .refused) : (endCpu kind q c).mode ≠ .refused := by
  cases kind with
  | last => exact nextMode_running h q
  | _ => exact h

/-- No cycle but one whose update says so enters mode `refused`, DMA and resets in between included. -/
theorem cyc_running (kind : CycleKind) (act : State → Act) {upd : Byte → State → State} (hu : ∀ d t, Running t → Running (upd d t))
    {s : State} (h : Running s) : Running (cyc kind act upd s) := by
  have drained : Running (drainDma dmaFuel s) := by rwa [Running, drainDma_cpu]
  unfold cyc
  dsimp only
  split_ifs
  · exact drained
  · rw [Running, endCycle_cpu]
    exact endCpu_running _ _ (hu _ _ (by rwa [Running, busCycle_cpu]))

theorem cpuCyc_running (kind : CycleKind) (act : Cpu → Act) {upd : Byte → Cpu → Cpu}
    (hu : ∀ d c, c.mode ≠ .refused → (upd d c).mode ≠ .refused) {s : State} (h : Running s) :
    Running (cpuCyc kind act upd s) :=
  cyc_running kind _ (upd := fun d => State.mapCpu (upd d)) (fun d t ht => hu d t.cpu ht) h

/-- A cycle whose update leaves the mode alone. -/
theorem Running.cycle {kind : CycleKind} {act : Cpu → Act} {upd : Byte → Cpu → Cpu} {s : State} (h : Running s)
    (hu : ∀ d c, (upd d c).mode = c.mode := by exact fun _ _ => rfl) : Running (cpuCyc kind act upd s) :=
  cpuCyc_running kind act (fun d c hc => (hu d c).symm ▸ hc) h

/-! ### The operations of the meanings -/

variable {s : State}

theorem Running.fetchOp (h : Running s) (kind : CycleKind) (op : Byte) : Running (fetchOp kind op s) := h.cycle

theorem Running.fetchOperand (h : Running s) (kind : CycleKind) {store : Cpu → Cpu}
    (hs : ∀ c, (store c).mode = c.mode := by exact fun _ => rfl) : Running (fetchOperand kind store s) :=
  h.cycle fun _ _ => hs _

theorem Running.dummyRead (h : Running s) (kind : CycleKind) (ea : Cpu → Word) : Running (dummyRead kind ea s) := h.cycle

theorem Running.readData (h : Running s) (kind : CycleKind) (ea : Cpu → Word) : Running (readData kind ea s) := h.cycle

theorem Running.readTail (h : Running s) (ea : Cpu → Word) {f : Byte → Cpu → Cpu} (hf : ∀ d c, (f d c).mode = c.mode) :
    Running (readTail ea f s) := h.cycle fun d _ => hf d _

theorem Running.writeTail (h : Running s) (ea : Cpu → Word) (v : Cpu → Byte) : Running (writeTail ea v s) := h.cycle

theorem Running.push (h : Running s) (kind : CycleKind) (v : Cpu → Byte) : Running (push kind v s) := h.cycle

theorem Running.dummyPc (h : Running s) (kind : CycleKind) : Running (dummyPc kind s) := h.cycle

theorem Running.stackUp (h : Running s) (kind : CycleKind) : Running (stackUp kind s) := h.cycle

theorem Running.openZp (h : Running s) (op zp : Byte) (kind : CycleKind) : Running (openZp op zp kind s) :=
  (h.fetchOp _ _).fetchOperand _

theorem Running.openZpIndexed (h : Running s) (op zp : Byte) (kind : CycleKind) : Running (openZpIndexed op zp kind s) := by
  unfold Machine.openZpIndexed
  exact ((h.fetchOp _ _).fetchOperand _).dummyRead _ _

theorem Running.openAbs (h : Running s) (op : Byte) (addr : Word) (kind : CycleKind) : Running (openAbs op addr kind s) := by
  unfold Machine.openAbs
  exact ((h.fetchOp _ _).fetchOperand _).fetchOperand _

theorem Running.openAbsIndexed (h : Running s) (i : Index) (op : Byte) (addr : Word) (kind : Bool → CycleKind) :
    Running (openAbsIndexed i op addr kind s) := by
  unfold Machine.openAbsIndexed
  exact ((h.fetchOp _ _).fetchOperand _).fetchOperand _

theorem Running.openIzx (h : Running s) (op zp : Byte) (kind : CycleKind) : Running (openIzx op zp kind s) := by
  unfold Machine.openIzx
  exact (((h.fetchOp _ _).fetchOperand _).dummyRead _ _).cycle.cycle

theorem Running.openIzy (h : Running s) (op zp : Byte) (kind : Bool → CycleKind) : Running (openIzy op zp kind s) := by
  unfold Machine.openIzy
  exact ((h.fetchOp _ _).fetchOperand _).cycle.cycle

theorem Running.indexedReadTail (h : Running s) (i : Index) {f : Byte → Cpu → Cpu} (hf : ∀ d c, (f d c).mode = c.mode) :
    Running (indexedReadTail i f s) := by
  unfold Machine.indexedReadTail
  split_ifs
  · exact (h.readData _ _).readTail _ hf
  · exact h.readTail _ hf

theorem Running.rmwTail (h : Running s) (ea : Cpu → Word) {op : Byte → Cpu → Byte × Cpu}
    (hop : ∀ m c, (op m c).2.mode = c.mode) : Running (rmwTail ea op s) := by
  unfold Machine.rmwTail
  exact (h.readData _ _).cycle.cycle fun _ c => hop _ c

theorem Running.readMode (h : Running s) (m : Mode) (op : Byte) {f : Byte → Cpu → Cpu} (hf : ∀ d c, (f d c).mode = c.mode) :
    Running (readMode m op f s) := by
  have tail {u : State} (hu : Running u) (ea : Cpu → Word) : Running (Machine.readTail ea f u) := hu.readTail ea hf
  cases m with
  | immediate imm => exact (h.fetchOp _ _).fetchOperand _ fun _ => hf _ _
  | zeroPage zp => exact tail (h.openZp _ _ _) _
  | zeroPageX zp => exact tail (h.openZpIndexed _ _ _) _
  | zeroPageY zp => exact tail (h.openZpIndexed _ _ _) _
  | absolute addr => exact tail (h.openAbs _ _ _) _
  | absoluteX addr => exact (h.openAbsIndexed _ _ _ _).indexedReadTail _ hf
  | absoluteY addr => exact (h.openAbsIndexed _ _ _ _).indexedReadTail _ hf
  | indirectX zp => exact tail (h.openIzx _ _ _) _
  | indirectY zp => exact (h.openIzy _ _ _).indexedReadTail _ hf
  | implicit | accumulator | indirect _ | relative _ => exact h

theorem Running.writeMode (h : Running s) (m : Mode) (op : Byte) (v : Cpu → Byte) : Running (writeMode m op v s) := by
  cases m with
  | zeroPage zp => exact (h.openZp _ _ _).writeTail _ _
  | zeroPageX zp => exact (h.openZpIndexed _ _ _).writeTail _ _
  | zeroPageY zp => exact (h.openZpIndexed _ _ _).writeTail _ _
  | absolute addr => exact (h.openAbs _ _ _).writeTail _ _
  | absoluteX addr => exact ((h.openAbsIndexed _ _ _ _).dummyRead _ _).writeTail _ _
  | absoluteY addr => exact ((h.openAbsIndexed _ _ _ _).dummyRead _ _).writeTail _ _
  | indirectX zp => exact (h.openIzx _ _ _).writeTail _ _
  | indirectY zp => exact ((h.openIzy _ _ _).dummyRead _ _).writeTail _ _
  | immediate _ | implicit | accumulator | indirect _ | relative _ => exact h

theorem Running.rmwMode (h : Running s) (m : Mode) (op : Byte) {f : Byte → Cpu → Byte × Cpu}
    (hf : ∀ d c, (f d c).2.mode = c.mode) : Running (rmwMode m op f s) := by
  cases m with
  | zeroPage zp => exact (h.openZp _ _ _).rmwTail _ hf
  | zeroPageX zp => exact (h.openZpIndexed _ _ _).rmwTail _ hf
  | zeroPageY zp => exact (h.openZpIndexed _ _ _).rmwTail _ hf
  | absolute addr => exact (h.openAbs _ _ _).rmwTail _ hf
  | absoluteX addr => exact ((h.openAbsIndexed _ _ _ _).dummyRead _ _).rmwTail _ hf
  | absoluteY addr => exact ((h.openAbsIndexed _ _ _ _).dummyRead _ _).rmwTail _ hf
  | indirectX zp => exact (h.openIzx _ _ _).rmwTail _ hf
  | indirectY zp => exact ((h.openIzy _ _ _).dummyRead _ _).rmwTail _ hf
  | immediate _ | implicit | accumulator | indirect _ | relative _ => exact h

theorem Running.relative (h : Running s) (op off : Byte) (taken : Flags → Bool) : Running (relative op off taken s) := by
  unfold Machine.relative
  dsimp only
  split_ifs
  · exact ((h.fetchOp _ _).fetchOperand _).cycle.cycle
  · exact ((h.fetchOp _ _).fetchOperand _).cycle
  · exact (h.fetchOp _ _).fetchOperand _

theorem Running.vectorLow (h : Running s) (kind : IntKind) : Running (vectorLow kind s) := by
  unfold Machine.vectorLow
  refine cyc_running _ _ ?_ h
  exact fun _ _ ht => ht

theorem Running.vectorHigh (h : Running s) : Running (vectorHigh s) := by
  unfold Machine.vectorHigh
  refine cyc_running _ _ ?_ h
  exact fun _ _ ht => ht

theorem Running.takeInterrupt (h : Running s) (kind : IntKind) : Running (takeInterrupt kind s) :=
  ((((h.push _ _).push _ _).push _ _).vectorLow _).vectorHigh

theorem Running.interruptSequence (h : Running s) (kind : IntKind) : Running (interruptSequence kind s) := by
  cases kind with
  | brk => exact h.cycle.cycle.takeInterrupt _
  | irq => exact ((h.dummyPc _).dummyPc _).takeInterrupt _
  | nmi => exact ((h.dummyPc _).dummyPc _).takeInterrupt _

theorem Running.dummyPush (h : Running s) : Running (dummyPush s) := h.cycle

theorem Running.resetSequence (h : Running s) : Running (resetSequence s) := by
  unfold Machine.resetSequence
  refine cyc_running _ _ ?_ ((h.dummyPc _).dummyPc _).dummyPush.dummyPush.dummyPush.cycle
  exact fun _ _ ht => ht

theorem Running.pushReg (h : Running s) (op : Byte) (v : Cpu → Byte) : Running (pushReg op v s) :=
  ((h.fetchOp _ _).dummyPc _).push _ _

theorem Running.pullReg (h : Running s) (op : Byte) {f : Byte → Cpu → Cpu} (hf : ∀ d c, (f d c).mode = c.mode) :
    Running (pullReg op f s) := (((h.fetchOp _ _).dummyPc _).stackUp _).cycle hf

theorem Running.returnInt (h : Running s) (op : Byte) : Running (returnInt op s) := by
  unfold Machine.returnInt returnFromInterrupt
  exact (((h.fetchOp _ _).dummyPc _).stackUp _).cycle.cycle.cycle

theorem Running.returnSub (h : Running s) (op : Byte) : Running (returnSub op s) := by
  unfold Machine.returnSub
  exact (((h.fetchOp _ _).dummyPc _).stackUp _).cycle.cycle.cycle

theorem Running.callAbs (h : Running s) (op : Byte) (addr : Word) : Running (callAbs op addr s) := by
  unfold Machine.callAbs openJsr
  exact ((((h.fetchOp _ _).fetchOperand _).cycle.push _ _).push _ _).cycle

theorem Running.jumpAbs (h : Running s) (op : Byte) (addr : Word) : Running (jumpAbs op addr s) := by
  unfold Machine.jumpAbs
  exact ((h.fetchOp _ _).fetchOperand _).cycle

theorem Running.jumpInd (h : Running s) (op : Byte) (ptr : Word) : Running (jumpInd op ptr s) := by
  unfold Machine.jumpInd
  exact ((h.openAbs _ _ _).readData _ _).cycle

/-- An instruction whose opcode is not unstable does not stop the machine. -/
theorem Running.exec {t : State} (h : Running s) {i : Instr} (stable : i.tag ≠ .untagged) (he : exec i s = .next t) :
    Running t := by
  have fin (u : State) (e : Machine.exec i s = .next u) (hu : Running u) : Running t :=
    Host.Outcome.next.inj (e.symm.trans he) ▸ hu
  cases exec_runs i s with
  | read _ e => exact fin _ e (h.readMode _ _ (readOp_mode _))
  | write _ e => exact fin _ e (h.writeMode _ _ _)
  | rmw _ e => exact fin _ e (h.rmwMode _ _ (rmwOp_mode _))
  | implied _ _ e => exact fin _ e ((h.fetchOp _ _).cycle fun _ => impliedOp_mode _)
  | branch _ _ _ e => exact fin _ e (h.relative _ _ _)
  | unstable tag _ => exact absurd tag stable
  | stp _ _ e => exact fin _ e (cpuCyc_running _ _ (fun _ _ _ => by simp) h)
  | brk _ e => exact fin _ e (h.interruptSequence _)
  | php _ e => exact fin _ e (h.pushReg _ _)
  | pha _ e => exact fin _ e (h.pushReg _ _)
  | plp _ e => exact fin _ e (h.pullReg _ fun _ _ => rfl)
  | pla _ e => exact fin _ e (h.pullReg _ fun _ _ => rfl)
  | rti _ e => exact fin _ e (h.returnInt _)
  | rts _ e => exact fin _ e (h.returnSub _)
  | jsr _ _ e => exact fin _ e (h.callAbs _ _)
  | jmpAbs _ _ e => exact fin _ e (h.jumpAbs _ _)
  | jmpInd _ _ e => exact fin _ e (h.jumpInd _ _)

/-! ### The bytes a step fetches (40_addressing_modes.md R201) -/

/-- An idle DMA leaves the next fetch the read of PC that comes next. -/
theorem fetchByte_eq {k : Nat} (h : undisturbed k s) : fetchByte s = busByte (fun _ => .read s.cpu.pc) s := by
  rw [fetchByte, drainDma_of_inactive _ h.1, (busCycle_chosen _ s).2]
  simp [atPc]

theorem delivers_fetchByte {k : Nat} (h : undisturbed k s) : delivers s.cpu.pc s (fetchByte s) := by
  rw [fetchByte_eq h]
  exact delivers_busByte _ _ _ rfl

/-- The byte fetched where plain memory is, the cartridge's contents being those of `s`. -/
theorem fetchByte_of_plain {k : Nat} {u : State} (h : undisturbed k u) (cart : CartKeeps s.cart u.cart) {a : Word}
    (pc : u.cpu.pc = a) {d : Byte} (plain : plainByte u.ram s a = some d) : fetchByte u = d := by
  have got := delivers_fetchByte h
  rw [pc] at got
  unfold plainByte at plain
  split_ifs at plain with ram rom
  · rw [got.1 (target_of_lt ram), ramAt]
    exact Option.some.inj plain
  · rw [got.2 (cart.kind.trans rom.1) rom.2, cart.prg, cart.prgSize]
    exact Option.some.inj plain

/-- Internal RAM as the fetch of the third byte finds it: JSR has pushed the return address by then (40_addressing_modes.md
R216). -/
def ramAtThird (op : Byte) (s : State) : Memory :=
  if op = 0x20#8 then pushedOn s.cpu.s [hiByte (s.cpu.pc + 2), loByte (s.cpu.pc + 2)] s.ram else s.ram

/-- Before the fetch of the third byte PC is past two bytes, and nothing is stored but what JSR pushes. -/
theorem beforeThird_spec (h : undisturbed 8 s) (op b1 : Byte) : ∃ u, beforeThird op b1 (fetchOp .mid op s) = u
    ∧ undisturbed 1 u ∧ u.cpu.pc = s.cpu.pc + 2 ∧ u.ram = ramAtThird op s ∧ CartKeeps s.cart u.cart := by
  obtain ⟨o1, h1⟩ := fetchOp_spec (k := 7) h .mid (by decide) op
  obtain ⟨o2, h2, -⟩ := fetchOperand_spec (k := 6) o1 h1 .mid (by decide) (fun c => { c with adl := b1 })
    (by constructor <;> intros <;> rfl)
  unfold beforeThird ramAtThird
  split_ifs
  · obtain ⟨o3, h3, -⟩ := dummyRead_spec (k := 5) o2 h2 .mid (by decide) fun c => stackAddr c.s
    obtain ⟨o4, h4, -⟩ := o3.pushed.push (k := 4) h3 .mid (by decide) fun c => hiByte c.pc
    obtain ⟨o5, h5, -⟩ := o4.push (k := 3) h4 .penult (by decide) fun c => loByte c.pc
    have ram := o5.ram
    rw [o4.pc, o3.pc] at ram
    exact ⟨_, rfl, h5.mono (by decide), o5.pc, ram, o5.keeps.cart⟩
  · exact ⟨_, rfl, h2.mono (by decide), o2.pc, o2.keeps.ram, o2.keeps.cart⟩

/-- The three bytes a step fetches begin with the instruction's, where those stand at PC. -/
theorem fetched_of_standsAtPc (h : undisturbed 8 s) {i : Instr} (stands : standsAtPc i s) :
    ∃ b1 b2, fetchInstr s = decodeOp i.opcode b1 b2 ∧ encode i = i.opcode :: [b1, b2].take (opcodeLength i.opcode - 1) := by
  obtain ⟨operands, henc, hlength⟩ := encode_eq_opcode_cons i
  have bounds := opcodeLength_bounds i.opcode
  have length : i.length = opcodeLength i.opcode := by
    rw [Instr.length, henc, List.length_cons, hlength]
    omega
  have opcode : fetchByte s = i.opcode := by
    have byte := stands 0 (by omega)
    rw [if_neg (by simp), henc] at byte
    exact fetchByte_of_plain h (.refl _) (BitVec.add_zero _).symm byte
  obtain ⟨o1, h1⟩ := fetchOp_spec (k := 7) h .mid (by decide) i.opcode
  obtain ⟨u, hu, free, pc, ram, cart⟩ := beforeThird_spec h i.opcode (fetchByte (fetchOp .mid i.opcode s))
  refine ⟨fetchByte (fetchOp .mid i.opcode s), fetchByte u, by rw [fetchInstr, opcode, hu], ?_⟩
  have second {x : Byte} (hx : operands[0]? = some x) : fetchByte (fetchOp .mid i.opcode s) = x := by
    have byte := stands 1 (by have := (List.getElem?_eq_some_iff.1 hx).1; omega)
    rw [if_neg (by simp), henc, List.getElem?_cons_succ, hx] at byte
    exact fetchByte_of_plain h1 o1.keeps.cart o1.pc (o1.keeps.ram ▸ byte)
  have third {y : Byte} (hy : operands[1]? = some y) : fetchByte u = y := by
    have byte := stands 2 (by have := (List.getElem?_eq_some_iff.1 hy).1; omega)
    simp only [and_true] at byte
    rw [henc, List.getElem?_cons_succ, hy] at byte
    exact fetchByte_of_plain free cart pc (ram ▸ byte)
  rw [henc, ← hlength]
  rcases operands with _ | ⟨x, _ | ⟨y, _ | ⟨z, rest⟩⟩⟩
  · rfl
  · rw [second rfl]; rfl
  · rw [second rfl, third rfl]; rfl
  · simp only [List.length_cons] at hlength
    omega

/-- Settles O31: the decoder makes of the bytes fetched the one instruction they are the encoding of. -/
theorem stepRunsTheInstructionAtPc : Obligations.StepRunsTheInstructionAtPc := by
  unfold Obligations.StepRunsTheInstructionAtPc
  intro i s h mode stands
  obtain ⟨b1, b2, fetched, henc⟩ := fetched_of_standsAtPc h stands
  obtain ⟨j, decoded, hj⟩ := decodeOp_encode i.opcode b1 b2
  obtain rfl : j = i := encode_injective (hj.trans henc.symm)
  simp [step, stepAs, mode, (h.mono (by decide : 1 ≤ 8)).resetDue, h.1, fetched, decoded]

/-! ### What stops the machine (46_undocumented.md R370) -/

/-- The eight unstable opcodes (46_undocumented.md R370). -/
theorem unstable_of_untagged {i : Instr} : i.tag = .untagged →
    i.mnemonic ∈ [.xaa, .ahx, .tas, .shy, .shx, .lxa, .las]
      ∧ i.opcode.toNat ∈ [0x8B, 0x93, 0x9B, 0x9C, 0x9E, 0x9F, 0xAB, 0xBB] := by
  cases i <;> first
    | exact fun h => Tag.noConfusion h
    | exact fun _ => ⟨List.contains_iff_mem.1 rfl, List.contains_iff_mem.1 rfl⟩

/-- The opcode of the instruction a step runs is the byte its first cycle reads at PC. -/
theorem opcode_of_fetchInstr {k : Nat} (h : undisturbed k s) {i : Instr} (fetched : fetchInstr s = some i) :
    i.opcode = busByte (fun _ => .read s.cpu.pc) s := by
  obtain ⟨j, decoded, hj⟩ := decodeOp_encode (fetchByte s) (fetchByte (fetchOp .mid (fetchByte s) s))
    (fetchByte (beforeThird (fetchByte s) (fetchByte (fetchOp .mid (fetchByte s) s)) (fetchOp .mid (fetchByte s) s)))
  obtain rfl : i = j := Option.some.inj (fetched.symm.trans decoded)
  rw [Instr.opcode, hj, ← fetchByte_eq h]
  rfl

/-- A step into mode `refused` runs an unstable opcode, no DMA and no reset coming before its fetch. -/
theorem fetch_of_stopped {t : State} (next : step s = .next t) (running : Running s) (stopped : t.cpu.mode = .refused) :
    s.cpu.mode = .run ∧ s.dma.active = false ∧ resetDue s = false
      ∧ ∃ i, fetchInstr s = some i ∧ i.tag = .untagged ∧ exec i s = .next t := by
  have ends {u : State} (e : Host.Outcome.next (φ := Fault) (ρ := Refusal) u = .next t) (hu : Running u) : False :=
    hu (Host.Outcome.next.inj e ▸ stopped)
  unfold step stepAs at next
  split_ifs at next with refused due active
  · exact (ends next (by simp [Running, warmReset])).elim
  · exact (ends next (by rwa [Running, (dmaCycle_keeps s).cpu])).elim
  · split at next
    case h_1 mode =>
      obtain ⟨i, fetched⟩ := fetchInstr_isSome s
      rw [fetched] at next
      refine ⟨mode, by simpa using active, by simpa using due, i, fetched, ?_, next⟩
      by_contra stable
      exact running.exec stable next stopped
    case h_2 => exact (ends next (running.interruptSequence _)).elim
    case h_3 => exact (ends next running.resetSequence).elim
    case h_4 => exact (ends next running.cycle).elim
    case h_5 mode => exact absurd mode running

/-- Settles O32: a step answers by `stepAs_next`; what enters mode `refused` is the one cycle of `refuse`. -/
theorem onlyUnstableOpcodesStopTheMachine : Obligations.OnlyUnstableOpcodesStopTheMachine := by
  unfold Obligations.OnlyUnstableOpcodesStopTheMachine
  refine fun s => ⟨stepAs_next, fun refused => by simp [step, stepAs, refused], fun t next running stopped => ?_⟩
  obtain ⟨mode, idle, due, i, fetched, tag, ran⟩ := fetch_of_stopped next running stopped
  obtain ⟨unstable, opcode⟩ := unstable_of_untagged tag
  have free : undisturbed 1 s := undisturbed_of_idle idle due
  obtain rfl : refuse i.opcode s = t := Host.Outcome.next.inj ((exec_unstable i s unstable).symm.trans ran)
  have recorded : (refuse i.opcode s).cpu.opcode = i.opcode := by
    rw [show (refuse i.opcode s).cpu = _ from (stop_spec free i.opcode .refused).2.2]
    rfl
  obtain ⟨cycle, -⟩ := cpuCyc_oneCycle (k := 0) free .last atPc
    fun _ c => { c with opcode := i.opcode, pc := c.pc + 1, mode := .refused }
  rw [recorded]
  exact ⟨mode, idle, due, opcode_of_fetchInstr free fetched, opcode, cycle⟩

end Sys2Proof.Proofs.StepRuns
end

section
/-! The bus decoder, PPU memory and open bus (20_memory.md R110-R126, 47_ppu_registers.md R411, R412): O43, O49 and O50. -/

namespace Sys2Proof.Proofs.BusAndMemory

open Sys2Proof Sys2Proof.Machine

/-! ### PPU memory (20_memory.md R119, R120, R125, R126) -/

section Regions
variable {v : Video} {a : PpuAddr}

theorem ppuRead_chr (h : a.toNat < 0x2000) : v.ppuRead a = v.cart.readChr a := if_pos h

theorem ppuRead_nt (h : 0x2000 ≤ a.toNat) (h' : a.toNat < 0x3F00) : v.ppuRead a = v.cart.readNt (a &&& 0x2FFF#14) := by
  rw [Video.ppuRead, if_neg (by omega), if_pos h']

theorem ppuRead_pal (h : 0x3F00 ≤ a.toNat) : v.ppuRead a = (v.ppu.paletteEntry (palIndex a)).setWidth 8 := by
  rw [Video.ppuRead, if_neg (by omega), if_neg (by omega)]

theorem ppuWrite_chr (h : a.toNat < 0x2000) (d : Byte) : v.ppuWrite a d = { v with cart := v.cart.writeChr a d } := if_pos h

theorem ppuWrite_nt (h : 0x2000 ≤ a.toNat) (h' : a.toNat < 0x3F00) (d : Byte) :
    v.ppuWrite a d = { v with cart := v.cart.writeNt (a &&& 0x2FFF#14) d } := by
  rw [Video.ppuWrite, if_neg (by omega), if_pos h']

theorem ppuWrite_pal (h : 0x3F00 ≤ a.toNat) (d : Byte) : v.ppuWrite a d = v.mapPpu (.setPalette (palIndex a) d) := by
  rw [Video.ppuWrite, if_neg (by omega), if_neg (by omega)]

end Regions

/-- Both addresses lie in pattern memory that can be written and reach one cell of it, or name one cell above it. -/
def SameCell (v : Video) (a b : PpuAddr) : Prop :=
  (a.toNat < 0x2000 ∧ b.toNat < 0x2000 ∧ v.cart.chrIsRam = true ∧ v.cart.chrCell a = v.cart.chrCell b)
    ∨ (0x2000 ≤ a.toNat ∧ 0x2000 ≤ b.toNat ∧ ppuCell v.cart.mirroring a.toNat = ppuCell v.cart.mirroring b.toNat)

theorem sameCell_chr {v : Video} {a b : PpuAddr} (ha : a.toNat < 0x2000) (hb : b.toNat < 0x2000) :
    SameCell v a b ↔ v.cart.chrIsRam = true ∧ v.cart.chrCell a = v.cart.chrCell b := by
  simp [SameCell, ha, hb, Nat.not_le.2 ha]

theorem not_sameCell {v : Video} {a b : PpuAddr} (h : a.toNat < 0x2000 ↔ 0x2000 ≤ b.toNat) : ¬ SameCell v a b := by
  unfold SameCell
  omega

theorem sameCell_above {v : Video} {a b : PpuAddr} (ha : 0x2000 ≤ a.toNat) (hb : 0x2000 ≤ b.toNat) :
    SameCell v a b ↔ ppuCell v.cart.mirroring a.toNat = ppuCell v.cart.mirroring b.toNat := by
  simp [SameCell, ha, hb, Nat.not_lt.2 ha]

theorem ppuCell_nt_lt (m : Mirroring) {a : PpuAddr} (h : 0x2000 ≤ a.toNat) (h' : a.toNat < 0x3F00) :
    ppuCell m a.toNat < 0x3F00 := by
  have lt := ntIndex_lt m (a &&& 0x2FFF#14)
  rw [ppuCell_nt m a h h']
  omega

theorem ppuCell_pal_ge (m : Mirroring) {a : PpuAddr} (h : 0x3F00 ≤ a.toNat) : 0x3F00 ≤ ppuCell m a.toNat := by
  rw [ppuCell_pal m a h]
  omega

/-- A palette entry stored and read back, as a byte of 6 bits. -/
theorem paletteByte (d : Byte) : ((d &&& 0x3F#8).setWidth 6).setWidth 8 = d &&& 0x3F#8 := by
  revert d
  decide

/-- Two machines read alike at an address if they do in its region. -/
theorem ppuRead_congr {v w : Video} {b : PpuAddr} (chr : b.toNat < 0x2000 → w.cart.readChr b = v.cart.readChr b)
    (nt : 0x2000 ≤ b.toNat → b.toNat < 0x3F00 → w.cart.readNt (b &&& 0x2FFF#14) = v.cart.readNt (b &&& 0x2FFF#14))
    (pal : 0x3F00 ≤ b.toNat → w.ppu.paletteEntry (palIndex b) = v.ppu.paletteEntry (palIndex b)) :
    w.ppuRead b = v.ppuRead b := by
  unfold Video.ppuRead
  split_ifs with low mid
  · exact chr low
  · exact nt (by omega) mid
  · rw [pal (by omega)]

/-- What is read at `b` after a write at `a`: the byte where both name one cell, and else what was read before. -/
def ReadsBack (v : Video) (a b : PpuAddr) (d : Byte) : Prop :=
  (SameCell v a b → (v.ppuWrite a d).ppuRead b = if a.toNat < 0x3F00 then d else d &&& 0x3F#8)
    ∧ (¬ SameCell v a b → (v.ppuWrite a d).ppuRead b = v.ppuRead b)

theorem readsBack_chr {v : Video} {a : PpuAddr} (ha : a.toNat < 0x2000) (b : PpuAddr) (d : Byte) : ReadsBack v a b d := by
  unfold ReadsBack
  rw [ppuWrite_chr ha, Cart.writeChr_only]
  rcases Nat.lt_or_ge b.toNat 0x2000 with hb | hb
  · have read : (v.cart.writeChr a d).readChr b = _ := Cart.readChr_writeChr v.cart a b d
    rw [Cart.writeChr_only] at read
    rw [ppuRead_chr hb, read, ppuRead_chr hb, sameCell_chr ha hb, if_pos (show a.toNat < 0x3F00 by omega), eq_comm (a := v.cart.chrCell a)]
    exact ⟨fun same => if_pos same, fun other => if_neg other⟩
  · exact ⟨fun same => absurd same (not_sameCell (by omega)),
      fun _ => ppuRead_congr (fun low => absurd low (by omega)) (fun _ _ => rfl) fun _ => rfl⟩

theorem readsBack_nt {v : Video} {a : PpuAddr} (ha : 0x2000 ≤ a.toNat) (ha' : a.toNat < 0x3F00) (b : PpuAddr) (d : Byte) :
    ReadsBack v a b d := by
  unfold ReadsBack
  rw [ppuWrite_nt ha ha', if_pos ha']
  rcases Nat.lt_or_ge b.toNat 0x2000 with hb | hb
  · exact ⟨fun same => absurd same (not_sameCell (by omega)),
      fun _ => ppuRead_congr (fun _ => rfl) (fun high => absurd high (by omega)) fun _ => rfl⟩
  rw [sameCell_above ha hb]
  rcases Nat.lt_or_ge b.toNat 0x3F00 with hb' | hb'
  · have cell : ppuCell v.cart.mirroring a.toNat = ppuCell v.cart.mirroring b.toNat
        ↔ ntIndex v.cart.mirroring (b &&& 0x2FFF#14) = ntIndex v.cart.mirroring (a &&& 0x2FFF#14) := by
      rw [ppuCell_nt _ _ ha ha', ppuCell_nt _ _ hb hb']
      omega
    rw [cell, ppuRead_nt hb hb', ppuRead_nt hb hb']
    exact ⟨fun same => (Memory.read_write _ _ _ _).trans (if_pos same), fun other => Memory.read_write_ne _ _ other⟩
  · have apart : ppuCell v.cart.mirroring a.toNat ≠ ppuCell v.cart.mirroring b.toNat := by
      have := ppuCell_nt_lt v.cart.mirroring ha ha'
      have := ppuCell_pal_ge v.cart.mirroring hb'
      omega
    exact ⟨fun same => absurd same apart,
      fun _ => ppuRead_congr (fun _ => rfl) (fun _ low => absurd low (by omega)) fun _ => rfl⟩

theorem readsBack_pal {v : Video} {a : PpuAddr} (ha : 0x3F00 ≤ a.toNat) (b : PpuAddr) (d : Byte) : ReadsBack v a b d := by
  unfold ReadsBack
  rw [ppuWrite_pal ha, if_neg (by omega)]
  rcases Nat.lt_or_ge b.toNat 0x3F00 with hb | hb
  · have apart : ¬ SameCell v a b := by
      rcases Nat.lt_or_ge b.toNat 0x2000 with hb' | hb'
      · exact not_sameCell (by omega)
      · have := ppuCell_nt_lt v.cart.mirroring hb' hb
        have := ppuCell_pal_ge v.cart.mirroring ha
        rw [sameCell_above (by omega) hb']
        omega
    exact ⟨fun same => absurd same apart,
      fun _ => ppuRead_congr (fun _ => rfl) (fun _ _ => rfl) fun high => absurd high (by omega)⟩
  · have cell : ppuCell v.cart.mirroring a.toNat = ppuCell v.cart.mirroring b.toNat ↔ palIndex b = palIndex a := by
      rw [ppuCell_pal _ _ ha, ppuCell_pal _ _ hb]
      omega
    rw [sameCell_above (by omega) (by omega), cell, ppuRead_pal hb, ppuRead_pal hb]
    refine ⟨fun same => ?_, fun other => ?_⟩
    · rw [same, Video.mapPpu_ppu, Ppu.paletteEntry, Ppu.setPalette, Memory.read_write_same, paletteByte]
    · rw [Video.mapPpu_ppu, Ppu.paletteEntry, Ppu.setPalette, Memory.read_write_ne _ _ other]
      rfl

theorem readsBack (v : Video) (a b : PpuAddr) (d : Byte) : ReadsBack v a b d := by
  rcases Nat.lt_or_ge a.toNat 0x2000 with low | high
  · exact readsBack_chr low b d
  · rcases Nat.lt_or_ge a.toNat 0x3F00 with mid | top
    · exact readsBack_nt high mid b d
    · exact readsBack_pal top b d

/-- The same, as the statements put it. -/
theorem ppuRead_ppuWrite {v : Video} {a b : PpuAddr} {P : Prop} [Decidable P] (same : P ↔ SameCell v a b) (d : Byte) :
    (v.ppuWrite a d).ppuRead b = if P then (if a.toNat < 0x3F00 then d else d &&& 0x3F#8) else v.ppuRead b := by
  obtain ⟨back, kept⟩ := readsBack v a b d
  rw [← same] at back kept
  by_cases h : P
  · rw [if_pos h, back h]
  · rw [if_neg h, kept h]

/-- Mapper 0 reaches the cell of pattern memory that the address is (20_memory.md R121). -/
theorem chrCell_nrom {c : Cart} (nrom : c.kind = .nrom) {a : PpuAddr} (h : a.toNat < 0x2000) : c.chrCell a = a.toNat := by
  rw [Cart.chrCell, nrom]
  show (a &&& 0x1FFF#14).toNat = a.toNat
  rw [BitVec.toNat_and]
  exact (Nat.and_two_pow_sub_one_eq_mod a.toNat 13).trans (Nat.mod_eq_of_lt h)

theorem ppuCell_chr (m : Mirroring) {a : PpuAddr} (h : a.toNat < 0x2000) : ppuCell m a.toNat = a.toNat := if_pos h

theorem ppuCell_ge (m : Mirroring) {a : PpuAddr} (h : 0x2000 ≤ a.toNat) : 0x2000 ≤ ppuCell m a.toNat := by
  unfold ppuCell
  split_ifs <;> omega

/-- Over mapper 0 every cell of PPU memory has one name. -/
theorem sameCell_nrom {v : Video} (nrom : v.cart.kind = .nrom) (a b : PpuAddr) :
    (ppuCell v.cart.mirroring a.toNat = ppuCell v.cart.mirroring b.toNat ∧ (0x2000 ≤ a.toNat ∨ v.cart.chrIsRam = true))
      ↔ SameCell v a b := by
  rcases Nat.lt_or_ge a.toNat 0x2000 with ha | ha <;> rcases Nat.lt_or_ge b.toNat 0x2000 with hb | hb
  · rw [sameCell_chr ha hb, ppuCell_chr _ ha, ppuCell_chr _ hb, chrCell_nrom nrom ha, chrCell_nrom nrom hb]
    simp [Nat.not_le.2 ha, and_comm]
  · have := ppuCell_ge v.cart.mirroring hb
    have := ppuCell_chr v.cart.mirroring ha
    exact iff_of_false (fun same => absurd same.1 (by omega)) (not_sameCell (by omega))
  · have := ppuCell_ge v.cart.mirroring ha
    have := ppuCell_chr v.cart.mirroring hb
    exact iff_of_false (fun same => absurd same.1 (by omega)) (not_sameCell (by omega))
  · rw [sameCell_above ha hb]
    simp [ha]

/-- Settles O49: what is read back is `readsBack`; what the cells of each mapper are. -/
theorem ppuMemoryReadsBackThroughItsMirrors : Obligations.PpuMemoryReadsBackThroughItsMirrors := by
  unfold Obligations.PpuMemoryReadsBackThroughItsMirrors
  intro a b d v
  refine ⟨fun nrom => ppuRead_ppuWrite (sameCell_nrom nrom a b) d, fun ext => ppuRead_ppuWrite ?_ d, fun low => ⟨?_, fun rom => ?_⟩, ?_⟩
  · rw [SameCell, Cart.chrCell, Cart.chrCell, ext]
  · rw [ppuRead_chr low, Cart.readChr]
    cases kind : v.cart.kind with
    | nrom => rw [chrCell_nrom kind low]
    | external => rw [Cart.chrCell, kind]
  · simp [ppuWrite_chr low, Cart.writeChr, rom]
  · unfold Video.ppuWrite
    split_ifs
    · rw [Cart.writeChr_only]
    · rfl
    · rfl

/-! ### The target of an address, and an access of it (20_memory.md R110-R116) -/

section Decoder
variable {a : Word}

theorem target_apu (h : a.toNat < 0x4014 ∧ 0x4000 ≤ a.toNat ∨ a.toNat = 0x4015) : target a = .apu := by
  unfold target
  dsimp only
  rw [if_neg (by omega), if_neg (by omega)]
  rcases h with ⟨low, _⟩ | same
  · rw [if_pos low]
  · rw [if_neg (by omega), if_neg (by omega), if_pos same]

theorem target_oamDmaRegister (h : a.toNat = 0x4014) : target a = .oamDma := by
  simp [target, h]

theorem target_pad0 (h : a.toNat = 0x4016) : target a = .pad0 := by
  simp [target, h]

theorem target_pad1 (h : a.toNat = 0x4017) : target a = .pad1 := by
  simp [target, h]

theorem target_testArea (h : 0x4018 ≤ a.toNat) (h' : a.toNat < 0x4020) : target a = .testArea := by
  unfold target
  dsimp only
  rw [if_neg (by omega), if_neg (by omega), if_neg (by omega), if_neg (by omega), if_neg (by omega), if_neg (by omega),
    if_neg (by omega), if_pos h']

theorem target_mapper (h : 0x4020 ≤ a.toNat) : target a = .mapper := by
  unfold target
  dsimp only
  rw [if_neg (by omega), if_neg (by omega), if_neg (by omega), if_neg (by omega), if_neg (by omega), if_neg (by omega),
    if_neg (by omega), if_neg (by omega)]

end Decoder

/-- Internal RAM repeats every 2 KiB. -/
theorem ramIndex_eq (a : Word) : ramIndex a = a.toNat % 0x800 := by
  rw [ramIndex, BitVec.toNat_and]
  exact Nat.and_two_pow_sub_one_eq_mod a.toNat 11

section Accesses
variable {a : Word} (s : State) (d : Byte)

theorem read_ram (h : a.toNat < 0x2000) : perform (.read a) s = { s with cpuBus := ramAt s a } := by
  simp [perform, readEffect, readValue, target_of_lt h, ramAt]

theorem write_ram (h : a.toNat < 0x2000) :
    perform (.write a d) s = { s with ram := Memory.write s.ram (ramIndex a) d, cpuBus := d } := by
  simp [perform, writeEffect, target_of_lt h]

theorem ramAt_write (h : a.toNat < 0x2000) (b : Word) :
    ramAt (perform (.write a d) s) b = if b.toNat % 0x800 = a.toNat % 0x800 then d else ramAt s b := by
  rw [write_ram s d h, ← ramIndex_eq, ← ramIndex_eq]
  exact Memory.read_write _ _ _ _

theorem read_apu (h : target a = .apu) :
    perform (.read a) s = { s with apu := s.apu.afterRead a, cpuBus := s.apu.answer Config.apuAnswer a } := by
  simp [perform, readEffect, readValue, h]

theorem write_apu (h : target a = .apu ∨ target a = .pad1) :
    perform (.write a d) s = { s with apu := s.apu.afterWrite a d, cpuBus := d } := by
  rcases h with h | h <;> simp [perform, writeEffect, h]

theorem read_oamDma (h : target a = .oamDma) : perform (.read a) s = { s with cpuBus := s.ppu.bus.latch } := by
  simp [perform, readEffect, readValue, h]

theorem write_oamDma (h : target a = .oamDma) :
    perform (.write a d) s
      = { s with dma := { s.dma with active := true, page := d, index := 0, step := .halt }, cpuBus := d } := by
  simp [perform, writeEffect, h, Dma.start]

theorem read_pad (h : target a = .pad0 ∨ target a = .pad1) :
    perform (.read a) s = { s with pads := s.pads.afterRead a, cpuBus := padValue s a } := by
  rcases h with h | h <;> simp [perform, readEffect, readValue, h]

theorem write_pad0 (h : target a = .pad0) :
    perform (.write a d) s = { s with pads := s.pads.afterWrite a d, cpuBus := d } := by
  simp [perform, writeEffect, h]

theorem read_testArea (h : target a = .testArea) : perform (.read a) s = s := by
  simp [perform, readEffect, readValue, h]

theorem write_testArea (h : target a = .testArea) : perform (.write a d) s = { s with cpuBus := d } := by
  simp [perform, writeEffect, h]

theorem read_mapper (h : target a = .mapper) :
    perform (.read a) s = { s with cart := s.cart.note (.readPrg a), cpuBus := (s.cart.readPrg a).getD s.cpuBus } := by
  simp [perform, readEffect, readValue, h]

theorem write_mapper (h : target a = .mapper) :
    perform (.write a d) s = { s with cart := s.cart.note (.writePrg a d), cpuBus := d } := by
  simp [perform, writeEffect, h, Cart.writePrg]

end Accesses

/-- A controller answers bits 4-0. -/
theorem padValue_low (s : State) (a : Word) {b : Nat} (h : b < 5) :
    (padValue s a).getLsbD b = (s.pads.answer Config.padAnswer a).getLsbD b := by
  have mask : (0x1F#8).getLsbD b = true ∧ (0xE0#8).getLsbD b = false := by
    revert b
    decide
  simp [padValue, mask]

/-- Bits 7-5 are open bus. -/
theorem padValue_high (s : State) (a : Word) {b : Nat} (h : 5 ≤ b) : (padValue s a).getLsbD b = s.cpuBus.getLsbD b := by
  rcases Nat.lt_or_ge b 8 with lt | ge
  · have mask : (0x1F#8).getLsbD b = false ∧ (0xE0#8).getLsbD b = true := by
      revert h lt
      revert b
      decide
    simp [padValue, mask]
  · rw [BitVec.getLsbD_of_ge _ _ ge, BitVec.getLsbD_of_ge _ _ ge]

section Mapper
variable {c : Cart}

theorem note_nrom (h : c.kind = .nrom) (call : MapperCall) : c.note call = c := by
  simp [Cart.note, h]

theorem note_external (h : c.kind = .external) (call : MapperCall) : c.note call = { c with log := call :: c.log } := by
  simp [Cart.note, h]

theorem readPrg_nrom (h : c.kind = .nrom) (a : Word) :
    c.readPrg a = if 0x8000 ≤ a.toNat then some (Memory.read c.prg (prgIndex c.prgSize a)) else none := by
  simp [Cart.readPrg, h]

theorem readPrg_external (h : c.kind = .external) (a : Word) : c.readPrg a = Config.mapperPrg c.log a := by
  simp [Cart.readPrg, h]

end Mapper

/-- Mapper 0 answers PRG-ROM from $8000 on and nothing below (20_memory.md R121). -/
theorem read_nrom {a : Word} {s : State} (h : target a = .mapper) (nrom : s.cart.kind = .nrom) :
    perform (.read a) s
      = if 0x8000 ≤ a.toNat then { s with cpuBus := Memory.read s.cart.prg (prgIndex s.cart.prgSize a) } else s := by
  rw [read_mapper s h, note_nrom nrom, readPrg_nrom nrom]
  split_ifs <;> rfl

/-- Settles O43: the target of each range, and what an access of it does. -/
theorem theBusDecoder : Obligations.TheBusDecoder := by
  unfold Obligations.TheBusDecoder
  intro a s d
  refine ⟨fun ram => ⟨read_ram s ram, fun b _ => ramAt_write s d ram b, by rw [write_ram s d ram]⟩,
    fun apu => ⟨read_apu s (target_apu apu), write_apu s d (.inl (target_apu apu))⟩,
    fun dma => ⟨read_oamDma s (target_oamDmaRegister dma), write_oamDma s d (target_oamDmaRegister dma)⟩,
    fun pad => ?_, fun pad => write_pad0 s d (target_pad0 pad), fun pad => write_apu s d (.inr (target_pad1 pad)),
    fun test => ⟨read_testArea s (target_testArea test.1 test.2), write_testArea s d (target_testArea test.1 test.2)⟩,
    fun mapper nrom => ⟨?_, ?_⟩, fun mapper ext => ?_⟩
  · rw [read_pad s (pad.imp target_pad0 target_pad1)]
    exact ⟨rfl, fun b low => padValue_low s a low, fun b high => padValue_high s a high, rfl⟩
  · rw [read_nrom (target_mapper mapper) nrom]
    cases size : s.cart.prgSize <;> rfl
  · rw [write_mapper s d (target_mapper mapper), note_nrom nrom]
  · rw [read_mapper s (target_mapper mapper), write_mapper s d (target_mapper mapper), note_external ext, note_external ext,
      readPrg_external ext]
    exact ⟨rfl, rfl, rfl⟩

/-! ### Open bus (47_ppu_registers.md R411, R412) -/

/-- Ports 0, 1, 3, 5 and 6 answer the latch, and a read of them has no effect. -/
theorem read_writeOnlyPort {k : Nat} {a : Word} (port : isPort k a) (k_mem : k ∈ [0, 1, 3, 5, 6]) (s : State) :
    perform (.read a) s = { s with cpuBus := s.ppu.bus.latch } := by
  rw [perform_read_port port]
  simp only [List.mem_cons, List.not_mem_nil, or_false] at k_mem
  rcases k_mem with rfl | rfl | rfl | rfl | rfl <;> rfl

/-- The counter of bit `i + k` stands at place `k` of the list whose head is bit `i`'s. -/
theorem resetDecay_getElem? (mask : Byte) (l : List Nat) (i k : Nat) :
    (resetDecay mask i l)[k]? = if mask.getLsbD (i + k) then l[k]?.map (fun _ => 0) else l[k]? := by
  induction l generalizing i k with
  | nil => simp [resetDecay]
  | cons n rest ih =>
    cases k with
    | zero => by_cases bit : mask.getLsbD i = true <;> simp [resetDecay, bit]
    | succ k =>
      have place : i + 1 + k = i + (k + 1) := by omega
      simp [resetDecay, ih, place]

theorem refresh_latch (b : OpenBus) (mask value : Byte) {i : Nat} (h : i < 8) :
    (b.refresh mask value).latch.getLsbD i = if mask.getLsbD i then value.getLsbD i else b.latch.getLsbD i := by
  simp only [OpenBus.refresh, BitVec.getLsbD_or, BitVec.getLsbD_and, BitVec.getLsbD_not, h]
  cases mask.getLsbD i <;> simp

theorem refresh_decay {b : OpenBus} (bits : b.decay.length = 8) (mask value : Byte) {i : Nat} (h : i < 8) :
    (b.refresh mask value).decay[i]? = if mask.getLsbD i then some 0 else b.decay[i]? := by
  have counter : b.decay[i]? = some b.decay[i] := List.getElem?_eq_getElem _
  simp [OpenBus.refresh, resetDecay_getElem?, counter]

/-- One bit of the latch is cleared and the others are kept. -/
theorem getLsbD_clearBit (latch : Byte) (i j : Nat) :
    (latch &&& ~~~(1#8 <<< i)).getLsbD j = (latch.getLsbD j && !decide (j = i)) := by
  rcases Nat.lt_or_ge j 8 with lt | ge
  · have bit : (1#8 <<< i).getLsbD j = decide (j = i) := by
      rw [BitVec.getLsbD_shiftLeft, BitVec.getLsbD_one, Bool.eq_iff_iff]
      simp [lt]
      omega
    rw [BitVec.getLsbD_and, BitVec.getLsbD_not, bit, decide_eq_true lt, Bool.true_and]
  · rw [BitVec.getLsbD_of_ge _ _ ge, BitVec.getLsbD_of_ge _ _ ge, Bool.false_and]

/-- The bits below the list's head are kept. -/
theorem decayed_below (limit : Nat) (l : List Nat) {i j : Nat} (below : j < i) (latch : Byte) :
    (decayed limit i l latch).getLsbD j = latch.getLsbD j := by
  induction l generalizing i latch with
  | nil => rfl
  | cons n rest ih =>
    rw [decayed, ih (by omega)]
    split_ifs
    · rw [getLsbD_clearBit]
      simp [below.ne]
    · rfl

/-- A bit survives while its counter is below the limit. -/
theorem decayed_at (limit : Nat) (l : List Nat) {i k count : Nat} (at_k : l[k]? = some count)
    (latch : Byte) :
    (decayed limit i l latch).getLsbD (i + k) = true ↔ latch.getLsbD (i + k) = true ∧ count < limit := by
  induction l generalizing i k latch with
  | nil => simp at at_k
  | cons n rest ih =>
    cases k with
    | zero =>
      obtain rfl : n = count := by simpa using at_k
      rw [decayed, show i + 0 = i from rfl, decayed_below limit rest (Nat.lt_add_one i)]
      split_ifs with old
      · simp [getLsbD_clearBit, Nat.not_lt.2 old, -BitVec.getLsbD_and]
      · simp [Nat.not_le.1 old]
    | succ k =>
      have place : i + (k + 1) = i + 1 + k := by omega
      rw [decayed, place, ih (by simpa using at_k)]
      split_ifs
      · rw [getLsbD_clearBit]
        simp [show i + 1 + k ≠ i by omega]
      · rfl

/-- Settles O50: the write-only ports, the refresh bit by bit, and the decay bit by bit. -/
theorem openBusRefreshAndDecay : Obligations.OpenBusRefreshAndDecay := by
  unfold Obligations.OpenBusRefreshAndDecay
  refine ⟨fun k a s port k_mem => read_writeOnlyPort port k_mem s, fun b mask value bits => ⟨?_, fun i hi => ?_⟩, ?_⟩
  · rw [OpenBus.refresh, resetDecay_length, bits]
  · exact ⟨refresh_latch b mask value hi, refresh_decay bits mask value hi⟩
  · rintro n s bits t rfl
    refine ⟨rfl, fun i hi count held => ?_, rfl⟩
    have counters : (s.ppu.bus.decay.map (· + n))[i]? = some (count + n) := by simp [Option.mem_def.1 held]
    have survives := decayed_at s.cfg.decayDots _ (i := 0) counters s.ppu.bus.latch
    rw [Nat.zero_add] at survives
    exact survives

end Sys2Proof.Proofs.BusAndMemory
end

section
/-! The dots of rendering (48_ppu_pipeline.md R446-R449, R462-R471, R480-R482): the background fetch and its shifters, sprite
evaluation and sprite fetch, and what each dot drives A12 to; O55, O56 and O57. -/

namespace Sys2Proof.Proofs.RenderingPipeline

open Sys2Proof Sys2Proof.Machine Sys2Proof.Proofs.PpuPipeline

/-! ### A dot of rendering around its fetches (48_ppu_pipeline.md R440) -/

/-- The PPU side as the fetches of a dot of rendering find it: after the flag events and the pixel. -/
def dotStart (s : State) : Video := { ppu := (s.ppu.flagEvents s.cfg).pixelStep s.ppu.pos.dot, cart := s.cart }

/-- After its fetches a dot changes the position and S0H alone. -/
theorem dot_fetched {s : State} (h : renderingNow s) {w : Video} (fetched : w = (dotStart s).fetchStep s.cycle s.ppu.pos.dot) :
    (ppuDot s).ppu = { w.ppu with
        pos := (ppuDot s).ppu.pos, regs := { w.ppu.regs with s0h := (ppuDot s).ppu.regs.s0h } }
      ∧ (ppuDot s).cart = w.cart := by
  have on := (renderingEnabled_iff s).2 h.1
  have line := (renderingLine_iff s).2 h.2
  have dot := (Ppu.flagEvents_same s.cfg s.ppu).2.1
  have whole : (ppuDot s).video = (w.mapPpu .delayedHit).mapPpu (.advance s.cfg) := by
    show Video.dot s.cfg s.cycle s.video = _
    unfold Video.dot Video.renderStep
    simp only [fetched, dotStart, Video.mapPpu, State.video, Ppu.flagEvents_line, line, if_true, Ppu.pixelStep_on,
      Ppu.flagEvents_on, on, dot]
  have ppu : (ppuDot s).ppu = w.ppu.delayedHit.advance s.cfg := congrArg Video.ppu whole
  refine ⟨?_, (congrArg Video.cart whole).trans rfl⟩
  rw [ppu, Ppu.delayedHit_only]
  rfl

/-- What the flag events and the pixel of a dot leave as it was. -/
theorem dotStart_only (s : State) :
    (dotStart s).ppu = { s.ppu with
      bg := (dotStart s).ppu.bg, fb := (dotStart s).ppu.fb, spr := (dotStart s).ppu.spr, pos := (dotStart s).ppu.pos
      regs := { s.ppu.regs with
        vbl := (dotStart s).ppu.regs.vbl, s0h := (dotStart s).ppu.regs.s0h, sov := (dotStart s).ppu.regs.sov } }
      ∧ (dotStart s).ppu.pos.line = s.ppu.pos.line := by
  unfold dotStart
  dsimp only
  rw [Ppu.pixelStep_only, Ppu.flagEvents_only]
  exact ⟨rfl, rfl⟩

/-- The shifters after them, in rendering. -/
theorem dotStart_bg {s : State} (on : renderingOn s) : (dotStart s).ppu.bg = s.ppu.bg.shiftAndReload s.ppu.pos.dot := by
  have enabled := (renderingEnabled_iff s).2 on
  have bg : (s.ppu.flagEvents s.cfg).bg = s.ppu.bg := by rw [Ppu.flagEvents_only]
  show ((s.ppu.flagEvents s.cfg).pixelStep s.ppu.pos.dot).bg = _
  unfold Ppu.pixelStep
  dsimp only
  rw [Ppu.flagEvents_on, if_pos enabled, ← bg]
  split_ifs <;> rfl

/-! ### The address bus (48_ppu_pipeline.md R480, R481) -/

/-- Nothing changes of what the cartridge and the A12 tracker are. -/
abbrev SamePins (v w : Video) : Prop := w.ppu.a12 = v.ppu.a12 ∧ w.cart = v.cart

/-- Of the A12 tracker and the cartridge, what changes is what an address with bit 12 `high` on the PPU bus changes. -/
abbrev Drives (c : Nat) (high : Bool) (v w : Video) : Prop := SamePins (v.driveA12 c high) w

theorem driveA12_a12 (c : Nat) (high : Bool) (v : Video) :
    (v.driveA12 c high).ppu.a12
      = { level := high, fallCycle := if v.ppu.a12.level = true ∧ high = false then c else v.ppu.a12.fallCycle } := by
  obtain ⟨⟨level, fall⟩, eq⟩ : ∃ t, v.ppu.a12 = t := ⟨_, rfl⟩
  unfold Video.driveA12
  rw [eq]
  cases level <;> cases high <;> simp [Video.mapPpu, eq]

theorem driveA12_clockIrqs (c : Nat) (high : Bool) (v : Video) :
    (v.driveA12 c high).cart.clockIrqs = v.cart.clockIrqs
      + if v.ppu.a12.level = false ∧ high = true ∧ 3 ≤ (c : Int) - v.ppu.a12.fallCycle then 1 else 0 := by
  have clocked : v.cart.clockIrq.clockIrqs = v.cart.clockIrqs + 1 := rfl
  have late : v.ppu.a12.fallCycle + 3 ≤ c ↔ 3 ≤ (c : Int) - v.ppu.a12.fallCycle := by omega
  unfold Video.driveA12
  cases v.ppu.a12.level <;> cases high <;> simp only [← late]
  · simp
  · by_cases waited : v.ppu.a12.fallCycle + 3 ≤ c <;> simp [waited, clocked]
  · simp [Video.mapPpu]
  · simp

/-- An address on the bus acts on the tracker and the cartridge, whatever else the PPU holds. -/
theorem driveA12_congr {v w : Video} (same : SamePins v w) (c : Nat) (high : Bool) :
    SamePins (v.driveA12 c high) (w.driveA12 c high) := by
  obtain ⟨a12, cart⟩ := same
  refine ⟨by rw [driveA12_a12, driveA12_a12, a12], ?_⟩
  unfold Video.driveA12
  rw [a12, cart]
  split_ifs
  · exact cart
  · rfl
  · rfl
  · exact cart

section Pins
variable {c : Nat} {high : Bool} {u v w : Video}

theorem Drives.congr (drives : Drives c high v w) (before : SamePins u v) : Drives c high u w :=
  ⟨drives.1.trans (driveA12_congr before c high).1, drives.2.trans (driveA12_congr before c high).2⟩

theorem Drives.keep (drives : Drives c high u v) (after : SamePins v w) : Drives c high u w :=
  ⟨after.1.trans drives.1, after.2.trans drives.2⟩

end Pins

theorem fetch_drives (c : Nat) (a : PpuAddr) {store : Byte → Ppu → Ppu} (kept : ∀ d p, (store d p).a12 = p.a12) (v : Video) :
    Drives c (a.getLsbD 12) v (v.fetch c a store) := ⟨kept _ _, rfl⟩

/-- The pins around the fetches of a dot of rendering. -/
theorem samePins_dotStart (s : State) : SamePins s.video (dotStart s) :=
  ⟨(congrArg Ppu.a12 (dotStart_only s).1).trans rfl, rfl⟩

theorem samePins_dot {s : State} (h : renderingNow s) :
    SamePins ((dotStart s).fetchStep s.cycle s.ppu.pos.dot) (ppuDot s).video := by
  obtain ⟨ppu, cart⟩ := dot_fetched h rfl
  exact ⟨(congrArg Ppu.a12 ppu).trans rfl, cart⟩

/-- The fetches of a dot tell what the dot drives. -/
theorem drivenTo_of_fetches {s : State} (h : renderingNow s) {high : Bool}
    (drives : Drives s.cycle high (dotStart s) ((dotStart s).fetchStep s.cycle s.ppu.pos.dot)) :
    drivenTo high s (ppuDot s) := by
  obtain ⟨a12, cart⟩ := (drives.congr (samePins_dotStart s)).keep (samePins_dot h)
  refine ⟨a12.trans (driveA12_a12 _ _ _), ?_⟩
  have clocks := congrArg Cart.clockIrqs cart
  rw [driveA12_clockIrqs] at clocks
  exact clocks

theorem drivesNothing_of_fetches {s : State} (h : renderingNow s)
    (pins : SamePins (dotStart s) ((dotStart s).fetchStep s.cycle s.ppu.pos.dot)) : drivesNothing s (ppuDot s) := by
  obtain ⟨before, _⟩ := samePins_dotStart s
  obtain ⟨after, cart⟩ := samePins_dot h
  exact ⟨after.trans (pins.1.trans before), cart.trans pins.2⟩

/-- Out of rendering a dot drives nothing. -/
theorem drivesNothing_outside {s : State} (h : ¬ renderingNow s) : drivesNothing s (ppuDot s) := by
  obtain ⟨machine, ppu⟩ := dot_outside h
  exact ⟨(congrArg Ppu.a12 ppu).trans rfl, (congrArg State.cart machine).trans rfl⟩

/-! ### The addresses of a background fetch (48_ppu_pipeline.md R447) -/

theorem getLsbD_12 (a : PpuAddr) : a.getLsbD 12 = decide (a.toNat / 0x1000 % 2 = 1) := by
  rw [BitVec.getLsbD, Nat.testBit_eq_decide_div_mod_eq]

theorem append_toNat {m n : Nat} (x : BitVec m) (y : BitVec n) : (x ++ y).toNat = x.toNat * 2 ^ n + y.toNat := by
  rw [BitVec.toNat_append, Nat.shiftLeft_eq, Nat.mul_comm, ← Nat.two_pow_add_eq_or_of_lt y.isLt]

/-- Page $2000, then the nametable and the tile of v. -/
theorem ntAddr_eq (v : Scroll) : ntAddr v = 2#2 ++ v.extractLsb' 0 12 := by
  refine BitVec.eq_of_getLsbD_eq fun i hi => ?_
  rw [BitVec.getLsbD_append]
  interval_cases i <;> simp [ntAddr]

theorem ntAddr_toNat (v : Scroll) : (ntAddr v).toNat = 0x2000 + v.toNat % 0x1000 := by
  rw [ntAddr_eq, append_toNat, toNat_field]
  simp

/-- Page $2000, the nametable of v, its last 64 bytes, and the eighths of v's row and column. -/
theorem atAddr_eq (v : Scroll) : atAddr v = (2#2 ++ v.extractLsb' 10 2) ++ ((15#4 ++ v.extractLsb' 7 3) ++ v.extractLsb' 2 3) := by
  refine BitVec.eq_of_getLsbD_eq fun i hi => ?_
  rw [BitVec.getLsbD_append, BitVec.getLsbD_append, BitVec.getLsbD_append, BitVec.getLsbD_append]
  interval_cases i <;> simp [atAddr]

theorem atAddr_toNat (v : Scroll) :
    (atAddr v).toNat = 0x23C0 + 0x400 * (v.toNat / 0x400 % 4) + 8 * (v.toNat / 0x80 % 8) + v.toNat / 4 % 8 := by
  rw [atAddr_eq]
  simp only [append_toNat, toNat_field]
  simp
  omega

/-- The palette bits of tiles lie in page $2000. -/
theorem atAddr_page (v : Scroll) : (atAddr v).toNat / 0x1000 = 2 := by
  have table := Nat.mod_lt (v.toNat / 0x400) (by decide : 4 > 0)
  have row := Nat.mod_lt (v.toNat / 0x80) (by decide : 8 > 0)
  have column := Nat.mod_lt (v.toNat / 4) (by decide : 8 > 0)
  rw [atAddr_toNat]
  generalize v.toNat / 0x400 % 4 = n at *
  generalize v.toNat / 0x80 % 8 = y at *
  generalize v.toNat / 4 % 8 = x at *
  omega

/-- A tile's two palette bits start at 4 times bit 6 of v plus 2 times bit 1. -/
theorem atShift_eq (v : Scroll) : atShift v = 4 * (v.toNat / 0x40 % 2) + 2 * (v.toNat / 2 % 2) := by
  have fields : ((v >>> 4) &&& 4#15) ||| (v &&& 2#15) = 0#12 ++ (v.extractLsb' 6 1 ++ (v.extractLsb' 1 1 ++ 0#1)) := by
    refine BitVec.eq_of_getLsbD_eq fun i hi => ?_
    rw [BitVec.getLsbD_append, BitVec.getLsbD_append, BitVec.getLsbD_append]
    interval_cases i <;> simp
  rw [atShift, fields]
  simp only [append_toNat, toNat_field]
  simp
  omega

theorem tableBase_toNat (high : Bool) : (tableBase high).toNat = 0x1000 * high.toNat := by
  cases high <;> rfl

theorem bgPatternAddr_toNat (p : Ppu) :
    (bgPatternAddr p).toNat = 0x1000 * bitOf p.regs.ctrl 4 + 16 * p.bg.ntLatch.toNat + p.regs.v.toNat / 0x1000 := by
  have tile := p.bg.ntLatch.isLt
  have scroll := p.regs.v.isLt
  have table : bitOf p.regs.ctrl 4 < 2 := Bool.toNat_lt _
  have base : (tableBase p.regs.bgTbl).toNat = 0x1000 * bitOf p.regs.ctrl 4 := tableBase_toNat _
  have fine : (fineY p.regs.v).toNat = p.regs.v.toNat / 0x1000 := by
    rw [fineY, toNat_field]
    omega
  rw [bgPatternAddr]
  simp only [BitVec.toNat_add, BitVec.toNat_shiftLeft, BitVec.toNat_setWidth, base, fine, Nat.shiftLeft_eq]
  omega

/-! ### The background fetch (48_ppu_pipeline.md R446-R449) -/

/-- The address that phase `ph` of a background fetch group puts on the bus. -/
def bgAddr (p : Ppu) (ph : Nat) : PpuAddr :=
  if ph < 2 then ntAddr p.regs.v
  else if ph < 4 then atAddr p.regs.v
  else if ph < 6 then bgPatternAddr p
  else bgPatternAddr p + 8#14

theorem bgPatternHigh_toNat (p : Ppu) : (bgPatternAddr p + 8#14).toNat = (bgPatternAddr p).toNat + 8 := by
  have tile := p.bg.ntLatch.isLt
  have scroll := p.regs.v.isLt
  have table : bitOf p.regs.ctrl 4 < 2 := Bool.toNat_lt _
  rw [BitVec.toNat_add, bgPatternAddr_toNat, BitVec.toNat_ofNat]
  omega

/-- Nametables lie below a bit 12. -/
theorem bgAddr_low {ph : Nat} (h : ph < 4) (p : Ppu) : (bgAddr p ph).getLsbD 12 = false := by
  rw [getLsbD_12, decide_eq_false_iff_not]
  unfold bgAddr
  split_ifs
  · rw [ntAddr_toNat]
    omega
  · rw [atAddr_page]
    decide

/-- Pattern bytes lie in the background table. -/
theorem bgAddr_high {ph : Nat} (h : 4 ≤ ph) (p : Ppu) : (bgAddr p ph).getLsbD 12 = p.regs.ctrl.getLsbD 4 := by
  have tile := p.bg.ntLatch.isLt
  have scroll := p.regs.v.isLt
  have table : bitOf p.regs.ctrl 4 = 1 ↔ p.regs.ctrl.getLsbD 4 = true := Bool.toNat_eq_one
  have one : bitOf p.regs.ctrl 4 < 2 := Bool.toNat_lt _
  rw [getLsbD_12, Bool.eq_iff_iff, decide_eq_true_eq, ← table]
  unfold bgAddr
  rw [if_neg (by omega), if_neg (by omega)]
  split_ifs
  · rw [bgPatternAddr_toNat]
    omega
  · rw [bgPatternHigh_toNat, bgPatternAddr_toNat]
    omega

theorem bgPhase_drives (c : Nat) {ph : Nat} (h : ph < 8) (v : Video) :
    Drives c ((bgAddr v.ppu ph).getLsbD 12) v (v.bgPhase c ph) :=
  match ph, h with
  | 0, _ | 1, _ | 2, _ | 3, _ | 4, _ | 5, _ | 6, _ | 7, _ => ⟨rfl, rfl⟩

/-- An address on the bus leaves the pipeline alone. -/
theorem drive_bg (c : Nat) (a : PpuAddr) (v : Video) : (v.drive c a).ppu.bg = v.ppu.bg :=
  (congrArg Ppu.bg (Video.driveA12_only c (a.getLsbD 12) v)).trans rfl

/-- The pipeline with the latch that phase `ph` fills taking byte `d`, at a scroll of `v`. -/
def latched (ph : Nat) (v : Scroll) (d : Byte) (b : BgPipe) : BgPipe :=
  { b with
    ntLatch := if ph = 1 then d else b.ntLatch
    atLatch := if ph = 3 then (d >>> atShift v).setWidth 2 else b.atLatch
    ptLo := if ph = 5 then d else b.ptLo
    ptHi := if ph = 7 then d else b.ptHi }

/-- An odd phase latches the byte it reads, an even one nothing. -/
theorem bgPhase_bg (c : Nat) {ph : Nat} (h : ph < 8) (v : Video) :
    ∃ d : Byte, (v.bgPhase c ph).ppu.bg = latched ph v.ppu.regs.v d v.ppu.bg
      ∧ (v.cart.kind = .nrom → d = v.ppuRead (bgAddr v.ppu ph)) := by
  refine ⟨(v.drive c (bgAddr v.ppu ph)).ppuRead (bgAddr v.ppu ph), ?_, fun nrom => Video.ppuRead_drive _ _ _ v nrom⟩
  rw [← drive_bg c (bgAddr v.ppu ph) v]
  match ph, h with
  | 0, _ | 1, _ | 2, _ | 3, _ | 4, _ | 5, _ | 6, _ | 7, _ => rfl

/-- The dots of the background fetch groups. -/
abbrev InGroup (dot : Nat) : Prop := 1 ≤ dot ∧ dot ≤ 256 ∨ 321 ≤ dot ∧ dot ≤ 336

section Background
variable (c : Nat) {dot : Nat} (v : Video)

theorem backgroundStep_group (h : InGroup dot) :
    v.backgroundStep c dot = (v.bgPhase c ((dot - 1) % 8)).mapPpu (.scrollDot dot) := by
  unfold Video.backgroundStep
  rw [if_pos (by simpa using h)]

theorem backgroundStep_dummy (h : 337 ≤ dot) : v.backgroundStep c dot = (v.dummyNt c dot).mapPpu (.scrollDot dot) := by
  have other : ¬ InGroup dot := by omega
  unfold Video.backgroundStep
  rw [if_neg (by simpa using other), if_pos h]

theorem backgroundStep_other (h : ¬ InGroup dot) (h' : dot < 337) :
    v.backgroundStep c dot = v.mapPpu (.scrollDot dot) := by
  unfold Video.backgroundStep
  rw [if_neg (by simpa using h), if_neg (by omega)]

theorem scrollDot_only (dot : Nat) (p : Ppu) :
    p.scrollDot dot = { p with regs := { p.regs with v := (p.scrollDot dot).regs.v } } := by
  unfold Ppu.scrollDot Ppu.mapRegs PpuRegs.scrollDot
  dsimp only
  split_ifs <;> rfl

theorem samePins_scrollDot (dot : Nat) : SamePins v (v.mapPpu (.scrollDot dot)) :=
  ⟨(congrArg Ppu.a12 (scrollDot_only dot v.ppu)).trans rfl, rfl⟩

theorem scrollDot_bg (dot : Nat) (p : Ppu) : (p.scrollDot dot).bg = p.bg :=
  (congrArg Ppu.bg (scrollDot_only dot p)).trans rfl

/-- Dots 337-340 read the nametable. -/
theorem dummyNt_drives (dot : Nat) : Drives c false v (v.dummyNt c dot) := by
  have low : (ntAddr v.ppu.regs.v).getLsbD 12 = false := bgAddr_low (ph := 0) (by decide) v.ppu
  unfold Video.dummyNt
  rw [← low]
  split_ifs
  · exact ⟨rfl, rfl⟩
  · exact fetch_drives c _ (fun _ _ => rfl) v

theorem dummyNt_bg (dot : Nat) : (v.dummyNt c dot).ppu.bg = v.ppu.bg := by
  unfold Video.dummyNt
  split_ifs
  · exact drive_bg c _ v
  · exact drive_bg c _ v

/-- The background fetch of a dot fills the latch of its phase in a group, and none elsewhere. -/
theorem backgroundStep_bg (dot : Nat) :
    ∃ d : Byte, (v.backgroundStep c dot).ppu.bg
        = (if InGroup dot then latched ((dot - 1) % 8) v.ppu.regs.v d v.ppu.bg else v.ppu.bg)
      ∧ (v.cart.kind = .nrom → d = v.ppuRead (bgAddr v.ppu ((dot - 1) % 8))) := by
  obtain ⟨d, phase, byte⟩ := bgPhase_bg c (Nat.mod_lt (dot - 1) (by decide : 8 > 0)) v
  refine ⟨d, ?_, byte⟩
  split_ifs with group
  · rw [backgroundStep_group c v group, Video.mapPpu_ppu, scrollDot_bg, phase]
  · rcases Nat.lt_or_ge dot 337 with early | late
    · rw [backgroundStep_other c v group early, Video.mapPpu_ppu, scrollDot_bg]
    · rw [backgroundStep_dummy c v late, Video.mapPpu_ppu, scrollDot_bg, dummyNt_bg]

/-! ### The fetches of a dot, one after another -/

/-- The PPU side after the background fetch and the sprite evaluation of a dot. -/
def beforeSprites (dot : Nat) : Video :=
  if 0 ≤ (v.backgroundStep c dot).ppu.pos.line then (v.backgroundStep c dot).mapPpu (.spriteEvalStep dot)
  else v.backgroundStep c dot

theorem fetchStep_eq (dot : Nat) : v.fetchStep c dot = (beforeSprites c v dot).spriteFetchStep c dot := rfl

theorem beforeSprites_only (dot : Nat) :
    beforeSprites c v dot = { v.backgroundStep c dot with ppu := { (v.backgroundStep c dot).ppu with
      ev := (beforeSprites c v dot).ppu.ev, secOam := (beforeSprites c v dot).ppu.secOam
      regs := { (v.backgroundStep c dot).ppu.regs with sov := (beforeSprites c v dot).ppu.regs.sov } } } := by
  unfold beforeSprites
  split_ifs
  · rw [Video.mapPpu, Ppu.spriteEvalStep_only]
  · rfl

theorem samePins_beforeSprites (dot : Nat) : SamePins (v.backgroundStep c dot) (beforeSprites c v dot) := by
  rw [beforeSprites_only]
  exact ⟨rfl, rfl⟩

/-- The dots of the sprite fetch. -/
abbrev FetchesSprites (dot : Nat) : Prop := 257 ≤ dot ∧ dot ≤ 320

theorem spriteFetchStep_idle (h : ¬ FetchesSprites dot) : v.spriteFetchStep c dot = v := by
  unfold Video.spriteFetchStep
  rw [if_neg (by simpa using h)]

theorem samePins_fetchStep (h : ¬ FetchesSprites dot) : SamePins (v.backgroundStep c dot) (v.fetchStep c dot) := by
  rw [fetchStep_eq, spriteFetchStep_idle c _ h]
  exact samePins_beforeSprites c v dot

theorem fetchStep_bg (dot : Nat) : (v.fetchStep c dot).ppu.bg = (v.backgroundStep c dot).ppu.bg := by
  rw [fetchStep_eq, Video.spriteFetchStep_only, beforeSprites_only]

end Background

/-! ### The shifters (48_ppu_pipeline.md R449) -/

theorem shiftDot_iff (dot : Nat) : shiftDot dot = true ↔ 2 ≤ dot ∧ dot ≤ 257 ∨ 322 ≤ dot ∧ dot ≤ 337 := by
  simp [shiftDot]

theorem reloadDot_iff (dot : Nat) :
    reloadDot dot = true ↔ dot % 8 = 1 ∧ 9 ≤ dot ∧ dot ≤ 257 ∨ dot = 329 ∨ dot = 337 := by
  simp only [reloadDot, Bool.or_eq_true, Bool.and_eq_true, decide_eq_true_eq]
  omega

/-- A reload shifts first. -/
theorem shifts_of_reloads {dot : Nat} (h : reloadDot dot = true) : shiftDot dot = true := by
  rw [reloadDot_iff] at h
  rw [shiftDot_iff]
  omega

theorem reloadLow_eq (w : Word) (d : Byte) : reloadLow w d = wordOf (hiByte w) d := by
  refine BitVec.eq_of_getLsbD_eq fun i hi => ?_
  rw [wordOf, BitVec.getLsbD_append]
  interval_cases i <;> simp [reloadLow, hiByte]

section Shifters
variable {dot : Nat} (b : BgPipe)

theorem shiftAndReload_still (h : ¬ shiftDot dot = true) : b.shiftAndReload dot = b := by
  simp [BgPipe.shiftAndReload, h, mt shifts_of_reloads h]

theorem shiftAndReload_shift (h : shiftDot dot = true) (h' : ¬ reloadDot dot = true) : b.shiftAndReload dot = b.shift := by
  simp [BgPipe.shiftAndReload, h, h']

theorem shiftAndReload_reload (h : reloadDot dot = true) : b.shiftAndReload dot = b.shift.reload := by
  simp [BgPipe.shiftAndReload, h, shifts_of_reloads h]

/-- The latches stand. -/
theorem shiftAndReload_latches (dot : Nat) :
    b.shiftAndReload dot = { b.shiftAndReload dot with
      ntLatch := b.ntLatch, atLatch := b.atLatch, ptLo := b.ptLo, ptHi := b.ptHi } := by
  unfold BgPipe.shiftAndReload
  dsimp only
  split_ifs <;> rfl

end Shifters

/-! ### The pipeline after a dot of rendering -/

section Pipeline
variable {s : State} (h : renderingNow s)

include h

/-- The addresses of the background fetch and what stands there are those of the dot's start. -/
theorem bgAddr_dotStart (ph : Nat) : bgAddr (dotStart s).ppu ph = bgAddr s.ppu ph := by
  have tile : (dotStart s).ppu.bg.ntLatch = s.ppu.bg.ntLatch := by
    rw [dotStart_bg h.1, shiftAndReload_latches]
  have scroll : (dotStart s).ppu.regs.v = s.ppu.regs.v := by rw [(dotStart_only s).1]
  have table : (dotStart s).ppu.regs.bgTbl = s.ppu.regs.bgTbl := by rw [(dotStart_only s).1]; rfl
  unfold bgAddr bgPatternAddr
  rw [tile, scroll, table]

omit h in
theorem ppuRead_dotStart (a : PpuAddr) : (dotStart s).ppuRead a = s.video.ppuRead a := by
  have palette : (dotStart s).ppu.palette = s.ppu.palette := by rw [(dotStart_only s).1]
  unfold Video.ppuRead Ppu.paletteEntry
  rw [palette]
  rfl

/-- The pipeline after a dot: shifted, and then a latch filled. -/
theorem dot_bg :
    ∃ d : Byte, (ppuDot s).ppu.bg
        = (if InGroup s.ppu.pos.dot then
            latched ((s.ppu.pos.dot - 1) % 8) s.ppu.regs.v d (s.ppu.bg.shiftAndReload s.ppu.pos.dot)
          else s.ppu.bg.shiftAndReload s.ppu.pos.dot)
      ∧ (s.cart.kind = .nrom → d = s.video.ppuRead (bgAddr s.ppu ((s.ppu.pos.dot - 1) % 8))) := by
  obtain ⟨d, bg, byte⟩ := backgroundStep_bg s.cycle (dotStart s) s.ppu.pos.dot
  have scroll : (dotStart s).ppu.regs.v = s.ppu.regs.v := by rw [(dotStart_only s).1]
  rw [scroll, dotStart_bg h.1] at bg
  rw [bgAddr_dotStart h, ppuRead_dotStart] at byte
  refine ⟨d, ?_, byte⟩
  rw [(dot_fetched h rfl).1, ← bg]
  exact fetchStep_bg s.cycle (dotStart s) s.ppu.pos.dot

/-- The shifters after a dot. -/
theorem dot_shifters :
    (ppuDot s).ppu.bg.bgLo = (s.ppu.bg.shiftAndReload s.ppu.pos.dot).bgLo
      ∧ (ppuDot s).ppu.bg.bgHi = (s.ppu.bg.shiftAndReload s.ppu.pos.dot).bgHi
      ∧ (ppuDot s).ppu.bg.atLo = (s.ppu.bg.shiftAndReload s.ppu.pos.dot).atLo
      ∧ (ppuDot s).ppu.bg.atHi = (s.ppu.bg.shiftAndReload s.ppu.pos.dot).atHi := by
  obtain ⟨d, bg, -⟩ := dot_bg h
  rw [bg]
  split_ifs <;> exact ⟨rfl, rfl, rfl, rfl⟩

/-- The latches after a dot. -/
theorem dot_latches {ph : Nat} (phase : ph = (s.ppu.pos.dot - 1) % 8) :
    ∃ d : Byte, (s.cart.kind = .nrom → d = s.video.ppuRead (bgAddr s.ppu ph))
      ∧ (ppuDot s).ppu.bg.ntLatch = (if InGroup s.ppu.pos.dot ∧ ph = 1 then d else s.ppu.bg.ntLatch)
      ∧ (ppuDot s).ppu.bg.atLatch
        = (if InGroup s.ppu.pos.dot ∧ ph = 3 then (d >>> atShift s.ppu.regs.v).setWidth 2 else s.ppu.bg.atLatch)
      ∧ (ppuDot s).ppu.bg.ptLo = (if InGroup s.ppu.pos.dot ∧ ph = 5 then d else s.ppu.bg.ptLo)
      ∧ (ppuDot s).ppu.bg.ptHi = (if InGroup s.ppu.pos.dot ∧ ph = 7 then d else s.ppu.bg.ptHi) := by
  obtain ⟨d, bg, byte⟩ := dot_bg h
  rw [← phase] at bg byte
  rw [shiftAndReload_latches] at bg
  refine ⟨d, byte, ?_⟩
  rw [bg]
  by_cases group : InGroup s.ppu.pos.dot
  · simp only [group, true_and]
    exact ⟨rfl, rfl, rfl, rfl⟩
  · simp only [group, false_and, if_false, and_self]

/-- A dot of a background fetch group drives the address of its phase. -/
theorem dot_drives_group (group : InGroup s.ppu.pos.dot) :
    drivenTo ((bgAddr s.ppu ((s.ppu.pos.dot - 1) % 8)).getLsbD 12) s (ppuDot s) := by
  refine drivenTo_of_fetches h ?_
  rw [← bgAddr_dotStart h]
  have fetch := bgPhase_drives s.cycle (Nat.mod_lt (s.ppu.pos.dot - 1) (by decide : 8 > 0)) (dotStart s)
  refine Drives.keep ?_ (samePins_fetchStep s.cycle (dotStart s) (by omega))
  rw [backgroundStep_group s.cycle _ group]
  exact fetch.keep (samePins_scrollDot _ _)

theorem dot_drives_dummy (late : 337 ≤ s.ppu.pos.dot) : drivenTo false s (ppuDot s) := by
  refine drivenTo_of_fetches h (Drives.keep ?_ (samePins_fetchStep s.cycle (dotStart s) (by omega)))
  rw [backgroundStep_dummy s.cycle _ late]
  exact (dummyNt_drives s.cycle (dotStart s) _).keep (samePins_scrollDot _ _)

theorem dot_drives_none (first : s.ppu.pos.dot = 0) : drivesNothing s (ppuDot s) := by
  have fetches := samePins_fetchStep s.cycle (dotStart s) (dot := s.ppu.pos.dot) (by omega)
  rw [backgroundStep_other s.cycle _ (by omega) (by omega)] at fetches
  have scroll := samePins_scrollDot (dotStart s) s.ppu.pos.dot
  exact drivesNothing_of_fetches h ⟨fetches.1.trans scroll.1, fetches.2.trans scroll.2⟩

end Pipeline

/-- The two palette bits of a tile. -/
theorem paletteBits (d : Byte) (v : Scroll) :
    ((d >>> atShift v).setWidth 2).toNat = d.toNat / 2 ^ (4 * (v.toNat / 0x40 % 2) + 2 * (v.toNat / 2 % 2)) % 4 := by
  rw [BitVec.toNat_setWidth, BitVec.toNat_ushiftRight, Nat.shiftRight_eq_div_pow, atShift_eq]

/-- Settles O55: the drive of each dot, the latches by phase, and the shifters by `shiftAndReload`. -/
theorem backgroundFetchAndShift : Obligations.BackgroundFetchAndShift := by
  unfold Obligations.BackgroundFetchAndShift
  refine ⟨?_, fun s outside => drivesNothing_outside outside, ?_⟩
  · rintro s h last dot p group rfl rfl hgroup
    refine ⟨fun fetch => ?_, fun fetch => ?_, dot_drives_dummy h, dot_drives_none h⟩
    · have driven := dot_drives_group h (hgroup.1 fetch.1)
      rwa [bgAddr_low fetch.2] at driven
    · have driven := dot_drives_group h (hgroup.1 fetch.1)
      rwa [bgAddr_high fetch.2] at driven
  · rintro s h last dot p v group shifts reloads b c rfl hp rfl rfl rfl hgroup hshifts hreloads
    obtain rfl : group = InGroup s.ppu.pos.dot := propext hgroup
    obtain ⟨d, byte, ntLatch, atLatch, ptLo, ptHi⟩ := dot_latches h hp
    obtain ⟨bgLo, bgHi, atLo, atHi⟩ := dot_shifters h
    rw [← shiftDot_iff] at hshifts
    rw [← reloadDot_iff] at hreloads
    rw [ntLatch, atLatch, ptLo, ptHi, bgLo, bgHi, atLo, atHi]
    refine ⟨ntAddr s.ppu.regs.v, atAddr s.ppu.regs.v, bgPatternAddr s.ppu, bgPatternAddr s.ppu + 8#14, ntAddr_toNat _,
      atAddr_toNat _, bgPatternAddr_toNat _, bgPatternHigh_toNat _, fun fetch nrom => ?_, fun other => if_neg other,
      fun fetch nrom => ?_, fun other => if_neg other, fun fetch nrom => ?_, fun other => if_neg other,
      fun fetch nrom => ?_, fun other => if_neg other, fun still => ?_, fun moves stay => ?_, fun reload => ?_⟩
    · rw [if_pos fetch, byte nrom, fetch.2]
      rfl
    · rw [if_pos fetch, paletteBits, byte nrom, fetch.2]
      rfl
    · rw [if_pos fetch, byte nrom, fetch.2]
      rfl
    · rw [if_pos fetch, byte nrom, fetch.2]
      rfl
    · rw [shiftAndReload_still _ (mt hshifts.2 still)]
      exact ⟨rfl, rfl, rfl, rfl⟩
    · rw [shiftAndReload_shift _ (hshifts.1 moves) (mt hreloads.2 stay)]
      exact ⟨rfl, rfl, rfl, rfl⟩
    · rw [shiftAndReload_reload _ (hreloads.1 reload)]
      exact ⟨reloadLow_eq _ _, reloadLow_eq _ _, reloadLow_eq _ _, reloadLow_eq _ _⟩

/-! ### Sprite evaluation (48_ppu_pipeline.md R462-R464) -/

/-- Two PPUs agree in all that the evaluation reads. -/
structure EvalSame (p q : Ppu) : Prop where
  oam : q.oam = p.oam
  ev : q.ev = p.ev
  secOam : q.secOam = p.secOam
  line : q.pos.line = p.pos.line
  ctrl : q.regs.ctrl = p.regs.ctrl

theorem EvalSame.trans {p q r : Ppu} (first : EvalSame p q) (second : EvalSame q r) : EvalSame p r :=
  ⟨second.oam.trans first.oam, second.ev.trans first.ev, second.secOam.trans first.secOam, second.line.trans first.line,
    second.ctrl.trans first.ctrl⟩

section Agreement
variable {p q : Ppu} (same : EvalSame p q)

include same

theorem EvalSame.inRange (y : Byte) : q.inRange y = p.inRange y := by
  unfold Ppu.inRange PpuRegs.spriteHeight PpuRegs.sprH
  rw [same.line, same.ctrl]

theorem EvalSame.setEv {e f : Evaluator} (ev : f = e) : EvalSame { p with ev := e } { q with ev := f } :=
  ⟨same.oam, ev, same.secOam, same.line, same.ctrl⟩

theorem EvalSame.writeSecOam (i : Nat) (d : Byte) : EvalSame (p.writeSecOam i d) (q.writeSecOam i d) := by
  unfold Ppu.writeSecOam
  rw [same.secOam]
  split_ifs
  · exact ⟨same.oam, same.ev, rfl, same.line, same.ctrl⟩
  · exact same

theorem EvalSame.evalRead : EvalSame p.evalRead q.evalRead :=
  same.setEv (by rw [same.ev, same.oam])

theorem EvalSame.evalAct : EvalSame p.evalAct q.evalAct := by
  unfold Ppu.evalAct
  dsimp only
  rw [same.ev, same.inRange]
  split
  · exact (same.writeSecOam _ _).setEv rfl
  · split_ifs
    · exact ⟨same.oam, rfl, same.secOam, same.line, same.ctrl⟩
    · exact same.setEv rfl
  · exact same

theorem EvalSame.spriteEvalStep (dot : Nat) : EvalSame (p.spriteEvalStep dot) (q.spriteEvalStep dot) := by
  have restarted : EvalSame { p with ev := p.ev.restart } { q with ev := q.ev.restart } := same.setEv (by rw [same.ev])
  unfold Ppu.spriteEvalStep
  dsimp only
  split_ifs
  · exact same.writeSecOam _ _
  · exact same
  · exact restarted.evalRead
  · exact same.evalRead
  · exact restarted.evalAct
  · exact same.evalAct
  · exact same

end Agreement

theorem evalSame_dotStart (s : State) : EvalSame s.ppu (dotStart s).ppu := by
  obtain ⟨ppu, line⟩ := dotStart_only s
  refine ⟨?_, ?_, ?_, line, ?_⟩ <;> rw [ppu]

theorem evalSame_backgroundStep (c dot : Nat) (v : Video) : EvalSame v.ppu (v.backgroundStep c dot).ppu := by
  rw [Video.backgroundStep_only]
  exact ⟨rfl, rfl, rfl, rfl, rfl⟩

/-- The evaluator and secondary OAM after a dot of rendering: those of the evaluation, of the PPU as the dot finds it. -/
theorem dot_eval {s : State} (h : renderingNow s) {p : Ppu}
    (eval : p = if 0 ≤ s.ppu.pos.line then s.ppu.spriteEvalStep s.ppu.pos.dot else s.ppu) :
    (ppuDot s).ppu.ev = p.ev ∧ (ppuDot s).ppu.secOam = p.secOam := by
  have before := (evalSame_dotStart s).trans (evalSame_backgroundStep s.cycle s.ppu.pos.dot (dotStart s))
  have after : EvalSame p (beforeSprites s.cycle (dotStart s) s.ppu.pos.dot).ppu := by
    unfold beforeSprites
    rw [eval, before.line]
    split_ifs
    · exact before.spriteEvalStep _
    · exact before
  rw [(dot_fetched h rfl).1, ← after.ev, ← after.secOam, fetchStep_eq, Video.spriteFetchStep_only]
  exact ⟨rfl, rfl⟩

section EvalDots
variable {dot : Nat} (p : Ppu)

theorem spriteEvalStep_idle (h : ¬ (2 ≤ dot ∧ dot ≤ 256)) : p.spriteEvalStep dot = p := by
  unfold Ppu.spriteEvalStep
  rw [if_neg (by simp; omega), if_neg (by simp; omega)]

theorem spriteEvalStep_clear (h : 2 ≤ dot) (h' : dot ≤ 64) :
    p.spriteEvalStep dot = if dot % 2 = 0 then p.writeSecOam (dot / 2 - 1) 0xFF#8 else p := by
  unfold Ppu.spriteEvalStep
  rw [if_pos (by simp [h, h'])]

theorem spriteEvalStep_restart : p.spriteEvalStep 65 = Ppu.evalRead { p with ev := p.ev.restart } := rfl

theorem spriteEvalStep_read (h : 66 ≤ dot) (h' : dot ≤ 256) (odd : dot % 2 = 1) : p.spriteEvalStep dot = p.evalRead := by
  unfold Ppu.spriteEvalStep
  rw [if_neg (by simp; omega), if_pos (by simp; omega), if_pos odd, if_neg (by omega)]

theorem spriteEvalStep_act (h : 66 ≤ dot) (h' : dot ≤ 256) (even : dot % 2 = 0) : p.spriteEvalStep dot = p.evalAct := by
  unfold Ppu.spriteEvalStep
  rw [if_neg (by simp; omega), if_pos (by simp; omega), if_neg (by omega), if_neg (by omega)]

/-- Inside secondary OAM the byte is stored. -/
theorem writeSecOam_read {i : Nat} (h : i < 32) (d : Byte) (j : Nat) :
    Memory.read (p.writeSecOam i d).secOam j = if j = i then d else Memory.read p.secOam j := by
  rw [Ppu.writeSecOam, if_pos h]
  exact Memory.read_write _ _ _ _

theorem writeSecOam_ev (i : Nat) (d : Byte) : (p.writeSecOam i d).ev = p.ev := by
  unfold Ppu.writeSecOam
  split_ifs <;> rfl

/-- A clearing dot writes one byte of secondary OAM, or none. -/
theorem spriteEvalStep_clear_read (h : 2 ≤ dot) (h' : dot ≤ 64) (i : Nat) :
    Memory.read (p.spriteEvalStep dot).secOam i
      = if dot % 2 = 0 ∧ i = dot / 2 - 1 then 0xFF#8 else Memory.read p.secOam i := by
  rw [spriteEvalStep_clear p h h']
  by_cases even : dot % 2 = 0
  · simp only [even, if_true, true_and]
    exact writeSecOam_read p (by omega) _ _
  · simp only [even, false_and, if_false]

theorem spriteEvalStep_clear_ev (h : 2 ≤ dot) (h' : dot ≤ 64) : (p.spriteEvalStep dot).ev = p.ev := by
  rw [spriteEvalStep_clear p h h']
  split_ifs
  · exact writeSecOam_ev p _ _
  · rfl

end EvalDots

/-! ### The action of an even dot, by phase (48_ppu_pipeline.md R464) -/

theorem nextSprite_last (n : BitVec 6) : n + 1 = 0 ↔ n = 63#6 := by
  revert n
  decide

theorem nextSprite_eq (e : Evaluator) :
    e.nextSprite = { e with n := e.n + 1, phase := if e.n = 63#6 then .done else e.phase } := by
  unfold Evaluator.nextSprite
  simp only [nextSprite_last]

section Act
variable {p : Ppu}

theorem evalAct_done (phase : p.ev.phase = .done) : p.evalAct = p := by
  simp [Ppu.evalAct, phase]

theorem evalAct_overflow_found (phase : p.ev.phase = .overflow) (range : p.inRange p.ev.latch = true) :
    p.evalAct.ev = { p.ev with phase := .done } := by
  simp [Ppu.evalAct, phase, range]

theorem evalAct_overflow_next (phase : p.ev.phase = .overflow) (range : ¬ p.inRange p.ev.latch = true) :
    p.evalAct.ev = { p.ev with m := p.ev.m + 1, n := p.ev.n + 1, phase := if p.ev.n = 63#6 then .done else .overflow } := by
  simp [Ppu.evalAct, phase, range, nextSprite_eq]

theorem evalAct_overflow_secOam (phase : p.ev.phase = .overflow) : p.evalAct.secOam = p.secOam := by
  simp only [Ppu.evalAct, phase]
  split_ifs <;> rfl

theorem evalAct_copy (phase : p.ev.phase = .copy) :
    p.evalAct = { p.writeSecOam (4 * p.ev.found + p.ev.m.toNat) p.ev.latch with
      ev := p.ev.copyStep (p.inRange p.ev.latch) } := by
  simp [Ppu.evalAct, phase]

/-- The copy stores the byte, as long as fewer than eight sprites are found. -/
theorem evalAct_copy_read (phase : p.ev.phase = .copy) (found : p.ev.found < 8) (i : Nat) :
    Memory.read p.evalAct.secOam i = if i = 4 * p.ev.found + p.ev.m.toNat then p.ev.latch else Memory.read p.secOam i := by
  have byte := p.ev.m.isLt
  rw [evalAct_copy phase]
  exact writeSecOam_read p (by omega) _ _

end Act

section Copy
variable {e : Evaluator}

theorem copyStep_starts (first : e.m = 0) : e.copyStep true = { e with m := 1, zeroNext := e.zeroNext || decide (e.n = 0) } := by
  simp [Evaluator.copyStep, first]

theorem copyStep_skips (first : e.m = 0) (phase : e.phase = .copy) :
    e.copyStep false = { e with n := e.n + 1, phase := if e.n = 63#6 then .done else .copy } := by
  simp [Evaluator.copyStep, first, nextSprite_eq, phase]

theorem copyStep_middle (middle : e.m = 1 ∨ e.m = 2) (range : Bool) : e.copyStep range = { e with m := e.m + 1 } := by
  rcases middle with m | m <;> simp [Evaluator.copyStep, m]

/-- The last byte of a sprite; the eighth sprite starts the overflow search. -/
theorem copyStep_last (last : e.m = 3) (phase : e.phase = .copy) (range : Bool) :
    e.copyStep range = { e with
      m := 0, found := e.found + 1, s := e.found + 1, n := e.n + 1
      phase := if e.n = 63#6 then .done else if e.found = 7 then .overflow else .copy } := by
  simp only [Evaluator.copyStep, Evaluator.copied, nextSprite_eq, last, phase]
  by_cases end_of_oam : e.n = 63#6 <;> simp [end_of_oam]

end Copy

/-- What an even dot of the evaluation does to SOV. -/
theorem dot_sov {s : State} (on : renderingOn s) (visible : visibleLine s) (low : 66 ≤ s.ppu.pos.dot)
    (high : s.ppu.pos.dot ≤ 256) (even : s.ppu.pos.dot % 2 = 0) :
    (ppuDot s).ppu.regs.sov = true
      ↔ s.ppu.regs.sov = true ∨ s.ppu.ev.phase = .overflow ∧ onNextLine s s.ppu.ev.latch := by
  have inside : ¬ (s.ppu.pos.line = -1 ∧ s.ppu.pos.dot = 1) := by omega
  rw [ppuDot_sov_iff, and_iff_right inside, and_iff_right on, and_iff_right visible, and_iff_right low, and_iff_right high,
    and_iff_right even]

/-- Settles O56: the evaluation of each dot on the PPU as the dot finds it (`dot_eval`), even dots by phase. -/
theorem spriteEvaluation : Obligations.SpriteEvaluation := by
  unfold Obligations.SpriteEvaluation
  rintro s on copying dot e f sec sov rfl rfl rfl rfl rfl
  refine ⟨fun other => ?_, fun visible => ?_⟩
  · by_cases h : renderingNow s
    · obtain ⟨ev, secOam⟩ := dot_eval h rfl
      rw [ev, secOam]
      split_ifs with line
      · have idle : ¬ (2 ≤ s.ppu.pos.dot ∧ s.ppu.pos.dot ≤ 256) :=
          fun dots => other ⟨h.2.resolve_left (by omega), dots⟩
        rw [spriteEvalStep_idle _ idle]
        exact ⟨rfl, rfl⟩
      · exact ⟨rfl, rfl⟩
    · have ppu := (dot_outside h).2
      rw [OnlyShown] at ppu
      rw [ppu]
      exact ⟨rfl, rfl⟩
  · obtain ⟨ev, secOam⟩ := dot_eval ⟨on, .inr visible⟩ rfl
    rw [if_pos visible.1] at ev secOam
    rw [ev, secOam]
    refine ⟨fun low high => ⟨spriteEvalStep_clear_ev _ low high, spriteEvalStep_clear_read _ low high⟩, fun first => ?_,
      fun low high odd => ?_, fun low high even => ?_⟩
    · rw [first, spriteEvalStep_restart]
      exact ⟨rfl, rfl⟩
    · rw [spriteEvalStep_read _ low high odd]
      exact ⟨rfl, rfl⟩
    · have flag := dot_sov on visible low high even
      rw [spriteEvalStep_act _ low high even]
      refine ⟨fun phase => ?_, fun phase => ?_, fun phase => ?_⟩
      · rw [evalAct_done phase]
        exact ⟨rfl, rfl, Bool.eq_iff_iff.2 (by simpa [phase] using flag)⟩
      · rw [evalAct_overflow_secOam phase]
        refine ⟨rfl, fun range => ?_, fun range => ?_⟩
        · exact ⟨evalAct_overflow_found phase ((inRange_iff s _).2 range), flag.2 (.inr ⟨phase, range⟩)⟩
        · exact ⟨Bool.eq_iff_iff.2 (flag.trans (or_iff_left fun search => range search.2)),
            evalAct_overflow_next phase (mt (inRange_iff s _).1 range)⟩
      · refine ⟨Bool.eq_iff_iff.2 (by simpa [phase] using flag), evalAct_copy_read phase (copying phase), ?_⟩
        rw [evalAct_copy phase]
        refine ⟨fun first range => ?_, fun first range => ?_, fun middle => copyStep_middle middle _,
          fun last => copyStep_last last phase _⟩
        · rw [(inRange_iff s _).2 range]
          exact copyStep_starts first
        · rw [Bool.eq_false_iff.2 (mt (inRange_iff s _).1 range)]
          exact copyStep_skips first phase

end Sys2Proof.Proofs.RenderingPipeline
end

section
/-! The sprite fetch (48_ppu_pipeline.md R466-R471, R480-R482): the pattern addresses, the sprite output units and the A12
tracker at dots 257-320; O57. -/

namespace Sys2Proof.Proofs.SpriteFetch

open Sys2Proof Sys2Proof.Machine Sys2Proof.Proofs.PpuPipeline Sys2Proof.Proofs.RenderingPipeline

/-! ### The pattern address of a slot (48_ppu_pipeline.md R467, R469) -/

/-- The pattern address on the bus at phase `q` of a slot's fetch, from phase 4 on. -/
def patternAddr (p : Ppu) (i q : Nat) : PpuAddr :=
  if q < 6 then p.spritePatternAddr i else p.spritePatternAddr i + 8#14

theorem add8_toNat {a : PpuAddr} (fits : a.toNat < 0x2000) : (a + 8#14).toNat = a.toNat + 8 := by
  rw [BitVec.toNat_add, BitVec.toNat_ofNat]
  omega

/-- Both pattern bytes of a row lie in one table. -/
theorem patternAddr_table {p : Ppu} {i n : Nat} {table : Bool} (address : (p.spritePatternAddr i).toNat = 0x1000 * table.toNat + n)
    (inside : n + 8 < 0x1000) (q : Nat) : (patternAddr p i q).getLsbD 12 = table := by
  have bit : table.toNat < 2 := Bool.toNat_lt _
  have one : table.toNat = 1 ↔ table = true := Bool.toNat_eq_one
  rw [getLsbD_12, Bool.eq_iff_iff, decide_eq_true_eq, ← one]
  unfold patternAddr
  split_ifs
  · omega
  · rw [add8_toNat (by omega)]
    omega

/-- An empty slot fetches tile $FF. -/
theorem spritePatternAddr_empty {p : Ppu} {i : Nat} (empty : p.fetchCount ≤ i) :
    (p.spritePatternAddr i).toNat
      = 0x1000 * (p.regs.sprH || p.regs.sprTbl).toNat + if p.regs.sprH then 0xFE0 else 0xFF0 := by
  rw [Ppu.spritePatternAddr, if_neg (by omega)]
  cases p.regs.sprH <;> cases p.regs.sprTbl <;> rfl

/-- The row of a sprite that is on the next line. -/
theorem spriteRow_toNat {s : State} {i : Nat} (shown : onNextLine s (secOamByte s i 0)) :
    ((s.ppu.spriteRow i).toNat : Int)
        = (if (secOamByte s i 2).getLsbD 7 then
            (if s.ppu.regs.ctrl.getLsbD 5 then 16 else 8) - 1 - (s.ppu.pos.line - (secOamByte s i 0).toNat)
          else s.ppu.pos.line - (secOamByte s i 0).toNat)
      ∧ (s.ppu.spriteRow i).toNat < if s.ppu.regs.ctrl.getLsbD 5 then 16 else 8 := by
  obtain ⟨first, last⟩ := shown
  have row : s.ppu.spriteRow i = BitVec.ofInt 14 (if (secOamByte s i 2).getLsbD 7 then
      (if s.ppu.regs.ctrl.getLsbD 5 then 16 else 8) - 1 - (s.ppu.pos.line - (secOamByte s i 0).toNat)
    else s.ppu.pos.line - (secOamByte s i 0).toNat) := rfl
  rw [row, BitVec.toNat_ofInt]
  split_ifs at last ⊢ <;> omega

section Occupied
variable {p : Ppu} {i : Nat} (occupied : i < p.fetchCount)

include occupied

/-- Sprites of 8 rows come from the table PPUCTRL names. -/
theorem spritePatternAddr_small (small : p.regs.sprH = false) (row : (p.spriteRow i).toNat < 8) :
    (p.spritePatternAddr i).toNat
      = 0x1000 * bitOf p.regs.ctrl 3 + (16 * (p.secByte i 1).toNat + (p.spriteRow i).toNat) := by
  have tile := (p.secByte i 1).isLt
  have table : bitOf p.regs.ctrl 3 < 2 := Bool.toNat_lt _
  have base : (tableBase p.regs.sprTbl).toNat = 0x1000 * bitOf p.regs.ctrl 3 := tableBase_toNat _
  rw [Ppu.spritePatternAddr, if_pos occupied, small]
  simp only [Bool.false_eq_true, if_false, BitVec.toNat_add, BitVec.toNat_shiftLeft, BitVec.toNat_setWidth, base,
    Nat.shiftLeft_eq]
  omega

/-- Sprites of 16 rows come from the table their tile number names, two tiles of it. -/
theorem spritePatternAddr_big (big : p.regs.sprH = true) (row : (p.spriteRow i).toNat < 16) :
    (p.spritePatternAddr i).toNat
      = 0x1000 * bitOf (p.secByte i 1) 0
        + (16 * ((p.secByte i 1).toNat / 2 * 2 + (p.spriteRow i).toNat / 8) + (p.spriteRow i).toNat % 8) := by
  have tile := (p.secByte i 1).isLt
  have table : bitOf (p.secByte i 1) 0 < 2 := Bool.toNat_lt _
  have base : (tableBase ((p.secByte i 1).getLsbD 0)).toNat = 0x1000 * bitOf (p.secByte i 1) 0 := tableBase_toNat _
  have even : (p.secByte i 1 &&& 0xFE#8).toNat = (p.secByte i 1).toNat / 2 * 2 := by
    generalize p.secByte i 1 = d
    revert d
    decide
  have low : (p.spriteRow i &&& 7#14).toNat = (p.spriteRow i).toNat % 8 := by
    rw [BitVec.toNat_and]
    exact Nat.and_two_pow_sub_one_eq_mod (p.spriteRow i).toNat 3
  rw [Ppu.spritePatternAddr, if_pos occupied, if_pos big]
  simp only [BitVec.toNat_add, BitVec.toNat_shiftLeft, BitVec.toNat_setWidth, BitVec.toNat_ushiftRight, base, even, low,
    Nat.shiftLeft_eq, Nat.shiftRight_eq_div_pow]
  omega

end Occupied

/-! ### A phase of a slot's fetch (48_ppu_pipeline.md R466) -/

theorem fetch_ppu (c : Nat) (a : PpuAddr) (store : Byte → Ppu → Ppu) (v : Video) :
    (v.fetch c a store).ppu = store ((v.drive c a).ppuRead a) { v.ppu with a12 := (v.drive c a).ppu.a12 } :=
  congrArg (store _) (Video.driveA12_only c (a.getLsbD 12) v)

theorem drive_spr (c : Nat) (a : PpuAddr) (v : Video) : (v.drive c a).ppu.spr = v.ppu.spr :=
  (congrArg Ppu.spr (Video.driveA12_only c (a.getLsbD 12) v)).trans rfl

section Load
variable {p : Ppu} {i : Nat} (lo hi : Byte)

theorem loadedSlot_empty (empty : p.fetchCount ≤ i) :
    p.loadedSlot i lo hi = { lo := 0, hi := 0, attr := 0xFF, x := 0xFF } := by
  rw [Ppu.loadedSlot, if_neg (by omega)]
  rfl

theorem loadedSlot_occupied (occupied : i < p.fetchCount) :
    p.loadedSlot i lo hi = {
      lo := if (p.secByte i 2).getLsbD 6 then lo.reverse else lo
      hi := if (p.secByte i 2).getLsbD 6 then hi.reverse else hi
      attr := p.secByte i 2
      x := (p.secByte i 3).toNat } := by
  rw [Ppu.loadedSlot, if_pos occupied]
  rfl

end Load

section Phase
variable (c : Nat) {q : Nat} (i : Nat) (v : Video)

/-- Phases 0-3 read the nametable. -/
theorem spritePhase_drives_low (h : q < 4) : Drives c false v (v.spritePhase c i q) := by
  have low : (ntAddr v.ppu.regs.v).getLsbD 12 = false := bgAddr_low (ph := 0) (by decide) v.ppu
  rw [← low]
  match q, h with
  | 0, _ | 1, _ | 2, _ | 3, _ => exact ⟨rfl, rfl⟩

theorem spritePhase_drives_pattern (h : 4 ≤ q) (h' : q < 8) :
    Drives c ((patternAddr v.ppu i q).getLsbD 12) v (v.spritePhase c i q) := by
  match q, h, h' with
  | 4, _, _ | 5, _, _ | 6, _, _ | 7, _, _ => exact ⟨rfl, rfl⟩

/-- The sprite units with the byte `d` read at phase `q`: the pattern-low byte is kept, the pattern-high byte loads the slot. -/
def fetchedUnits (p : Ppu) (i q : Nat) (d : Byte) : Sprites :=
  { p.spr with
    fetchLo := if q = 5 then d else p.spr.fetchLo
    slots := if q = 7 then p.spr.slots.set i (p.loadedSlot i p.spr.fetchLo d) else p.spr.slots }

theorem spritePhase_spr (h : q < 8) :
    ∃ d : Byte, (v.spritePhase c i q).ppu.spr = fetchedUnits v.ppu i q d
      ∧ (v.cart.kind = .nrom → d = v.ppuRead (patternAddr v.ppu i q)) := by
  refine ⟨(v.drive c (patternAddr v.ppu i q)).ppuRead (patternAddr v.ppu i q), ?_, fun nrom =>
    Video.ppuRead_drive _ _ _ v nrom⟩
  match q, h with
  | 0, _ | 2, _ | 4, _ | 6, _ => exact drive_spr c _ v
  | 1, _ | 3, _ | 5, _ | 7, _ => exact (congrArg Ppu.spr (fetch_ppu c _ _ v)).trans rfl

end Phase

/-! ### The dots of the sprite fetch -/

/-- The PPU side after what dot 257 latches. -/
def spritesStarted (dot : Nat) (v : Video) : Video := if dot = 257 then v.mapPpu .startSprites else v

theorem spriteFetchStep_fetch (c : Nat) {dot : Nat} (h : FetchesSprites dot) (v : Video) :
    v.spriteFetchStep c dot
      = ((spritesStarted dot v).spritePhase c ((dot - 257) / 8) ((dot - 257) % 8)).mapPpu
          (.mapRegs fun r => { r with oamAddr := 0 }) := by
  unfold Video.spriteFetchStep
  rw [if_pos (by simpa using h)]
  rfl

theorem samePins_oamAddr (v : Video) : SamePins v (v.mapPpu (.mapRegs fun r => { r with oamAddr := 0 })) := ⟨rfl, rfl⟩

section Dots
variable {s : State} (h : renderingNow s) (dots : FetchesSprites s.ppu.pos.dot)

include dots

/-- The PPU side as the sprite fetch of a dot finds it: pipeline and v apart, that of the dot's start. -/
theorem beforeSprites_dot {w : Video} (start : w = beforeSprites s.cycle (dotStart s) s.ppu.pos.dot) :
    w.ppu = { s.ppu with bg := w.ppu.bg, regs := { s.ppu.regs with v := w.ppu.regs.v } } ∧ w.cart = s.cart := by
  obtain ⟨first, last⟩ := dots
  have flags : s.ppu.flagEvents s.cfg = s.ppu := by
    have vblank : ¬ s.ppu.pos.atVblankStart s.cfg = true := by
      rw [atVblankStart_iff]
      omega
    unfold Ppu.flagEvents
    rw [if_neg vblank, if_neg (by simp; omega)]
  have pixel : (dotStart s).ppu = { s.ppu with bg := (dotStart s).ppu.bg } := by
    unfold dotStart
    rw [flags]
    exact Ppu.pixelStep_blank fun composes => absurd composes.2.2 (by omega)
  have background : (dotStart s).backgroundStep s.cycle s.ppu.pos.dot = (dotStart s).mapPpu (.scrollDot s.ppu.pos.dot) :=
    backgroundStep_other s.cycle _ (by omega) (by omega)
  have evaluation : w = (dotStart s).backgroundStep s.cycle s.ppu.pos.dot := by
    rw [start]
    unfold beforeSprites
    rw [Video.mapPpu, spriteEvalStep_idle _ (by omega)]
    split_ifs <;> rfl
  rw [evaluation, background, Video.mapPpu_ppu, scrollDot_only, pixel]
  exact ⟨rfl, rfl⟩

/-- The units after dot 257's latches, and all that a phase reads besides them. -/
theorem spritesStarted_dot {w u : Video} (start : w = beforeSprites s.cycle (dotStart s) s.ppu.pos.dot)
    (latched : u = spritesStarted s.ppu.pos.dot w) :
    u.ppu = { s.ppu with
        bg := w.ppu.bg, regs := { s.ppu.regs with v := w.ppu.regs.v }
        spr := { s.ppu.spr with
          count := if s.ppu.pos.dot = 257 then s.ppu.fetchCount else s.ppu.spr.count
          zeroOnLine := if s.ppu.pos.dot = 257 then decide (0 < s.ppu.fetchCount) && s.ppu.ev.zeroNext
            else s.ppu.spr.zeroOnLine } }
      ∧ u.cart = s.cart := by
  obtain ⟨ppu, cart⟩ := beforeSprites_dot dots start
  rw [latched]
  unfold spritesStarted
  split_ifs
  · refine ⟨?_, cart⟩
    rw [Video.mapPpu_ppu, ppu]
    rfl
  · exact ⟨ppu, cart⟩

include h

/-- The sprite output units after such a dot. -/
theorem dot_units {i q : Nat} (slot : i = (s.ppu.pos.dot - 257) / 8) (phase : q = (s.ppu.pos.dot - 257) % 8) :
    ∃ d : Byte, (ppuDot s).ppu.spr = { fetchedUnits s.ppu i q d with
          count := if s.ppu.pos.dot = 257 then s.ppu.fetchCount else s.ppu.spr.count
          zeroOnLine := if s.ppu.pos.dot = 257 then decide (0 < s.ppu.fetchCount) && s.ppu.ev.zeroNext
            else s.ppu.spr.zeroOnLine }
      ∧ (s.cart.kind = .nrom → d = s.video.ppuRead (patternAddr s.ppu i q)) := by
  obtain ⟨ppu, cart⟩ := spritesStarted_dot dots rfl rfl
  obtain ⟨d, spr, byte⟩ := spritePhase_spr s.cycle i
    (spritesStarted s.ppu.pos.dot (beforeSprites s.cycle (dotStart s) s.ppu.pos.dot)) (q := q) (by omega)
  refine ⟨d, ?_, fun nrom => ?_⟩
  · rw [(dot_fetched h rfl).1, fetchStep_eq, spriteFetchStep_fetch s.cycle dots, ← slot, ← phase]
    refine spr.trans ?_
    rw [ppu]
    rfl
  · rw [byte (by rwa [cart])]
    unfold Video.ppuRead
    rw [ppu, cart]
    rfl

/-- Such a dot drives the address of its phase. -/
theorem dot_drives_slot {high : Bool} (drives : ∀ u : Video, u.ppu.spritePatternAddr = s.ppu.spritePatternAddr →
      Drives s.cycle high u (u.spritePhase s.cycle ((s.ppu.pos.dot - 257) / 8) ((s.ppu.pos.dot - 257) % 8))) :
    drivenTo high s (ppuDot s) := by
  obtain ⟨ppu, cart⟩ := spritesStarted_dot dots rfl rfl
  refine drivenTo_of_fetches h ?_
  rw [fetchStep_eq, spriteFetchStep_fetch s.cycle dots]
  refine ((drives _ (by rw [ppu]; rfl)).congr ⟨?_, cart⟩).keep (samePins_oamAddr _)
  rw [ppu, (dotStart_only s).1]

theorem dot_drives_slot_low (low : (s.ppu.pos.dot - 257) % 8 < 4) : drivenTo false s (ppuDot s) :=
  dot_drives_slot h dots fun u _ => spritePhase_drives_low s.cycle _ u low

theorem dot_drives_slot_pattern (pattern : 4 ≤ (s.ppu.pos.dot - 257) % 8) :
    drivenTo ((patternAddr s.ppu ((s.ppu.pos.dot - 257) / 8) ((s.ppu.pos.dot - 257) % 8)).getLsbD 12) s (ppuDot s) := by
  refine dot_drives_slot h dots fun u same => ?_
  have address : patternAddr s.ppu = patternAddr u.ppu := by
    unfold patternAddr
    rw [same]
  rw [address]
  exact spritePhase_drives_pattern s.cycle _ u pattern (Nat.mod_lt _ (by decide))

end Dots

/-! ### OAMADDR (48_ppu_pipeline.md R468) -/

theorem ppuDot_oamAddr (s : State) :
    (ppuDot s).ppu.regs.oamAddr = if renderingNow s ∧ FetchesSprites s.ppu.pos.dot then 0 else s.ppu.regs.oamAddr := by
  obtain ⟨-, -, -, -, oamAddr, -⟩ := Video.dot_effect s.cfg s.cycle s.video
  rw [ppuDot_ppu, oamAddr]
  simp only [State.video_ppu, renderingActive_iff]

/-- Outside the sprite fetch the units count down at the pixels of rendering and stand elsewhere. -/
theorem dot_units_outside {s : State} (outside : ¬ (renderingNow s ∧ FetchesSprites s.ppu.pos.dot)) :
    (ppuDot s).ppu.spr = { s.ppu.spr with
      slots := if renderingOn s ∧ visibleLine s ∧ 1 ≤ s.ppu.pos.dot ∧ s.ppu.pos.dot ≤ 256 then
          s.ppu.spr.slots.map (fun u => { u with x := u.x - 1 })
        else s.ppu.spr.slots } := by
  rw [dot_spr outside]
  split_ifs <;> rfl

/-- The pre-render line has no sprites (48_ppu_pipeline.md R466). -/
theorem fetchCount_eq {s : State} (h : renderingNow s) :
    s.ppu.fetchCount = if s.ppu.pos.line = -1 then 0 else s.ppu.ev.found := by
  have line : 0 ≤ s.ppu.pos.line ↔ ¬ s.ppu.pos.line = -1 := by
    rcases h.2 with prerender | visible <;> omega
  unfold Ppu.fetchCount
  simp only [line, ite_not]

/-- The pattern address of a sprite on the next line, by its row and size; and the table it comes from. -/
theorem occupied_address {s : State} {i : Nat} {big : Bool} {tile : Byte} (hbig : big = s.ppu.regs.ctrl.getLsbD 5)
    (htile : tile = secOamByte s i 1) (occupied : i < s.ppu.fetchCount) (shown : onNextLine s (secOamByte s i 0)) :
    (s.ppu.spritePatternAddr i).toNat
        = (if big then
            0x1000 * bitOf tile 0 + 16 * (tile.toNat / 2 * 2 + (s.ppu.spriteRow i).toNat / 8) + (s.ppu.spriteRow i).toNat % 8
          else 0x1000 * bitOf s.ppu.regs.ctrl 3 + 16 * tile.toNat + (s.ppu.spriteRow i).toNat)
      ∧ (s.ppu.spritePatternAddr i + 8#14).toNat = (s.ppu.spritePatternAddr i).toNat + 8
      ∧ ∀ q, (patternAddr s.ppu i q).getLsbD 12 = if big then tile.getLsbD 0 else s.ppu.regs.ctrl.getLsbD 3 := by
  obtain ⟨-, row⟩ := spriteRow_toNat shown
  have number := tile.isLt
  have byte : s.ppu.secByte i 1 = secOamByte s i 1 := rfl
  subst hbig htile
  cases size : s.ppu.regs.ctrl.getLsbD 5 with
  | true =>
    have table : bitOf (secOamByte s i 1) 0 < 2 := Bool.toNat_lt _
    rw [size, if_pos rfl] at row
    have address := spritePatternAddr_big occupied size row
    rw [byte] at address
    have inside : 16 * ((secOamByte s i 1).toNat / 2 * 2 + (s.ppu.spriteRow i).toNat / 8) + (s.ppu.spriteRow i).toNat % 8 + 8
        < 0x1000 := by omega
    refine ⟨address.trans (Nat.add_assoc _ _ _).symm, add8_toNat ?_, patternAddr_table address inside⟩
    rw [address]
    omega
  | false =>
    have table : bitOf s.ppu.regs.ctrl 3 < 2 := Bool.toNat_lt _
    rw [size, if_neg Bool.false_ne_true] at row
    have address := spritePatternAddr_small occupied size row
    rw [byte] at address
    have inside : 16 * (secOamByte s i 1).toNat + (s.ppu.spriteRow i).toNat + 8 < 0x1000 := by omega
    refine ⟨address.trans (Nat.add_assoc _ _ _).symm, add8_toNat ?_, patternAddr_table address inside⟩
    rw [address]
    omega

/-- Settles O57: the frame of every dot, then the units and the address of each phase of the fetch. -/
theorem spriteFetch : Obligations.SpriteFetch := by
  unfold Obligations.SpriteFetch
  refine ⟨fun s => ⟨dot_keeps s, fun outside => ⟨?_, dot_units_outside outside⟩⟩, ?_⟩
  · rw [ppuDot_oamAddr, if_neg outside]
  · rintro s h first last i q count y tile attr x big t hi hq hcount rfl htile rfl rfl hbig rfl
    have dots : FetchesSprites s.ppu.pos.dot := ⟨first, last⟩
    obtain ⟨d, units, byte⟩ := dot_units h dots hi hq
    rw [← fetchCount_eq h] at hcount
    have low := dot_drives_slot_low h dots
    have pattern := dot_drives_slot_pattern h dots
    rw [← hi, ← hq] at pattern
    rw [← hq] at low
    rw [units, hcount]
    refine ⟨by rw [ppuDot_oamAddr, if_pos ⟨h, dots⟩], fun start => ?_, fun later => ?_, fun other => if_neg other,
      fun other => if_neg other, fun empty loads => ?_, fun occupied shown => ?_, low, fun drives empty => ?_,
      fun drives occupied shown => ?_⟩
    · simp [start]
    · simp [later]
    · exact (if_pos loads).trans (congrArg _ (loadedSlot_empty _ _ empty))
    · obtain ⟨address, high, -⟩ := occupied_address hbig htile occupied shown
      refine ⟨s.ppu.spritePatternAddr i, s.ppu.spritePatternAddr i + 8#14, (s.ppu.spriteRow i).toNat, ?_, address, high,
        fun phase nrom => ?_, fun phase nrom => ?_⟩
      · rw [(spriteRow_toNat shown).1, hbig]
      · subst phase
        exact byte nrom
      · subst phase
        refine congrArg _ ((loadedSlot_occupied _ _ occupied).trans ?_)
        rw [byte nrom]
        rfl
    · have table := patternAddr_table (spritePatternAddr_empty empty) (by split_ifs <;> decide) q
      have driven := pattern drives
      rw [table] at driven
      rwa [hbig]
    · obtain ⟨-, -, table⟩ := occupied_address hbig htile occupied shown
      rw [← table q]
      exact pattern drives

end Sys2Proof.Proofs.SpriteFetch
end
